-- ==== Sys2Proof/Word.lean ====
section
/-! DEFINITION. The words of the NM1240: bytes and wider fields on the lines, and the numbers of the things it keeps. -/

namespace Sys2Proof

/-- One byte on a line or in spool memory. -/
abbrev Byte := BitVec 8

/-- A 16-bit field: frame tags, CRCs, lengths on the line. -/
abbrev Word16 := BitVec 16

/-- A 32-bit field: part time (R15), host labels. -/
abbrev Word32 := BitVec 32

/-- An engine port, 0 to 11 (00_scope.md, Numbering). -/
abbrev PortNo := Fin 12

/-- A job slot, 0 to 127 (R18). -/
abbrev Slot := Fin 128

/-- An account number, 0 to 63 (R154). -/
abbrev AccountNo := Fin 64

/-- A level, 0 (most urgent) to 7 (R58). -/
abbrev Level := Fin 8

/-- A size class number, 0 to 15 (R141). -/
abbrev ClassNo := Fin 16

/-- A price tier number, 0 to 3 (R143). -/
abbrev TierNo := Fin 4

end Sys2Proof
end

