-- ==== Sys2Proof/Syntax.lean ====
section
/-! DEFINITION. The commands of the block: one constructor for each row of spec/opcode_table.json, with the operands the
row's rule gives it. A request's fields are no operands of its row: they stand in the frame that RECEIVED_FRAME put into
the input request queue (R3), and the row is that request's service (R4). See log entries 2 and 3. -/

namespace Sys2Proof

/-- One entry of an engine's tray table as IDENTITY and TRAY carry it (R193): tray number, stock code, LOADED or EMPTY. -/
structure TrayItem where
  number : Byte
  stock : Byte
  loaded : Bool
deriving DecidableEq, Repr, Inhabited

/-- The contents of an IDENTITY message (R193). `classes` is the size-class support set, bit n for class n. -/
structure EngineIdentity where
  colour : Bool
  duplex : Bool
  reject : Bool
  depth : Byte
  classes : Word16
  trays : List TrayItem
deriving DecidableEq, Repr

/-- The reason of a STOP (R195): JAM with its zone, or FAULT with its code. -/
inductive StopReason where
  | jam (zone : Byte)
  | fault (code : Byte)
deriving DecidableEq, Repr

/-- What a STOP says of one sheet (R195). -/
inductive Disposition where
  | finish
  | stranded
deriving DecidableEq, Repr

/-- One item of a STOP's list (R195). -/
structure StopItem where
  tag : Byte
  disposition : Disposition
deriving DecidableEq, Repr

/-- The two sense lines of one port as they stand when a step reads them (R81). -/
abbrev Sense := BitVec 2

/-- The commands. -/
inductive Instr where
  /-- R3: a complete inbound control-link frame that passed the receiver's checks. -/
  | receivedFrame (kind : Byte) (tag : Word16) (body : List Byte)
  /-- R2: bytes arrive on the control link, the last of which ends a frame that the receiver discards. -/
  | frameError (bytes : List Byte)
  /-- R2: more than 50 ms have passed since the last byte of a control-link frame. -/
  | frameGapExpiry
  /-- R4: the oldest request, of a kind that is no request kind, is taken into service. -/
  | unknownRequest
  /-- R7: the outbound line finishes the frame it sends. -/
  | outboundFrameEnd
  | identify
  | status
  | reset
  /-- R13: the reset takes effect; `senses` are the sense lines that a QUICK start's readings find. -/
  | resetTakesEffect (senses : Vector Sense 12)
  /-- R14: the part is powered on; `signals` are the line signals the ports find. -/
  | powerOn (signals : Vector Bool 12)
  | noticeMask
  | levelSet
  | portSet
  /-- R40: a test attempt ends, passed or failed; `senses` are the sense lines the ports find if the test ends here. -/
  | selfTestAttemptEnd (passed : Bool) (senses : Vector Sense 12)
  | jobOpen
  | jobCancel
  | jobSuspend
  | jobResume
  | jobLevel
  | jobQuery
  | jobForget
  | bandPut
  | bandPutWriteComplete
  | bandSum
  /-- R52: the read for BAND_SUM ends, with or without a parity error. -/
  | bandSumReadEnd (parityError : Bool)
  /-- R49: the read at place `index` of the port's reads in progress ends, with or without a parity error. -/
  | spoolReadEnd (port : PortNo) (index : Nat) (parityError : Bool)
  /-- R76: the slice timer of the job assigned to `port` expires. -/
  | sliceExpiry (port : PortNo)
  | sizeSet
  | tierSet
  /-- R81: the line signal returns; `sense` is what the sense lines hold then. -/
  | lineSignalReturns (port : PortNo) (sense : Sense)
  | lineSignalLost (port : PortNo)
  /-- R83, R84: a PROBE frame comes back, with its sequence number and test pattern. -/
  | probeEcho (port : PortNo) (sequence : Byte) (pattern : List Byte)
  | probeTimeout (port : PortNo)
  | portLooptest
  | loopFrameExpiry (port : PortNo)
  | identity (port : PortNo) (contents : EngineIdentity)
  | setupDone (port : PortNo)
  | setupRefused (port : PortNo) (code : Byte)
  | setupTimerExpiry (port : PortNo)
  | tray (port : PortNo) (item : TrayItem)
  | portHold
  | portRelease
  /-- R97: the oldest request, a PORT_RESET, is served; `sense` is what the named port's sense lines hold. -/
  | portReset (sense : Sense)
  | portQuery
  /-- R99: bytes arrive on a press link, the last of which ends a frame that fails its check. -/
  | pressFrameCheckFail (port : PortNo) (bytes : List Byte)
  /-- R193: more than 50 ms have passed since the last byte of a press-link frame. -/
  | pressFrameGapExpiry (port : PortNo)
  /-- R99: bytes arrive on a press link, the last of which ends a frame whose message is ignored. -/
  | pressMessageIgnored (port : PortNo) (bytes : List Byte)
  | gateWaitExpiry (port : PortNo)
  /-- R113: the engine asks for a band; `back` is the side. -/
  | want (port : PortNo) (tag : Byte) (back : Bool) (band : Byte)
  | bandGraceExpiry (port : PortNo)
  | picked (port : PortNo) (tag : Byte)
  | delivered (port : PortNo) (tag : Byte)
  | stop (port : PortNo) (reason : StopReason) (items : List StopItem)
  | cleared (port : PortNo)
  | accountSet
  | accountLimits
  | accountCredit
  | accountClose
  | accountQuery
  | meterPolicy
  | meterRead
  | escalationExpiry (port : PortNo)
  | alertAck
  | alertQuery
  | panelLineSent
  /-- R1: bytes arrive on the control link, the last two of which are the marker pair. -/
  | markerPairSeen (bytes : List Byte)
  /-- R193: bytes arrive on a press link, the last of which is the marker. -/
  | pressMarkerSeen (port : PortNo) (bytes : List Byte)
  /-- R193: the port finishes sending a press-link frame. -/
  | pressFrameSent (port : PortNo)
deriving DecidableEq, Repr

end Sys2Proof
end

