-- ==== Sys2Proof/Decode.lean ====
section
/-! DEFINITION. The decoder of the opcode table's words. No row of spec/opcode_table.json gives bits: the commands of the block
come over its lines, whose frames Machine/Layout.lean reads (log entry 25). -/

namespace Sys2Proof

/-- The command that a word spells by the table's bits: none, for no row has any. -/
def decodeTableWord (_nbits _w : Nat) : Option Instr := none

end Sys2Proof
end

