-- ==== Sys2Proof/Config.lean ====
section
/-! DEFINITION. What the manual leaves open and the model leaves free. -/

namespace Sys2Proof

/-- FREE VALUE. R66, R107 and R167 let events that reach several ports together be taken in any order ("the first port
to take the report"). Where one report reaches `n` ports, `arbiter k n % n` says which of them takes it first; `k` counts
the choices made so far (`State.choices`). No body: nothing can be proved of the order (log entry 1). -/
opaque Config.arbiter : Nat → Nat → Nat

end Sys2Proof
end

