-- ==== Sys2Proof/Machine/State.lean ====
section
/-! DEFINITION. Everything the NM1240 holds, as plain data, and its value after power-on. -/

namespace Sys2Proof.Machine

/-! ## Small types -/

/-- A running timer (R15): the part time it was started at and its length in ms. -/
structure Timer where
  start : Word32
  length : Nat
deriving DecidableEq, Repr

/-- Reply statuses (R5). -/
inductive Status where
  | ok | busy | notReady | noSuch | badState | badField | noRoom | duplicate | frameError
deriving DecidableEq, Repr

/-- Notice kinds, in the order of their kind bytes 90h to 97h (R186). -/
inductive NoticeKind where
  | start | job | bandLost | port | alert | account | meterHigh | stock
deriving DecidableEq, Repr

/-- Start-up states (R39). -/
inductive StartUp where
  | starting | ready | readyDegraded | failed
deriving DecidableEq, Repr

/-- The states of a job record (R25); a FREE slot holds no record. -/
inductive JobState where
  | queued | stockwait | running | paused | held | done | cancelled | failed
deriving DecidableEq, Repr

/-- Port states (R81 to R100). -/
inductive PortState where
  | absent | probing | loopback | identifying | ready | setup | feeding | draining | stopped | lost
deriving DecidableEq, Repr

/-- Engine classes, read from the sense lines (R81). -/
inductive PortClass where
  | sheet | roll
deriving DecidableEq, Repr

/-- Account states (R155); `opened` is OPEN. -/
inductive AccountState where
  | unset | opened | low | held | closed
deriving DecidableEq, Repr

/-- Meter log policies (R165). -/
inductive LogPolicy where
  | keep | wrap | stall
deriving DecidableEq, Repr

/-- Waste causes (R125). -/
inductive WasteCause where
  | underrun | parity | superseded | stranded | unknown
deriving DecidableEq, Repr

/-- States of a sheet in a paper path (R120). -/
inductive SheetState where
  | started | picked | finish
deriving DecidableEq, Repr

/-- Why a sheet was spoiled (R116). -/
inductive SpoilCause where
  | underrun | parity
deriving DecidableEq, Repr

/-- The mark of a sheet (R120). -/
inductive Mark where
  | unmarked | spoiled (cause : SpoilCause) | superseded
deriving DecidableEq, Repr

/-- What a FEEDING port waits on (R101). -/
inductive Wait where
  | none | log | gate | path
deriving DecidableEq, Repr

/-- Why a port stopped feeding (R104). -/
inductive DrainCause where
  | flags | hold | account | endOfJob | noTray | urgent | slice | gateWait | underrun
deriving DecidableEq, Repr

/-- Where a leaving job goes if no earlier case of R26 holds. -/
inductive Destination where
  | head | tail | held
deriving DecidableEq, Repr

/-- Reset kinds (R12). -/
inductive ResetKind where
  | full | quick
deriving DecidableEq, Repr

/-- Where a reset stands (R12): none asked, accepted with its reply not yet sent, or its reply sent whole. -/
inductive ResetPhase where
  | none | pending (kind : ResetKind) | due (kind : ResetKind)
deriving DecidableEq, Repr

/-- One number for each of the four planes (plane 3 is black). -/
structure Planes where
  p0 : Nat
  p1 : Nat
  p2 : Nat
  p3 : Nat
deriving DecidableEq, Repr, Inhabited

/-! ## Lines -/

/-- Where a frame receiver stands (R1, R193). `hunt true`: the byte before was the first control-link marker. The bytes a
frame has brought so far are kept newest first. -/
inductive RxState where
  | hunt (armed : Bool)
  | header (got : List Byte)
  | body (length left : Nat) (got : List Byte)
  | check (length : Nat) (got : List Byte) (crc : List Byte)
deriving DecidableEq, Repr

/-- A frame receiver: its state and the part time of the last byte it took. -/
structure Receiver where
  rx : RxState
  last : Word32
deriving DecidableEq, Repr

/-- A request in the input request queue (R3): kind, tag and body as received. -/
structure Request where
  kind : Byte
  tag : Word16
  body : List Byte
deriving DecidableEq, Repr

/-- A BAND_PUT whose payload write runs (R48). -/
structure BandWrite where
  slot : Slot
  image : Nat
  band : Nat
  counts : Planes
  payload : List Byte
  block : Nat
deriving DecidableEq, Repr

/-- A band read that runs for BAND_SUM (R52). -/
structure SumRead where
  slot : Slot
  image : Nat
  band : Nat
  block : Nat
deriving DecidableEq, Repr

/-- What the request in service waits for: only BAND_PUT and BAND_SUM outlast their service step (R4). -/
inductive Service where
  | write (w : BandWrite)
  | sum (r : SumRead)
deriving DecidableEq, Repr

/-- A reply waiting in the reply list (R5, R6). `ofReset` marks the OK of an accepted RESET (R12). -/
structure Reply where
  tag : Word16
  status : Status
  body : List Byte
  ofReset : Bool
deriving DecidableEq, Repr

/-- A notice waiting in the notice queue (R8), with its part-time stamp. -/
structure Notice where
  kind : NoticeKind
  time : Word32
  body : List Byte
deriving DecidableEq, Repr

/-- A frame on the outbound line (R7). -/
inductive OutFrame where
  | reply (r : Reply)
  | notice (n : Notice)
deriving DecidableEq, Repr

/-- The link interface (chapter 1). `enable` holds bit n for notice kind 90h + n (R186). -/
structure Link where
  receiver : Receiver
  requests : List Request
  service : Option Service
  reset : ResetPhase
  replies : List Reply
  notices : List Notice
  enable : Byte
  overflow : Bool
  outbound : Option OutFrame
deriving DecidableEq, Repr

/-! ## Jobs -/

/-- The five optional fields of a setup record (R20). -/
structure Setup where
  bin : Option Byte
  finishing : Option Byte
  profile : Option Byte
  quality : Option Byte
  offset : Option Byte
deriving DecidableEq, Repr

/-- A job record (the table before R19). `total` is a function of it (Job.total). -/
structure Job where
  label : Word32
  state : JobState
  account : AccountNo
  level : Level
  sizeClass : ClassNo
  sides : Nat
  sheets : Nat
  copies : Nat
  stock : Byte
  colour : Bool
  onSheet : Bool
  onRoll : Bool
  pinned : Option PortNo
  barred : Option PortNo
  lead : Nat
  forcedWhole : Bool
  setup : Setup
  refusedBy : Vector Bool 12
  cancel : Bool
  suspend : Bool
  slice : Bool
  next : Nat
  good : Nat
  waste : Nat
  underruns : Nat
  charge : Nat
  pressTime : Nat
  lastPort : Option PortNo
  lostOrdinal : Option Nat
  lossCount : Nat
deriving DecidableEq, Repr

/-! ## Spool -/

/-- An entry of the band map (R46); "none" is the absence of an entry. -/
inductive BandEntry where
  | present (block : Nat) (length : Nat) (counts : Planes)
  | lost
deriving DecidableEq, Repr

/-- An image record (R45), with the image's part of the band map: entries by band index, indexes strictly rising. -/
structure ImageRec where
  present : Nat
  lost : Nat
  sums : Planes
  released : Bool
  bands : List (Nat × BandEntry)
deriving DecidableEq, Repr

/-- The spool manager (chapter 3). `pool` and `images` are the free block pool (ascending) and, for each slot, the image
records of its job in image order. `testBlock` and `testFails` say where the self-test stands. `dram` is the store: byte
`offset` of block b is at address b × 16,384 + offset; see `Memory.blank` for what an unlisted address reads as. -/
structure Spool where
  startUp : StartUp
  testBlock : Nat
  testFails : Nat
  pool : List Nat
  retired : List Nat
  images : Vector (List ImageRec) 128
  dram : List Host.Cell
deriving DecidableEq, Repr

/-! ## Dispatch -/

/-- An assignment record (chapter 4): the job, the part time the assignment began, the slice timer. -/
structure Assignment where
  slot : Slot
  since : Word32
  slice : Option Timer
deriving DecidableEq, Repr

/-- The dispatcher: ready queue, stock wait list, level table, assignment records. -/
structure Dispatcher where
  ready : Vector (List Slot) 8
  stockWait : List Slot
  slices : Vector Nat 8
  assignments : Vector (Option Assignment) 12
deriving DecidableEq, Repr

/-! ## Ports -/

/-- What IDENTITY declared (R86). -/
structure Capabilities where
  colour : Bool
  duplex : Bool
  depth : Nat
  classes : Word16
  reject : Bool
deriving DecidableEq, Repr

/-- A sheet in a paper-path queue (R120). -/
structure Sheet where
  tag : Byte
  ordinal : Nat
  state : SheetState
  mark : Mark
deriving DecidableEq, Repr

/-- The band request in waiting (R101, R114) with its grace timer. -/
structure BandRequest where
  tag : Byte
  back : Bool
  band : Nat
  timer : Timer
deriving DecidableEq, Repr

/-- A band read begun for the port's engine and not yet ended (R101). `live` is cleared when its sheet leaves the queue
(R129), so that a later sheet with the same tag is not taken for it; `gone` is set when its job's entries are removed whole
(R55, a reset of the part), so that a later job in the slot is not taken for it (R49; log entry 12). -/
structure BandRead where
  tag : Byte
  back : Bool
  band : Nat
  slot : Slot
  image : Nat
  block : Nat
  live : Bool
  gone : Bool
deriving DecidableEq, Repr

/-- A running loop test (R84): frames asked for, the frame awaited, frames returned intact, the frame's timer. -/
structure LoopTest where
  count : Nat
  awaited : Nat
  returned : Nat
  timer : Timer
deriving DecidableEq, Repr

/-- The eight counters (R98). -/
structure Counters where
  sheetsStarted : Nat
  good : Nat
  waste : Nat
  withdrawn : Nat
  fills : Nat
  stops : Nat
  linkLosses : Nat
  framesDiscarded : Nat
deriving DecidableEq, Repr

/-- Messages from the port to its engine (the press-link table of chapter 5). -/
inductive PressOut where
  | probe (sequence : Byte)
  | hello
  | setup (fields : Setup)
  | sheet (tag : Byte) (ordinal : Word16) (cls : ClassNo) (tray : Byte) (sides : Nat)
  | band (tag : Byte) (back : Bool) (index : Nat) (payload : List Byte)
  | fill (tag : Byte) (back : Bool) (index : Nat)
  | divert (tag : Byte)
deriving DecidableEq, Repr

/-- A port record (the tables before R80 and in R101), its receiver and its outbound side (R193). The assigned job is the
slot of the dispatcher's assignment record, held there once. -/
structure Port where
  state : PortState
  signal : Bool
  cls : Option PortClass
  held : Bool
  caps : Option Capabilities
  trays : List TrayItem
  owner : Option Slot
  path : List Sheet
  nextTag : Byte
  setupTimer : Option Timer
  probeTimer : Option Timer
  loop : Option LoopTest
  refusal : Option (Slot × Byte)
  underruns : Nat
  counters : Counters
  grace : Nat
  gateWait : Nat
  interval : Nat
  stateTime : Word32
  wait : Wait
  gateTimer : Option Timer
  drain : Option DrainCause
  destination : Option Destination
  request : Option BandRequest
  reads : List BandRead
  receiver : Receiver
  sending : Option PressOut
  outQueue : List PressOut
deriving DecidableEq, Repr

/-! ## Meter unit -/

/-- A set entry of the size-class table (R141). -/
structure SizeClass where
  factor : Nat
  shift : Nat
  weight : Nat
  bands : Nat
deriving DecidableEq, Repr

/-- A set entry of the price-tier table (R143). -/
structure Tier where
  base : Nat
  rates : Planes
  allowance : Nat
deriving DecidableEq, Repr

/-- An account record (R154). -/
structure Account where
  state : AccountState
  tier : Option TierNo
  balance : Int
  low : Int
  floor : Int
  charged : Nat
  goodSheets : Nat
  wasteSheets : Nat
  pressTime : Nat
deriving DecidableEq, Repr

/-- A meter log record (R165); `waste` is absent in a GOOD record. -/
structure MeterRecord where
  waste : Option WasteCause
  slot : Slot
  label : Word32
  account : AccountNo
  ordinal : Nat
  port : PortNo
  sides : Nat
  coverage : Planes
  charge : Nat
  time : Word32
deriving DecidableEq, Repr

/-- The meter unit (chapters 8 and 9). -/
structure Meter where
  sizes : Vector (Option SizeClass) 16
  tiers : Vector (Option Tier) 4
  accounts : Vector Account 64
  log : List MeterRecord
  policy : LogPolicy
  reservations : Nat
  dropped : Nat
  highMark : Bool
deriving DecidableEq, Repr

/-! ## Alerts -/

/-- A cause set (R171): JAM carries its zone, ENGINE_FAULT its code. -/
structure CauseSet where
  linkLost : Bool
  fault : Option Byte
  jam : Option Byte
  underrun : Bool
  setupTimeout : Bool
  trayEmpty : Bool
deriving DecidableEq, Repr

/-- An alert record (R171). The displayed cause is a function of the cause set (CauseSet.displayed). -/
structure Alert where
  causes : CauseSet
  level : Option Nat
  acknowledged : Bool
  timer : Option Timer
  raised : Option Word32
deriving DecidableEq, Repr

/-- The panel queue and the panel driver (R182, R183): lines by port, with their text and line feed. -/
structure Panel where
  queue : List (PortNo × List Char)
  sending : Option (PortNo × List Char)
deriving DecidableEq, Repr

/-! ## The model's own work list -/

/-- What a step still has to bring about before it ends: the decisions and placements that chapters 4 to 9 make follow
from an event. The list is the model's own; it is empty between steps (log entry 4). -/
inductive Task where
  /-- R102: the port runs its sheet-boundary decision. -/
  | decide (p : PortNo)
  /-- R105: these ports run their decisions, in an order that `Config.arbiter` gives. -/
  | decideEach (ps : List PortNo)
  /-- R129: the port acts on what left its queue. -/
  | afterRemoval (p : PortNo)
  /-- R26, R78: the port reports that its job has left. -/
  | leave (p : PortNo) (d : Destination)
  /-- R111: the port's job has left; it returns to READY. -/
  | backToReady (p : PortNo)
  /-- R133: the job of a STOPPED port has left. -/
  | leftStopped (p : PortNo)
  /-- R69: the choice of port. -/
  | choosePort (slot : Slot)
  /-- R74: the signal to feeding ports. -/
  | signalPorts (slot : Slot)
  /-- R68: the choice of job. -/
  | chooseJob (p : PortNo)
  /-- R62: a stock is loaded on a counting port. -/
  | stockLoaded (stock : Byte)
  /-- R62: one job is released from the stock wait list. -/
  | releaseStocked (slot : Slot)
  /-- R164: one HELD job is released. -/
  | releaseHeld (slot : Slot)
  /-- R167: room has opened in the meter log, or the policy has left STALL. -/
  | roomReport
  /-- R93: the setup has timed out and its job has left. -/
  | setupTimedOut (p : PortNo)
  /-- R82: the port is LOST and its job has left. -/
  | lostSettled (p : PortNo)
  /-- R136: the queue of a cleared port is settled and its job has left. -/
  | clearedSettled (p : PortNo)
  /-- R97: steps 3 to 5 of a PORT_RESET. -/
  | portResetRest (p : PortNo) (sense : Sense)
deriving DecidableEq, Repr

/-! ## The state -/

/-- The whole machine. `choices` (the choices taken from `Config.arbiter`), `agenda` (the rest of the step being taken) and
`pending` (the commands waiting, first in first out) are the model's own; all else is the manual's. -/
structure State where
  link : Link
  partTime : Word32
  jobs : Vector (Option Job) 128
  spool : Spool
  dispatch : Dispatcher
  ports : Vector Port 12
  meter : Meter
  alerts : Vector Alert 12
  panel : Panel
  choices : Nat
  agenda : List Task
  pending : List Instr
deriving DecidableEq, Repr

/-- Why a step can stop with a fault. -/
inductive Fault where
  /-- An address outside the 512 MiB of spool DRAM. Raised by `Memory.fetch` alone, which no command's meaning calls with
  such an address: every command of the NM1240 has an effect (log entry 5). Safe. -/
  | noSuchAddress (address : Nat)
deriving DecidableEq, Repr

/-- Why a step can be refused. -/
inductive Refusal where
  /-- Kept for `exec`'s arms without a meaning; there is none. Safe. -/
  | notModelled (mnemonic : String)
deriving DecidableEq, Repr

/-! ## Reset values -/

/-- No setup field present. -/
def Setup.none : Setup :=
  { bin := .none, finishing := .none, profile := .none, quality := .none, offset := .none }

/-- The receiver hunting for a marker (R1, R193). -/
def Receiver.hunting : Receiver := { rx := .hunt false, last := 0 }

/-- The link interface after power-on and after each reset of the part (R1, R3, R6, R7, R8, R9, R13). -/
def Link.afterReset : Link :=
  { receiver := .hunting, requests := [], service := .none, reset := .none, replies := [], notices := [],
    enable := 0xFF, overflow := false, outbound := .none }

/-- The spool manager at power-on (R39, R40, R43, R44, R46). What the DRAM holds then: log entry 6. -/
def Spool.afterPowerOn : Spool :=
  { startUp := .starting, testBlock := 0, testFails := 0, pool := [], retired := [],
    images := Vector.replicate 128 [], dram := [] }

/-- The dispatcher after each reset (R16, R58, R60, R75). -/
def Dispatcher.afterReset : Dispatcher :=
  { ready := Vector.replicate 8 [], stockWait := [], slices := Vector.replicate 8 0,
    assignments := Vector.replicate 12 .none }

/-- Counters at zero (R98). -/
def Counters.zero : Counters :=
  { sheetsStarted := 0, good := 0, waste := 0, withdrawn := 0, fills := 0, stops := 0, linkLosses := 0,
    framesDiscarded := 0 }

/-- A port after a reset of the part, before it reads its sense lines (the table before R80, R17, R81, R101). The line
signal is as sensed: see log entry 7 for its value in `State.reset`. -/
def Port.afterReset : Port :=
  { state := .absent, signal := false, cls := .none, held := false, caps := .none, trays := [], owner := .none,
    path := [], nextTag := 0, setupTimer := .none, probeTimer := .none, loop := .none, refusal := .none, underruns := 0,
    counters := .zero, grace := 40, gateWait := 10000, interval := 60, stateTime := 0, wait := .none,
    gateTimer := .none, drain := .none, destination := .none, request := .none, reads := [], receiver := .hunting,
    sending := .none, outQueue := [] }

/-- An account after each reset (R154). -/
def Account.unset : Account :=
  { state := .unset, tier := .none, balance := 0, low := 0, floor := 0, charged := 0, goodSheets := 0,
    wasteSheets := 0, pressTime := 0 }

/-- The meter unit after each reset (R141, R143, R154, R165). -/
def Meter.afterReset : Meter :=
  { sizes := Vector.replicate 16 .none, tiers := Vector.replicate 4 .none, accounts := Vector.replicate 64 .unset,
    log := [], policy := .stall, reservations := 0, dropped := 0, highMark := false }

/-- The empty cause set. -/
def CauseSet.empty : CauseSet :=
  { linkLost := false, fault := .none, jam := .none, underrun := false, setupTimeout := false, trayEmpty := false }

/-- A closed alert (R171). -/
def Alert.closed : Alert :=
  { causes := .empty, level := .none, acknowledged := false, timer := .none, raised := .none }

/-- The machine after power-on (R14): the state of a RESET FULL taking effect, part time 0, the self-test begun. -/
def State.reset : State :=
  { link := .afterReset, partTime := 0, jobs := Vector.replicate 128 .none, spool := .afterPowerOn,
    dispatch := .afterReset, ports := Vector.replicate 12 .afterReset, meter := .afterReset,
    alerts := Vector.replicate 12 .closed, panel := { queue := [], sending := .none }, choices := 0, agenda := [],
    pending := [] }

end Sys2Proof.Machine
end

