-- ==== Sys2Proof/Machine/Access.lean ====
section
/-! DEFINITION. Reading and writing the records of the state: one home each, one accessor each. -/

namespace Sys2Proof.Machine

/-! ## Reading -/

/-- The record of a port. -/
def State.port (s : State) (p : PortNo) : Port := s.ports[p]

/-- The job record in a slot; none while the slot is FREE. -/
def State.job (s : State) (j : Slot) : Option Job := s.jobs[j]

/-- The record of an account. -/
def State.account (s : State) (a : AccountNo) : Account := s.meter.accounts[a]

/-- The alert record of a port. -/
def State.alert (s : State) (p : PortNo) : Alert := s.alerts[p]

/-- The assignment record of a port (chapter 4). -/
def State.assignment (s : State) (p : PortNo) : Option Assignment := s.dispatch.assignments[p]

/-- The assigned job of a port: the slot of its assignment record. -/
def State.assigned (s : State) (p : PortNo) : Option Slot := (s.assignment p).map (·.slot)

/-- The record of the job assigned to a port. -/
def State.assignedJob (s : State) (p : PortNo) : Option Job := (s.assigned p).bind s.job

/-- The image records of a slot's job (R45). -/
def State.imagesOf (s : State) (j : Slot) : List ImageRec := s.spool.images[j]

/-- One list of the ready queue (R58). -/
def State.readyAt (s : State) (l : Level) : List Slot := s.dispatch.ready[l]

/-- All ports, in ascending order. -/
def allPorts : List PortNo := List.finRange 12

/-- All job slots, in ascending order. -/
def allSlots : List Slot := List.finRange 128

/-- The port a job is assigned to. -/
def State.portRunning (s : State) (j : Slot) : Option PortNo :=
  allPorts.find? (fun p => s.assigned p = some j)

/-! ## Writing -/

/-- A port's record replaced. -/
def State.setPort (s : State) (p : PortNo) (x : Port) : State := { s with ports := s.ports.set p x }

/-- A port's record changed. -/
def State.modPort (s : State) (p : PortNo) (f : Port → Port) : State := s.setPort p (f (s.port p))

/-- A slot's record replaced; none makes the slot FREE. -/
def State.setJob (s : State) (j : Slot) (x : Option Job) : State := { s with jobs := s.jobs.set j x }

/-- A job's record changed; a FREE slot stays FREE. -/
def State.modJob (s : State) (j : Slot) (f : Job → Job) : State := s.setJob j ((s.job j).map f)

/-- An account's record replaced. -/
def State.setAccount (s : State) (a : AccountNo) (x : Account) : State :=
  { s with meter := { s.meter with accounts := s.meter.accounts.set a x } }

/-- An account's record changed. -/
def State.modAccount (s : State) (a : AccountNo) (f : Account → Account) : State := s.setAccount a (f (s.account a))

/-- A port's alert record replaced. -/
def State.setAlert (s : State) (p : PortNo) (x : Alert) : State := { s with alerts := s.alerts.set p x }

/-- A port's assignment record replaced. -/
def State.setAssignment (s : State) (p : PortNo) (x : Option Assignment) : State :=
  { s with dispatch := { s.dispatch with assignments := s.dispatch.assignments.set p x } }

/-- A slot's image records replaced. -/
def State.setImages (s : State) (j : Slot) (x : List ImageRec) : State :=
  { s with spool := { s.spool with images := s.spool.images.set j x } }

/-- The dispatcher's lists replaced. -/
def State.setLists (s : State) (ready : Vector (List Slot) 8) (stockWait : List Slot) : State :=
  { s with dispatch := { s.dispatch with ready := ready, stockWait := stockWait } }

/-- The link interface changed. -/
def State.modLink (s : State) (f : Link → Link) : State := { s with link := f s.link }

/-- A task put at the end of what the step still has to bring about (log entry 4). -/
def State.post (s : State) (t : Task) : State := { s with agenda := s.agenda ++ [t] }

end Sys2Proof.Machine
end

