-- ==== Sys2Proof/Machine/Charge.lean ====
section
/-! DEFINITION. The charge of a sheet: the five stages of chapter 8. -/

namespace Sys2Proof.Machine

/-- Plane-by-plane combination. -/
def Planes.zipWith (f : Nat → Nat → Nat) (a b : Planes) : Planes :=
  { p0 := f a.p0 b.p0, p1 := f a.p1 b.p1, p2 := f a.p2 b.p2, p3 := f a.p3 b.p3 }

/-- Plane-by-plane application. -/
def Planes.map (f : Nat → Nat) (a : Planes) : Planes := { p0 := f a.p0, p1 := f a.p1, p2 := f a.p2, p3 := f a.p3 }

/-- Sum plane by plane. -/
def Planes.add (a b : Planes) : Planes := a.zipWith (· + ·) b

/-- Difference plane by plane. -/
def Planes.sub (a b : Planes) : Planes := a.zipWith (· - ·) b

/-- Zero on every plane. -/
def Planes.zero : Planes := { p0 := 0, p1 := 0, p2 := 0, p3 := 0 }

/-- The sum over the four planes. -/
def Planes.total (a : Planes) : Nat := a.p0 + a.p1 + a.p2 + a.p3

/-- The planes as a list, plane 0 first. -/
def Planes.toList (a : Planes) : List Nat := [a.p0, a.p1, a.p2, a.p3]

/-- Stage 1 (R146): coverage of a plane from its plane sum, rounded half up and clamped to 1024 cu. -/
def coverage (c : SizeClass) (sum : Nat) : Nat :=
  min ((sum * c.factor + 2 ^ (c.shift - 1)) / 2 ^ c.shift) 1024

/-- Stage 2 (R147): billable coverage, saturating at 0. -/
def billable (t : Tier) (cov : Nat) : Nat := cov - t.allowance

/-- Stage 3 (R148): the plane charge, rounded half up. -/
def planeCharge (bill rate : Nat) : Nat := (bill * rate + 512) / 1024

/-- Stage 4 (R149): the raw side charge. -/
def rawCharge (t : Tier) (charges : Planes) : Nat := t.base + charges.total

/-- Stage 5 (R150): the side charge, scaled by the area weight and rounded half up. -/
def scaleCharge (c : SizeClass) (raw : Nat) : Nat := (raw * c.weight + 8) / 16

/-- Coverage of the four planes of a side. -/
def sideCoverage (c : SizeClass) (sums : Planes) : Planes := sums.map (coverage c)

/-- The charge of one side from its plane sums (R146 to R150). -/
def sideCharge (c : SizeClass) (t : Tier) (sums : Planes) : Nat :=
  scaleCharge c (rawCharge t (((sideCoverage c sums).map (billable t)).zipWith planeCharge t.rates))

/-- The sheet charge (R151): the sum over the sides, front first. -/
def sheetCharge (c : SizeClass) (t : Tier) (sides : List Planes) : Nat :=
  (sides.map (sideCharge c t)).sum

/-- The four coverage figures of a sheet (R151): stage-1 coverage summed over the sides. -/
def sheetCoverage (c : SizeClass) (sides : List Planes) : Planes :=
  (sides.map (sideCoverage c)).foldl Planes.add Planes.zero

/-! ## Money and saturation -/

/-- Saturation at both ends of the signed 32-bit range (R158, R161). -/
def saturate32 (v : Int) : Int := max (-2147483648) (min v 2147483647)

/-- A counter raised by an amount, to no more than its maximum. -/
def raiseTo (maximum v amount : Nat) : Nat := min (v + amount) maximum

/-- The maximum of a four-byte counter. -/
def max32 : Nat := 4294967295

/-- The maximum of an eight-byte counter. -/
def max64 : Nat := 18446744073709551615

end Sys2Proof.Machine
end

