-- ==== Sys2Proof/Machine/Memory.lean ====
section
/-! DEFINITION. The spool DRAM (chapter 3): 32,768 blocks of 16,384 bytes, held as (address, byte) pairs in one canonical
form, and the band map's entries of one image, held the same way by band index. -/

namespace Sys2Proof.Machine

/-- What an unlisted address reads as: the pattern of self-test attempts 1 and 3, the low 8 bits of the offset in the block
(R40). Log entry 6 says what this chooses for memory that no attempt has written yet. -/
def Memory.blank (address : Nat) : Byte := BitVec.ofNat 8 address

/-- The size of the DRAM in bytes. -/
def Memory.size : Nat := 536870912

/-- The address of a block's first byte. -/
def blockAddress (block : Nat) : Nat := block * 16384

/-- The canonical form: addresses strictly rising, below the size of the DRAM, and no entry equal to what an unlisted
address reads as. -/
abbrev Memory.wf (m : List Host.Cell) : Prop :=
  m.Pairwise (fun a b => a.1 < b.1) ∧ ∀ c ∈ m, c.1 < Memory.size ∧ c.2 ≠ Memory.blank c.1

/-- One byte of the DRAM. -/
def Memory.read (m : List Host.Cell) (address : Nat) : Byte :=
  match m.find? (fun c => c.1 = address) with
  | some c => c.2
  | none => Memory.blank address

/-- One byte of the DRAM; an address that does not exist faults. -/
def Memory.fetch (m : List Host.Cell) (address : Nat) : Except Fault Byte :=
  if address < Memory.size then .ok (Memory.read m address) else .error (.noSuchAddress address)

/-- The entries that bytes written from an address on leave: those that an unlisted address would read as are none. -/
def Memory.cells : Nat → List Byte → List Host.Cell
  | _, [] => []
  | address, b :: bs =>
    if b = Memory.blank address then Memory.cells (address + 1) bs
    else (address, b) :: Memory.cells (address + 1) bs

/-- The DRAM after bytes are written from an address on. Bytes beyond its end are not written. -/
def Memory.write (m : List Host.Cell) (address : Nat) (bytes : List Byte) : List Host.Cell :=
  let kept := bytes.take (Memory.size - address)
  m.filter (fun c => c.1 < address) ++ Memory.cells address kept
    ++ m.filter (fun c => address + kept.length ≤ c.1)

/-- `n` bytes of the DRAM from an address on. -/
def Memory.load (m : List Host.Cell) (address n : Nat) : List Byte :=
  (List.range n).map (fun i => Memory.read m (address + i))

/-- The pattern that self-test attempt 1, 2, 3 or 4 (`fails` = 0 to 3) writes over a block (R40). -/
def testPattern (fails : Nat) : List Byte :=
  (List.range 16384).map fun i =>
    if fails % 2 = 0 then BitVec.ofNat 8 i else ~~~ (BitVec.ofNat 8 i)

/-! ## Band entries of one image -/

/-- The entry for a band index (R46). -/
def Bands.find (bands : List (Nat × BandEntry)) (index : Nat) : Option BandEntry :=
  (bands.find? (fun e => e.1 = index)).map (·.2)

/-- The entries with one of them set (R46). -/
def Bands.put (bands : List (Nat × BandEntry)) (index : Nat) (entry : BandEntry) : List (Nat × BandEntry) :=
  bands.filter (fun e => e.1 < index) ++ (index, entry) :: bands.filter (fun e => index < e.1)

/-- The blocks that present entries name (R46). -/
def Bands.blocks (bands : List (Nat × BandEntry)) : List Nat :=
  bands.filterMap fun e =>
    match e.2 with
    | .present block _ _ => some block
    | .lost => none

/-! ## Sets of blocks -/

/-- A set of blocks, in ascending order, with one more (R43). -/
def Blocks.add (pool : List Nat) (block : Nat) : List Nat :=
  pool.filter (fun b => b < block) ++ block :: pool.filter (fun b => block < b)

/-- A set of blocks with several more. -/
def Blocks.addAll (pool : List Nat) (blocks : List Nat) : List Nat := blocks.foldl Blocks.add pool

/-- A set of blocks without one of them. -/
def Blocks.remove (pool : List Nat) (block : Nat) : List Nat := pool.filter (fun b => b ≠ block)

end Sys2Proof.Machine
end

