-- ==== Sys2Proof/Machine/Flags.lean ====
section
/-! DEFINITION. The judgements and flags that the rules compute from the state without changing it. -/

namespace Sys2Proof.Machine

/-! ## Timers (R15) -/

/-- The time since `start`, modulo 2^32 (R15). -/
def elapsed (now start : Word32) : Nat := (now - start).toNat

/-- A timer's length has elapsed. -/
def Timer.due (t : Timer) (now : Word32) : Bool := t.length ≤ elapsed now t.start

/-- The part time at which a timer expires (R15, R171). -/
def Timer.expiry (t : Timer) : Word32 := t.start + BitVec.ofNat 32 t.length

/-- A counting timer has expired; a stopped one has not. -/
def timerDue (t : Option Timer) (now : Word32) : Bool :=
  match t with
  | some x => x.due now
  | none => false

/-! ## Jobs -/

/-- Total sheets of a job (R19). -/
def Job.total (j : Job) : Nat := j.sheets * j.copies

/-- The number of images of a job (R21). -/
def Job.images (j : Job) : Nat := j.sheets * j.sides

/-- DONE, CANCELLED and FAILED (R35). -/
def JobState.terminal : JobState → Bool
  | .done | .cancelled | .failed => true
  | _ => false

/-- A failing job: loss count 5 (R37). -/
def Job.failing (j : Job) : Bool := j.lossCount = 5

/-- The images an ordinal uses: its front, and its back in a two-sided job (R21). -/
def Job.imagesOfOrdinal (j : Job) (o : Nat) : List Nat :=
  let front := (o % j.sheets) * j.sides
  if j.sides = 2 then [front, front + 1] else [front]

/-- The image of one side of an ordinal (R21). -/
def Job.imageOfSide (j : Job) (o : Nat) (back : Bool) : Nat := (o % j.sheets) * j.sides + (if back then 1 else 0)

/-- The slot holds a job that is not terminal. -/
def State.live (s : State) (j : Slot) : Bool :=
  match s.job j with
  | some x => !x.state.terminal
  | none => false

/-- The state of a slot's job is the one given. -/
def State.jobIs (s : State) (j : Slot) (st : JobState) : Bool :=
  match s.job j with
  | some x => x.state = st
  | none => false

/-- The number of slots whose jobs are in a state (R11). -/
def State.jobsIn (s : State) (st : JobState) : Nat := (allSlots.filter (fun j => s.jobIs j st)).length

/-- The number of an account's jobs in a state (R160). -/
def State.jobsOf (s : State) (a : AccountNo) (st : JobState) : Nat :=
  (allSlots.filter (fun j =>
    match s.job j with
    | some x => x.account = a && x.state = st
    | none => false)).length

/-- The level field of a slot's job; a FREE slot counts as least urgent. -/
def State.levelOf (s : State) (j : Slot) : Nat :=
  match s.job j with
  | some x => x.level.val
  | none => 7

/-! ## Spool -/

/-- Bands per side of a size class; none in an unset one (R141). -/
def State.bandsPerSide (s : State) (c : ClassNo) : Nat :=
  match s.meter.sizes[c] with
  | some x => x.bands
  | none => 0

/-- The image record of a slot's job (R45). -/
def State.image (s : State) (j : Slot) (image : Nat) : Option ImageRec := (s.imagesOf j)[image]?

/-- The band map's entry for a key (R46). -/
def State.band (s : State) (j : Slot) (image index : Nat) : Option BandEntry :=
  match s.image j image with
  | some r => Bands.find r.bands index
  | none => none

/-- The band is in the spool. -/
def State.bandPresent (s : State) (j : Slot) (image index : Nat) : Bool :=
  match s.band j image index with
  | some (.present _ _ _) => true
  | _ => false

/-- Blocks that present entries of a slot's job name. -/
def imageBlocks (images : List ImageRec) : List Nat := images.flatMap (fun r => Bands.blocks r.bands)

/-- The number of blocks holding present bands (R11, R43). -/
def State.usedBlocks (s : State) : Nat := (allSlots.map (fun j => (imageBlocks (s.imagesOf j)).length)).sum

/-- The band count of a job's gates (R56). -/
def State.gateBands (s : State) (x : Job) : Nat :=
  let whole := s.bandsPerSide x.sizeClass
  if x.forcedWhole || x.lead = 0 then whole else min x.lead whole

/-- The gate of an ordinal of a slot's job is met (R56). -/
def State.gateMet (s : State) (j : Slot) (o : Nat) : Bool :=
  match s.job j with
  | some x =>
    o < x.total && (x.imagesOfOrdinal o).all (fun i => (List.range (s.gateBands x)).all (fun b => s.bandPresent j i b))
  | none => false

/-- The start-up state that a number of retired blocks gives (R41). -/
def startUpOf (retired : Nat) : StartUp :=
  if retired = 0 then .ready else if retired ≤ 4096 then .readyDegraded else .failed

/-! ## Accounts -/

/-- The state the account watch sets from the balance (R162). -/
def watchState (balance low floor : Int) : AccountState :=
  if balance < floor then .held else if balance < low then .low else .opened

/-- OPEN or LOW: the account's jobs may be eligible (R155). -/
def AccountState.good : AccountState → Bool
  | .opened | .low => true
  | _ => false

/-- HELD or CLOSED: the account's running jobs stop at the next boundary (R155). -/
def AccountState.stops : AccountState → Bool
  | .held | .closed => true
  | _ => false

/-- A change the ACCOUNT notice reports: one that enters or leaves LOW or HELD (R162). -/
def accountNoticed (before after : AccountState) : Bool :=
  before ≠ after && (before = .low || before = .held || after = .low || after = .held)

/-! ## Ports and stock -/

/-- The counting states (R59). -/
def PortState.counting : PortState → Bool
  | .identifying | .ready | .setup | .feeding | .draining | .stopped => true
  | _ => false

/-- The states in which the port has sheets to follow: FEEDING, DRAINING, STOPPED. -/
def PortState.follows : PortState → Bool
  | .feeding | .draining | .stopped => true
  | _ => false

/-- The states in which TRAY is taken (R88). -/
def PortState.takesTray : PortState → Bool
  | .ready | .setup | .feeding | .draining | .stopped => true
  | _ => false

/-- A tray table holds a tray LOADED with a stock. -/
def loadedWith (trays : List TrayItem) (stock : Byte) : Bool := trays.any (fun t => t.loaded && t.stock = stock)

/-- The stock codes LOADED in a tray table, each once, in table order. -/
def loadedStocks (trays : List TrayItem) : List Byte :=
  ((trays.filter (fun t => t.loaded)).map (fun t => t.stock)).eraseDups

/-- A stock code is present: LOADED at a port in a counting state (R59). -/
def State.stockPresent (s : State) (stock : Byte) : Bool :=
  allPorts.any (fun p => (s.port p).state.counting && loadedWith (s.port p).trays stock)

/-- The tray a sheet of a stock is fed from: the lowest-numbered tray LOADED with it (R110). -/
def feedTray (trays : List TrayItem) (stock : Byte) : Option TrayItem :=
  (trays.filter (fun t => t.loaded && t.stock = stock)).foldl
    (fun best t =>
      match best with
      | some b => if t.number.toNat < b.number.toNat then some t else best
      | none => some t) none

/-- A port is free (R68). -/
def State.free (s : State) (p : PortNo) : Bool :=
  (s.port p).state = .ready && !(s.port p).held && (s.assignment p).isNone

/-- J's port-class mask holds P's class (R64). -/
def Job.allowsClass (x : Job) : Option PortClass → Bool
  | some .sheet => x.onSheet
  | some .roll => x.onRoll
  | none => false

/-- A job is eligible for a port ignoring availability: every condition of R64 but the first. -/
def State.eligibleIgnoring (s : State) (j : Slot) (p : PortNo) : Bool :=
  match s.job j, (s.port p).caps with
  | some x, some c =>
    x.allowsClass (s.port p).cls
      && (x.barred ≠ some p) && (x.pinned = none || x.pinned = some p)
      && c.classes.getLsbD x.sizeClass.val
      && (c.colour || !x.colour)
      && (c.duplex || x.sides = 1)
      && loadedWith (s.port p).trays x.stock
      && !x.refusedBy[p]
      && (s.account x.account).state.good
      && s.gateMet j x.next
  | _, _ => false

/-- A job is eligible for a port (R64). -/
def State.eligible (s : State) (j : Slot) (p : PortNo) : Bool := s.free p && s.eligibleIgnoring j p

/-- The ready queue in the order R68 scans it. -/
def State.readyOrder (s : State) : List Slot := (List.finRange 8).flatMap s.readyAt

/-- A job waits at a level below `bound` that is eligible ignoring availability for the port (R72). -/
def State.waitsBelow (s : State) (p : PortNo) (bound : Nat) : Bool :=
  (List.finRange 8).any (fun l => l.val < bound && (s.readyAt l).any (fun j => s.eligibleIgnoring j p))

/-- The port the choice of R69 picks for a job. -/
def State.choosePort (s : State) (j : Slot) : Option PortNo :=
  let able := allPorts.filter (fun p => s.eligible j p)
  match able.find? (fun p => (s.port p).owner = some j) with
  | some p => some p
  | none =>
    match able.find? (fun p => (s.port p).owner = none) with
    | some p => some p
    | none => able.head?

/-- The job the choice of R68 picks for a port. -/
def State.chooseJob (s : State) (p : PortNo) : Option Slot := s.readyOrder.find? (fun j => s.eligible j p)

/-- The ports that the signal to feeding ports reaches for a job (R74). -/
def State.signalled (s : State) (j : Slot) : List PortNo :=
  allPorts.filter fun p =>
    (s.port p).state = .feeding
      && (match s.assignedJob p, s.job j with
          | some running, some waiting => waiting.level < running.level
          | _, _ => false)
      && s.eligibleIgnoring j p

/-- Sheets in all paper-path queues (R167, R168). -/
def State.sheetsInFlight (s : State) : Nat := (allPorts.map (fun p => (s.port p).path.length)).sum

/-- The meter log is full under STALL (R103, step 6). -/
def State.logFull (s : State) : Bool :=
  s.meter.policy = .stall && 256 ≤ s.meter.log.length + s.meter.reservations

/-- A size class is in use (R79). -/
def State.classInUse (s : State) (c : ClassNo) : Bool :=
  allSlots.any fun j =>
    match s.job j with
    | some x => !x.state.terminal && x.sizeClass = c
    | none => false

/-! ## Sheets -/

/-- A sheet with no mark. -/
def Sheet.isUnmarked (x : Sheet) : Bool := x.mark = .unmarked

/-- The sheet of a path that a tag names. -/
def sheetOf (path : List Sheet) (tag : Byte) : Option Sheet := path.find? (fun x => x.tag = tag)

/-- The waste cause of a sheet that comes out as waste: its mark's, or the given one if it is unmarked (R125). -/
def wasteCauseOf (m : Mark) (unmarkedCause : WasteCause) : WasteCause :=
  match m with
  | .unmarked => unmarkedCause
  | .spoiled .underrun => .underrun
  | .spoiled .parity => .parity
  | .superseded => .superseded

/-- What becomes of a sheet (R125). -/
inductive Outcome1 where
  | good
  | waste (cause : WasteCause)
  | withdrawn
deriving DecidableEq, Repr

/-- The outcome of the oldest sheet at its delivery (R123). -/
def deliveredOutcome (x : Sheet) : Outcome1 :=
  match x.mark with
  | .unmarked => .good
  | m => .waste (wasteCauseOf m .unknown)

/-- The outcome of a sheet passed by a later delivery, or settled at link loss or PORT_RESET (R125). -/
def abandonedOutcome (x : Sheet) : Outcome1 :=
  match x.state with
  | .started => .withdrawn
  | _ => .waste (wasteCauseOf x.mark .unknown)

/-- Whether and how a STOP's list names a tag: STRANDED if any item says so (R132). -/
def namedBy (items : List StopItem) (tag : Byte) : Option Disposition :=
  let mine := items.filter (fun i => i.tag = tag)
  if mine.any (fun i => i.disposition = .stranded) then some .stranded
  else if mine.isEmpty then none else some .finish

/-- The outcome that a STOP gives a sheet, none where the sheet stays and becomes or stays FINISH (R125). -/
def stopOutcome (items : List StopItem) (x : Sheet) : Option Outcome1 :=
  match namedBy items x.tag with
  | some .stranded => some (.waste (wasteCauseOf x.mark .stranded))
  | some .finish => none
  | none =>
    match x.state with
    | .started => some .withdrawn
    | .picked => some (.waste (wasteCauseOf x.mark .unknown))
    | .finish => none

/-- The outcome that CLEARED gives a sheet still in the queue (R125, R136). -/
def clearedOutcome (x : Sheet) : Outcome1 := .waste (wasteCauseOf x.mark .unknown)

/-- The rewind ordinal of settled sheets: the lowest ordinal among those that were unmarked and came out other than GOOD
(R130). -/
def rewindOrdinal (settled : List (Sheet × Outcome1)) : Option Nat :=
  (settled.filter (fun e => e.1.isUnmarked && e.2 ≠ .good)).foldl
    (fun best e =>
      match best with
      | some b => some (min b e.1.ordinal)
      | none => some e.1.ordinal) none

/-! ## Alerts -/

/-- The causes in severity order (R172). -/
inductive Cause where
  | linkLost | engineFault | jam | underrun | setupTimeout | trayEmpty
deriving DecidableEq, Repr

/-- The severity rank of a cause: 1 is the most severe (R172). -/
def Cause.rank : Cause → Nat
  | .linkLost => 1 | .engineFault => 2 | .jam => 3 | .underrun => 4 | .setupTimeout => 5 | .trayEmpty => 6

/-- The displayed cause of a cause set: the most severe one in it (R172). -/
def CauseSet.displayed (c : CauseSet) : Option Cause :=
  if c.linkLost then some .linkLost
  else if c.fault.isSome then some .engineFault
  else if c.jam.isSome then some .jam
  else if c.underrun then some .underrun
  else if c.setupTimeout then some .setupTimeout
  else if c.trayEmpty then some .trayEmpty
  else none

/-- The rank byte of a displayed cause; 0 absent (R191). -/
def rankOf (c : Option Cause) : Nat :=
  match c with
  | some x => x.rank
  | none => 0

/-- The six flags of a cause set, bit n for rank n + 1 (R191). -/
def CauseSet.flags (c : CauseSet) : List Bool :=
  [c.linkLost, c.fault.isSome, c.jam.isSome, c.underrun, c.setupTimeout, c.trayEmpty]

/-- The panel word of a cause (R172). -/
def Cause.word : Cause → List Char
  | .linkLost => ['L', 'I', 'N', 'K']
  | .engineFault => ['F', 'A', 'U', 'L', 'T']
  | .jam => ['J', 'A', 'M']
  | .underrun => ['U', 'N', 'D', 'R']
  | .setupTimeout => ['S', 'E', 'T', 'U', 'P']
  | .trayEmpty => ['T', 'R', 'A', 'Y']

end Sys2Proof.Machine
end

