-- ==== Sys2Proof/Machine/Bytes.lean ====
section
/-! DEFINITION. Fields in bytes (R184), the CRC (R196) and the characters of panel lines. -/

namespace Sys2Proof.Machine

/-- A number in `n` bytes, most significant first (R184). -/
def num : Nat → Nat → List Byte
  | 0, _ => []
  | n + 1, v => BitVec.ofNat 8 (v / 256 ^ n) :: num n v

/-- A signed number in four bytes, two's complement (R184). -/
def int32 (v : Int) : List Byte := num 4 (v % 4294967296).toNat

/-- The number that bytes spell, most significant first (R184). -/
def natOf (bytes : List Byte) : Nat := bytes.foldl (fun acc b => acc * 256 + b.toNat) 0

/-- The `n`-byte field at `offset` of a body. -/
def field (body : List Byte) (offset n : Nat) : Nat := natOf ((body.drop offset).take n)

/-- The byte at `offset` of a body. -/
def byteAt (body : List Byte) (offset : Nat) : Byte := body.getD offset 0

/-- A signed 32-bit number from its two's complement value (R184). -/
def signed32 (v : Nat) : Int := if v < 2147483648 then (v : Int) else (v : Int) - 4294967296

/-- The signed four-byte field at `offset` of a body. -/
def intField (body : List Byte) (offset : Nat) : Int := signed32 (field body offset 4)

/-- A flag as a byte: 0 or 1. -/
def flag (b : Bool) : Byte := if b then 1 else 0

/-- The value of a group of flags, bit 0 first (R184). -/
def flagsValue : List Bool → Nat
  | [] => 0
  | b :: bs => (if b then 1 else 0) + 2 * flagsValue bs

/-- Up to eight flags in one byte, bit 0 first (R184). -/
def flags (bs : List Bool) : Byte := BitVec.ofNat 8 (flagsValue bs)

/-- An optional port number: FFh when absent (R184). -/
def optPort (p : Option PortNo) : Byte := (p.map (fun q => BitVec.ofNat 8 q.val)).getD 0xFF

/-- An optional field of `n` bytes behind a presence byte; its bytes are carried as 0 when it is absent (R184, R186). -/
def optNum (n : Nat) (v : Option Nat) : List Byte :=
  match v with
  | some x => 1 :: num n x
  | none => 0 :: num n 0

/-- One bit of the CRC register's shift (R196). -/
def crcBit (r : Word16) : Word16 := if r.msb then (r <<< 1) ^^^ 0x1021#16 else r <<< 1

/-- The CRC register after one byte (R196). -/
def crcByte (r : Word16) (b : Byte) : Word16 :=
  crcBit (crcBit (crcBit (crcBit (crcBit (crcBit (crcBit (crcBit (r ^^^ (b.setWidth 16 <<< 8)))))))))

/-- The CRC of bytes in frame order (R196). -/
def crc (bytes : List Byte) : Word16 := bytes.foldl crcByte 0xFFFF#16

/-- A 16-bit word in two bytes, most significant first. -/
def word16 (w : Word16) : List Byte := num 2 w.toNat

/-- A 32-bit word in four bytes, most significant first. -/
def word32 (w : Word32) : List Byte := num 4 w.toNat

/-- A decimal digit as a character. -/
def digit (n : Nat) : Char := Char.ofNat (48 + n % 10)

/-- A number below 1,000 in decimal without leading zeros (R181). -/
def decimal (n : Nat) : List Char :=
  if n < 10 then [digit n]
  else if n < 100 then [digit (n / 10), digit n]
  else [digit (n / 100), digit (n / 10), digit n]

end Sys2Proof.Machine
end

