-- ==== Sys2Proof/Machine/Layout.lean ====
section
/-! DEFINITION. Codes of enumerated fields (R192), request kinds and lengths (R186), and the bytes of outgoing frames
(R185 to R195) that depend on no more than the frame itself. -/

namespace Sys2Proof.Machine

/-! ## Codes (R192) -/

/-- Reply status codes. -/
def Status.code : Status → Byte
  | .ok => 0 | .busy => 1 | .notReady => 2 | .noSuch => 3 | .badState => 4 | .badField => 5 | .noRoom => 6
  | .duplicate => 7 | .frameError => 8

/-- Start-up state codes. -/
def StartUp.code : StartUp → Byte
  | .starting => 0 | .ready => 1 | .readyDegraded => 2 | .failed => 3

/-- Job state codes; FREE is 0. -/
def JobState.code : JobState → Byte
  | .queued => 1 | .stockwait => 2 | .running => 3 | .paused => 4 | .held => 5 | .done => 6 | .cancelled => 7
  | .failed => 8

/-- Port state codes. -/
def PortState.code : PortState → Byte
  | .absent => 0 | .probing => 1 | .loopback => 2 | .identifying => 3 | .ready => 4 | .setup => 5 | .feeding => 6
  | .draining => 7 | .stopped => 8 | .lost => 9

/-- Account state codes. -/
def AccountState.code : AccountState → Byte
  | .unset => 0 | .opened => 1 | .low => 2 | .held => 3 | .closed => 4

/-- Log policy codes. -/
def LogPolicy.code : LogPolicy → Byte
  | .keep => 0 | .wrap => 1 | .stall => 2

/-- The log policy a code names. -/
def LogPolicy.ofCode? (b : Byte) : Option LogPolicy :=
  if b = 0 then some .keep else if b = 1 then some .wrap else if b = 2 then some .stall else none

/-- The reset kind a code names. -/
def ResetKind.ofCode? (b : Byte) : Option ResetKind :=
  if b = 0 then some .full else if b = 1 then some .quick else none

/-- Waste cause codes; 0 for GOOD (R190). -/
def WasteCause.code : WasteCause → Byte
  | .underrun => 1 | .parity => 2 | .superseded => 3 | .stranded => 4 | .unknown => 5

/-- Port class codes; 0 absent. -/
def PortClass.code : Option PortClass → Byte
  | none => 0 | some .sheet => 1 | some .roll => 2

/-- Wait codes. -/
def Wait.code : Wait → Byte
  | .none => 0 | .log => 1 | .gate => 2 | .path => 3

/-- Drain cause codes; 0 absent. -/
def DrainCause.code : Option DrainCause → Byte
  | none => 0 | some .flags => 1 | some .hold => 2 | some .account => 3 | some .endOfJob => 4 | some .noTray => 5
  | some .urgent => 6 | some .slice => 7 | some .gateWait => 8 | some .underrun => 9

/-- Destination codes; 0 absent. -/
def Destination.code : Option Destination → Byte
  | none => 0 | some .head => 1 | some .tail => 2 | some .held => 3

/-- Sheet state codes. -/
def SheetState.code : SheetState → Byte
  | .started => 0 | .picked => 1 | .finish => 2

/-- Sheet mark codes. -/
def Mark.code : Mark → Byte
  | .unmarked => 0 | .spoiled .underrun => 1 | .spoiled .parity => 2 | .superseded => 3

/-- Kind bytes of notices (R186). -/
def NoticeKind.code : NoticeKind → Byte
  | .start => 0x90 | .job => 0x91 | .bandLost => 0x92 | .port => 0x93 | .alert => 0x94 | .account => 0x95
  | .meterHigh => 0x96 | .stock => 0x97

/-- The bit of the notice enable set that stands for a kind: bit n for kind 90h + n (R186). -/
def NoticeKind.bit : NoticeKind → Nat
  | .start => 0 | .job => 1 | .bandLost => 2 | .port => 3 | .alert => 4 | .account => 5 | .meterHigh => 6 | .stock => 7

/-! ## Request kinds (R186) -/

/-- The least and the greatest body length of a request kind; none for a byte that is no request kind. -/
def requestLength (kind : Byte) : Option (Nat × Nat) :=
  if kind = 0x01 then some (0, 0)            -- IDENTIFY
  else if kind = 0x02 then some (0, 0)       -- STATUS
  else if kind = 0x03 then some (1, 1)       -- RESET
  else if kind = 0x04 then some (1, 1)       -- NOTICE_MASK
  else if kind = 0x05 then some (5, 5)       -- LEVEL_SET
  else if kind = 0x06 then some (7, 7)       -- PORT_SET
  else if kind = 0x10 then some (23, 23)     -- JOB_OPEN
  else if kind = 0x11 then some (1, 1)       -- JOB_CANCEL
  else if kind = 0x12 then some (1, 1)       -- JOB_SUSPEND
  else if kind = 0x13 then some (1, 1)       -- JOB_RESUME
  else if kind = 0x14 then some (2, 2)       -- JOB_LEVEL
  else if kind = 0x15 then some (1, 1)       -- JOB_QUERY
  else if kind = 0x16 then some (1, 1)       -- JOB_FORGET
  else if kind = 0x20 then some (21, 16404)  -- BAND_PUT
  else if kind = 0x21 then some (4, 4)       -- BAND_SUM
  else if kind = 0x30 then some (1, 1)       -- PORT_HOLD
  else if kind = 0x31 then some (1, 1)       -- PORT_RELEASE
  else if kind = 0x32 then some (1, 1)       -- PORT_RESET
  else if kind = 0x33 then some (1, 1)       -- PORT_QUERY
  else if kind = 0x34 then some (2, 2)       -- PORT_LOOPTEST
  else if kind = 0x40 then some (8, 8)       -- SIZE_SET
  else if kind = 0x41 then some (13, 13)     -- TIER_SET
  else if kind = 0x50 then some (14, 14)     -- ACCOUNT_SET
  else if kind = 0x51 then some (10, 10)     -- ACCOUNT_LIMITS
  else if kind = 0x52 then some (5, 5)       -- ACCOUNT_CREDIT
  else if kind = 0x53 then some (1, 1)       -- ACCOUNT_CLOSE
  else if kind = 0x54 then some (1, 1)       -- ACCOUNT_QUERY
  else if kind = 0x55 then some (1, 1)       -- METER_POLICY
  else if kind = 0x56 then some (1, 1)       -- METER_READ
  else if kind = 0x60 then some (1, 1)       -- ALERT_ACK
  else if kind = 0x61 then some (0, 0)       -- ALERT_QUERY
  else none

/-- R184: the bits of a request's flag bytes that name no item are clear. Only JOB_OPEN has such bits (R187). -/
def unusedBitsClear (r : Request) : Bool :=
  if r.kind = 0x10 then byteAt r.body 13 &&& 0xF8 = 0 && byteAt r.body 17 &&& 0xE0 = 0 else true

/-- R4, second test: the body length, and with it the unused bits (R184), are right for the kind. -/
def lengthFits (r : Request) : Bool :=
  match requestLength r.kind with
  | some (lo, hi) => lo ≤ r.body.length && r.body.length ≤ hi && unusedBitsClear r
  | none => false

/-- R4, third test: the kinds served in every start-up state (IDENTIFY, STATUS and RESET). -/
def servedAlways (kind : Byte) : Bool := kind = 0x01 || kind = 0x02 || kind = 0x03

/-! ## Control-link frames (R185) -/

/-- The bytes a frame's CRC covers: length, kind, tag and body. -/
def frameCovered (kind : Byte) (tag : Word16) (body : List Byte) : List Byte :=
  num 2 (body.length + 3) ++ kind :: word16 tag ++ body

/-- A whole control-link frame on the line (R185). -/
def frameBytes (kind : Byte) (tag : Word16) (body : List Byte) : List Byte :=
  0xA5 :: 0x5A :: frameCovered kind tag body ++ word16 (crc (frameCovered kind tag body))

/-- A frame the controller sends, as bytes (R185). -/
def OutFrame.bytes : OutFrame → List Byte
  | .reply r => frameBytes 0x80 r.tag (r.status.code :: r.body)
  | .notice n => frameBytes n.kind.code 0 (word32 n.time ++ n.body)

/-! ## Press-link frames (R193) -/

/-- The fixed test pattern of PROBE (R193). -/
def probePattern : List Byte :=
  [0x00, 0xFF, 0x55, 0xAA, 0x01, 0x02, 0x04, 0x08, 0x10, 0x20, 0x40, 0x80, 0xFE, 0xFD, 0xFB, 0xF7]

/-- The presence bits and the present fields of a setup record, in the order of their bits (R187, R193). -/
def Setup.wire (f : Setup) : List Byte :=
  flags [f.bin.isSome, f.finishing.isSome, f.profile.isSome, f.quality.isSome, f.offset.isSome]
    :: (f.bin.toList ++ f.finishing.toList ++ f.profile.toList ++ f.quality.toList ++ f.offset.toList)

/-- Kind and body of a message from the port to its engine (R193, R194). -/
def PressOut.wire : PressOut → List Byte
  | .probe sequence => 0x01 :: sequence :: probePattern
  | .hello => [0x02]
  | .setup fields => 0x03 :: fields.wire
  | .sheet tag ordinal cls tray sides =>
      0x04 :: tag :: word16 ordinal ++ [BitVec.ofNat 8 cls.val, tray, BitVec.ofNat 8 sides]
  | .band tag back index payload => 0x05 :: tag :: flag back :: BitVec.ofNat 8 index :: payload
  | .fill tag back index => [0x06, tag, flag back, BitVec.ofNat 8 index]
  | .divert tag => [0x07, tag]

/-- A whole press-link frame around a kind and body (R193). -/
def pressFrame (kindAndBody : List Byte) : List Byte :=
  let covered := num 2 kindAndBody.length ++ kindAndBody
  0xC3 :: covered ++ word16 (crc covered)

/-- A message from the port to its engine, as bytes on the line. -/
def PressOut.bytes (m : PressOut) : List Byte := pressFrame m.wire

/-! ## Messages from the engine (R193 to R195) -/

/-- A press-link message that passed the frame check. `foreign` is one of a kind that the table does not define or that only
the part sends, which R99 ignores. -/
inductive PressIn where
  | probe (sequence : Byte) (pattern : List Byte)
  | identity (contents : EngineIdentity)
  | setupDone
  | setupRefused (code : Byte)
  | picked (tag : Byte)
  | want (tag : Byte) (back : Bool) (band : Byte)
  | delivered (tag : Byte)
  | stop (reason : StopReason) (items : List StopItem)
  | cleared
  | tray (item : TrayItem)
  | foreign
deriving DecidableEq, Repr

/-- What the check of R193 leaves open to a message's contents: the bounds of STOP's zone and code, the lengths that fit a
count byte, the length of PROBE's pattern. -/
def PressIn.fits : PressIn → Bool
  | .probe _ pattern => pattern.length = 16
  | .identity c => c.trays.length ≤ 255
  | .stop (.jam zone) items => 1 ≤ zone.toNat && zone.toNat ≤ 8 && items.length ≤ 255
  | .stop (.fault code) items => code ≠ 0 && items.length ≤ 255
  | _ => true

/-- Tray entries on the line. -/
def trayWire (t : TrayItem) : List Byte := [t.number, t.stock, flag t.loaded]

/-- A STOP item on the line. -/
def stopItemWire (i : StopItem) : List Byte :=
  [i.tag, match i.disposition with | .finish => 1 | .stranded => 2]

/-- Kind and body of a message from the engine (R193 to R195). -/
def PressIn.wire : PressIn → List Byte
  | .probe sequence pattern => 0x01 :: sequence :: pattern
  | .identity c =>
      0x81 :: flags [c.colour, c.duplex, c.reject] :: c.depth :: word16 c.classes
        ++ BitVec.ofNat 8 c.trays.length :: c.trays.flatMap trayWire
  | .setupDone => [0x82]
  | .setupRefused code => [0x83, code]
  | .picked tag => [0x84, tag]
  | .want tag back band => [0x85, tag, flag back, band]
  | .delivered tag => [0x86, tag]
  | .stop (.jam zone) items => 0x87 :: 1 :: zone :: BitVec.ofNat 8 items.length :: items.flatMap stopItemWire
  | .stop (.fault code) items => 0x87 :: 2 :: code :: BitVec.ofNat 8 items.length :: items.flatMap stopItemWire
  | .cleared => [0x88]
  | .tray t => 0x89 :: trayWire t
  | .foreign => [0xFF]

/-- A byte that holds 0 or 1. -/
def bit? (b : Byte) : Option Bool := if b = 0 then some false else if b = 1 then some true else none

/-- Reads tray entries from `3t` bytes; none where a tray state byte is no code. -/
def readTrays : List Byte → Option (List TrayItem)
  | [] => some []
  | n :: s :: l :: rest =>
    match bit? l, readTrays rest with
    | some loaded, some more => some ({ number := n, stock := s, loaded := loaded } :: more)
    | _, _ => none
  | _ => none

/-- Reads STOP items from `2n` bytes; none where a disposition is no code. -/
def readItems : List Byte → Option (List StopItem)
  | [] => some []
  | t :: d :: rest =>
    match (if d = 1 then some Disposition.finish else if d = 2 then some Disposition.stranded else none),
        readItems rest with
    | some disposition, some more => some ({ tag := t, disposition := disposition } :: more)
    | _, _ => none
  | _ => none

/-- How many of a setup presence byte's five bits are set (R193). -/
def presentFields (b : Byte) : Nat :=
  (b.getLsbD 0).toNat + (b.getLsbD 1).toNat + (b.getLsbD 2).toNat + (b.getLsbD 3).toNat + (b.getLsbD 4).toNat

/-- R193: the message in a frame of this kind and body whose length and CRC are right; none where the frame still fails
its check (a body length that does not fit its kind, an enumerated byte outside its codes, a zone or code out of range). -/
def readPress (kind : Byte) (body : List Byte) : Option PressIn :=
  if kind = 0x01 then
    match body with
    | sequence :: pattern => if pattern.length = 16 then some (.probe sequence pattern) else none
    | [] => none
  else if kind = 0x02 then if body = [] then some .foreign else none
  else if kind = 0x03 then
    match body with
    | presence :: fields => if fields.length = presentFields presence then some .foreign else none
    | [] => none
  else if kind = 0x04 then if body.length = 6 then some .foreign else none
  else if kind = 0x05 then
    match body with
    | _ :: side :: _ :: payload =>
      if 1 ≤ payload.length && payload.length ≤ 16384 && (bit? side).isSome then some .foreign else none
    | _ => none
  else if kind = 0x06 then
    match body with
    | [_, side, _] => if (bit? side).isSome then some .foreign else none
    | _ => none
  else if kind = 0x07 then if body.length = 1 then some .foreign else none
  else if kind = 0x81 then
    match body with
    | f :: depth :: c1 :: c0 :: count :: entries =>
      if entries.length = 3 * count.toNat then
        (readTrays entries).map fun trays =>
          .identity { colour := f.getLsbD 0, duplex := f.getLsbD 1, reject := f.getLsbD 2, depth := depth,
                      classes := BitVec.ofNat 16 (natOf [c1, c0]), trays := trays }
      else none
    | _ => none
  else if kind = 0x82 then if body = [] then some .setupDone else none
  else if kind = 0x83 then
    match body with
    | [code] => some (.setupRefused code)
    | _ => none
  else if kind = 0x84 then
    match body with
    | [tag] => some (.picked tag)
    | _ => none
  else if kind = 0x85 then
    match body with
    | [tag, side, band] => (bit? side).map fun back => .want tag back band
    | _ => none
  else if kind = 0x86 then
    match body with
    | [tag] => some (.delivered tag)
    | _ => none
  else if kind = 0x87 then
    match body with
    | reason :: detail :: count :: entries =>
      if entries.length = 2 * count.toNat then
        match readItems entries with
        | some items =>
          if reason = 1 then
            if 1 ≤ detail.toNat && detail.toNat ≤ 8 then some (.stop (.jam detail) items) else none
          else if reason = 2 then if detail ≠ 0 then some (.stop (.fault detail) items) else none
          else none
        | none => none
      else none
    | _ => none
  else if kind = 0x88 then if body = [] then some .cleared else none
  else if kind = 0x89 then
    match body with
    | [n, s, l] => (bit? l).map fun loaded => .tray { number := n, stock := s, loaded := loaded }
    | _ => none
  else some .foreign

/-! ## Receivers (R1, R2, R193) -/

/-- What a byte brings at a receiver's end of frame. -/
inductive RxEvent where
  /-- The length is out of range. -/
  | badLength
  /-- The CRC differs. -/
  | badCrc
  /-- A frame has come whole: the bytes its length counts. -/
  | frame (counted : List Byte)
deriving DecidableEq, Repr

/-- One byte at a receiver past its marker. `lo` and `hi` bound the length field. -/
def rxInFrame (lo hi : Nat) (st : RxState) (b : Byte) : RxState × Option RxEvent :=
  match st with
  | .hunt armed => (.hunt armed, none)
  | .header [] => (.header [b], none)
  | .header (first :: _) =>
    let length := natOf [first, b]
    if length < lo || hi < length then (.hunt false, some .badLength) else (.body length length [], none)
  | .body length left got =>
    if left ≤ 1 then (.check length (b :: got) [], none) else (.body length (left - 1) (b :: got), none)
  | .check length got [] => (.check length got [b], none)
  | .check length got (first :: _) =>
    if word16 (crc (num 2 length ++ got.reverse)) = [first, b] then (.hunt false, some (.frame got.reverse))
    else (.hunt false, some .badCrc)

/-- One byte at the control-link receiver (R1, R2). -/
def rxControl (st : RxState) (b : Byte) : RxState × Option RxEvent :=
  match st with
  | .hunt armed =>
    if armed && b = 0x5A then (.header [], none) else (.hunt (b = 0xA5), none)
  | st => rxInFrame 3 16448 st b

/-- One byte at a press-link receiver (R193). -/
def rxPress (st : RxState) (b : Byte) : RxState × Option RxEvent :=
  match st with
  | .hunt _ => if b = 0xC3 then (.header [], none) else (.hunt false, none)
  | st => rxInFrame 1 16388 st b

end Sys2Proof.Machine
end

