-- ==== Sys2Proof/Machine/Bodies.lean ====
section
/-! DEFINITION. The bodies of replies, notices and panel lines, as bytes (R181, R184, R186 to R191). The order of the fields
is that of the owning rule's list; log entry 15 names what the general convention of R186 leaves to reading. -/

namespace Sys2Proof.Machine

/-- A number below 256 as one byte. -/
def byte (n : Nat) : Byte := BitVec.ofNat 8 n

/-- The four planes, each in `n` bytes. -/
def planesWire (n : Nat) (p : Planes) : List Byte := num n p.p0 ++ num n p.p1 ++ num n p.p2 ++ num n p.p3

/-- A set of ports in two bytes, bit n for port n (R186). -/
def portSetWire (v : Vector Bool 12) : List Byte := num 2 (flagsValue v.toList)

/-- The five optional setup fields, each behind its presence byte. -/
def setupRecordWire (f : Setup) : List Byte :=
  [f.bin, f.finishing, f.profile, f.quality, f.offset].flatMap (fun o => optNum 1 (o.map BitVec.toNat))

/-! ## Notices -/

/-- START (R41). -/
def startBody (s : State) : List Byte :=
  s.spool.startUp.code :: num 2 s.spool.retired.length ++ num 2 s.spool.pool.length

/-- JOB (R25). -/
def jobNoticeBody (j : Slot) (before : JobState) (x : Job) : List Byte :=
  byte j.val :: word32 x.label ++ [before.code, x.state.code] ++ num 4 x.next ++ num 4 x.good ++ num 4 x.waste
    ++ num 8 x.charge ++ [optPort x.lastPort]

/-- BAND_LOST (R51); `reader` is the port whose read found the error, none for BAND_SUM. -/
def bandLostBody (j : Slot) (label : Word32) (image index : Nat) (counts : Planes) (block : Nat) (reader : Option PortNo)
    (present lost : Nat) : List Byte :=
  byte j.val :: word32 label ++ num 2 image ++ [byte index] ++ planesWire 4 counts ++ num 2 block
    ++ [optPort reader, byte present, byte lost]

/-- What a PORT notice says beside the port (R87). -/
inductive PortReason where
  | state (job : Option Slot)
  | hold
  | identityRejected (case : Nat)
  | setupRefused (slot : Slot) (code : Byte)
  | looptest (count sent returned : Nat) (endedEarly : Bool)
deriving DecidableEq, Repr

/-- The reason and its further contents (R87, R192). -/
def PortReason.wire : PortReason → List Byte
  | .state job => 0 :: optNum 1 (job.map (·.val))
  | .hold => [1]
  | .identityRejected case => [2, byte case]
  | .setupRefused slot code => [3, byte slot.val, code]
  | .looptest count sent returned early => [4, byte count, byte sent, byte returned, flag early]

/-- PORT (R87). -/
def portNoticeBody (p : PortNo) (before : PortState) (x : Port) (reason : PortReason) : List Byte :=
  [byte p.val, before.code, x.state.code, flag x.held, PortClass.code x.cls] ++ reason.wire

/-- Reasons of ALERT notices (R180). -/
inductive AlertReason where
  | opened | raised | lowered | cause | escalated | ack | closed
deriving DecidableEq, Repr

/-- Alert reason codes (R192). -/
def AlertReason.code : AlertReason → Byte
  | .opened => 0 | .raised => 1 | .lowered => 2 | .cause => 3 | .escalated => 4 | .ack => 5 | .closed => 6

/-- ALERT (R191). -/
def alertNoticeBody (p : PortNo) (reason : AlertReason) (before : Option Cause) (x : Alert) : List Byte :=
  [byte p.val, reason.code, flags x.causes.flags, x.causes.jam.getD 0, x.causes.fault.getD 0, byte (rankOf before),
    byte (rankOf x.causes.displayed), byte (x.level.getD 0), flag x.acknowledged] ++ word32 (x.raised.getD 0)

/-- Causes of ACCOUNT notices (R162). -/
inductive AccountCause where
  | debit | credit | limits | set | close
deriving DecidableEq, Repr

/-- Account cause codes (R192). -/
def AccountCause.code : AccountCause → Byte
  | .debit => 0 | .credit => 1 | .limits => 2 | .set => 3 | .close => 4

/-- ACCOUNT (R162). -/
def accountNoticeBody (a : AccountNo) (before : AccountState) (x : Account) (cause : AccountCause) : List Byte :=
  [byte a.val, before.code, x.state.code] ++ int32 x.balance ++ int32 x.low ++ int32 x.floor ++ [cause.code]

/-- METER_HIGH (R170). -/
def meterHighBody (m : Meter) : List Byte :=
  num 2 m.log.length ++ num 2 m.reservations ++ num 2 m.dropped ++ [m.policy.code]

/-- STOCK (R60); `waiting` is the number of jobs on the stock wait list after the join. -/
def stockBody (j : Slot) (x : Job) (waiting : Nat) : List Byte :=
  byte j.val :: word32 x.label ++ [x.stock, byte x.level.val, byte waiting]

/-! ## Replies -/

/-- IDENTIFY (R10). -/
def identifyBody : List Byte := num 2 0x1A07 ++ num 2 0x1240 ++ [3]

/-- STATUS (R11, R189). -/
def statusBody (s : State) : List Byte :=
  [s.spool.startUp.code, flag s.link.overflow, byte s.link.notices.length] ++ word32 s.partTime
    ++ num 2 s.spool.pool.length ++ num 2 s.usedBlocks ++ num 2 s.spool.retired.length ++ num 2 s.meter.log.length
    ++ num 2 s.meter.dropped ++ [s.meter.policy.code]
    ++ byte (allSlots.filter (fun j => (s.job j).isNone)).length
    :: [JobState.queued, .stockwait, .running, .paused, .held, .done, .cancelled, .failed].map (fun st => byte (s.jobsIn st))
    ++ allPorts.map (fun p => (s.port p).state.code)

/-- JOB_QUERY (R33): the fields of the job record in the order of its table. -/
def jobBody (j : Slot) (x : Job) : List Byte :=
  byte j.val :: word32 x.label
    ++ [x.state.code, byte x.account.val, byte x.level.val, byte x.sizeClass.val, byte x.sides]
    ++ num 2 x.sheets ++ num 2 x.copies ++ num 4 x.total
    ++ [x.stock, flag x.colour, flags [x.onSheet, x.onRoll], optPort x.pinned, optPort x.barred, byte x.lead,
        flag x.forcedWhole]
    ++ setupRecordWire x.setup ++ portSetWire x.refusedBy ++ [flags [x.cancel, x.suspend, x.slice]]
    ++ num 4 x.next ++ num 4 x.good ++ num 4 x.waste ++ num 4 x.underruns ++ num 8 x.charge ++ num 4 x.pressTime
    ++ [optPort x.lastPort] ++ optNum 4 x.lostOrdinal ++ [byte x.lossCount]

/-- An account record (R154, R156). -/
def accountBody (a : AccountNo) (x : Account) : List Byte :=
  [byte a.val, x.state.code] ++ optNum 1 (x.tier.map (·.val)) ++ int32 x.balance ++ int32 x.low ++ int32 x.floor
    ++ num 8 x.charged ++ num 4 x.goodSheets ++ num 4 x.wasteSheets ++ num 8 x.pressTime

/-- ACCOUNT_QUERY (R160): the record and the number of the account's jobs in each of the eight job states. -/
def accountQueryBody (s : State) (a : AccountNo) : List Byte :=
  accountBody a (s.account a)
    ++ [JobState.queued, .stockwait, .running, .paused, .held, .done, .cancelled, .failed].map
        (fun st => byte (s.jobsOf a st))

/-- A meter log record (R190). -/
def meterRecordWire (r : MeterRecord) : List Byte :=
  [flag r.waste.isSome, match r.waste with | some c => c.code | none => 0, byte r.slot.val] ++ word32 r.label
    ++ [byte r.account.val] ++ num 4 r.ordinal ++ [byte r.port.val, byte r.sides] ++ planesWire 2 r.coverage
    ++ num 4 r.charge ++ word32 r.time

/-- METER_READ (R190). -/
def meterReadBody (left dropped : Nat) (records : List MeterRecord) : List Byte :=
  num 2 left ++ num 2 dropped ++ byte records.length :: records.flatMap meterRecordWire

/-- METER_POLICY (R168). -/
def meterPolicyBody (m : Meter) : List Byte := m.policy.code :: num 2 m.log.length ++ num 2 m.reservations

/-- A timer's length behind a presence byte: counting or stopped. -/
def timerWire (n : Nat) (t : Option Timer) : List Byte := optNum n (t.map (·.length))

/-- Capabilities behind a presence byte (R98); each capability flag in a byte of its own (DEDUCED, log entry 15). -/
def capsWire (c : Option Capabilities) : List Byte :=
  match c with
  | some x => 1 :: flag x.colour :: flag x.duplex :: byte x.depth
      :: [BitVec.ofNat 8 x.classes.toNat, BitVec.ofNat 8 (x.classes.toNat / 256), flag x.reject]
  | none => [0, 0, 0, 0, 0, 0, 0]

/-- A sheet of a paper-path queue (R98, R120). -/
def sheetWire (x : Sheet) : List Byte := x.tag :: num 4 x.ordinal ++ [x.state.code, x.mark.code]

/-- PORT_QUERY (R98), with the feeding fields of R101 after it. The count byte of the reads in progress holds their number
modulo 256 (DEDUCED, log entry 15). -/
def portBody (x : Port) (job : Option Slot) : List Byte :=
  x.state.code :: word32 x.stateTime ++ [flag x.signal, PortClass.code x.cls, flag x.held] ++ capsWire x.caps
    ++ byte x.trays.length :: x.trays.flatMap trayWire
    ++ optNum 1 (x.owner.map (·.val)) ++ optNum 1 (job.map (·.val))
    ++ byte x.path.length :: x.path.flatMap sheetWire
    ++ [x.nextTag]
    ++ (match x.request with
        | some r => [1, r.tag, flag r.back, byte r.band, byte r.timer.length]
        | none => [0, 0, 0, 0, 0])
    ++ (match x.refusal with
        | some (slot, code) => [1, byte slot.val, code]
        | none => [0, 0, 0])
    ++ [byte x.underruns, byte x.grace] ++ num 2 x.gateWait ++ num 2 x.interval
    ++ num 4 x.counters.sheetsStarted ++ num 4 x.counters.good ++ num 4 x.counters.waste ++ num 4 x.counters.withdrawn
    ++ num 4 x.counters.fills ++ num 4 x.counters.stops ++ num 4 x.counters.linkLosses
    ++ num 4 x.counters.framesDiscarded
    ++ x.wait.code :: timerWire 2 x.gateTimer ++ [DrainCause.code x.drain, Destination.code x.destination]
    ++ byte x.reads.length :: x.reads.flatMap (fun r => [r.tag, flag r.back, byte r.band])

/-- The cause set with its zone and code (R179). -/
def causeSetWire (c : CauseSet) : List Byte :=
  flags c.flags :: optNum 1 (c.jam.map BitVec.toNat) ++ optNum 1 (c.fault.map BitVec.toNat)

/-- One record of ALERT_QUERY (R179). The displayed cause is its rank byte, 0 absent, with no presence byte (DEDUCED: R192
gives causes no codes, log entry 15). -/
def alertQueryWire (now : Word32) (x : Alert) : List Byte :=
  causeSetWire x.causes ++ [byte (rankOf x.causes.displayed)] ++ optNum 1 x.level ++ [flag x.acknowledged]
    ++ optNum 4 (x.raised.map BitVec.toNat) ++ optNum 4 (x.timer.map (fun t => t.length - elapsed now t.start))

/-- ALERT_QUERY (R179): the twelve records, with no count byte before them (DEDUCED, log entry 15), the number of lines in the
panel queue, the port whose line is being sent. -/
def alertQueryBody (s : State) : List Byte :=
  allPorts.flatMap (fun p => alertQueryWire s.partTime (s.alert p))
    ++ [byte s.panel.queue.length, optPort (s.panel.sending.map (·.1))]

/-- ALERT_ACK (R178): the port's record, in the order of R171. The displayed cause is its rank byte, 0
absent, with no presence byte (DEDUCED, log entry 15). -/
def alertAckBody (x : Alert) : List Byte :=
  causeSetWire x.causes ++ [byte (rankOf x.causes.displayed)] ++ optNum 1 x.level ++ [flag x.acknowledged]
    ++ (match x.timer with
        | some t => 1 :: num 4 t.length ++ word32 t.expiry
        | none => 0 :: num 4 0 ++ num 4 0)
    ++ optNum 4 (x.raised.map BitVec.toNat)

/-! ## Panel lines -/

/-- The text of a port's panel line with its line feed (R181). -/
def panelText (p : PortNo) (x : Alert) : List Char :=
  let port := ['P', digit (p.val / 10), digit p.val, ' ']
  match x.causes.displayed, x.level with
  | some c, some level =>
    let detail : List Char :=
      match c with
      | .jam => [' ', 'Z'] ++ decimal (x.causes.jam.getD 0).toNat
      | .engineFault => [' ', 'C'] ++ decimal (x.causes.fault.getD 0).toNat
      | _ => []
    port ++ c.word ++ detail ++ [' ', 'L'] ++ decimal level
      ++ (if x.acknowledged then [' ', 'A', 'C', 'K'] else []) ++ ['\n']
  | _, _ => port ++ ['C', 'L', 'E', 'A', 'R', '\n']

end Sys2Proof.Machine
end

