-- ==== Sys2Proof/Machine/Ops.lean ====
section
/-! DEFINITION. The shared operations of the link interface, the alert relay, the stock lists and the port records: what
several commands do alike, said once. -/

namespace Sys2Proof.Machine

/-! ## Notices and replies (R6 to R8) -/

/-- A notice is raised (R8): dropped if its kind is disabled, queued if there is room, else discarded with the overflow
flag set. -/
def State.notify (s : State) (k : NoticeKind) (body : List Byte) : State :=
  if !s.link.enable.getLsbD k.bit then s
  else if s.link.notices.length < 64 then
    s.modLink fun l => { l with notices := l.notices ++ [{ kind := k, time := s.partTime, body := body }] }
  else s.modLink fun l => { l with overflow := true }

/-- The reply to the request in service is placed; the request leaves the queue (R3, R4, R6). -/
def State.placeReply (s : State) (r : Reply) : State :=
  s.modLink fun l => { l with replies := l.replies ++ [r], requests := l.requests.drop 1, service := none }

/-- A BUSY or FRAME_ERROR reply is placed, unless the reply list has no place for it (R6). -/
def State.placeError (s : State) (tag : Word16) (st : Status) : State :=
  if s.link.replies.length < 7 || (s.link.replies.length = 7 && s.link.service.isNone) then
    s.modLink fun l => { l with replies := l.replies ++ [{ tag := tag, status := st, body := [], ofReset := false }] }
  else s

/-- The link interface chooses the next outbound frame if the line is idle (R7). Once the reply to a RESET has been sent
nothing more goes out before the reset (R12). -/
def State.pump (s : State) : State :=
  match s.link.outbound, s.link.reset with
  | some _, _ => s
  | none, .due _ => s
  | none, _ =>
    match s.link.replies with
    | r :: rest => s.modLink fun l => { l with outbound := some (.reply r), replies := rest }
    | [] =>
      match s.link.notices with
      | n :: rest => s.modLink fun l => { l with outbound := some (.notice n), notices := rest }
      | [] => s

/-- A received frame is admitted to the input request queue, or answered BUSY (R3). -/
def State.takeFrame (s : State) (r : Request) : State :=
  if s.link.requests.length < 4 then s.modLink fun l => { l with requests := l.requests ++ [r] }
  else s.placeError r.tag .busy

/-! ## Alerts and the panel (chapter 10) -/

/-- The panel driver, if idle, takes the oldest line (R183). -/
def State.pumpPanel (s : State) : State :=
  match s.panel.sending, s.panel.queue with
  | none, line :: rest => { s with panel := { queue := rest, sending := some line } }
  | _, _ => s

/-- A line is put for a port into the panel queue: in its place if one waits, else at the tail (R182). -/
def putLine (queue : List (PortNo × List Char)) (p : PortNo) (text : List Char) : List (PortNo × List Char) :=
  if queue.any (fun e => e.1 = p) then queue.map (fun e => if e.1 = p then (p, text) else e)
  else queue ++ [(p, text)]

/-- A panel line is queued for a port, composed from its alert record as it stands (R181, R182). -/
def State.queueLine (s : State) (p : PortNo) : State :=
  State.pumpPanel { s with panel := { s.panel with queue := putLine s.panel.queue p (panelText p (s.alert p)) } }

/-- An ALERT notice for a port's alert record as it stands (R180). -/
def State.notifyAlert (s : State) (p : PortNo) (reason : AlertReason) (before : Option Cause) : State :=
  s.notify .alert (alertNoticeBody p reason before (s.alert p))

/-- The escalation timer of a port's alert started now (R176). -/
def State.escalationTimer (s : State) (p : PortNo) : Timer :=
  { start := s.partTime, length := 1000 * (s.port p).interval }

/-- The alert of a port opened or raised with these causes (R174). -/
def State.openAlert (s : State) (p : PortNo) (c : CauseSet) (reason : AlertReason) : State :=
  let before := (s.alert p).causes.displayed
  ((s.setAlert p { causes := c, level := some 1, acknowledged := false, timer := some (s.escalationTimer p),
                   raised := some s.partTime }).notifyAlert p reason before).queueLine p

/-- A port hands a change of its cause set to the alert relay, which judges it once (R173 to R175). -/
def State.changeCauses (s : State) (p : PortNo) (f : CauseSet → CauseSet) : State :=
  let a := s.alert p
  let c := f a.causes
  if c = a.causes then s
  else
    match a.causes.displayed, c.displayed with
    | before, none => ((s.setAlert p .closed).notifyAlert p .closed before).queueLine p
    | none, some _ => s.openAlert p c .opened
    | some b, some d =>
      if d.rank < b.rank then s.openAlert p c .raised
      else if b.rank < d.rank then ((s.setAlert p { a with causes := c }).notifyAlert p .lowered (some b)).queueLine p
      else (s.setAlert p { a with causes := c }).notifyAlert p .cause (some b)

/-- The cause that a STOP's reason names is added; one already there keeps its zone or code (R131, R173). -/
def CauseSet.addStop (reason : StopReason) (c : CauseSet) : CauseSet :=
  match reason with
  | .jam zone => { c with jam := some (c.jam.getD zone) }
  | .fault code => { c with fault := some (c.fault.getD code) }

/-- TRAY_EMPTY removed (R89). -/
def CauseSet.dropTrayEmpty (c : CauseSet) : CauseSet := { c with trayEmpty := false }

/-! ## Jobs and stock lists (chapters 2 and 4) -/

/-- A job's state changes, and the JOB notice of the change is raised (R25). -/
def State.jobTo (s : State) (j : Slot) (st : JobState) : State :=
  match s.job j with
  | some x =>
    if x.state = st then s
    else (s.setJob j (some { x with state := st })).notify .job (jobNoticeBody j x.state { x with state := st })
  | none => s

/-- A slot leaves the ready queue and the stock wait list (R58, R60, R71). -/
def State.unlist (s : State) (j : Slot) : State :=
  s.setLists (s.dispatch.ready.map (fun l => l.filter (fun i => i ≠ j)))
    (s.dispatch.stockWait.filter (fun i => i ≠ j))

/-- A slot joins its level's list at its head or its tail (R58, R61). -/
def State.joinReady (s : State) (j : Slot) (atHead : Bool) : State :=
  match s.job j with
  | some x =>
    s.setLists (s.dispatch.ready.set x.level
      (if atHead then j :: s.readyAt x.level else s.readyAt x.level ++ [j])) s.dispatch.stockWait
  | none => s

/-- The stock wait list with a slot put after the last entry of its own level and before the first of a greater (R60). -/
def State.waitListWith (s : State) (j : Slot) : List Slot :=
  s.dispatch.stockWait.filter (fun i => s.levelOf i ≤ s.levelOf j)
    ++ j :: s.dispatch.stockWait.filter (fun i => s.levelOf j < s.levelOf i)

/-- A slot takes its place on the stock wait list (R60). -/
def State.joinWait (s : State) (j : Slot) : State := s.setLists s.dispatch.ready (s.waitListWith j)

/-- The STOCK notice of a job that has joined the stock wait list (R60). -/
def State.notifyStock (s : State) (j : Slot) : State :=
  match s.job j with
  | some x => s.notify .stock (stockBody j x s.dispatch.stockWait.length)
  | none => s

/-- One QUEUED job moves to the stock wait list (R63). -/
def State.toStockWait (s : State) (j : Slot) : State :=
  (((s.unlist j).joinWait j).jobTo j .stockwait).notifyStock j

/-- R63: a stock code is judged after a change of tray tables; if it is present no longer, its QUEUED jobs move to the stock
wait list, level 0 first and each level from its head. -/
def State.judgeStock (s : State) (stock : Byte) : State :=
  if s.stockPresent stock then s
  else
    (s.readyOrder.filter (fun j =>
      match s.job j with
      | some x => x.stock = stock
      | none => false)).foldl State.toStockWait s

/-- Several stock codes judged in turn (R63, R80, R86). -/
def State.judgeStocks (s : State) (stocks : List Byte) : State := stocks.foldl State.judgeStock s

/-! ## Port records (chapter 5) -/

/-- A PORT notice for a port's record as it stands (R87). -/
def State.notifyPort (s : State) (p : PortNo) (before : PortState) (reason : PortReason) : State :=
  s.notify .port (portNoticeBody p before (s.port p) reason)

/-- A port's record on entering a state (R80): the state time; entering IDENTIFYING the tag 0 and no setup owner; leaving
the counting states no tray table and no capabilities. -/
def Port.enter (x : Port) (st : PortState) (now : Word32) : Port :=
  let x := { x with state := st, stateTime := now }
  let x := if st = .identifying then { x with nextTag := 0, owner := none } else x
  if st.counting then x else { x with trays := [], caps := none }

/-- A port changes its state (R80): its record, the PORT notice, and the judgement of the stocks it takes away. A port
already in that state does nothing. -/
def State.portTo (s : State) (p : PortNo) (st : PortState) : State :=
  let x := s.port p
  if x.state = st then s
  else
    let s := (s.setPort p (x.enter st s.partTime)).notifyPort p x.state (.state (s.assigned p))
    if x.state.counting && !st.counting then s.judgeStocks (loadedStocks x.trays) else s

/-- The feeding fields cleared (R101). -/
def Port.clearFeeding (x : Port) : Port :=
  { x with wait := .none, gateTimer := none, drain := none, destination := none, request := none }

/-- A message joins the port's outbound side: sent at once by an idle line, else waiting (R193). -/
def Port.queueOut (x : Port) (m : PressOut) : Port :=
  match x.sending with
  | none => { x with sending := some m }
  | some _ => { x with outQueue := x.outQueue ++ [m] }

/-- A port sends a message to its engine (R193). -/
def State.send (s : State) (p : PortNo) (m : PressOut) : State := s.modPort p (fun x => x.queueOut m)

/-- A counter of a port raised by 1, saturating (R98). -/
def bump (n : Nat) : Nat := raiseTo max32 n 1

/-- A FILL is sent and counted (R98, R113). -/
def State.sendFill (s : State) (p : PortNo) (tag : Byte) (back : Bool) (band : Nat) : State :=
  (s.send p (.fill tag back band)).modPort p
    (fun x => { x with counters := { x.counters with fills := bump x.counters.fills } })

/-- A DIVERT is sent if the engine declared a reject tray (R117). -/
def State.divert (s : State) (p : PortNo) (tag : Byte) : State :=
  match (s.port p).caps with
  | some c => if c.reject then s.send p (.divert tag) else s
  | none => s

/-- The fields a sense reading gives a port that enters IDENTIFYING again or anew: R80's, whether or not the state changes. -/
def State.identifyAt (s : State) (p : PortNo) : State :=
  (((s.portTo p .identifying).modPort p (fun x => { x with nextTag := 0, owner := none })).send p .hello)

/-- The class that a reading of the line signal and the sense lines gives (R81). -/
def senseClass (signal : Bool) (sense : Sense) : Option PortClass :=
  if !signal then none else if sense = 0 then some .sheet else if sense = 1 then some .roll else none

/-- A port reads its sense lines and its line signal (R81). The receiver starts in the hunt (R193). -/
def State.readSense (s : State) (p : PortNo) (sense : Sense) : State :=
  let s := s.modPort p (fun x => { x with cls := senseClass x.signal sense, receiver := .hunting })
  if !(s.port p).signal then s.portTo p .absent
  else if sense = 0 || sense = 1 then s.identifyAt p
  else if sense = 2 then s.portTo p .absent
  else
    ((s.portTo p .probing).modPort p
      (fun x => { x with probeTimer := some { start := s.partTime, length := 20 } })).send p (.probe 0)

/-- A reading that sets the state time even where the state stays: after a reset of the part and after PORT_RESET (the
table before R80). -/
def State.readSenseAfresh (s : State) (p : PortNo) (sense : Sense) : State :=
  (s.readSense p sense).modPort p (fun x => { x with stateTime := s.partTime })

/-- The readings of all ports once START has been raised, in ascending order (R81). -/
def State.readAllSenses (s : State) (senses : Vector Sense 12) : State :=
  allPorts.foldl (fun s p => s.readSenseAfresh p senses[p]) s

end Sys2Proof.Machine
end

