-- ==== Sys2Proof/Machine/SpoolOps.lean ====
section
/-! DEFINITION. The shared operations of the spool manager and the job table's reports to it (chapters 2 and 3). -/

namespace Sys2Proof.Machine

/-- A fresh image record (R45). -/
def ImageRec.fresh : ImageRec := { present := 0, lost := 0, sums := Planes.zero, released := false, bands := [] }

/-- The record of a released image (R54). -/
def ImageRec.gone : ImageRec := { present := 0, lost := 0, sums := Planes.zero, released := true, bands := [] }

/-- An image record with a band stored (R48): the entry becomes present and the counts join the plane sums. -/
def ImageRec.store (r : ImageRec) (index block length : Nat) (counts : Planes) : ImageRec :=
  { r with
    present := r.present + 1
    lost := if Bands.find r.bands index = some .lost then r.lost - 1 else r.lost
    sums := r.sums.add counts
    bands := Bands.put r.bands index (.present block length counts) }

/-- An image record with a present band lost (R50). -/
def ImageRec.lose (r : ImageRec) (index : Nat) (counts : Planes) : ImageRec :=
  { r with
    present := r.present - 1
    lost := r.lost + 1
    sums := r.sums.sub counts
    bands := Bands.put r.bands index .lost }

/-- One image record of a slot's job replaced. -/
def State.setImage (s : State) (j : Slot) (image : Nat) (r : ImageRec) : State :=
  s.setImages j ((s.imagesOf j).set image r)

/-- The DRAM with bytes written into a block (R48). -/
def State.writeBlock (s : State) (block : Nat) (bytes : List Byte) : State :=
  { s with spool := { s.spool with dram := Memory.write s.spool.dram (blockAddress block) bytes } }

/-- A band stored, in one step (R48): the block leaves the pool, the entry becomes present, the image record follows. -/
def State.storeBand (s : State) (w : BandWrite) : State :=
  match s.image w.slot w.image with
  | some r =>
    let s := s.setImage w.slot w.image (r.store w.band w.block w.payload.length w.counts)
    { s with spool := { s.spool with pool := Blocks.remove s.spool.pool w.block } }
  | none => s

/-- A present band taken as lost after a parity error, in one step (R50, R51). -/
def State.loseBand (s : State) (j : Slot) (image index : Nat) (reader : Option PortNo) : State :=
  match s.image j image, s.band j image index, s.job j with
  | some r, some (.present block _ counts), some x =>
    let r' := r.lose index counts
    let s := s.setImage j image r'
    let s := { s with spool := { s.spool with
      retired := s.spool.retired ++ [block]
      startUp := if s.spool.startUp = StartUp.ready then StartUp.readyDegraded else s.spool.startUp } }
    s.notify .bandLost (bandLostBody j x.label image index counts block reader r'.present r'.lost)
  | _, _, _ => s

/-- An image released (R54): its blocks join the pool, its entries go, its released flag is set. -/
def State.releaseImage (s : State) (j : Slot) (image : Nat) : State :=
  match s.image j image with
  | some r =>
    let s := s.setImage j image .gone
    { s with spool := { s.spool with pool := Blocks.addAll s.spool.pool (Bands.blocks r.bands) } }
  | none => s

/-- R54: the job table reports a job's new good count; the images of the sheet whose last ordinal it passes are released. -/
def State.releasePassed (s : State) (j : Slot) : State :=
  match s.job j with
  | some x =>
    let last := x.good - 1
    if (x.copies - 1) * x.sheets ≤ last then (x.imagesOfOrdinal last).foldl (fun s i => s.releaseImage j i) s else s
  | none => s

/-- The reads of a slot's job that still run for a port, once the job's entries are removed whole (R55). -/
def Port.dropReads (x : Port) (j : Slot) : Port :=
  { x with reads := x.reads.map (fun r => if r.slot = j then { r with gone := true } else r) }

/-- R55: everything the spool manager holds for a job that has become terminal is discarded. -/
def State.discardJob (s : State) (j : Slot) : State :=
  let blocks := imageBlocks (s.imagesOf j)
  let s := s.setImages j []
  { s with
    spool := { s.spool with pool := Blocks.addAll s.spool.pool blocks }
    ports := s.ports.map (fun q => q.dropReads j) }

/-- A job enters DONE, CANCELLED or FAILED (R25, R35). -/
def State.endJob (s : State) (j : Slot) (st : JobState) : State := (s.jobTo j st).discardJob j

/-- What a band read found (R49). -/
inductive ReadResult where
  | payload (bytes : List Byte)
  | lost
deriving DecidableEq, Repr

/-- A band read ends (R49, R52): judged against the entry first, then for parity; a parity error on a present band takes it
as lost. The entry is the one looked up if it still names the block that was read (log entry 12). -/
def State.endRead (s : State) (j : Slot) (image index block : Nat) (parityError : Bool) (reader : Option PortNo) :
    State × ReadResult :=
  match s.band j image index with
  | some (.present b length _) =>
    if b ≠ block then (s, .lost)
    else if parityError then (s.loseBand j image index reader, .lost)
    else (s, .payload (Memory.load s.spool.dram (blockAddress block) length))
  | _ => (s, .lost)

/-- A band read begins for a sheet of a port (R49): the block is the one the entry names at the lookup. -/
def State.beginRead (s : State) (p : PortNo) (tag : Byte) (back : Bool) (index : Nat) (j : Slot) (image block : Nat) :
    State :=
  s.modPort p fun x => { x with reads := x.reads ++
    [{ tag := tag, back := back, band := index, slot := j, image := image, block := block, live := true, gone := false }] }

/-! ## Reports to the job table -/

/-- R22: the good count rises by 1; a lost ordinal that it passes is removed with its count, even one that a failing job lost
five times (DEDUCED: R22 against R37's "stays at 5", log entry 32). -/
def Job.oneMoreGood (x : Job) : Job :=
  let good := x.good + 1
  match x.lostOrdinal with
  | some o => if o < good then { x with good := good, lostOrdinal := none, lossCount := 0 } else { x with good := good }
  | none => { x with good := good }

/-- R37: a loss of an ordinal is reported. -/
def Job.loss (x : Job) (o : Nat) : Job :=
  if x.lossCount = 5 then x
  else
    match x.lostOrdinal with
    | none => { x with lostOrdinal := some o, lossCount := 1 }
    | some held =>
      if o = held then { x with lossCount := x.lossCount + 1 }
      else if o < held then { x with lostOrdinal := some o, lossCount := 1 }
      else x

/-- R22: a WASTE outcome is reported. -/
def Job.oneMoreWaste (x : Job) (c : WasteCause) : Job :=
  { x with
    waste := raiseTo max32 x.waste 1
    underruns := if c = .underrun then raiseTo max32 x.underruns 1 else x.underruns }

/-- R24: the three pending flags cleared. -/
def Job.clearFlags (x : Job) : Job := { x with cancel := false, suspend := false, slice := false }

end Sys2Proof.Machine
end

