-- ==== Sys2Proof/Machine/MeterOps.lean ====
section
/-! DEFINITION. The shared operations of the meter unit (chapters 8 and 9). -/

namespace Sys2Proof.Machine

/-! ## The account's jobs (R163, R164) -/

/-- R163: an account enters HELD or is closed: its waiting jobs become HELD in slot order, and the ports running its jobs are
told. -/
def State.holdJobs (s : State) (a : AccountNo) : State :=
  let waiting := allSlots.filter fun j =>
    match s.job j with
    | some x => x.account = a && (x.state = .queued || x.state = .stockwait)
    | none => false
  let s := waiting.foldl (fun s j => (s.unlist j).jobTo j .held) s
  let running := allPorts.filter fun p =>
    match s.assignedJob p with
    | some x => x.account = a
    | none => false
  s.post (.decideEach running)

/-- R164: an account leaves HELD, or is reopened: its HELD jobs are released in slot order, each placed before the next. -/
def State.releaseJobs (s : State) (a : AccountNo) : State :=
  (allSlots.filter fun j =>
    match s.job j with
    | some x => x.account = a && x.state = .held
    | none => false).foldl (fun s j => s.post (.releaseHeld j)) s

/-- The ACCOUNT notice of a change of state that enters or leaves LOW or HELD (R162). -/
def State.noticeAccount (s : State) (a : AccountNo) (before : AccountState) (x : Account) (cause : AccountCause) : State :=
  if accountNoticed before x.state then s.notify .account (accountNoticeBody a before x cause) else s

/-- What an account's change of state does to its jobs (R163, R164). -/
def State.moveAccountJobs (s : State) (a : AccountNo) (before after : AccountState) : State :=
  if before = after then s
  else if after.stops then s.holdJobs a
  else if after.good && before.stops then s.releaseJobs a
  else s

/-- An account's record is replaced and its change of state told: the ACCOUNT notice (R162), then the effect on its jobs. -/
def State.accountTo (s : State) (a : AccountNo) (x : Account) (cause : AccountCause) : State :=
  let before := (s.account a).state
  ((s.setAccount a x).noticeAccount a before x cause).moveAccountJobs a before x.state

/-- The record after the account watch has run (R162). It does not run in UNSET or CLOSED. -/
def Account.watched (x : Account) : Account :=
  match x.state with
  | .opened | .low | .held => { x with state := watchState x.balance x.low x.floor }
  | _ => x

/-- The record after a GOOD sheet is debited (R161), before the watch. -/
def Account.debit (x : Account) (charge : Nat) : Account :=
  { x with
    balance := saturate32 (x.balance - charge)
    charged := raiseTo max64 x.charged charge
    goodSheets := raiseTo max32 x.goodSheets 1 }

/-! ## The charge (R145) -/

/-- The plane sums of each side a sheet has, front first, as they stand (R145). -/
def State.sheetSums (s : State) (j : Slot) (x : Job) (o : Nat) : List Planes :=
  (x.imagesOfOrdinal o).map fun i =>
    match s.image j i with
    | some r => r.sums
    | none => Planes.zero

/-- The size class a job is charged under; R141 and R79 keep it set (log entry 23 for a state that no run reaches). -/
def State.classOf (s : State) (x : Job) : SizeClass :=
  (s.meter.sizes[x.sizeClass]).getD { factor := 0, shift := 16, weight := 0, bands := 0 }

/-- The tier a job is charged under: the one its account names, as it stands (R145). -/
def State.tierOf (s : State) (x : Job) : Tier :=
  ((s.account x.account).tier.bind (fun t => s.meter.tiers[t])).getD { base := 0, rates := Planes.zero, allowance := 0 }

/-- The charge of a sheet of ordinal `o` of a job, from what stands now (R145, R151). -/
def State.chargeOf (s : State) (j : Slot) (x : Job) (o : Nat) : Nat :=
  sheetCharge (s.classOf x) (s.tierOf x) (s.sheetSums j x o)

/-- The four coverage figures of the same sheet (R151). -/
def State.coverageOf (s : State) (j : Slot) (x : Job) (o : Nat) : Planes :=
  sheetCoverage (s.classOf x) (s.sheetSums j x o)

/-! ## The meter log (R165 to R170) -/

/-- The record of an outcome (R165). -/
def State.recordOf (s : State) (j : Slot) (x : Job) (p : PortNo) (o : Nat) (waste : Option WasteCause) : MeterRecord :=
  { waste := waste, slot := j, label := x.label, account := x.account, ordinal := o, port := p, sides := x.sides,
    coverage := s.coverageOf j x o, charge := s.chargeOf j x o, time := s.partTime }

/-- The log with a record written under the policy in force, and the count of dropped records (R166). -/
def writeLog (policy : LogPolicy) (log : List MeterRecord) (dropped : Nat) (r : MeterRecord) : List MeterRecord × Nat :=
  if log.length < 256 then (log ++ [r], dropped)
  else
    match policy with
    | .wrap => (log.drop 1 ++ [r], raiseTo 65535 dropped 1)
    | _ => (log, raiseTo 65535 dropped 1)

/-- R170: the log's count has risen from 191 to 192 with the high-mark flag clear. -/
def State.highMark (s : State) (before : Nat) : State :=
  if before = 191 && s.meter.log.length = 192 && !s.meter.highMark then
    let s := { s with meter := { s.meter with highMark := true } }
    s.notify .meterHigh (meterHighBody s.meter)
  else s

/-- An outcome's record is written; under STALL the sheet's reservation is removed (R166, R167). -/
def State.writeRecord (s : State) (r : MeterRecord) : State :=
  let before := s.meter.log.length
  let w := writeLog s.meter.policy s.meter.log s.meter.dropped r
  State.highMark
    { s with meter := { s.meter with
        log := w.1
        dropped := w.2
        reservations := if s.meter.policy = .stall then s.meter.reservations - 1 else s.meter.reservations } } before

/-- R128, R167: a WITHDRAWN outcome releases its reservation under STALL, and the room is reported. Where
one event settles several sheets, no rule says when within it the ports take the reports: that they take them once every sheet
is settled and the job rewound, before the event's sheet-boundary decision or leaving, is the model's choice (log entry 37). -/
def State.releaseReservation (s : State) : State :=
  if s.meter.policy = .stall then
    State.post { s with meter := { s.meter with reservations := s.meter.reservations - 1 } } .roomReport
  else s

end Sys2Proof.Machine
end

