-- ==== Sys2Proof/Machine/FeedOps.lean ====
section
/-! DEFINITION. The shared operations of a feeding port: marking sheets, rewind, the sheet-boundary decision, band serving
(chapters 4 and 6). -/

namespace Sys2Proof.Machine

/-! ## Rewind and marks (R112, R116, R117, R130) -/

/-- A rewind to `r` is reported: the next ordinal is lowered (R22), and a port draining for END feeds again (R112). A value
that is no lowering changes nothing. -/
def State.rewindTo (s : State) (p : PortNo) (r : Nat) : State :=
  match s.assigned p, s.assignedJob p with
  | some j, some x =>
    if r < x.next then
      let s := s.setJob j (some { x with next := r })
      if (s.port p).state = .draining && (s.port p).drain = some .endOfJob then
        (s.modPort p (fun q => { q with drain := none, destination := none })).portTo p .feeding
      else s
    else s
  | _, _ => s

/-- The band request in waiting of a sheet that has just been superseded ends at once with FILL (R114). -/
def State.endRequestOf (s : State) (p : PortNo) (superseded : List Byte) : State :=
  match (s.port p).request with
  | some r =>
    if superseded.contains r.tag then
      (s.modPort p (fun x => { x with request := none })).sendFill p r.tag r.back r.band
    else s
  | none => s

/-- Every unmarked sheet of the queue with an ordinal above `o` is marked superseded. -/
def supersede (path : List Sheet) (o : Nat) : List Sheet :=
  path.map (fun x => if x.isUnmarked && o < x.ordinal then { x with mark := .superseded } else x)

/-- The tags of the sheets that `supersede` marks. -/
def supersededTags (path : List Sheet) (o : Nat) : List Byte :=
  (path.filter (fun x => x.isUnmarked && o < x.ordinal)).map (·.tag)

/-- DIVERT is sent for each of these tags (R117). -/
def State.divertAll (s : State) (p : PortNo) (tags : List Byte) : State := tags.foldl (fun s t => s.divert p t) s

/-- A sheet of the queue marked spoiled, in its place. -/
def spoilMark (path : List Sheet) (tag : Byte) (cause : SpoilCause) : List Sheet :=
  path.map (fun x => if x.tag = tag then { x with mark := .spoiled cause } else x)

/-- R116: an unmarked sheet is spoiled; the unmarked sheets above it are superseded, the job rewinds to it, the newly marked
sheets are diverted, and the port decides again. A marked sheet is not marked again. -/
def State.spoil (s : State) (p : PortNo) (tag : Byte) (cause : SpoilCause) : State :=
  match sheetOf (s.port p).path tag with
  | some x =>
    if x.isUnmarked then
      let path := (s.port p).path
      let above := supersededTags path x.ordinal
      let marked := (path.filter (fun y => y.tag = tag || (y.isUnmarked && x.ordinal < y.ordinal))).map (·.tag)
      let s := s.modPort p (fun q => { q with path := spoilMark (supersede q.path x.ordinal) tag cause })
      let s := s.rewindTo p x.ordinal
      let s := s.divertAll p marked
      (s.endRequestOf p above).post (.decide p)
    else s
  | none => s

/-- R130: the rewind rule, after the sheets an event settles have taken their outcomes. -/
def State.rewindRule (s : State) (p : PortNo) (settled : List (Sheet × Outcome1)) : State :=
  match rewindOrdinal settled with
  | some r =>
    let s := s.rewindTo p r
    let tags := supersededTags (s.port p).path r
    let s := s.modPort p (fun q => { q with path := supersede q.path r })
    (s.divertAll p tags).endRequestOf p tags
  | none => s

/-! ## Stopping and starting (R104, R110) -/

/-- The destination that goes with a drain cause (R73, R104). -/
def DrainCause.destination : DrainCause → Destination
  | .account => .held
  | .slice => .tail
  | _ => .head

/-- R104: the port stops feeding: cause and destination recorded, the gate wait timer stopped, DRAINING entered. With an
empty queue the job leaves at once (R111). -/
def State.stopFeeding (s : State) (p : PortNo) (c : DrainCause) : State :=
  ((s.modPort p (fun x => { x with drain := some c, destination := some c.destination, gateTimer := none,
                                   wait := .none })).portTo p .draining).post (.afterRemoval p)

/-- R110: the sheet of the job's next ordinal is started, and the decision runs again. -/
def State.startSheet (s : State) (p : PortNo) (j : Slot) (x : Job) : State :=
  let q := s.port p
  let tray := ((feedTray q.trays x.stock).map (·.number)).getD 0
  let s := s.send p (.sheet q.nextTag (BitVec.ofNat 16 x.next) x.sizeClass tray x.sides)
  let s := s.modPort p fun q =>
    { q with
      path := q.path ++ [{ tag := q.nextTag, ordinal := x.next, state := .started, mark := .unmarked }]
      nextTag := q.nextTag + 1
      wait := .none
      gateTimer := none
      counters := { q.counters with sheetsStarted := bump q.counters.sheetsStarted } }
  let s :=
    if s.meter.policy = .stall then { s with meter := { s.meter with reservations := s.meter.reservations + 1 } } else s
  (s.setJob j (some { x with next := x.next + 1 })).post (.decide p)

/-! ## The boundary test (R72, R77) -/

/-- The dispatcher's answer to the boundary test. -/
inductive Boundary where
  | urgent | slice | goOn
deriving DecidableEq, Repr

/-- R72: the answer to a port about its running job. -/
def State.boundaryTest (s : State) (p : PortNo) (x : Job) : Boundary :=
  if s.waitsBelow p x.level.val then .urgent
  else if x.slice && s.waitsBelow p (x.level.val + 1) then .slice
  else .goOn

/-- A slice timer started now for a job of a level; none where the level has no slice (R75, R77). -/
def State.sliceTimer (s : State) (l : Level) : Option Timer :=
  if s.dispatch.slices[l] = 0 then none else some { start := s.partTime, length := s.dispatch.slices[l] }

/-- R72, R77: a boundary test that answers CONTINUE clears a set SLICE flag and restarts the slice timer. -/
def State.restartSlice (s : State) (p : PortNo) (j : Slot) (x : Job) : State :=
  if x.slice then
    let s := s.setJob j (some { x with slice := false })
    match s.assignment p with
    | some a => s.setAssignment p (some { a with slice := s.sliceTimer x.level })
    | none => s
  else s

/-! ## The sheet-boundary decision (R103) -/

/-- The port waits for log room or path room: any gate wait timer stops (R103). -/
def State.waitFor (s : State) (p : PortNo) (w : Wait) : State :=
  s.modPort p (fun x => { x with wait := w, gateTimer := none })

/-- R108: the port waits for its gate; a stopped timer is started; a setting of 0 does not wait. -/
def State.waitForGate (s : State) (p : PortNo) : State :=
  match (s.port p).gateTimer with
  | some _ => s.modPort p (fun x => { x with wait := .gate })
  | none =>
    if (s.port p).gateWait = 0 then s.stopFeeding p .gateWait
    else
      s.modPort p (fun x => { x with wait := .gate, gateTimer := some { start := s.partTime, length := x.gateWait } })

/-- The path depth the engine declared (R85). -/
def Port.depth (x : Port) : Nat := (x.caps.map (·.depth)).getD 0

/-- Steps 1 to 4 of the decision: the cause to stop feeding, if one of them holds (R103, R104). -/
def State.stopCause (s : State) (p : PortNo) (x : Job) : Option DrainCause :=
  if (s.port p).held then some .hold
  else if x.cancel || x.suspend || x.failing then some .flags
  else if (s.account x.account).state.stops then some .account
  else if x.next = x.total then some .endOfJob
  else if !loadedWith (s.port p).trays x.stock then some .noTray
  else none

/-- Steps 6 to 9 of the decision (R103): wait for log room, the gate or path room, or start a sheet. -/
def State.waitOrStart (s : State) (p : PortNo) (j : Slot) : State :=
  match s.job j with
  | some x =>
    if s.logFull then s.waitFor p .log
    else if !s.gateMet j x.next then s.waitForGate p
    else if (s.port p).depth ≤ (s.port p).path.length then s.waitFor p .path
    else s.startSheet p j x
  | none => s

/-- R102, R103: a FEEDING port runs its sheet-boundary decision; a port in any other state does nothing (R106). -/
def State.runDecision (s : State) (p : PortNo) : State :=
  if (s.port p).state ≠ .feeding then s
  else
    match s.assigned p, s.assignedJob p with
    | some j, some x =>
      match s.stopCause p x with
      | some c => s.stopFeeding p c
      | none =>
        match s.boundaryTest p x with
        | .urgent => s.stopFeeding p .urgent
        | .slice => (s.setJob j (some { x with slice := false })).stopFeeding p .slice
        | .goOn => (s.restartSlice p j x).waitOrStart p j
    | _, _ => s

/-! ## Band serving (R113 to R115) -/

/-- The band request in waiting ends without its band: FILL is sent and its sheet is spoiled UNDERRUN (R113, R114). -/
def State.failRequest (s : State) (p : PortNo) : State :=
  match (s.port p).request with
  | some r =>
    ((s.modPort p (fun x => { x with request := none })).sendFill p r.tag r.back r.band).spoil p r.tag .underrun
  | none => s

/-- R113: the band asked for is looked up and the port answers, waits or begins a read. `x` is the sheet as it stands once
an earlier request has been ended. A lost entry is answered lost also while a BAND_PUT's write over it runs (DEDUCED: R49's
table against R48, log entry 33). -/
def State.answerWant (s : State) (p : PortNo) (j : Slot) (image : Nat) (x : Sheet) (back : Bool) (index : Nat) : State :=
  match s.band j image index with
  | some (.present block _ _) => s.beginRead p x.tag back index j image block
  | some .lost => (s.sendFill p x.tag back index).spoil p x.tag .parity
  | none =>
    if x.isUnmarked then
      if (s.port p).grace = 0 then (s.sendFill p x.tag back index).spoil p x.tag .underrun
      else
        let grace : Timer := { start := s.partTime, length := (s.port p).grace }
        s.modPort p (fun q => { q with request := some { tag := x.tag, back := back, band := index, timer := grace } })
    else s.sendFill p x.tag back index

/-- R113: WANT is taken for a sheet of the queue, a side the job has and a band its size class has. A request already waiting is
ended first. That the new request is judged by the marks as they then stand, and answered before the decision that the earlier
sheet's spoil runs (R105, R116), is the model's choice (log entry 17). -/
def State.takeWant (s : State) (p : PortNo) (tag : Byte) (back : Bool) (index : Nat) : State :=
  match s.assigned p, s.assignedJob p, sheetOf (s.port p).path tag with
  | some j, some x, some sheet =>
    if (back && x.sides ≠ 2) || s.bandsPerSide x.sizeClass ≤ index then s
    else
      let s := s.failRequest p
      match sheetOf (s.port p).path tag with
      | some now => s.answerWant p j (x.imageOfSide sheet.ordinal back) now back index
      | none => s
  | _, _, _ => s

/-- R114: a stored band that a port's request in waiting names begins to be read for it. -/
def State.serveRequest (s : State) (j : Slot) (image index block : Nat) : State :=
  match s.portRunning j with
  | some p =>
    match (s.port p).request, s.job j with
    | some r, some x =>
      match sheetOf (s.port p).path r.tag with
      | some sheet =>
        if r.band = index && x.imageOfSide sheet.ordinal r.back = image then
          (s.modPort p (fun q => { q with request := none })).beginRead p r.tag r.back index j image block
        else s
      | none => s
    | _, _ => s
  | none => s

/-- R115: a read begun for the port's engine has ended, and the port answers by its queue as it stands. -/
def State.answerRead (s : State) (p : PortNo) (r : BandRead) (result : ReadResult) : State :=
  if !r.live then s
  else
    match result with
    | .payload bytes => s.send p (.band r.tag r.back r.band bytes)
    | .lost => (s.sendFill p r.tag r.back r.band).spoil p r.tag .parity

end Sys2Proof.Machine
end

