-- ==== Sys2Proof/Machine/PathOps.lean ====
section
/-! DEFINITION. Outcomes and the settling of a paper-path queue (chapter 7). -/

namespace Sys2Proof.Machine

/-- A sheet leaves the queue (R129): the port forgets it, a request of its waits no longer (R114), and reads still running
for it find it gone (R101, R115). -/
def Port.forget (x : Port) (tag : Byte) : Port :=
  { x with
    path := x.path.filter (fun y => y.tag ≠ tag)
    request := match x.request with
      | some r => if r.tag = tag then none else some r
      | none => none
    reads := x.reads.map (fun r => if r.tag = tag then { r with live := false } else r) }

/-- R126: the outcome GOOD, with its reports in order. UNDERRUN leaves the alert here, in a change of its own, before the
TRAY_EMPTY of a job that leaves at this delivery (R111, R133; the model's choice, log entry 14: R173). -/
def State.goodOutcome (s : State) (p : PortNo) (j : Slot) (x : Job) (sheet : Sheet) : State :=
  let record := s.recordOf j x p sheet.ordinal none
  let s := s.setJob j (some { x with charge := x.charge + record.charge })
  let s := s.accountTo x.account ((s.account x.account).debit record.charge).watched .debit
  let s := s.writeRecord record
  let s := (s.modJob j Job.oneMoreGood).releasePassed j
  let s := s.modPort p fun q =>
    { q with counters := { q.counters with good := bump q.counters.good }, underruns := 0 }
  let s := s.changeCauses p (fun c => { c with underrun := false })
  s.modPort p (fun q => q.forget sheet.tag)

/-- R119: a permanent underrun is declared. Where the sheet is settled by a link loss, UNDERRUN joins the alert here, in a change
of its own, before LINK_LOST (the model's choice, log entry 14: R173). -/
def State.permanentUnderrun (s : State) (p : PortNo) (j : Slot) : State :=
  let s := s.changeCauses p (fun c => { c with underrun := true })
  let s := s.modJob j (fun x => { x with forcedWhole := true })
  if (s.port p).state = .feeding then s.stopFeeding p .underrun else s

/-- R118: a WASTE UNDERRUN outcome raises the port's run count; at 3 a permanent underrun is declared. -/
def State.countUnderrun (s : State) (p : PortNo) (j : Slot) : State :=
  let n := min ((s.port p).underruns + 1) 3
  let s := s.modPort p (fun q => { q with underruns := n })
  if n = 3 then s.permanentUnderrun p j else s

/-- R127: an outcome WASTE of a cause, with its reports in order. -/
def State.wasteOutcome (s : State) (p : PortNo) (j : Slot) (x : Job) (sheet : Sheet) (c : WasteCause) : State :=
  let s := s.writeRecord (s.recordOf j x p sheet.ordinal (some c))
  let s := s.modAccount x.account (fun a => { a with wasteSheets := raiseTo max32 a.wasteSheets 1 })
  let s := s.modJob j (fun y => (y.oneMoreWaste c).loss sheet.ordinal)
  let s := s.modPort p (fun q => { q with counters := { q.counters with waste := bump q.counters.waste } })
  let s := if c = .underrun then s.countUnderrun p j else s
  s.modPort p (fun q => q.forget sheet.tag)

/-- R128: the outcome WITHDRAWN. -/
def State.withdrawnOutcome (s : State) (p : PortNo) (sheet : Sheet) : State :=
  s.releaseReservation.modPort p fun q =>
    Port.forget { q with counters := { q.counters with withdrawn := bump q.counters.withdrawn } } sheet.tag

/-- A sheet takes its outcome (R125 to R128). -/
def State.takeOutcome (s : State) (p : PortNo) (sheet : Sheet) (o : Outcome1) : State :=
  match s.assigned p, s.assignedJob p with
  | some j, some x =>
    match o with
    | .good => s.goodOutcome p j x sheet
    | .waste c => s.wasteOutcome p j x sheet c
    | .withdrawn => s.withdrawnOutcome p sheet
  | _, _ => s

/-- Several sheets take their outcomes, oldest first, and the rewind rule is applied once (R125, R130). The room that
withdrawn sheets open is reported after that (log entry 37). -/
def State.settleSheets (s : State) (p : PortNo) (settled : List (Sheet × Outcome1)) : State :=
  (settled.foldl (fun s e => s.takeOutcome p e.1 e.2) s).rewindRule p settled

/-- R123, R124: DELIVERED names a sheet of the queue: the sheets ahead of it are settled as passed, then it takes the outcome
of its mark as it then stands. -/
def State.takeDelivered (s : State) (p : PortNo) (tag : Byte) : State :=
  match sheetOf (s.port p).path tag with
  | some _ =>
    let passed := (s.port p).path.takeWhile (fun x => x.tag ≠ tag)
    let s := s.settleSheets p (passed.map (fun x => (x, abandonedOutcome x)))
    match sheetOf (s.port p).path tag with
    | some now => (s.takeOutcome p now (deliveredOutcome now)).post (.afterRemoval p)
    | none => s
  | none => s

/-- R132, R135: the queue is settled against a STOP's list; what stays is FINISH. -/
def State.settleStop (s : State) (p : PortNo) (items : List StopItem) : State :=
  let path := (s.port p).path
  let settled := path.filterMap (fun x => (stopOutcome items x).map (fun o => (x, o)))
  let s := s.modPort p fun q =>
    { q with path := q.path.map (fun x => if (stopOutcome items x).isNone then { x with state := .finish } else x) }
  s.settleSheets p settled

/-- R136: every sheet still in the queue is settled at CLEARED. -/
def State.settleCleared (s : State) (p : PortNo) : State :=
  s.settleSheets p ((s.port p).path.map (fun x => (x, clearedOutcome x)))

/-- R138, R139: every sheet of the queue is settled at link loss or PORT_RESET. PORT_RESET settles exactly as link loss does,
with the port taken as LOST while it settles: no rewind returns it to FEEDING and no underrun stops its feeding, since its
assignment is ending (R130; log entry 31). -/
def State.settleAbandoned (s : State) (p : PortNo) : State :=
  let before := (s.port p).state
  let s := s.modPort p (fun q => { q with state := .lost })
  let s := s.settleSheets p ((s.port p).path.map (fun x => (x, abandonedOutcome x)))
  s.modPort p (fun q => { q with state := before })

end Sys2Proof.Machine
end

