-- ==== Sys2Proof/Machine/Agenda.lean ====
section
/-! DEFINITION. Placement, assignment and leaving (chapters 2 and 4), and the work list by which one command's step brings
about, whole, everything that the rules make follow from it (spec/95_what_each_step_holds.md; log entry 4). -/

namespace Sys2Proof.Machine

/-! ## Placement and assignment (R61, R67 to R70, R90) -/

/-- The choice of port for a job and the signal to feeding ports that an entry into the queue brings (R61, R70). -/
def State.seekPort (s : State) (j : Slot) : State := (s.post (.choosePort j)).post (.signalPorts j)

/-- R61: a job is placed at the head or the tail of its level, or on the stock wait list. -/
def State.place (s : State) (j : Slot) (atHead : Bool) : State :=
  match s.job j with
  | some x =>
    let s := s.unlist j
    if s.stockPresent x.stock then ((s.joinReady j atHead).jobTo j .queued).seekPort j
    else ((s.joinWait j).jobTo j .stockwait).notifyStock j
  | none => s

/-- R90: a port is told its job: FEEDING with a first decision if it is the setup owner, else SETUP. -/
def State.takeJob (s : State) (p : PortNo) (j : Slot) (x : Job) : State :=
  if (s.port p).owner = some j then (s.portTo p .feeding).post (.decide p)
  else
    ((s.portTo p .setup).send p (.setup x.setup)).modPort p
      (fun q => { q with setupTimer := some { start := s.partTime, length := 5000 } })

/-- R67: a QUEUED job is assigned to a port. -/
def State.assign (s : State) (p : PortNo) (j : Slot) : State :=
  let s := (s.unlist j).modJob j (fun x => { x with lastPort := some p })
  let s := s.jobTo j .running
  match s.job j with
  | some x =>
    (s.setAssignment p (some { slot := j, since := s.partTime, slice := s.sliceTimer x.level })).takeJob p j x
  | none => s

/-- R69: the choice of port for a job, if it is still QUEUED. -/
def State.seekPortNow (s : State) (j : Slot) : State :=
  if s.jobIs j .queued then
    match s.choosePort j with
    | some p => s.assign p j
    | none => s
  else s

/-- R68: the choice of job for a port, if it is free. -/
def State.seekJobNow (s : State) (p : PortNo) : State :=
  if s.free p then
    match s.chooseJob p with
    | some j => s.assign p j
    | none => s
  else s

/-- R74: the signal to feeding ports, if the job is still QUEUED. -/
def State.signalNow (s : State) (j : Slot) : State :=
  if s.jobIs j .queued then s.post (.decideEach (s.signalled j)) else s

/-- The port that runs a job is told of something that makes it decide again: a change of the job's flags (R24) or the
gate-met signal (R57, R105). -/
def State.tellPort (s : State) (j : Slot) : State :=
  match s.portRunning j with
  | some p => s.post (.decide p)
  | none => s

/-! ## Leaving (R26, R78) -/

/-- R78: the dispatcher ends a port's assignment and counts the time assigned. -/
def State.endAssignment (s : State) (p : PortNo) (a : Assignment) (x : Job) : State :=
  let time := elapsed s.partTime a.since
  let s := s.modJob a.slot (fun y => { y with pressTime := raiseTo max32 y.pressTime time })
  let s := s.modAccount x.account (fun y => { y with pressTime := raiseTo max64 y.pressTime time })
  s.setAssignment p none

/-- R26: the new state of a job that has left its port; none where it is handed to the dispatcher. -/
def State.leavingState (s : State) (x : Job) (d : Destination) : Option JobState :=
  if x.good = x.total then some .done
  else if x.failing then some .failed
  else if x.cancel then some .cancelled
  else if x.suspend then some .paused
  else if (s.account x.account).state.stops || d = .held then some .held
  else none

/-- R26, R78: a port reports that its job has left. A report from a port without a job changes nothing. R164: a job that
enters HELD while its account is OPEN or LOW is released at once. -/
def State.leaveNow (s : State) (p : PortNo) (d : Destination) : State :=
  match s.assignment p, s.assignedJob p with
  | some a, some x =>
    let j := a.slot
    let s := (s.endAssignment p a x).modJob j Job.clearFlags
    match s.leavingState x d with
    | some .done => s.endJob j .done
    | some .failed => s.endJob j .failed
    | some .cancelled => s.endJob j .cancelled
    | some .held =>
      let s := s.jobTo j .held
      if (s.account x.account).state.good then s.post (.releaseHeld j) else s
    | some st => s.jobTo j st
    | none => s.place j (d = .head)
  | _, _ => s

/-- A job leaves the port for a destination, and then the port goes on. -/
def State.leaveThen (s : State) (p : PortNo) (d : Destination) (t : Task) : State := (s.post (.leave p d)).post t

/-! ## What follows at a port -/

/-- R129: after sheets have left a port's queue: FEEDING decides, an empty DRAINING or STOPPED queue lets the job leave. -/
def State.afterRemovalNow (s : State) (p : PortNo) : State :=
  match (s.port p).state with
  | .feeding => s.runDecision p
  | .draining =>
    if (s.port p).path = [] then s.leaveThen p ((s.port p).destination.getD .head) (.backToReady p) else s
  | .stopped =>
    if (s.port p).path = [] && (s.assignment p).isSome then s.leaveThen p .head (.leftStopped p) else s
  | _ => s

/-- The feeding fields cleared and TRAY_EMPTY removed, as at every leaving (R89, R101): a change of the alert's causes of its
own, apart from the one that the event itself makes (DEDUCED, log entry 14). -/
def State.clearAfterLeaving (s : State) (p : PortNo) : State :=
  (s.modPort p Port.clearFeeding).changeCauses p CauseSet.dropTrayEmpty

/-- R92, R111: the port whose job has left returns to READY, and the dispatcher makes the choice of job for it. -/
def State.backToReadyNow (s : State) (p : PortNo) : State :=
  ((s.clearAfterLeaving p).portTo p .ready).post (.chooseJob p)

/-- R93: SETUP_TIMEOUT is added, and the port identifies its engine again. -/
def State.setupTimedOutNow (s : State) (p : PortNo) : State :=
  ((s.clearAfterLeaving p).changeCauses p (fun c => { c with setupTimeout := true })).identifyAt p

/-- R82, R138: the job of a port that entered LOST has left; LINK_LOST is added. -/
def State.lostSettledNow (s : State) (p : PortNo) : State :=
  (s.clearAfterLeaving p).changeCauses p (fun c => { c with linkLost := true })

/-- R136, steps 4 and 5: JAM and ENGINE_FAULT are removed in one change, after the change that took TRAY_EMPTY with a job that
still left (DEDUCED, log entry 14), and the port enters READY. -/
def State.clearedSettledNow (s : State) (p : PortNo) : State :=
  ((s.changeCauses p (fun c => { c with jam := none, fault := none })).portTo p .ready).post (.chooseJob p)

/-- A port's record with everything gone that PORT_RESET's third step discards (R97, R101), and the waiting frames of its
outbound side (R193). -/
def Port.wiped (x : Port) : Port :=
  { x.clearFeeding with
    owner := none, caps := none, trays := [], refusal := none, nextTag := 0, underruns := 0, counters := .zero,
    outQueue := [] }

/-- R97, steps 3 to 5: the record is emptied, its stocks are judged, every cause leaves the alert in one change (R173), the
sense lines are read afresh. -/
def State.portResetRestNow (s : State) (p : PortNo) (sense : Sense) : State :=
  let stocks := loadedStocks (s.port p).trays
  (((s.modPort p Port.wiped).judgeStocks stocks).changeCauses p (fun _ => CauseSet.empty)).readSenseAfresh p sense

/-! ## Reports that reach several ports (R105, R107, R167) -/

/-- The FEEDING ports of a list. -/
def State.feedingAmong (s : State) (ps : List PortNo) : List PortNo := ps.filter (fun p => (s.port p).state = .feeding)

/-- One port of the list, of the arbiter's choosing, takes the report; the others take it after (log entry 1). -/
def State.decideEachNow (s : State) (ps : List PortNo) : State :=
  match s.feedingAmong ps with
  | [] => s
  | [q] => s.post (.decide q)
  | q :: qs =>
    let all := q :: qs
    let first := all.getD (Config.arbiter s.choices all.length % all.length) q
    ((({ s with choices := s.choices + 1 } : State)).post (.decide first)).post
      (.decideEach (all.filter (fun r => r ≠ first)))

/-- R167: room in the log, or the policy's leaving STALL, is reported to every port. -/
def State.roomReportNow (s : State) : State := s.post (.decideEach allPorts)

/-! ## The work list -/

/-- One task of the work list is done. -/
def doTask (t : Task) (s : State) : State :=
  match t with
  | .decide p => s.runDecision p
  | .decideEach ps => s.decideEachNow ps
  | .afterRemoval p => s.afterRemovalNow p
  | .leave p d => s.leaveNow p d
  | .backToReady p => s.backToReadyNow p
  | .leftStopped p => s.clearAfterLeaving p
  | .choosePort j => s.seekPortNow j
  | .signalPorts j => s.signalNow j
  | .chooseJob p => s.seekJobNow p
  | .stockLoaded stock =>
    (s.dispatch.stockWait.filter (fun j =>
      match s.job j with
      | some x => x.stock = stock
      | none => false)).foldl (fun s j => s.post (.releaseStocked j)) s
  | .releaseStocked j => if s.jobIs j .stockwait then s.place j false else s
  | .releaseHeld j =>
    match s.job j with
    | some x => if x.state = .held && (s.account x.account).state.good then s.place j false else s
    | none => s
  | .roomReport => s.roomReportNow
  | .setupTimedOut p => s.setupTimedOutNow p
  | .lostSettled p => s.lostSettledNow p
  | .clearedSettled p => s.clearedSettledNow p
  | .portResetRest p sense => s.portResetRestNow p sense

/-- Tasks are done, the oldest first; what a task brings about is done before what stood behind it. The work list is empty
afterwards. -/
def settleWith : Nat → State → State
  | 0, s => { s with agenda := [] }
  | fuel + 1, s =>
    match s.agenda with
    | [] => s
    | t :: rest =>
      let s' := doTask t { s with agenda := [] }
      settleWith fuel { s' with agenda := s'.agenda ++ rest }

/-- Everything that follows is brought about (log entry 4 says why the bound is never reached). -/
def State.settle (s : State) : State := settleWith 65536 s

/-- The end of a step: everything that follows is brought about, and the outbound line takes its next frame (R7). -/
def State.finish (s : State) : State := s.settle.pump

end Sys2Proof.Machine
end

