-- ==== Sys2Proof/Machine/Operands.lean ====
section
/-! DEFINITION. The operands of requests: the fields of their bodies (R184, R186 to R188), and the tests by which the owning
rules refuse them. -/

namespace Sys2Proof.Machine

/-! ## Numbers of things -/

/-- A byte that numbers a port; none out of range. -/
def port? (b : Byte) : Option PortNo := if h : b.toNat < 12 then some ⟨b.toNat, h⟩ else none

/-- A byte that numbers a job slot. -/
def slot? (b : Byte) : Option Slot := if h : b.toNat < 128 then some ⟨b.toNat, h⟩ else none

/-- A byte that numbers an account. -/
def account? (b : Byte) : Option AccountNo := if h : b.toNat < 64 then some ⟨b.toNat, h⟩ else none

/-- A byte that numbers a level. -/
def level? (b : Byte) : Option Level := if h : b.toNat < 8 then some ⟨b.toNat, h⟩ else none

/-- A byte that numbers a size class. -/
def class? (b : Byte) : Option ClassNo := if h : b.toNat < 16 then some ⟨b.toNat, h⟩ else none

/-- A byte that numbers a price tier. -/
def tier? (b : Byte) : Option TierNo := if h : b.toNat < 4 then some ⟨b.toNat, h⟩ else none

/-- A byte that numbers a price tier that is set (R143, R156, R157). -/
def State.setTier? (s : State) (b : Byte) : Option TierNo :=
  match tier? b with
  | some t => if (s.meter.tiers[t]).isSome then some t else none
  | none => none

/-- A byte that numbers a size class that is set (R27, R141). -/
def State.setClass? (s : State) (b : Byte) : Option ClassNo :=
  match class? b with
  | some c => if (s.meter.sizes[c]).isSome then some c else none
  | none => none

/-! ## JOB_OPEN (R27, R187) -/

/-- The setup record of a JOB_OPEN body: five fields behind the presence bits at offset 17 (R187). -/
def setupOf (body : List Byte) : Setup :=
  let present := byteAt body 17
  let pick (n : Nat) : Option Byte := if present.getLsbD n then some (byteAt body (18 + n)) else none
  { bin := pick 0, finishing := pick 1, profile := pick 2, quality := pick 3, offset := pick 4 }

/-- A present setup field lies within its values (R20, R192). -/
def within (o : Option Byte) (last : Nat) : Bool :=
  match o with
  | some b => b.toNat ≤ last
  | none => true

/-- Every present setup field lies within its values (R20). -/
def Setup.valid (f : Setup) : Bool :=
  within f.bin 7 && within f.finishing 3 && within f.profile 63 && within f.quality 2 && within f.offset 1

/-- A pinned or barred port: FFh is absent, any other value is judged (R184). -/
def portChoiceValid (b : Byte) : Bool := b = 0xFF || (port? b).isSome

/-- The pinned and barred ports are each absent or a port, and not both the same port (R27). -/
def portChoicesValid (pinned barred : Byte) : Bool :=
  portChoiceValid pinned && portChoiceValid barred && !(pinned = barred && pinned ≠ 0xFF)

/-- The tests of R27 on fields alone, before those on the account: each fails with BAD_FIELD. -/
def openFieldsValid (s : State) (body : List Byte) : Bool :=
  (level? (byteAt body 5)).isSome
    && (s.setClass? (byteAt body 6)).isSome
    && ((byteAt body 7).toNat = 1 || (byteAt body 7).toNat = 2)
    && (1 ≤ field body 8 2 && field body 8 2 ≤ 4096 && 1 ≤ field body 10 2 && field body 10 2 ≤ 9999)
    && field body 8 2 * (byteAt body 7).toNat ≤ 8192
    && byteAt body 12 ≠ 0
    && ((byteAt body 13).getLsbD 1 || (byteAt body 13).getLsbD 2)
    && portChoicesValid (byteAt body 14) (byteAt body 15)
    && (setupOf body).valid

/-- The record that a JOB_OPEN body describes, with its opening values (R19, R22 to R24, R28). Its state is decided after. -/
def jobOf (body : List Byte) (account : AccountNo) (level : Level) (cls : ClassNo) : Job :=
  { label := BitVec.ofNat 32 (field body 0 4), state := .queued, account := account, level := level, sizeClass := cls,
    sides := (byteAt body 7).toNat, sheets := field body 8 2, copies := field body 10 2, stock := byteAt body 12,
    colour := (byteAt body 13).getLsbD 0, onSheet := (byteAt body 13).getLsbD 1, onRoll := (byteAt body 13).getLsbD 2,
    pinned := port? (byteAt body 14), barred := port? (byteAt body 15), lead := (byteAt body 16).toNat,
    forcedWhole := false, setup := setupOf body, refusedBy := Vector.replicate 12 false, cancel := false,
    suspend := false, slice := false, next := 0, good := 0, waste := 0, underruns := 0, charge := 0, pressTime := 0,
    lastPort := none, lostOrdinal := none, lossCount := 0 }

/-- The lowest-numbered FREE slot (R18). -/
def State.freeSlot (s : State) : Option Slot := allSlots.find? (fun j => (s.job j).isNone)

/-- An account is set and names a set tier (R27). -/
def State.accountUsable (s : State) (a : AccountNo) : Bool :=
  (s.account a).state ≠ .unset
    && (match (s.account a).tier with
        | some t => (s.meter.tiers[t]).isSome
        | none => false)

/-- R27: what JOB_OPEN comes to: a refusal, or the slot and the record to fill it with. -/
def State.judgeOpen (s : State) (body : List Byte) : Except Status (Slot × Job) :=
  if !openFieldsValid s body then .error .badField
  else
    match account? (byteAt body 4), level? (byteAt body 5), s.setClass? (byteAt body 6) with
    | some a, some l, some c =>
      if !s.accountUsable a then .error .badField
      else if (s.account a).state = .closed then .error .badState
      else
        match s.freeSlot with
        | some j => .ok (j, jobOf body a l c)
        | none => .error .noRoom
    | _, _, _ => .error .badField

/-! ## BAND_PUT and BAND_SUM (R47, R52, R188) -/

/-- The four coverage counts of a BAND_PUT body. -/
def countsOf (body : List Byte) : Planes :=
  { p0 := field body 4 4, p1 := field body 8 4, p2 := field body 12 4, p3 := field body 16 4 }

/-- Every coverage count is at most 1,048,575. -/
def countsValid (c : Planes) : Bool := c.toList.all (fun n => n ≤ 1048575)

/-- The tests that R47 and R52 begin with: the slot, its job, the image, the band index. -/
def State.judgeKey (s : State) (body : List Byte) : Except Status (Slot × Job) :=
  match slot? (byteAt body 0) with
  | none => .error .badField
  | some j =>
    match s.job j with
    | none => .error .noSuch
    | some x =>
      if x.state.terminal then .error .noSuch
      else if x.images ≤ field body 1 2 then .error .badField
      else if s.bandsPerSide x.sizeClass ≤ (byteAt body 3).toNat then .error .badField
      else .ok (j, x)

/-- An image is released; a missing record counts as not released. -/
def State.imageReleased (s : State) (j : Slot) (image : Nat) : Bool :=
  match s.image j image with
  | some r => r.released
  | none => false

/-- R47: what BAND_PUT comes to: a refusal, or the write to begin. The lowest block of the pool is its first (R43). -/
def State.judgePut (s : State) (body : List Byte) : Except Status BandWrite :=
  match s.judgeKey body with
  | .error st => .error st
  | .ok (j, _) =>
    if !countsValid (countsOf body) then .error .badField
    else if s.imageReleased j (field body 1 2) then .error .badState
    else if s.bandPresent j (field body 1 2) (byteAt body 3).toNat then .error .duplicate
    else
      match s.spool.pool with
      | [] => .error .noRoom
      | block :: _ =>
        .ok { slot := j, image := field body 1 2, band := (byteAt body 3).toNat, counts := countsOf body,
              payload := body.drop 20, block := block }

/-- R52: what BAND_SUM comes to: a refusal, or the read to begin. -/
def State.judgeSum (s : State) (body : List Byte) : Except Status SumRead :=
  match s.judgeKey body with
  | .error st => .error st
  | .ok (j, _) =>
    match s.band j (field body 1 2) (byteAt body 3).toNat with
    | some (.present block _ _) =>
      .ok { slot := j, image := field body 1 2, band := (byteAt body 3).toNat, block := block }
    | _ => .error .noSuch

/-! ## IDENTITY (R85) -/

/-- A tray number is out of range or given twice. -/
def trayNumbersBad (trays : List TrayItem) : Bool :=
  trays.any (fun t => 5 < t.number.toNat) || (trays.map (·.number)).eraseDups.length ≠ trays.length

/-- R85: the first failing case of an IDENTITY, by its code (R192). -/
def identityFault (c : EngineIdentity) : Option Nat :=
  if c.depth.toNat < 1 || 4 < c.depth.toNat then some 1
  else if c.trays.isEmpty || 6 < c.trays.length then some 2
  else if trayNumbersBad c.trays then some 3
  else if c.trays.any (fun t => t.loaded && t.stock = 0) then some 4
  else none

/-- The capabilities an IDENTITY declares (R86). -/
def capsOf (c : EngineIdentity) : Capabilities :=
  { colour := c.colour, duplex := c.duplex, depth := c.depth.toNat, classes := c.classes, reject := c.reject }

/-- Stock codes in ascending order (R62, R86). -/
def ascending (stocks : List Byte) : List Byte :=
  stocks.foldl (fun acc b => acc.filter (fun x => x.toNat < b.toNat) ++ b :: acc.filter (fun x => b.toNat < x.toNat)) []

end Sys2Proof.Machine
end

