-- ==== Sys2Proof/Machine/Service.lean ====
section
/-! DEFINITION. The service of the input request queue (R4): what every request row does alike, and the receivers of the
control link. -/

namespace Sys2Proof.Machine

/-- What the owning block makes of a request handed to it (R4). -/
inductive Answer where
  /-- Refused with this status and an empty body (R5). -/
  | refuse (status : Status)
  /-- Carried out: the state it leaves, and the body of the reply OK, read once all that follows has come about. -/
  | done (s : State) (body : State → List Byte)
  /-- Still in service: its reply comes at the end of its write or read. -/
  | serving (s : State)

/-- The start-up states that refuse requests (R39). -/
def StartUp.refuses : StartUp → Bool
  | .starting | .failed => true
  | _ => false

/-- The oldest request may be taken into service: none is in service, the reply list has a free place, no reset is pending
(R4, R12). -/
def State.canServe (s : State) : Bool :=
  s.link.service.isNone && s.link.replies.length < 8 && s.link.reset = .none

/-- The reply OK of a request, and the request leaves the queue. It is the reply of an accepted RESET if a reset is pending
now: none was when the request was taken (R12). -/
def State.replyOk (s : State) (tag : Word16) (body : List Byte) : State :=
  s.placeReply { tag := tag, status := .ok, body := body, ofReset := s.link.reset ≠ .none }

/-- A refusal with an empty body, and the request leaves the queue. -/
def State.replyRefused (s : State) (tag : Word16) (st : Status) : State :=
  s.placeReply { tag := tag, status := st, body := [], ofReset := false }

/-- The owner's answer is carried out: what follows comes about, then the reply is placed (R4). -/
def State.conclude (s : State) (tag : Word16) : Answer → State
  | .refuse st => s.replyRefused tag st
  | .done s' body => s'.settle.replyOk tag (body s'.settle)
  | .serving s' => s'

/-- A request of a known kind is judged and handed to its owner (R4, tests 2 to 4). -/
def State.judgeRequest (s : State) (r : Request) (owner : State → List Byte → Answer) : State :=
  if !lengthFits r then s.replyRefused r.tag .badField
  else if s.spool.startUp.refuses && !servedAlways r.kind then s.replyRefused r.tag .notReady
  else s.conclude r.tag (owner s r.body)

/-- R4: the oldest request, if it is of this kind, is taken into service. Where the link interface would not take it, the
row has no effect (log entry 2). -/
def State.serve (s : State) (kind : Byte) (owner : State → List Byte → Answer) : State :=
  match s.link.requests with
  | r :: _ => if r.kind = kind && s.canServe then s.judgeRequest r owner else s
  | [] => s

/-- R4, test 1: the oldest request is of a kind that is no request kind. -/
def State.serveUnknown (s : State) : State :=
  match s.link.requests with
  | r :: _ => if (requestLength r.kind).isNone && s.canServe then s.replyRefused r.tag .badField else s
  | [] => s

/-- A request that names a port first (R95 and the rules after it): a number out of range is refused with BAD_FIELD. -/
def withPort (body : List Byte) (f : PortNo → Answer) : Answer :=
  match port? (byteAt body 0) with
  | some p => f p
  | none => .refuse .badField

/-- A job request on a slot (R18): out of range BAD_FIELD, FREE NO_SUCH. -/
def withJob (s : State) (body : List Byte) (f : Slot → Job → Answer) : Answer :=
  match slot? (byteAt body 0) with
  | none => .refuse .badField
  | some j =>
    match s.job j with
    | some x => f j x
    | none => .refuse .noSuch

/-- An account request (R154): out of range BAD_FIELD. -/
def withAccount (body : List Byte) (f : AccountNo → Answer) : Answer :=
  match account? (byteAt body 0) with
  | some a => f a
  | none => .refuse .badField

/-! ## The control-link receiver (R1 to R3) -/

/-- A frame has begun and not ended, counted from its first marker (R2; log entry 11). -/
def RxState.midFrame : RxState → Bool
  | .hunt armed => armed
  | _ => true

/-- More than 50 ms have passed since the last byte of a frame that has begun (R2, R193). -/
def Receiver.gap (r : Receiver) (now : Word32) : Bool := r.rx.midFrame && 50 < elapsed now r.last

/-- R2: the gap's expiry: the partial frame is dropped and answered FRAME_ERROR. -/
def State.controlGap (s : State) : State :=
  if s.link.receiver.gap s.partTime then
    (s.modLink (fun l => { l with receiver := { rx := .hunt false, last := s.partTime } })).placeError 0 .frameError
  else s

/-- What the end of a frame on the control link brings (R2, R3). -/
def State.controlEvent (s : State) : RxEvent → State
  | .badLength => s.placeError 0 .frameError
  | .badCrc => s.placeError 0 .frameError
  | .frame (kind :: t1 :: t0 :: body) =>
    s.takeFrame { kind := kind, tag := BitVec.ofNat 16 (natOf [t1, t0]), body := body }
  | .frame _ => s

/-- One byte arrives on the control link. -/
def State.controlByte (s : State) (b : Byte) : State :=
  let r := rxControl s.link.receiver.rx b
  let s := s.modLink (fun l => { l with receiver := { rx := r.1, last := s.partTime } })
  match r.2 with
  | some e => s.controlEvent e
  | none => s

/-- Bytes arrive on the control link, together, now. A gap already past is taken first; bytes that arrive between the end of
the RESET reply and the reset are lost (R1). No reply leaves the reply list between these bytes, not even on an idle line: the
line chooses when the step ends. R7 gives no moment; that a ninth FRAME_ERROR of one command finds the list full is the model's
choice (log entry 36). -/
def State.controlBytes (s : State) (bytes : List Byte) : State :=
  match s.link.reset with
  | .due _ => s
  | _ => bytes.foldl State.controlByte s.controlGap

/-- R3: a whole frame has come and passed the checks; the receiver hunts again (R1). A body that no length field can carry is
a frame whose length fails (R2; log entry 3). A partial frame that stands in the receiver is dropped without a FRAME_ERROR,
even where its gap is overdue: the model's choice (log entry 35). -/
def State.controlFrame (s : State) (r : Request) : State :=
  match s.link.reset with
  | .due _ => s
  | _ =>
    let s := s.modLink (fun l => { l with receiver := { rx := .hunt false, last := s.partTime } })
    if r.body.length + 3 ≤ 16448 then s.takeFrame r else s.placeError 0 .frameError

end Sys2Proof.Machine
end

