-- ==== Sys2Proof/Machine/AlertCommands.lean ====
section
/-! DEFINITION. The meanings of the alert relay's commands (chapter 10). -/

namespace Sys2Proof.Machine

/-- R176: an open, unacknowledged alert of level 1 or 2 whose timer has expired goes a level up. -/
def State.escalate (s : State) (p : PortNo) : State :=
  let a := s.alert p
  match a.level with
  | some level =>
    if !a.acknowledged && level < 3 && timerDue a.timer s.partTime then
      let timer := if level + 1 < 3 then some (s.escalationTimer p) else none
      ((s.setAlert p { a with level := some (level + 1), timer := timer }).notifyAlert p .escalated
        a.causes.displayed).queueLine p
    else s
  | none => s

/-- ESCALATION_EXPIRY (R176). -/
def execEscalationExpiry (p : PortNo) (s : State) : Host.Outcome State Fault Refusal := .next (s.escalate p).finish

/-- R178: an open alert is acknowledged. -/
def State.acknowledge (s : State) (p : PortNo) : State :=
  let a := s.alert p
  if a.acknowledged then s
  else ((s.setAlert p { a with acknowledged := true, timer := none }).notifyAlert p .ack a.causes.displayed).queueLine p

/-- R178. -/
def answerAlertAck (s : State) (body : List Byte) : Answer :=
  withPort body fun p =>
    if (s.alert p).level.isNone then .refuse .badState
    else .done (s.acknowledge p) (fun s' => alertAckBody (s'.alert p))

/-- ALERT_ACK (R178). -/
def execAlertAck (s : State) : Host.Outcome State Fault Refusal := .next (s.serve 0x60 answerAlertAck).finish

/-- R179. -/
def answerAlertQuery (s : State) (_ : List Byte) : Answer := .done s (fun _ => alertQueryBody s)

/-- ALERT_QUERY (R179). -/
def execAlertQuery (s : State) : Host.Outcome State Fault Refusal := .next (s.serve 0x61 answerAlertQuery).finish

/-- R183: the panel driver has finished its line. -/
def State.lineSent (s : State) : State := State.pumpPanel { s with panel := { s.panel with sending := none } }

/-- PANEL_LINE_SENT (R183). -/
def execPanelLineSent (s : State) : Host.Outcome State Fault Refusal := .next s.lineSent.finish

end Sys2Proof.Machine
end

