-- ==== Sys2Proof/Machine/PortOps.lean ====
section
/-! DEFINITION. What a port does on its line and with its engine's messages (chapters 5 to 7), and its receiver (R99, R193). -/

namespace Sys2Proof.Machine

/-! ## The line signal (R81, R82, R138) -/

/-- R82: what every entry into LOST does; the tray table and capabilities go with the change of state (R80). -/
def State.enterLost (s : State) (p : PortNo) : State :=
  ((s.modPort p (fun x => { x with request := none, gateTimer := none, wait := .none })).portTo p .lost).modPort p
    (fun x =>
      { x with
        owner := none
        receiver := .hunting
        counters := { x.counters with linkLosses := bump x.counters.linkLosses } })

/-- R84: a running loop test ends early, with the counts reached so far. -/
def State.endLoopEarly (s : State) (p : PortNo) : State :=
  match (s.port p).loop with
  | some t =>
    (s.modPort p (fun x => { x with loop := none })).notifyPort p (s.port p).state
      (.looptest t.count t.awaited t.returned true)
  | none => s

/-- The record of a port whose line signal is lost: the frame being sent is abandoned, the waiting ones discarded (R193). -/
def Port.unplugged (x : Port) : Port := { x with signal := false, sending := none, outQueue := [] }

/-- R82: a port acts on the loss of its line signal by its state. -/
def State.signalLost (s : State) (p : PortNo) : State :=
  let st := (s.port p).state
  let s := s.modPort p Port.unplugged
  match st with
  | .absent | .lost => s
  | .probing => (s.modPort p (fun x => { x with probeTimer := none })).portTo p .absent
  | .loopback => (s.endLoopEarly p).portTo p .absent
  | .identifying | .ready => (s.enterLost p).lostSettledNow p
  | .setup =>
    ((s.modPort p (fun x => { x with setupTimer := none })).enterLost p).leaveThen p .head (.lostSettled p)
  | .feeding | .draining | .stopped => ((s.enterLost p).settleAbandoned p).leaveThen p .head (.lostSettled p)

/-- R81: the line signal returns; an ABSENT or LOST port reads its sense lines, but not while the part is STARTING. -/
def State.signalReturns (s : State) (p : PortNo) (sense : Sense) : State :=
  if (s.port p).signal then s
  else
    let s := s.modPort p (fun x => { x with signal := true })
    if s.spool.startUp = .starting then s
    else if (s.port p).state = .absent || (s.port p).state = .lost then s.readSense p sense
    else s

/-! ## Probing and the loop test (R83, R84) -/

/-- The loop test's frame `awaited` is done with: the next one is sent, or the test ends with its result (R84). -/
def State.nextLoopFrame (s : State) (p : PortNo) (t : LoopTest) : State :=
  if t.count ≤ t.awaited then
    (s.modPort p (fun x => { x with loop := none })).notifyPort p (s.port p).state
      (.looptest t.count t.awaited t.returned false)
  else
    let next : LoopTest := { t with awaited := t.awaited + 1, timer := { start := s.partTime, length := 20 } }
    (s.modPort p (fun x => { x with loop := some next })).send p (.probe (byte (t.awaited + 1)))

/-- R83, R84: a PROBE comes back. -/
def State.takeEcho (s : State) (p : PortNo) (sequence : Byte) (pattern : List Byte) : State :=
  match (s.port p).state with
  | .probing =>
    if sequence = 0 && pattern = probePattern then
      (s.modPort p (fun x => { x with probeTimer := none })).portTo p .loopback
    else s
  | .loopback =>
    match (s.port p).loop with
    | some t =>
      if sequence.toNat = t.awaited && pattern = probePattern then
        s.nextLoopFrame p { t with returned := t.returned + 1 }
      else s
    | none => s
  | _ => s

/-- R83: the probe timer expires. -/
def State.probeExpired (s : State) (p : PortNo) : State :=
  if (s.port p).state = .probing && timerDue (s.port p).probeTimer s.partTime then
    (s.modPort p (fun x => { x with probeTimer := none })).portTo p .absent
  else s

/-- R84: the awaited frame of a loop test has not returned in its 20 ms. -/
def State.loopExpired (s : State) (p : PortNo) : State :=
  match (s.port p).loop with
  | some t => if t.timer.due s.partTime then s.nextLoopFrame p t else s
  | none => s

/-! ## Identification (R85, R86) -/

/-- Every job's refused-by set without a port (R23). -/
def State.forgive (s : State) (p : PortNo) : State :=
  { s with jobs := s.jobs.map (fun o => o.map (fun x => { x with refusedBy := x.refusedBy.set p false })) }

/-- R86: an IDENTITY that passes its tests. -/
def State.identified (s : State) (p : PortNo) (c : EngineIdentity) : State :=
  let old := loadedStocks (s.port p).trays
  let new := loadedStocks c.trays
  let s := s.modPort p (fun x => { x with caps := some (capsOf c), trays := c.trays })
  let s := s.forgive p
  let s := s.changeCauses p (fun k => { k with linkLost := false, setupTimeout := false, jam := none, fault := none })
  let s := s.portTo p .ready
  let s := s.judgeStocks (old.filter (fun b => !new.contains b))
  let s := (ascending (new.filter (fun b => !old.contains b))).foldl (fun s b => s.post (.stockLoaded b)) s
  s.post (.chooseJob p)

/-- R85, R86: IDENTITY in IDENTIFYING. -/
def State.takeIdentity (s : State) (p : PortNo) (c : EngineIdentity) : State :=
  if (s.port p).state ≠ .identifying then s
  else
    match identityFault c with
    | some case => s.notifyPort p (s.port p).state (.identityRejected case)
    | none => s.identified p c

/-! ## The setup exchange (R91 to R93) -/

/-- R91: SETUP_DONE. -/
def State.takeSetupDone (s : State) (p : PortNo) : State :=
  if (s.port p).state ≠ .setup then s
  else
    ((s.modPort p (fun x => { x with setupTimer := none, owner := s.assigned p })).portTo p .feeding).post (.decide p)

/-- R92: SETUP_REFUSED. -/
def State.takeSetupRefused (s : State) (p : PortNo) (code : Byte) : State :=
  if (s.port p).state ≠ .setup then s
  else
    match s.assigned p with
    | some j =>
      let s := s.modPort p (fun x => { x with setupTimer := none, refusal := some (j, code) })
      let s := s.notifyPort p .setup (.setupRefused j code)
      let s := s.modJob j (fun x => { x with refusedBy := x.refusedBy.set p true })
      s.leaveThen p .head (.backToReady p)
    | none => s

/-- R93: the setup timer expires. -/
def State.setupExpired (s : State) (p : PortNo) : State :=
  if (s.port p).state = .setup && timerDue (s.port p).setupTimer s.partTime then
    (s.modPort p (fun x => { x with setupTimer := none })).leaveThen p .head (.setupTimedOut p)
  else s

/-! ## Trays (R88, R89) -/

/-- The tray table with one entry replaced. -/
def trayReplaced (trays : List TrayItem) (item : TrayItem) : List TrayItem :=
  trays.map (fun t => if t.number = item.number then item else t)

/-- R89: the change of the TRAY_EMPTY cause that a changed tray table brings at a port with an assigned job. -/
def State.judgeTrayEmpty (s : State) (p : PortNo) (before after : List TrayItem) : State :=
  match s.assignedJob p with
  | some x =>
    if loadedWith before x.stock && !loadedWith after x.stock then
      s.changeCauses p (fun c => { c with trayEmpty := true })
    else if !loadedWith before x.stock && loadedWith after x.stock then s.changeCauses p CauseSet.dropTrayEmpty
    else s
  | none => s

/-- R88: an entry of the tray table changes from `old` to `item`. -/
def State.trayChanged (s : State) (p : PortNo) (old item : TrayItem) : State :=
  let before := (s.port p).trays
  let after := trayReplaced before item
  let s := s.modPort p (fun x => { x with trays := after })
  let s := if old.loaded && !(item.loaded && item.stock = old.stock) then s.judgeStock old.stock else s
  let s := s.judgeTrayEmpty p before after
  let s :=
    if item.loaded && !(old.loaded && old.stock = item.stock) then
      (s.post (.stockLoaded item.stock)).post (.chooseJob p)
    else s
  s.post (.decide p)

/-- R88: TRAY. -/
def State.takeTray (s : State) (p : PortNo) (item : TrayItem) : State :=
  if !(s.port p).state.takesTray then s
  else if item.loaded && item.stock = 0 then s
  else
    match (s.port p).trays.find? (fun t => t.number = item.number) with
    | some old => if old = item then s else s.trayChanged p old item
    | none => s

/-! ## Sheets (R113, R122 to R124) -/

/-- R122: a STARTED sheet becomes PICKED. -/
def pickSheet (path : List Sheet) (tag : Byte) : List Sheet :=
  path.map (fun x => if x.tag = tag && x.state = .started then { x with state := .picked } else x)

/-- R122: PICKED. -/
def State.takePicked (s : State) (p : PortNo) (tag : Byte) : State :=
  if (s.port p).state.follows then s.modPort p (fun x => { x with path := pickSheet x.path tag }) else s

/-- R113: WANT, in a state that follows sheets. -/
def State.takeWantIn (s : State) (p : PortNo) (tag : Byte) (back : Bool) (band : Byte) : State :=
  if (s.port p).state.follows then s.takeWant p tag back band.toNat else s

/-- R123, R124: DELIVERED, in a state that follows sheets. -/
def State.takeDeliveredIn (s : State) (p : PortNo) (tag : Byte) : State :=
  if (s.port p).state.follows then s.takeDelivered p tag else s

/-- R108: the gate wait timer expires. -/
def State.gateExpired (s : State) (p : PortNo) : State :=
  if (s.port p).state = .feeding && (s.port p).wait = .gate && timerDue (s.port p).gateTimer s.partTime then
    s.stopFeeding p .gateWait
  else s

/-- R114: the grace timer of the request in waiting expires. -/
def State.graceExpired (s : State) (p : PortNo) : State :=
  match (s.port p).request with
  | some r => if r.timer.due s.partTime then s.failRequest p else s
  | none => s

/-- R76: the slice timer of the job assigned to a port expires. -/
def State.sliceExpired (s : State) (p : PortNo) : State :=
  match s.assignment p with
  | some a =>
    if timerDue a.slice s.partTime then
      ((s.setAssignment p (some { a with slice := none })).modJob a.slot (fun x => { x with slice := true })).post
        (.decide p)
    else s
  | none => s

/-! ## Stops (R100, R131 to R136) -/

/-- The stops counter rises, and a band request in waiting is discarded without FILL (R100, R131, R135). -/
def State.countStop (s : State) (p : PortNo) : State :=
  s.modPort p fun x =>
    { x with request := none, counters := { x.counters with stops := bump x.counters.stops } }

/-- STOPPED is entered, and the slice timer of the assignment becomes absent (R75, R131). -/
def State.enterStopped (s : State) (p : PortNo) : State :=
  let s := s.portTo p .stopped
  match s.assignment p with
  | some a => s.setAssignment p (some { a with slice := none })
  | none => s

/-- R100, R131, R135: STOP, by the port's state. -/
def State.takeStop (s : State) (p : PortNo) (reason : StopReason) (items : List StopItem) : State :=
  match (s.port p).state with
  | .ready => ((s.countStop p).enterStopped p).changeCauses p (CauseSet.addStop reason)
  | .setup =>
    let s := (s.countStop p).modPort p (fun x => { x with setupTimer := none, owner := none })
    ((s.enterStopped p).changeCauses p (CauseSet.addStop reason)).post (.afterRemoval p)
  | .feeding | .draining =>
    let s := (s.countStop p).modPort p
      (fun x => { x with gateTimer := none, wait := .none, drain := none, destination := some .head })
    (((s.enterStopped p).changeCauses p (CauseSet.addStop reason)).settleStop p items).post (.afterRemoval p)
  | .stopped => (((s.countStop p).changeCauses p (CauseSet.addStop reason)).settleStop p items).post (.afterRemoval p)
  | _ => s

/-- R136: CLEARED in STOPPED. -/
def State.takeCleared (s : State) (p : PortNo) : State :=
  if (s.port p).state = .stopped then
    (((s.modPort p (fun x => { x with request := none })).settleCleared p).post (.afterRemoval p)).post
      (.clearedSettled p)
  else s

/-! ## The port's receiver (R99, R193) -/

/-- A port takes press-link frames: its line signal is present and the part is not STARTING (R81, R82). -/
def State.hears (s : State) (p : PortNo) : Bool := (s.port p).signal && s.spool.startUp ≠ .starting

/-- A frame failed its check (R99). -/
def State.frameDiscarded (s : State) (p : PortNo) : State :=
  s.modPort p fun x =>
    { x with counters := { x.counters with framesDiscarded := bump x.counters.framesDiscarded } }

/-- R99: a message is judged against the port's state and its path. -/
def State.takeMessage (s : State) (p : PortNo) (m : PressIn) : State :=
  match m with
  | .probe sequence pattern => s.takeEcho p sequence pattern
  | .identity contents => s.takeIdentity p contents
  | .setupDone => s.takeSetupDone p
  | .setupRefused code => s.takeSetupRefused p code
  | .picked tag => s.takePicked p tag
  | .want tag back band => s.takeWantIn p tag back band
  | .delivered tag => s.takeDeliveredIn p tag
  | .stop reason items => s.takeStop p reason items
  | .cleared => s.takeCleared p
  | .tray item => s.takeTray p item
  | .foreign => s

/-- The receiver hunts, from now. -/
def State.huntAgain (s : State) (p : PortNo) : State :=
  s.modPort p (fun x => { x with receiver := { rx := .hunt false, last := s.partTime } })

/-- R99: a whole frame has come with this message. Contents that the check of R193 refuses fail it (log entry 28). A
partial frame that stands in the receiver is dropped and not counted, even where its gap is overdue: the model's choice (log
entry 35). -/
def State.message (s : State) (p : PortNo) (m : PressIn) : State :=
  if s.hears p then
    if m.fits then (s.huntAgain p).takeMessage p m else (s.huntAgain p).frameDiscarded p
  else s

/-- What the end of a frame on a press link brings (R99, R193). -/
def State.pressEvent (s : State) (p : PortNo) : RxEvent → State
  | .badLength => s.frameDiscarded p
  | .badCrc => s.frameDiscarded p
  | .frame (kind :: body) =>
    match readPress kind body with
    | some m => s.takeMessage p m
    | none => s.frameDiscarded p
  | .frame [] => s

/-- One byte arrives on a press link. -/
def State.pressByte (s : State) (p : PortNo) (b : Byte) : State :=
  let r := rxPress (s.port p).receiver.rx b
  let s := s.modPort p (fun x => { x with receiver := { rx := r.1, last := s.partTime } })
  match r.2 with
  | some e => s.pressEvent p e
  | none => s

/-- R193: the gap's expiry: the partial frame fails its check. -/
def State.pressGap (s : State) (p : PortNo) : State :=
  if (s.port p).receiver.gap s.partTime then (s.huntAgain p).frameDiscarded p else s

/-- Bytes arrive on a press link, together, now. What one frame brings about is done before the next byte is taken. -/
def State.pressBytes (s : State) (p : PortNo) (bytes : List Byte) : State :=
  if s.hears p then bytes.foldl (fun s b => (s.pressByte p b).settle) (s.pressGap p) else s

end Sys2Proof.Machine
end

