-- ==== Sys2Proof/Machine/FeedCommands.lean ====
section
/-! DEFINITION. The meanings of the commands of chapters 4, 6 and 7: slices, waits, bands, sheets and stops. -/

namespace Sys2Proof.Machine

/-- SLICE_EXPIRY (R76). -/
def execSliceExpiry (p : PortNo) (s : State) : Host.Outcome State Fault Refusal := .next (s.sliceExpired p).finish

/-- GATE_WAIT_EXPIRY (R108). -/
def execGateWaitExpiry (p : PortNo) (s : State) : Host.Outcome State Fault Refusal := .next (s.gateExpired p).finish

/-- WANT (R113). -/
def execWant (p : PortNo) (tag : Byte) (back : Bool) (band : Byte) (s : State) : Host.Outcome State Fault Refusal :=
  .next (s.message p (.want tag back band)).finish

/-- BAND_GRACE_EXPIRY (R114). -/
def execBandGraceExpiry (p : PortNo) (s : State) : Host.Outcome State Fault Refusal := .next (s.graceExpired p).finish

/-- PICKED (R122). -/
def execPicked (p : PortNo) (tag : Byte) (s : State) : Host.Outcome State Fault Refusal :=
  .next (s.message p (.picked tag)).finish

/-- DELIVERED (R123, R124). -/
def execDelivered (p : PortNo) (tag : Byte) (s : State) : Host.Outcome State Fault Refusal :=
  .next (s.message p (.delivered tag)).finish

/-- STOP (R100, R131 to R135). -/
def execStop (p : PortNo) (reason : StopReason) (items : List StopItem) (s : State) : Host.Outcome State Fault Refusal :=
  .next (s.message p (.stop reason items)).finish

/-- CLEARED (R136). -/
def execCleared (p : PortNo) (s : State) : Host.Outcome State Fault Refusal := .next (s.message p .cleared).finish

end Sys2Proof.Machine
end

