-- ==== Sys2Proof/Machine/JobCommands.lean ====
section
/-! DEFINITION. The meanings of the job requests (chapter 2). -/

namespace Sys2Proof.Machine

/-- The code of the state of a slot's job, 0 for a FREE slot (R192). -/
def State.jobCode (s : State) (j : Slot) : Byte :=
  match s.job j with
  | some x => x.state.code
  | none => 0

/-- R28: the slot is filled and the job's first state decided. Its creation raises no JOB notice: the record takes the state
that its placement gives it before it is placed. -/
def State.openJob (s : State) (j : Slot) (x : Job) : State :=
  let fill (st : JobState) : State :=
    (s.setJob j (some { x with state := st })).setImages j (List.replicate x.images ImageRec.fresh)
  if (s.account x.account).state = .held then fill .held
  else if s.stockPresent x.stock then (fill .queued).place j false
  else (fill .stockwait).place j false

/-- R27, R28. -/
def answerJobOpen (s : State) (body : List Byte) : Answer :=
  match s.judgeOpen body with
  | .error st => .refuse st
  | .ok (j, x) => .done (s.openJob j x) (fun s' => [byte j.val, s'.jobCode j])

/-- JOB_OPEN (R27, R28). -/
def execJobOpen (s : State) : Host.Outcome State Fault Refusal := .next (s.serve 0x10 answerJobOpen).finish

/-- The reply of a job request: the state the job is in after it. -/
def jobState (s : State) (j : Slot) : Answer := .done s (fun s' => [s'.jobCode j])

/-- R29. -/
def answerJobCancel (s : State) (body : List Byte) : Answer :=
  withJob s body fun j x =>
    match x.state with
    | .queued | .stockwait | .paused | .held => jobState ((s.unlist j).endJob j .cancelled) j
    | .running =>
      if x.cancel then jobState s j else jobState ((s.setJob j (some { x with cancel := true })).tellPort j) j
    | .done | .cancelled | .failed => .refuse .badState

/-- JOB_CANCEL (R29). -/
def execJobCancel (s : State) : Host.Outcome State Fault Refusal := .next (s.serve 0x11 answerJobCancel).finish

/-- R30. -/
def answerJobSuspend (s : State) (body : List Byte) : Answer :=
  withJob s body fun j x =>
    match x.state with
    | .queued | .stockwait | .held | .paused => jobState ((s.unlist j).jobTo j .paused) j
    | .running =>
      if x.suspend then jobState s j else jobState ((s.setJob j (some { x with suspend := true })).tellPort j) j
    | .done | .cancelled | .failed => .refuse .badState

/-- JOB_SUSPEND (R30). -/
def execJobSuspend (s : State) : Host.Outcome State Fault Refusal := .next (s.serve 0x12 answerJobSuspend).finish

/-- R31. -/
def answerJobResume (s : State) (body : List Byte) : Answer :=
  withJob s body fun j x =>
    match x.state with
    | .paused =>
      if (s.account x.account).state.stops then jobState (s.jobTo j .held) j else jobState (s.place j false) j
    | .running =>
      if x.suspend then jobState ((s.setJob j (some { x with suspend := false })).tellPort j) j
      else .refuse .badState
    | .queued | .stockwait | .held | .done | .cancelled | .failed => .refuse .badState

/-- JOB_RESUME (R31). -/
def execJobResume (s : State) : Host.Outcome State Fault Refusal := .next (s.serve 0x13 answerJobResume).finish

/-- R32: the level field takes its value, and a waiting job its new place. -/
def State.relevel (s : State) (j : Slot) (x : Job) (l : Level) : State :=
  let s := s.setJob j (some { x with level := l })
  match x.state with
  | .queued => s.place j false
  | .stockwait => (s.unlist j).joinWait j
  | _ => s

/-- R32. -/
def answerJobLevel (s : State) (body : List Byte) : Answer :=
  withJob s body fun j x =>
    match level? (byteAt body 1) with
    | none => .refuse .badField
    | some l => if x.state.terminal then .refuse .badState else .done (s.relevel j x l) (fun _ => [byte l.val])

/-- JOB_LEVEL (R32). -/
def execJobLevel (s : State) : Host.Outcome State Fault Refusal := .next (s.serve 0x14 answerJobLevel).finish

/-- R33. -/
def answerJobQuery (s : State) (body : List Byte) : Answer := withJob s body fun j x => .done s (fun _ => jobBody j x)

/-- JOB_QUERY (R33). -/
def execJobQuery (s : State) : Host.Outcome State Fault Refusal := .next (s.serve 0x15 answerJobQuery).finish

/-- A port whose setup owner is the slot no longer has it (R94). -/
def Port.disown (x : Port) (j : Slot) : Port := if x.owner = some j then { x with owner := none } else x

/-- R34, R94: a terminal job is removed, and no port holds its setup any more. -/
def State.forgetJob (s : State) (j : Slot) : State :=
  let s := s.setJob j none
  { s with ports := s.ports.map (fun q => q.disown j) }

/-- R34. -/
def answerJobForget (s : State) (body : List Byte) : Answer :=
  withJob s body fun j x => if x.state.terminal then .done (s.forgetJob j) (fun _ => []) else .refuse .badState

/-- JOB_FORGET (R34). -/
def execJobForget (s : State) : Host.Outcome State Fault Refusal := .next (s.serve 0x16 answerJobForget).finish

end Sys2Proof.Machine
end

