-- ==== Sys2Proof/Machine/LinkCommands.lean ====
section
/-! DEFINITION. The meanings of the part-wide commands (chapter 1) and of the start-up self-test (R39 to R42). -/

namespace Sys2Proof.Machine

/-! ## Frames -/

/-- RECEIVED_FRAME (R3). -/
def execReceivedFrame (kind : Byte) (tag : Word16) (body : List Byte) (s : State) : Host.Outcome State Fault Refusal :=
  .next (s.controlFrame { kind := kind, tag := tag, body := body }).finish

/-- FRAME_ERROR (R2): the bytes are taken by the receiver. -/
def execFrameError (bytes : List Byte) (s : State) : Host.Outcome State Fault Refusal :=
  .next (s.controlBytes bytes).finish

/-- FRAME_GAP_EXPIRY (R2). -/
def execFrameGapExpiry (s : State) : Host.Outcome State Fault Refusal := .next s.controlGap.finish

/-- MARKER_PAIR_SEEN (R1): the bytes are taken by the receiver. -/
def execMarkerPairSeen (bytes : List Byte) (s : State) : Host.Outcome State Fault Refusal :=
  .next (s.controlBytes bytes).finish

/-- UNKNOWN_REQUEST (R4). -/
def execUnknownRequest (s : State) : Host.Outcome State Fault Refusal := .next s.serveUnknown.finish

/-- The outbound line ends its frame (R7); the end of a RESET's reply is where the reset falls due (R12). -/
def State.endOutbound (s : State) : State :=
  match s.link.outbound with
  | some (.reply r) =>
    s.modLink fun l =>
      { l with
        outbound := none
        reset := match r.ofReset, l.reset with
          | true, .pending k => .due k
          | _, phase => phase }
  | some (.notice _) => s.modLink fun l => { l with outbound := none }
  | none => s

/-- OUTBOUND_FRAME_END (R7): the line goes on to the next frame, if one waits. -/
def execOutboundFrameEnd (s : State) : Host.Outcome State Fault Refusal := .next s.endOutbound.finish

/-! ## Part-wide requests -/

/-- R10. -/
def answerIdentify (s : State) (_ : List Byte) : Answer := .done s (fun _ => identifyBody)

/-- IDENTIFY (R10). -/
def execIdentify (s : State) : Host.Outcome State Fault Refusal := .next (s.serve 0x01 answerIdentify).finish

/-- R11: the snapshot; the notice-overflow flag is cleared after it. -/
def answerStatus (s : State) (_ : List Byte) : Answer :=
  .done (s.modLink (fun l => { l with overflow := false })) (fun _ => statusBody s)

/-- STATUS (R11). -/
def execStatus (s : State) : Host.Outcome State Fault Refusal := .next (s.serve 0x02 answerStatus).finish

/-- R12: an accepted RESET is pending from its reply on. -/
def answerReset (s : State) (body : List Byte) : Answer :=
  match ResetKind.ofCode? (byteAt body 0) with
  | none => .refuse .badField
  | some k =>
    if k = .quick && s.spool.startUp = .starting then .refuse .badState
    else .done (s.modLink (fun l => { l with reset := .pending k })) (fun _ => [])

/-- RESET (R12). -/
def execReset (s : State) : Host.Outcome State Fault Refusal := .next (s.serve 0x03 answerReset).finish

/-- R9. -/
def answerNoticeMask (s : State) (body : List Byte) : Answer :=
  .done (s.modLink (fun l => { l with enable := byteAt body 0 })) (fun _ => [byteAt body 0])

/-- NOTICE_MASK (R9). -/
def execNoticeMask (s : State) : Host.Outcome State Fault Refusal := .next (s.serve 0x04 answerNoticeMask).finish

/-- R16. -/
def answerLevelSet (s : State) (body : List Byte) : Answer :=
  match level? (byteAt body 0) with
  | none => .refuse .badField
  | some l =>
    let slice := min (field body 1 4) 600000
    .done { s with dispatch := { s.dispatch with slices := s.dispatch.slices.set l slice } }
      (fun _ => byte l.val :: num 4 slice)

/-- LEVEL_SET (R16). -/
def execLevelSet (s : State) : Host.Outcome State Fault Refusal := .next (s.serve 0x05 answerLevelSet).finish

/-- R17: the three settings, each clamped to its range. -/
def answerPortSet (s : State) (body : List Byte) : Answer :=
  withPort body fun p =>
    let grace := min (field body 1 2) 250
    let gateWait := min (field body 3 2) 60000
    let interval := max 10 (min (field body 5 2) 600)
    .done (s.modPort p (fun x => { x with grace := grace, gateWait := gateWait, interval := interval }))
      (fun _ => byte p.val :: byte grace :: num 2 gateWait ++ num 2 interval)

/-- PORT_SET (R17). -/
def execPortSet (s : State) : Host.Outcome State Fault Refusal := .next (s.serve 0x06 answerPortSet).finish

/-! ## Resets (R13, R14, R42) -/

/-- A port's record when a reset of the part takes effect: the reset values, with the line signal as sensed, the frame being
sent completed (R193), and reads in progress run on, for a sheet and a band that are gone (R101). -/
def Port.afterPartReset (x : Port) : Port :=
  { Port.afterReset with
    signal := x.signal
    sending := x.sending
    reads := x.reads.map (fun r => { r with live := false, gone := true }) }

/-- Every block but the spool manager at its reset values (R13); the panel completes the line it sends (R183). -/
def State.blocksReset (s : State) : State :=
  { State.reset with
    ports := s.ports.map Port.afterPartReset
    panel := { queue := [], sending := s.panel.sending }
    spool := { Spool.afterPowerOn with dram := s.spool.dram }
    choices := s.choices
    pending := s.pending }

/-- The START notice (R41, R42), and the reading of every port's sense lines after it (R81). -/
def State.startUp (s : State) (senses : Vector Sense 12) : State :=
  (s.notify .start (startBody s)).readAllSenses senses

/-- The blocks that are not retired, ascending (R42). -/
def blocksBut (retired : List Nat) : List Nat := (List.range 32768).filter (fun b => !retired.contains b)

/-- R42: the spool manager when a RESET QUICK takes effect. -/
def Spool.quick (x : Spool) : Spool :=
  { Spool.afterPowerOn with
    startUp := startUpOf x.retired.length
    pool := blocksBut x.retired
    retired := x.retired
    dram := x.dram }

/-- R13: a reset takes effect. -/
def State.takeReset (s : State) (k : ResetKind) (senses : Vector Sense 12) : State :=
  match k with
  | .full => s.blocksReset
  | .quick => State.startUp { s.blocksReset with spool := s.spool.quick } senses

/-- RESET_TAKES_EFFECT (R13): once the RESET's reply has been sent whole. -/
def execResetTakesEffect (senses : Vector Sense 12) (s : State) : Host.Outcome State Fault Refusal :=
  match s.link.reset with
  | .due k => .next (s.takeReset k senses).finish
  | _ => .next s.finish

/-- POWER_ON (R14): everything at its power-on value; the commands that wait for the block stay (log entry 30). -/
def execPowerOn (signals : Vector Bool 12) (s : State) : Host.Outcome State Fault Refusal :=
  .next (State.finish
    { State.reset with
      ports := signals.map (fun b => { Port.afterReset with signal := b })
      choices := s.choices
      pending := s.pending })

/-! ## The self-test (R40, R41) -/

/-- The test moves to the next block, and ends after the last (R41). -/
def State.nextBlock (s : State) (senses : Vector Sense 12) : State :=
  if s.spool.testBlock = 32767 then
    State.startUp
      { s with spool := { s.spool with
          testBlock := 32768, testFails := 0, startUp := startUpOf s.spool.retired.length } } senses
  else { s with spool := { s.spool with testBlock := s.spool.testBlock + 1, testFails := 0 } }

/-- R40: a test attempt ends. The block holds the attempt's pattern from then on. -/
def State.attemptEnd (s : State) (passed : Bool) (senses : Vector Sense 12) : State :=
  if s.spool.startUp ≠ .starting then s
  else
    let block := s.spool.testBlock
    let s := s.writeBlock block (testPattern s.spool.testFails)
    if passed then
      State.nextBlock { s with spool := { s.spool with pool := Blocks.add s.spool.pool block } } senses
    else if s.spool.testFails = 3 then
      State.nextBlock { s with spool := { s.spool with retired := s.spool.retired ++ [block] } } senses
    else { s with spool := { s.spool with testFails := s.spool.testFails + 1 } }

/-- SELF_TEST_ATTEMPT_END (R40). -/
def execSelfTestAttemptEnd (passed : Bool) (senses : Vector Sense 12) (s : State) : Host.Outcome State Fault Refusal :=
  .next (s.attemptEnd passed senses).finish

end Sys2Proof.Machine
end

