-- ==== Sys2Proof/Machine/MeterCommands.lean ====
section
/-! DEFINITION. The meanings of the meter unit's requests (chapters 8 and 9). -/

namespace Sys2Proof.Machine

/-! ## Tables -/

/-- R142: the tests of SIZE_SET on its four values. -/
def sizeValuesValid (body : List Byte) : Bool :=
  1 ≤ field body 1 4 && field body 1 4 ≤ 1048575 && 16 ≤ (byteAt body 5).toNat && (byteAt body 5).toNat ≤ 40
    && 1 ≤ (byteAt body 6).toNat && 1 ≤ (byteAt body 7).toNat

/-- The size class that a SIZE_SET body carries. -/
def sizeOf (body : List Byte) : SizeClass :=
  { factor := field body 1 4, shift := (byteAt body 5).toNat, weight := (byteAt body 6).toNat,
    bands := (byteAt body 7).toNat }

/-- R79, R142. -/
def answerSizeSet (s : State) (body : List Byte) : Answer :=
  match class? (byteAt body 0) with
  | none => .refuse .badField
  | some c =>
    if s.classInUse c then .refuse .badState
    else if !sizeValuesValid body then .refuse .badField
    else
      .done { s with meter := { s.meter with sizes := s.meter.sizes.set c (some (sizeOf body)) } }
        (fun _ => byte c.val :: num 4 (sizeOf body).factor
          ++ [byte (sizeOf body).shift, byte (sizeOf body).weight, byte (sizeOf body).bands])

/-- SIZE_SET (R142). -/
def execSizeSet (s : State) : Host.Outcome State Fault Refusal := .next (s.serve 0x40 answerSizeSet).finish

/-- The tier that a TIER_SET body carries. -/
def tierOf (body : List Byte) : Tier :=
  { base := field body 1 2
    rates := { p0 := field body 3 2, p1 := field body 5 2, p2 := field body 7 2, p3 := field body 9 2 }
    allowance := field body 11 2 }

/-- R144. -/
def answerTierSet (s : State) (body : List Byte) : Answer :=
  match tier? (byteAt body 0) with
  | none => .refuse .badField
  | some t =>
    if 1024 < (tierOf body).allowance then .refuse .badField
    else
      .done { s with meter := { s.meter with tiers := s.meter.tiers.set t (some (tierOf body)) } }
        (fun _ => byte t.val :: num 2 (tierOf body).base ++ planesWire 2 (tierOf body).rates
          ++ num 2 (tierOf body).allowance)

/-- TIER_SET (R144). -/
def execTierSet (s : State) : Host.Outcome State Fault Refusal := .next (s.serve 0x41 answerTierSet).finish

/-! ## Accounts -/

/-- The reply that carries an account's record as it stands after the request. -/
def accountDone (s : State) (a : AccountNo) : Answer := .done s (fun s' => accountBody a (s'.account a))

/-- The record that ACCOUNT_SET sets, its state by the table of the watch (R156, R162). -/
def accountSetTo (balance low floor : Int) (t : TierNo) : Account :=
  { state := watchState balance low floor, tier := some t, balance := balance, low := low, floor := floor, charged := 0,
    goodSheets := 0, wasteSheets := 0, pressTime := 0 }

/-- R156. The body: account, balance, low threshold, floor, tier. -/
def answerAccountSet (s : State) (body : List Byte) : Answer :=
  withAccount body fun a =>
    match s.setTier? (byteAt body 13) with
    | none => .refuse .badField
    | some t =>
      if intField body 5 < intField body 9 then .refuse .badField
      else
        match (s.account a).state with
        | .unset | .closed =>
          accountDone (s.accountTo a (accountSetTo (intField body 1) (intField body 5) (intField body 9) t) .set) a
        | _ => .refuse .badState

/-- ACCOUNT_SET (R156). -/
def execAccountSet (s : State) : Host.Outcome State Fault Refusal := .next (s.serve 0x50 answerAccountSet).finish

/-- R157. The body: account, low threshold, floor, tier. -/
def answerAccountLimits (s : State) (body : List Byte) : Answer :=
  withAccount body fun a =>
    match s.setTier? (byteAt body 9) with
    | none => .refuse .badField
    | some t =>
      if intField body 1 < intField body 5 then .refuse .badField
      else if (s.account a).state = .unset then .refuse .badState
      else
        let x := { s.account a with low := intField body 1, floor := intField body 5, tier := some t }
        accountDone (s.accountTo a x.watched .limits) a

/-- ACCOUNT_LIMITS (R157). -/
def execAccountLimits (s : State) : Host.Outcome State Fault Refusal := .next (s.serve 0x51 answerAccountLimits).finish

/-- An account with an amount added to its balance (R158). -/
def Account.credit (x : Account) (amount : Int) : Account := { x with balance := saturate32 (x.balance + amount) }

/-- R158. -/
def answerAccountCredit (s : State) (body : List Byte) : Answer :=
  withAccount body fun a =>
    if (s.account a).state = .unset then .refuse .badState
    else
      .done (s.accountTo a ((s.account a).credit (intField body 1)).watched .credit)
        (fun s' => int32 (s'.account a).balance ++ [(s'.account a).state.code])

/-- ACCOUNT_CREDIT (R158). -/
def execAccountCredit (s : State) : Host.Outcome State Fault Refusal := .next (s.serve 0x52 answerAccountCredit).finish

/-- R159. -/
def answerAccountClose (s : State) (body : List Byte) : Answer :=
  withAccount body fun a =>
    match (s.account a).state with
    | .unset => .refuse .badState
    | .closed => accountDone s a
    | _ => accountDone (s.accountTo a { s.account a with state := .closed } .close) a

/-- ACCOUNT_CLOSE (R159). -/
def execAccountClose (s : State) : Host.Outcome State Fault Refusal := .next (s.serve 0x53 answerAccountClose).finish

/-- R160. -/
def answerAccountQuery (s : State) (body : List Byte) : Answer :=
  withAccount body fun a => .done s (fun _ => accountQueryBody s a)

/-- ACCOUNT_QUERY (R160). -/
def execAccountQuery (s : State) : Host.Outcome State Fault Refusal := .next (s.serve 0x54 answerAccountQuery).finish

/-! ## The meter log -/

/-- The meter unit with a policy and a number of reservations. -/
def State.setPolicy (s : State) (policy : LogPolicy) (reservations : Nat) : State :=
  { s with meter := { s.meter with policy := policy, reservations := reservations } }

/-- R168. -/
def answerMeterPolicy (s : State) (body : List Byte) : Answer :=
  match LogPolicy.ofCode? (byteAt body 0) with
  | none => .refuse .badField
  | some asked =>
    let told (s' : State) : Answer := .done s' (fun s'' => meterPolicyBody s''.meter)
    if s.meter.policy = asked then told s
    else if s.meter.policy = .stall then told ((s.setPolicy asked 0).post .roomReport)
    else if asked = .stall then
      if s.meter.log.length + s.sheetsInFlight ≤ 256 then told (s.setPolicy .stall s.sheetsInFlight)
      else .refuse .badState
    else told (s.setPolicy asked s.meter.reservations)

/-- METER_POLICY (R168). -/
def execMeterPolicy (s : State) : Host.Outcome State Fault Refusal := .next (s.serve 0x55 answerMeterPolicy).finish

/-- R169, R170: records leave the front of the log, the dropped count is zeroed, the high-mark flag is re-armed below 128. -/
def State.readLog (s : State) (n : Nat) : State :=
  let rest := s.meter.log.drop n
  let s' : State := { s with meter := { s.meter with
    log := rest
    dropped := 0
    highMark := if rest.length < s.meter.log.length && rest.length < 128 then false else s.meter.highMark } }
  if s.meter.policy = .stall && rest.length < s.meter.log.length then s'.post .roomReport else s'

/-- R169. -/
def answerMeterRead (s : State) (body : List Byte) : Answer :=
  let n := (byteAt body 0).toNat
  if n < 1 || 8 < n then .refuse .badField
  else
    .done (s.readLog n) (fun _ => meterReadBody (s.meter.log.drop n).length s.meter.dropped (s.meter.log.take n))

/-- METER_READ (R169). -/
def execMeterRead (s : State) : Host.Outcome State Fault Refusal := .next (s.serve 0x56 answerMeterRead).finish

end Sys2Proof.Machine
end

