-- ==== Sys2Proof/Machine/PortCommands.lean ====
section
/-! DEFINITION. The meanings of the port commands of chapter 5: line signal, probing, identification, setup, trays, the port
requests and the frames of the press link. -/

namespace Sys2Proof.Machine

/-- LINE_SIGNAL_RETURNS (R81). -/
def execLineSignalReturns (p : PortNo) (sense : Sense) (s : State) : Host.Outcome State Fault Refusal :=
  .next (s.signalReturns p sense).finish

/-- LINE_SIGNAL_LOST (R82, R138). -/
def execLineSignalLost (p : PortNo) (s : State) : Host.Outcome State Fault Refusal := .next (s.signalLost p).finish

/-- PROBE_ECHO (R83, R84). -/
def execProbeEcho (p : PortNo) (sequence : Byte) (pattern : List Byte) (s : State) : Host.Outcome State Fault Refusal :=
  .next (s.message p (.probe sequence pattern)).finish

/-- PROBE_TIMEOUT (R83). -/
def execProbeTimeout (p : PortNo) (s : State) : Host.Outcome State Fault Refusal := .next (s.probeExpired p).finish

/-- R84: PORT_LOOPTEST is judged: the port, the count, the state. -/
def answerPortLooptest (s : State) (body : List Byte) : Answer :=
  withPort body fun p =>
    let count := (byteAt body 1).toNat
    if count = 0 then .refuse .badField
    else if (s.port p).state ≠ .loopback || (s.port p).loop.isSome then .refuse .badState
    else
      let test : LoopTest :=
        { count := count, awaited := 1, returned := 0, timer := { start := s.partTime, length := 20 } }
      .done ((s.modPort p (fun x => { x with loop := some test })).send p (.probe 1)) (fun _ => [])

/-- PORT_LOOPTEST (R84). -/
def execPortLooptest (s : State) : Host.Outcome State Fault Refusal := .next (s.serve 0x34 answerPortLooptest).finish

/-- LOOP_FRAME_EXPIRY (R84). -/
def execLoopFrameExpiry (p : PortNo) (s : State) : Host.Outcome State Fault Refusal := .next (s.loopExpired p).finish

/-- IDENTITY (R85, R86). -/
def execIdentity (p : PortNo) (contents : EngineIdentity) (s : State) : Host.Outcome State Fault Refusal :=
  .next (s.message p (.identity contents)).finish

/-- SETUP_DONE (R91). -/
def execSetupDone (p : PortNo) (s : State) : Host.Outcome State Fault Refusal := .next (s.message p .setupDone).finish

/-- SETUP_REFUSED (R92). -/
def execSetupRefused (p : PortNo) (code : Byte) (s : State) : Host.Outcome State Fault Refusal :=
  .next (s.message p (.setupRefused code)).finish

/-- SETUP_TIMER_EXPIRY (R93). -/
def execSetupTimerExpiry (p : PortNo) (s : State) : Host.Outcome State Fault Refusal := .next (s.setupExpired p).finish

/-- TRAY (R88, R89). -/
def execTray (p : PortNo) (item : TrayItem) (s : State) : Host.Outcome State Fault Refusal :=
  .next (s.message p (.tray item)).finish

/-! ## Port requests -/

/-- The code of a port's state, as the replies of PORT_HOLD, PORT_RELEASE and PORT_RESET carry it. -/
def State.portCode (s : State) (p : PortNo) : Byte := (s.port p).state.code

/-- The held flag changes, and the HOLD notice is raised (R87, R95, R96). -/
def State.setHeld (s : State) (p : PortNo) (held : Bool) : State :=
  (s.modPort p (fun x => { x with held := held })).notifyPort p (s.port p).state .hold

/-- R95. -/
def answerPortHold (s : State) (body : List Byte) : Answer :=
  withPort body fun p =>
    if (s.port p).held then .done s (fun s' => [s'.portCode p])
    else .done ((s.setHeld p true).post (.decide p)) (fun s' => [s'.portCode p])

/-- PORT_HOLD (R95). -/
def execPortHold (s : State) : Host.Outcome State Fault Refusal := .next (s.serve 0x30 answerPortHold).finish

/-- R96. -/
def answerPortRelease (s : State) (body : List Byte) : Answer :=
  withPort body fun p =>
    if (s.port p).held then
      .done (((s.setHeld p false).post (.decide p)).post (.chooseJob p)) (fun s' => [s'.portCode p])
    else .done s (fun s' => [s'.portCode p])

/-- PORT_RELEASE (R96). -/
def execPortRelease (s : State) : Host.Outcome State Fault Refusal := .next (s.serve 0x31 answerPortRelease).finish

/-- R97, step 1: the loop test is abandoned, timers stop, a band request in waiting is discarded. -/
def Port.resetTimers (x : Port) : Port :=
  { x with loop := none, setupTimer := none, probeTimer := none, gateTimer := none, request := none }

/-- R97, R139: PORT_RESET. The job leaves before any report of log room that its settling opens is taken. -/
def State.resetPort (s : State) (p : PortNo) (sense : Sense) : State :=
  let s := s.modPort p Port.resetTimers
  if (s.assignment p).isSome then
    let s := s.settleAbandoned p
    { s with agenda := .leave p .head :: .portResetRest p sense :: s.agenda }
  else s.post (.portResetRest p sense)

/-- R97. -/
def answerPortReset (sense : Sense) (s : State) (body : List Byte) : Answer :=
  withPort body fun p => .done (s.resetPort p sense) (fun s' => [s'.portCode p])

/-- PORT_RESET (R97, R139). -/
def execPortReset (sense : Sense) (s : State) : Host.Outcome State Fault Refusal :=
  .next (s.serve 0x32 (answerPortReset sense)).finish

/-- R98. -/
def answerPortQuery (s : State) (body : List Byte) : Answer :=
  withPort body fun p => .done s (fun _ => portBody (s.port p) (s.assigned p))

/-- PORT_QUERY (R98). -/
def execPortQuery (s : State) : Host.Outcome State Fault Refusal := .next (s.serve 0x33 answerPortQuery).finish

/-! ## Frames of the press link -/

/-- PRESS_FRAME_CHECK_FAIL (R99, R193): the bytes are taken by the port's receiver. -/
def execPressFrameCheckFail (p : PortNo) (bytes : List Byte) (s : State) : Host.Outcome State Fault Refusal :=
  .next (s.pressBytes p bytes).finish

/-- PRESS_FRAME_GAP_EXPIRY (R193). That the gap of a partial frame does not expire, and counts no discarded frame, once the line
signal is lost is the model's choice (log entry 34). -/
def execPressFrameGapExpiry (p : PortNo) (s : State) : Host.Outcome State Fault Refusal :=
  if s.hears p then .next (s.pressGap p).finish else .next s.finish

/-- PRESS_MESSAGE_IGNORED (R99): the bytes are taken by the port's receiver. -/
def execPressMessageIgnored (p : PortNo) (bytes : List Byte) (s : State) : Host.Outcome State Fault Refusal :=
  .next (s.pressBytes p bytes).finish

/-- PRESS_MARKER_SEEN (R193): the bytes are taken by the port's receiver. -/
def execPressMarkerSeen (p : PortNo) (bytes : List Byte) (s : State) : Host.Outcome State Fault Refusal :=
  .next (s.pressBytes p bytes).finish

/-- R193: the port has sent its frame and takes the next one waiting. -/
def Port.frameSent (x : Port) : Port :=
  match x.sending, x.outQueue with
  | none, _ => x
  | some _, [] => { x with sending := none }
  | some _, m :: rest => { x with sending := some m, outQueue := rest }

/-- PRESS_FRAME_SENT (R193). -/
def execPressFrameSent (p : PortNo) (s : State) : Host.Outcome State Fault Refusal :=
  .next (s.modPort p Port.frameSent).finish

end Sys2Proof.Machine
end

