-- ==== Sys2Proof/Machine/SpoolCommands.lean ====
section
/-! DEFINITION. The meanings of BAND_PUT, BAND_SUM and the ends of their write and reads (chapter 3). -/

namespace Sys2Proof.Machine

/-- R47: a BAND_PUT that passes begins its write and stays in service. -/
def answerBandPut (s : State) (body : List Byte) : Answer :=
  match s.judgePut body with
  | .error st => .refuse st
  | .ok w => .serving (s.modLink (fun l => { l with service := some (.write w) }))

/-- BAND_PUT (R47). -/
def execBandPut (s : State) : Host.Outcome State Fault Refusal := .next (s.serve 0x20 answerBandPut).finish

/-- R57: the gate of the next ordinal is met now, and the band just stored is one that it requires. -/
def State.completesGate (s : State) (w : BandWrite) : Bool :=
  match s.job w.slot with
  | some x =>
    s.gateMet w.slot x.next && (x.imagesOfOrdinal x.next).contains w.image && w.band < s.gateBands x
  | none => false

/-- R70, R105: the gate-met signal reaches the dispatcher, and the port that runs the job. -/
def State.gateSignal (s : State) (j : Slot) : State := if s.jobIs j .queued then s.seekPort j else s.tellPort j

/-- The body of BAND_PUT's reply OK, from the state right after the store (R188). -/
def bandPutBody (s : State) (w : BandWrite) : List Byte :=
  let r := (s.image w.slot w.image).getD ImageRec.fresh
  byte w.slot.val :: num 2 w.image ++ [byte w.band] ++ num 2 w.block ++ [byte r.present, byte r.lost]
    ++ num 2 s.spool.pool.length

/-- R48: the band is stored, a port that waits for it reads it (R114), and a gate it completes is signalled (R57). -/
def State.storeAndTell (s : State) (w : BandWrite) : State :=
  let s := (s.storeBand w).serveRequest w.slot w.image w.band w.block
  if s.completesGate w then s.gateSignal w.slot else s

/-- R48: the write has ended, and its two conditions are judged again. -/
def finishPut (s : State) (w : BandWrite) : Answer :=
  if !s.live w.slot then .refuse .noSuch
  else if s.imageReleased w.slot w.image then .refuse .badState
  else .done (s.storeAndTell w) (fun _ => bandPutBody (s.storeBand w) w)

/-- The tag of the request in service: the oldest one (R3). -/
def State.servedTag (s : State) : Word16 := (s.link.requests.head?.map (·.tag)).getD 0

/-- R48: the payload stands in its block, also where the write is then discarded and the block stays free (log entry 6). -/
def State.writeEnds (s : State) (w : BandWrite) : State :=
  let s := s.writeBlock w.block w.payload
  s.conclude s.servedTag (finishPut s w)

/-- BAND_PUT_WRITE_COMPLETE (R48). -/
def execBandPutWriteComplete (s : State) : Host.Outcome State Fault Refusal :=
  match s.link.service with
  | some (.write w) => .next (s.writeEnds w).finish
  | _ => .next s.finish

/-- R52: a BAND_SUM that passes begins its read and stays in service. -/
def answerBandSum (s : State) (body : List Byte) : Answer :=
  match s.judgeSum body with
  | .error st => .refuse st
  | .ok r => .serving (s.modLink (fun l => { l with service := some (.sum r) }))

/-- BAND_SUM (R52). -/
def execBandSum (s : State) : Host.Outcome State Fault Refusal := .next (s.serve 0x21 answerBandSum).finish

/-- The sum of payload bytes modulo 65,536 (R52). -/
def byteSum (bytes : List Byte) : Nat := (bytes.map BitVec.toNat).sum % 65536

/-- The coverage counts of a present entry. -/
def State.countsAt (s : State) (r : SumRead) : Planes :=
  match s.band r.slot r.image r.band with
  | some (.present _ _ counts) => counts
  | _ => Planes.zero

/-- R52: the read for BAND_SUM ends. -/
def State.concludeSum (s : State) (r : SumRead) (parityError : Bool) : State :=
  match s.endRead r.slot r.image r.band r.block parityError none with
  | (s', .payload bytes) =>
    s'.conclude s.servedTag
      (.done s' (fun _ => num 2 (byteSum bytes) ++ num 2 bytes.length ++ planesWire 4 (s.countsAt r)))
  | (s', .lost) => s'.conclude s.servedTag (.refuse .noSuch)

/-- BAND_SUM_READ_END (R52). -/
def execBandSumReadEnd (parityError : Bool) (s : State) : Host.Outcome State Fault Refusal :=
  match s.link.service with
  | some (.sum r) => .next (s.concludeSum r parityError).finish
  | _ => .next s.finish

/-- R49, R115: a read for a port ends: it leaves the port's reads in progress, and the port answers its engine. A read whose
job's entries were removed meanwhile is answered lost, with no loss taken (R49). -/
def State.portReadEnd (s : State) (p : PortNo) (index : Nat) (parityError : Bool) : State :=
  match (s.port p).reads[index]? with
  | some r =>
    let s := s.modPort p (fun q => { q with reads := q.reads.eraseIdx index })
    let e := if r.gone then (s, ReadResult.lost) else s.endRead r.slot r.image r.band r.block parityError (some p)
    e.1.answerRead p r e.2
  | none => s

/-- SPOOL_READ_END (R49). -/
def execSpoolReadEnd (p : PortNo) (index : Nat) (parityError : Bool) (s : State) : Host.Outcome State Fault Refusal :=
  .next (s.portReadEnd p index parityError).finish

end Sys2Proof.Machine
end

