-- ==== Sys2Proof/Machine/Dispatch.lean ====
section
/-! DEFINITION. The meaning of every command: one arm for each constructor of Instr. -/

namespace Sys2Proof.Machine

-- The effect of a command on everything but the queue of waiting commands.
def exec (i : Instr) (s : State) : Host.Outcome State Fault Refusal :=
  match i with
  | .receivedFrame kind tag body => Sys2Proof.Machine.execReceivedFrame kind tag body s
  | .frameError bytes => Sys2Proof.Machine.execFrameError bytes s
  | .frameGapExpiry => Sys2Proof.Machine.execFrameGapExpiry s
  | .unknownRequest => Sys2Proof.Machine.execUnknownRequest s
  | .outboundFrameEnd => Sys2Proof.Machine.execOutboundFrameEnd s
  | .identify => Sys2Proof.Machine.execIdentify s
  | .status => Sys2Proof.Machine.execStatus s
  | .reset => Sys2Proof.Machine.execReset s
  | .resetTakesEffect senses => Sys2Proof.Machine.execResetTakesEffect senses s
  | .powerOn signals => Sys2Proof.Machine.execPowerOn signals s
  | .noticeMask => Sys2Proof.Machine.execNoticeMask s
  | .levelSet => Sys2Proof.Machine.execLevelSet s
  | .portSet => Sys2Proof.Machine.execPortSet s
  | .selfTestAttemptEnd passed senses => Sys2Proof.Machine.execSelfTestAttemptEnd passed senses s
  | .jobOpen => Sys2Proof.Machine.execJobOpen s
  | .jobCancel => Sys2Proof.Machine.execJobCancel s
  | .jobSuspend => Sys2Proof.Machine.execJobSuspend s
  | .jobResume => Sys2Proof.Machine.execJobResume s
  | .jobLevel => Sys2Proof.Machine.execJobLevel s
  | .jobQuery => Sys2Proof.Machine.execJobQuery s
  | .jobForget => Sys2Proof.Machine.execJobForget s
  | .bandPut => Sys2Proof.Machine.execBandPut s
  | .bandPutWriteComplete => Sys2Proof.Machine.execBandPutWriteComplete s
  | .bandSum => Sys2Proof.Machine.execBandSum s
  | .bandSumReadEnd parityError => Sys2Proof.Machine.execBandSumReadEnd parityError s
  | .spoolReadEnd port index parityError => Sys2Proof.Machine.execSpoolReadEnd port index parityError s
  | .sliceExpiry port => Sys2Proof.Machine.execSliceExpiry port s
  | .sizeSet => Sys2Proof.Machine.execSizeSet s
  | .tierSet => Sys2Proof.Machine.execTierSet s
  | .lineSignalReturns port sense => Sys2Proof.Machine.execLineSignalReturns port sense s
  | .lineSignalLost port => Sys2Proof.Machine.execLineSignalLost port s
  | .probeEcho port sequence pattern => Sys2Proof.Machine.execProbeEcho port sequence pattern s
  | .probeTimeout port => Sys2Proof.Machine.execProbeTimeout port s
  | .portLooptest => Sys2Proof.Machine.execPortLooptest s
  | .loopFrameExpiry port => Sys2Proof.Machine.execLoopFrameExpiry port s
  | .identity port contents => Sys2Proof.Machine.execIdentity port contents s
  | .setupDone port => Sys2Proof.Machine.execSetupDone port s
  | .setupRefused port code => Sys2Proof.Machine.execSetupRefused port code s
  | .setupTimerExpiry port => Sys2Proof.Machine.execSetupTimerExpiry port s
  | .tray port item => Sys2Proof.Machine.execTray port item s
  | .portHold => Sys2Proof.Machine.execPortHold s
  | .portRelease => Sys2Proof.Machine.execPortRelease s
  | .portReset sense => Sys2Proof.Machine.execPortReset sense s
  | .portQuery => Sys2Proof.Machine.execPortQuery s
  | .pressFrameCheckFail port bytes => Sys2Proof.Machine.execPressFrameCheckFail port bytes s
  | .pressFrameGapExpiry port => Sys2Proof.Machine.execPressFrameGapExpiry port s
  | .pressMessageIgnored port bytes => Sys2Proof.Machine.execPressMessageIgnored port bytes s
  | .gateWaitExpiry port => Sys2Proof.Machine.execGateWaitExpiry port s
  | .want port tag back band => Sys2Proof.Machine.execWant port tag back band s
  | .bandGraceExpiry port => Sys2Proof.Machine.execBandGraceExpiry port s
  | .picked port tag => Sys2Proof.Machine.execPicked port tag s
  | .delivered port tag => Sys2Proof.Machine.execDelivered port tag s
  | .stop port reason items => Sys2Proof.Machine.execStop port reason items s
  | .cleared port => Sys2Proof.Machine.execCleared port s
  | .accountSet => Sys2Proof.Machine.execAccountSet s
  | .accountLimits => Sys2Proof.Machine.execAccountLimits s
  | .accountCredit => Sys2Proof.Machine.execAccountCredit s
  | .accountClose => Sys2Proof.Machine.execAccountClose s
  | .accountQuery => Sys2Proof.Machine.execAccountQuery s
  | .meterPolicy => Sys2Proof.Machine.execMeterPolicy s
  | .meterRead => Sys2Proof.Machine.execMeterRead s
  | .escalationExpiry port => Sys2Proof.Machine.execEscalationExpiry port s
  | .alertAck => Sys2Proof.Machine.execAlertAck s
  | .alertQuery => Sys2Proof.Machine.execAlertQuery s
  | .panelLineSent => Sys2Proof.Machine.execPanelLineSent s
  | .markerPairSeen bytes => Sys2Proof.Machine.execMarkerPairSeen bytes s
  | .pressMarkerSeen port bytes => Sys2Proof.Machine.execPressMarkerSeen port bytes s
  | .pressFrameSent port => Sys2Proof.Machine.execPressFrameSent port s

end Sys2Proof.Machine
end

