-- ==== Sys2Proof/Machine/Step.lean ====
section
/-! DEFINITION. One step of the block: the command at the front of the queue, or a tick of part time. -/

namespace Sys2Proof.Machine

/-- Part time goes on by 1 ms (R15). What expires then are commands of their own (log entry 8). -/
def State.tick (s : State) : State := { s with partTime := s.partTime + 1 }

/-- One step: the command at the front of the queue is taken and carried out; on an empty queue 1 ms of part time passes. -/
def step (s : State) : Host.Outcome State Fault Refusal :=
  match s.pending with
  | c :: rest => exec c { s with pending := rest }
  | [] => .next s.tick

/-- The command that a table word spells, put at the front of the queue; no row's word spells one (log entry 25). -/
def State.withFetchWord (s : State) (nbits w : Nat) : State :=
  match decodeTableWord nbits w with
  | some c => { s with pending := c :: s.pending }
  | none => s

end Sys2Proof.Machine
end

