-- ==== Sys2Proof/WellFormed.lean ====
section
/-! DEFINITION. What the lines themselves rule out in a command's operands: contents that no frame of that kind can carry. The
machine takes ill-formed commands too (log entry 28); this says which those are. -/

namespace Sys2Proof

/-- A STOP's zone or fault code lies in its range (R195). -/
def StopReason.wellFormed : StopReason → Bool
  | .jam zone => 1 ≤ zone.toNat && zone.toNat ≤ 8
  | .fault code => 1 ≤ code.toNat

/-- A command's operands are ones that its line can carry: a control-link body fits the length field (R185), a tray table and
a STOP list fit their count bytes (R193, R195), a PROBE carries 16 pattern bytes (R193), rows for arriving bytes carry at
least one byte. -/
def Instr.wellFormed : Instr → Bool
  | .receivedFrame _ _ body => body.length ≤ 16445
  | .frameError bytes => bytes ≠ []
  | .markerPairSeen bytes => bytes ≠ []
  | .pressFrameCheckFail _ bytes => bytes ≠ []
  | .pressMessageIgnored _ bytes => bytes ≠ []
  | .pressMarkerSeen _ bytes => bytes ≠ []
  | .probeEcho _ _ pattern => pattern.length = 16
  | .identity _ contents => contents.trays.length ≤ 255
  | .stop _ reason items => reason.wellFormed && items.length ≤ 255
  | .frameGapExpiry | .unknownRequest | .outboundFrameEnd | .identify | .status | .reset | .resetTakesEffect _
  | .powerOn _ | .noticeMask | .levelSet | .portSet | .selfTestAttemptEnd _ _ | .jobOpen | .jobCancel | .jobSuspend
  | .jobResume | .jobLevel | .jobQuery | .jobForget | .bandPut | .bandPutWriteComplete | .bandSum | .bandSumReadEnd _
  | .spoolReadEnd _ _ _ | .sliceExpiry _ | .sizeSet | .tierSet | .lineSignalReturns _ _ | .lineSignalLost _
  | .probeTimeout _ | .portLooptest | .loopFrameExpiry _ | .setupDone _ | .setupRefused _ _ | .setupTimerExpiry _
  | .tray _ _ | .portHold | .portRelease | .portReset _ | .portQuery | .pressFrameGapExpiry _ | .gateWaitExpiry _
  | .want _ _ _ _ | .bandGraceExpiry _ | .picked _ _ | .delivered _ _ | .cleared _ | .accountSet | .accountLimits
  | .accountCredit | .accountClose | .accountQuery | .meterPolicy | .meterRead | .escalationExpiry _ | .alertAck
  | .alertQuery | .panelLineSent | .pressFrameSent _ => true

end Sys2Proof
end

