-- ==== Sys2Proof/Safety.lean ====
section
/-! DEFINITION. What counts as a sound state, and the terms in which the statements about the machine are made. -/

namespace Sys2Proof.Machine

/-! ## Sound states -/

/-- The queues of the link interface keep to their lengths: 4 requests (R3), 8 replies with a place kept for the request in
service (R6), 64 notices (R8). A request in service is the oldest of the queue (R3), and none is in service while a reset
is pending (R12). -/
structure Link.Sound (l : Link) : Prop where
  requests : l.requests.length ≤ 4
  replies : l.replies.length + (if l.service.isSome then 1 else 0) ≤ 8
  notices : l.notices.length ≤ 64
  served : l.service.isSome → l.requests ≠ []
  pending : l.reset ≠ .none → l.service = none

/-- A paper-path queue never holds more than four sheets (R110), and no engine declared a greater path depth (R85). -/
def Port.Bounded (x : Port) : Prop := x.path.length ≤ 4 ∧ ∀ c, x.caps = some c → c.depth ≤ 4

/-- A port's settings lie in their ranges (R17), and its paper-path queue in its bound. -/
structure Port.Sound (x : Port) : Prop where
  grace : x.grace ≤ 250
  gateWait : x.gateWait ≤ 60000
  interval : 10 ≤ x.interval ∧ x.interval ≤ 600
  bounded : x.Bounded

/-- The values of a set size class lie in their ranges (R141). -/
structure SizeClass.Sound (c : SizeClass) : Prop where
  factor : 1 ≤ c.factor ∧ c.factor ≤ 1048575
  shift : 16 ≤ c.shift ∧ c.shift ≤ 40
  weight : 1 ≤ c.weight ∧ c.weight ≤ 255
  bands : 1 ≤ c.bands ∧ c.bands ≤ 255

/-- The values of a set price tier lie in their ranges (R143). -/
structure Tier.Sound (t : Tier) : Prop where
  base : t.base ≤ 65535
  rates : t.rates.p0 ≤ 65535 ∧ t.rates.p1 ≤ 65535 ∧ t.rates.p2 ≤ 65535 ∧ t.rates.p3 ≤ 65535
  allowance : t.allowance ≤ 1024

/-- A balance lies in the signed 32-bit range (R154). -/
abbrev inRange (v : Int) : Prop := -2147483648 ≤ v ∧ v ≤ 2147483647

/-- An account's floor never lies above its low threshold, its balance is a signed 32-bit number, and an account that is set
names a set tier (R143, R154). -/
structure Account.Sound (tiers : Vector (Option Tier) 4) (x : Account) : Prop where
  limits : x.floor ≤ x.low
  balance : inRange x.balance
  tier : x.state ≠ .unset → ∃ t : TierNo, x.tier = some t ∧ (tiers[t]).isSome

/-- What a job record was opened with: the record with every field that later changes at a fixed value (R19). -/
def Job.described (x : Job) : Job :=
  { x with
    state := .queued, level := 0, forcedWhole := false, refusedBy := Vector.replicate 12 false, cancel := false
    suspend := false, slice := false, next := 0, good := 0, waste := 0, underruns := 0, charge := 0, pressTime := 0
    lastPort := none, lostOrdinal := none, lossCount := 0 }

/-- Under STALL the records and the reservations together keep to the 256 places of the log; under the other policies there
is no reservation (R167, R168). -/
def Meter.Room (m : Meter) : Prop :=
  (m.policy = .stall → m.log.length + m.reservations ≤ 256) ∧ (m.policy ≠ .stall → m.reservations = 0)

/-- A job's description lies in the ranges of its record, its class and account are set (R19, R27, R141, R155), and its next
ordinal does not pass its total sheets (R22). -/
structure Job.Sound (m : Meter) (x : Job) : Prop where
  sides : x.sides = 1 ∨ x.sides = 2
  sheets : 1 ≤ x.sheets ∧ x.sheets ≤ 4096
  copies : 1 ≤ x.copies ∧ x.copies ≤ 9999
  images : x.sheets * x.sides ≤ 8192
  stock : x.stock ≠ 0
  mask : x.onSheet = true ∨ x.onRoll = true
  cls : (m.sizes[x.sizeClass]).isSome
  account : (m.accounts[x.account]).state ≠ .unset
  next : x.next ≤ x.sheets * x.copies

/-- The free block pool has no block twice and is kept ascending; from the end of the self-test on, the pool, the retired list
and the blocks that present bands hold are together the 32,768 blocks, each once, before it the blocks tested so far (R40, R43,
R44, R46); an image's entries stand in the order of their band indexes, one for each (R46). -/
structure Spool.Sound (x : Spool) : Prop where
  pool : x.pool.Pairwise (· < ·)
  blocks : (x.pool ++ x.retired ++ (List.finRange 128).flatMap (fun j => imageBlocks x.images[j])).Perm
    (List.range (if x.startUp = .starting then x.testBlock else 32768))
  bands : ∀ (j : Slot), ∀ r ∈ x.images[j], r.bands.Pairwise (fun a b => a.1 < b.1)
  testing : x.startUp = .starting → x.testBlock < 32768

/-- Every job is in the place its state names, and nowhere else (R25): a QUEUED job once in its level's list of the ready
queue and in no other (R58), a STOCKWAIT job once on the stock wait list, which is in order of level (R60), a RUNNING job
assigned to one port (R78). A FREE slot and a terminal job have no images (R45, R55). -/
structure JobsPlaced (jobs : Vector (Option Job) 128) (d : Dispatcher) (images : Vector (List ImageRec) 128) : Prop where
  ready : ∀ (l : Level) (j : Slot), j ∈ d.ready[l] ↔ ∃ x, jobs[j] = some x ∧ x.state = .queued ∧ x.level = l
  once : ∀ l : Level, (d.ready[l]).Nodup
  waiting : ∀ j : Slot, j ∈ d.stockWait ↔ ∃ x, jobs[j] = some x ∧ x.state = .stockwait
  waitOnce : d.stockWait.Nodup
  waitOrder : d.stockWait.Pairwise (fun i j => ∀ x y, jobs[i] = some x → jobs[j] = some y → x.level ≤ y.level)
  running : ∀ j : Slot, (∃ p : PortNo, d.assignments[p].map (·.slot) = some j) ↔ ∃ x, jobs[j] = some x ∧ x.state = .running
  alone : ∀ (p q : PortNo) (j : Slot),
    d.assignments[p].map (·.slot) = some j → d.assignments[q].map (·.slot) = some j → p = q
  bare : ∀ j : Slot, (∀ x, jobs[j] = some x → x.state.terminal = true) → images[j] = []

/-- Every job of a state is in its place. -/
def State.Placed (s : State) : Prop := JobsPlaced s.jobs s.dispatch s.spool.images

/-- The block of a BAND_PUT whose write runs stays in the pool, and no band is present at its key, until the write ends (R47,
R48). -/
def State.WriteWaits (s : State) : Prop :=
  ∀ w, s.link.service = some (.write w) → w.block ∈ s.spool.pool ∧ s.bandPresent w.slot w.image w.band = false

/-- A sound state: one that keeps to every limit named above, to the 256 places of the meter log (R166), to the greatest slice
(R16) and to the canonical form of the spool DRAM; whose blocks, jobs and waiting write stand where the spool manager's and the
dispatcher's records have them; with nothing of an earlier step left to bring about. -/
structure State.Sound (s : State) : Prop where
  link : s.link.Sound
  ports : ∀ p, (s.port p).Sound
  slices : ∀ l : Level, s.dispatch.slices[l] ≤ 600000
  sizes : ∀ (c : ClassNo) (x : SizeClass), s.meter.sizes[c] = some x → x.Sound
  tiers : ∀ (t : TierNo) (x : Tier), s.meter.tiers[t] = some x → x.Sound
  accounts : ∀ a, (s.account a).Sound s.meter.tiers
  jobs : ∀ (j : Slot) (x : Job), s.job j = some x → x.Sound s.meter
  log : s.meter.log.length ≤ 256
  room : s.meter.Room
  dram : Memory.wf s.spool.dram
  spool : s.spool.Sound
  placed : s.Placed
  writing : s.WriteWaits
  agenda : s.agenda = []

/-! ## The terms of the statements -/

/-- The request kind that a row of the table serves (R186); none for a row that serves no request kind. -/
def requestKind : Instr → Option Byte
  | .identify => some 0x01
  | .status => some 0x02
  | .reset => some 0x03
  | .noticeMask => some 0x04
  | .levelSet => some 0x05
  | .portSet => some 0x06
  | .jobOpen => some 0x10
  | .jobCancel => some 0x11
  | .jobSuspend => some 0x12
  | .jobResume => some 0x13
  | .jobLevel => some 0x14
  | .jobQuery => some 0x15
  | .jobForget => some 0x16
  | .bandPut => some 0x20
  | .bandSum => some 0x21
  | .portHold => some 0x30
  | .portRelease => some 0x31
  | .portReset _ => some 0x32
  | .portQuery => some 0x33
  | .portLooptest => some 0x34
  | .sizeSet => some 0x40
  | .tierSet => some 0x41
  | .accountSet => some 0x50
  | .accountLimits => some 0x51
  | .accountCredit => some 0x52
  | .accountClose => some 0x53
  | .accountQuery => some 0x54
  | .meterPolicy => some 0x55
  | .meterRead => some 0x56
  | .alertAck => some 0x60
  | .alertQuery => some 0x61
  | .receivedFrame _ _ _ | .frameError _ | .frameGapExpiry | .unknownRequest | .outboundFrameEnd | .resetTakesEffect _
  | .powerOn _ | .selfTestAttemptEnd _ _ | .bandPutWriteComplete | .bandSumReadEnd _ | .spoolReadEnd _ _ _
  | .sliceExpiry _ | .lineSignalReturns _ _ | .lineSignalLost _ | .probeEcho _ _ _ | .probeTimeout _
  | .loopFrameExpiry _ | .identity _ _ | .setupDone _ | .setupRefused _ _ | .setupTimerExpiry _ | .tray _ _
  | .pressFrameCheckFail _ _ | .pressFrameGapExpiry _ | .pressMessageIgnored _ _ | .gateWaitExpiry _ | .want _ _ _ _
  | .bandGraceExpiry _ | .picked _ _ | .delivered _ _ | .stop _ _ _ | .cleared _ | .escalationExpiry _
  | .panelLineSent | .markerPairSeen _ | .pressMarkerSeen _ _ | .pressFrameSent _ => none

/-- `r` is the oldest request, with `rest` behind it, and the link interface may take it into service (R4, R12). -/
structure State.Oldest (s : State) (r : Request) (rest : List Request) : Prop where
  requests : s.link.requests = r :: rest
  service : s.link.service = none
  room : s.link.replies.length < 8
  reset : s.link.reset = .none
  agenda : s.agenda = []

/-- `r` is the oldest request, of kind `kind`; it may be taken into service and passes the first three tests of R4. -/
structure State.Takes (s : State) (kind : Byte) (r : Request) (rest : List Request) : Prop extends s.Oldest r rest where
  isKind : r.kind = kind
  fits : lengthFits r = true
  served : s.spool.startUp.refuses = true → servedAlways kind = true

/-- The reply to the oldest request stands in the reply list, the request has left the queue (R3 to R6), and the outbound
line, if idle, has taken its next frame (R7). -/
def State.answered (s : State) (r : Request) (status : Status) (body : List Byte) : State :=
  State.pump { s with link := { s.link with
    requests := s.link.requests.drop 1
    service := none
    replies := s.link.replies ++ [{ tag := r.tag, status := status, body := body, ofReset := false }] } }

/-- A BUSY or FRAME_ERROR reply finds its place (R6): fewer than seven replies wait, or seven and no request is in service. -/
abbrev Link.hasErrorPlace (l : Link) : Prop := l.replies.length < 7 ∨ (l.replies.length = 7 ∧ l.service = none)

/-- The link after a BUSY or FRAME_ERROR reply with this tag has arisen (R6): it waits, or is lost for want of a place. -/
def Link.errorArisen (l : Link) (tag : Word16) (status : Status) : Link :=
  if l.hasErrorPlace then
    { l with replies := l.replies ++ [{ tag := tag, status := status, body := [], ofReset := false }] }
  else l

/-- The link with its receiver hunting, from now (R1, R2). -/
def Link.huntAgain (l : Link) (now : Word32) : Link := { l with receiver := { rx := .hunt false, last := now } }

/-- No job waits for the dispatcher to place it on a port: the ready queue is empty (R58). -/
def State.noneReady (s : State) : Prop := ∀ l : Level, s.readyAt l = []

/-- The body of the JOB_OPEN that describes a job (R187). -/
def Job.openBody (x : Job) : List Byte :=
  word32 x.label ++ [byte x.account.val, byte x.level.val, byte x.sizeClass.val, byte x.sides] ++ num 2 x.sheets
    ++ num 2 x.copies ++ [x.stock, flags [x.colour, x.onSheet, x.onRoll], optPort x.pinned, optPort x.barred, byte x.lead]
    ++ flags [x.setup.bin.isSome, x.setup.finishing.isSome, x.setup.profile.isSome, x.setup.quality.isSome,
        x.setup.offset.isSome]
    :: [x.setup.bin, x.setup.finishing, x.setup.profile, x.setup.quality, x.setup.offset].map (fun o => o.getD 0)

/-- A record as JOB_OPEN first makes it: a description in its ranges, and nothing done yet (R19, R20, R22 to R24, R27). -/
structure Job.Fresh (m : Meter) (x : Job) : Prop extends x.Sound m where
  opened : x = { x.described with level := x.level }
  lead : x.lead ≤ 255
  setup : x.setup.valid = true
  ports : x.pinned = none ∨ x.pinned ≠ x.barred

/-- A job that is in none of the dispatcher's lists (R58, R60). -/
def State.unlisted (s : State) (j : Slot) : Prop := (∀ l : Level, j ∉ s.readyAt l) ∧ j ∉ s.dispatch.stockWait

/-- No port is free to be chosen for a job, and none is feeding, to be signalled (R69, R74). -/
def State.noPortToChoose (s : State) : Prop := ∀ p : PortNo, (s.port p).state ≠ .ready ∧ (s.port p).state ≠ .feeding

/-- A job runs on no port that feeds: a report to its port finds nothing to decide (R102, R106). -/
def State.notFeeding (s : State) (j : Slot) : Prop := ∀ p : PortNo, s.assigned p = some j → (s.port p).state ≠ .feeding

/-- A slot's place in the image records and the job record, filled (R28, R45). -/
def State.filled (s : State) (j : Slot) (x : Job) : State :=
  let images := List.replicate (x.sheets * x.sides)
    { present := 0, lost := 0, sums := Planes.zero, released := false, bands := [] }
  { s with
    jobs := s.jobs.set j (some x)
    spool := { s.spool with images := s.spool.images.set j images } }

/-- A port hears its engine now, its receiver is between frames, and nothing of an earlier step is left to bring about. -/
structure State.Hears (s : State) (p : PortNo) : Prop where
  hears : s.hears p = true
  between : (s.port p).receiver.rx.midFrame = false
  agenda : s.agenda = []

/-- A port's record after a message has come: the receiver hunts, from now (R193). -/
def Port.heard (x : Port) (now : Word32) : Port := { x with receiver := { rx := .hunt false, last := now } }

/-- The press-link message that a row of the table takes, and the port it reaches; none for a row that takes no message. -/
def pressMessage : Instr → Option (PortNo × PressIn)
  | .probeEcho p sequence pattern => some (p, .probe sequence pattern)
  | .identity p contents => some (p, .identity contents)
  | .setupDone p => some (p, .setupDone)
  | .setupRefused p code => some (p, .setupRefused code)
  | .tray p item => some (p, .tray item)
  | .want p tag back band => some (p, .want tag back band)
  | .picked p tag => some (p, .picked tag)
  | .delivered p tag => some (p, .delivered tag)
  | .stop p reason items => some (p, .stop reason items)
  | .cleared p => some (p, .cleared)
  | .receivedFrame _ _ _ | .frameError _ | .frameGapExpiry | .unknownRequest | .outboundFrameEnd | .identify | .status
  | .reset | .resetTakesEffect _ | .powerOn _ | .noticeMask | .levelSet | .portSet | .selfTestAttemptEnd _ _ | .jobOpen
  | .jobCancel | .jobSuspend | .jobResume | .jobLevel | .jobQuery | .jobForget | .bandPut | .bandPutWriteComplete
  | .bandSum | .bandSumReadEnd _ | .spoolReadEnd _ _ _ | .sliceExpiry _ | .sizeSet | .tierSet | .lineSignalReturns _ _
  | .lineSignalLost _ | .probeTimeout _ | .portLooptest | .loopFrameExpiry _ | .setupTimerExpiry _ | .portHold
  | .portRelease | .portReset _ | .portQuery | .pressFrameCheckFail _ _ | .pressFrameGapExpiry _
  | .pressMessageIgnored _ _ | .gateWaitExpiry _ | .bandGraceExpiry _ | .accountSet | .accountLimits | .accountCredit
  | .accountClose | .accountQuery | .meterPolicy | .meterRead | .escalationExpiry _ | .alertAck | .alertQuery
  | .panelLineSent | .markerPairSeen _ | .pressMarkerSeen _ _ | .pressFrameSent _ => none

/-- A port's record once it has entered a state that counts no stock (R80). -/
def Port.emptied (x : Port) (st : PortState) (now : Word32) : Port :=
  { x with state := st, stateTime := now, trays := [], caps := none }

/-- The alert that a cause newly displayed opens or raises (R174, R176). -/
def State.alarm (s : State) (p : PortNo) (c : CauseSet) : Alert :=
  { causes := c, level := some 1, acknowledged := false
    timer := some { start := s.partTime, length := 1000 * (s.port p).interval }, raised := some s.partTime }

/-- What an event at a port leaves as it was in any case: the clock, the spool, the other ports and their alerts, the tables
and the log of the meter unit, and all of the link interface but the notice queue and its flag. -/
structure State.Beyond (s t : State) (p : PortNo) : Prop where
  time : t.partTime = s.partTime
  spool : t.spool = s.spool
  ports : ∀ q, q ≠ p → t.port q = s.port q
  alerts : ∀ q, q ≠ p → t.alert q = s.alert q
  meter : t.meter = { s.meter with accounts := t.meter.accounts, reservations := t.meter.reservations }
  link : t.link = { s.link with notices := t.link.notices, overflow := t.link.overflow }
  notices : s.link.notices <+: t.link.notices
  choices : t.choices = s.choices
  pending : t.pending = s.pending
  agenda : t.agenda = []

/-- What an event at a port leaves as it was where it moves no job: all of that, the jobs, the dispatcher and the accounts. -/
structure State.AtPort (s t : State) (p : PortNo) : Prop extends s.Beyond t p where
  jobs : t.jobs = s.jobs
  dispatch : t.dispatch = s.dispatch
  meterKept : t.meter = s.meter

/-- The job that runs on a port, its assignment and its record, where its account makes it HELD once it leaves (R26). -/
structure State.LeavesHeld (s : State) (p : PortNo) (a : Assignment) (x : Job) : Prop where
  assignment : s.assignment p = some a
  job : s.job a.slot = some x
  running : x.state = .running
  unfinished : x.good ≠ x.sheets * x.copies
  sound : x.lossCount ≠ 5
  kept : x.cancel = false
  going : x.suspend = false
  stops : (s.account x.account).state.stops = true

/-- That job's record once it has left, after `time` ms of assignment (R24, R26, R78). -/
def Job.leftHeld (x : Job) (time : Nat) : Job :=
  { x with state := .held, slice := false, pressTime := min (x.pressTime + time) 4294967295 }

/-- What such a leaving changes beside the port, its alert and the notices: the assignment record, the job's record, which
becomes `y`, and the press time of the job's account. -/
structure State.LeftHeld (s t : State) (p : PortNo) (a : Assignment) (y : Job) : Prop extends s.Beyond t p where
  job : t.job a.slot = some y
  jobs : ∀ j, j ≠ a.slot → t.job j = s.job j
  dispatch : t.dispatch = { s.dispatch with assignments := s.dispatch.assignments.set p none }
  reservations : t.meter.reservations = s.meter.reservations
  account : t.account y.account = { s.account y.account with
    pressTime := min ((s.account y.account).pressTime + elapsed s.partTime a.since) 18446744073709551615 }
  accounts : ∀ b, b ≠ y.account → t.account b = s.account b

/-- A report that makes a port decide (R102, R105), carried to its end in at most `n` runs of the decision. A port that does
not feed does nothing (R106). The last run leaves the port in a wait; or it stops feeding, and then sheets of its path are
still to come (R104), or its job leaves at once and the port, for which there is no eligible job, is READY (R111). A run that
starts a sheet brings the next (R110). -/
def State.Decides (p : PortNo) : Nat → State → State → Prop
  | 0, _, _ => False
  | n + 1, s, t =>
    let d := s.runDecision p
    let e : State := { d with agenda := [] }
    (d.agenda = [] ∧ t = d)
    ∨ (d.agenda = [.decide p] ∧ State.Decides p n e t)
    ∨ (d.agenda = [.afterRemoval p] ∧ (d.port p).state = .draining
      ∧ (((d.port p).path ≠ [] ∧ t = e)
        ∨ ((d.port p).path = []
          ∧ let left := e.leaveNow p ((d.port p).destination.getD .head)
            left.agenda = [] ∧ t = (left.clearAfterLeaving p).portTo p .ready ∧ t.chooseJob p = none)))

/-- What the choice of port for a QUEUED job comes to, and the signal to feeding ports where no port is found (R61, R69, R70,
R74): the job is assigned, its setup owner decides at once; or the one port that is signalled decides; or nothing follows.
Five runs of a decision start the four sheets a path may hold (R85) and find it full. -/
def State.Sought (s : State) (j : Slot) (t : State) : Prop :=
  (∃ p, s.choosePort j = some p ∧ State.Decides p 5 { s.assign p j with agenda := [] } t)
  ∨ (s.choosePort j = none
    ∧ ((s.signalled j = [] ∧ t = s) ∨ ∃ q, s.signalled j = [q] ∧ State.Decides q 5 s t))

/-- A band stored begins to be read for the one port that runs its job and waits for it (R114); else nothing follows. -/
def State.Serves (s : State) (w : BandWrite) (t : State) : Prop :=
  let waits (p : PortNo) (q : BandRequest) : Prop :=
    s.assigned p = some w.slot ∧ (s.port p).request = some q ∧ q.band = w.band
    ∧ ∃ z x, sheetOf (s.port p).path q.tag = some z ∧ s.job w.slot = some x
      ∧ w.image = (z.ordinal % x.sheets) * x.sides + (if q.back = true then 1 else 0)
  (∃ p q, waits p q ∧ (∀ r, s.assigned r = some w.slot → r = p)
    ∧ t = s.setPort p { s.port p with
        request := none
        reads := (s.port p).reads ++
          [{ tag := q.tag, back := q.back, band := q.band, slot := w.slot, image := w.image, block := w.block, live := true
             gone := false }] })
  ∨ ((∀ p q, ¬ waits p q) ∧ t = s)

/-- R121 of a port's queue and the job `x` that runs there, where no sheet has left it but from its head (R110, R123): the tags
are the last ones assigned, in turn; the unmarked sheets hold the ordinals from the good count to below the next ordinal, each
once and in order; every sheet holds an ordinal from the good count to below total. -/
structure Port.InOrder (q : Port) (x : Job) : Prop where
  tags : q.path.map (·.tag) = (List.range q.path.length).map (fun i => q.nextTag - BitVec.ofNat 8 (q.path.length - i))
  unmarked : (q.path.filter (fun z => z.mark = .unmarked)).map (·.ordinal) = List.range' x.good (x.next - x.good)
  ordinals : ∀ z ∈ q.path, x.good ≤ z.ordinal ∧ z.ordinal < x.sheets * x.copies
  counts : x.good ≤ x.next ∧ x.next ≤ x.sheets * x.copies

/-- A port goes back to FEEDING when its job rewinds below its next ordinal: it drains for END alone (R112). -/
def Port.resumes (q : Port) (y : Job) (r : Nat) : Bool :=
  q.state = .draining && q.drain = some .endOfJob && r < y.next

/-- A port's record after a rewind of its job `y` to the ordinal `r` (R112, R114, R117, R130): the path becomes `path`, DIVERT
goes out for each sheet of `diverted` if the engine has a reject tray, and the request waiting for one of `superseded` is
filled. -/
def Port.rewound (q : Port) (now : Word32) (y : Job) (r : Nat) (path diverted superseded : List Sheet) : Port :=
  let ended := q.request.filter (fun k => superseded.any (fun z => z.tag = k.tag))
  let diverts := if q.caps.any (·.reject) then diverted.map (fun z => PressOut.divert z.tag) else []
  let fills := ended.toList.map (fun k => PressOut.fill k.tag k.back k.band)
  (diverts ++ fills).foldl Port.queueOut
    { q with
      path := path
      state := if q.resumes y r then .feeding else q.state
      stateTime := if q.resumes y r then now else q.stateTime
      drain := if q.resumes y r then none else q.drain
      destination := if q.resumes y r then none else q.destination
      request := if ended.isSome then none else q.request
      counters := { q.counters with
        fills := if ended.isSome then min (q.counters.fills + 1) 4294967295 else q.counters.fills } }

/-- The job `y` of a port, in slot `j`, has been rewound to the ordinal `r`, and nothing else has changed (R22, R112). -/
structure State.Rewound (s t : State) (p : PortNo) (j : Slot) (y : Job) (r : Nat) (path diverted superseded : List Sheet) :
    Prop where
  port : t.port p = (s.port p).rewound s.partTime y r path diverted superseded
  job : t.job j = some { y with next := min y.next r }
  jobs : ∀ i, i ≠ j → t.job i = s.job i
  ports : ∀ q, q ≠ p → t.port q = s.port q
  link : t.link = (if (s.port p).resumes y r then
    (s.setPort p { s.port p with state := .feeding }).notifyPort p .draining (.state (some j)) else s).link
  spool : t.spool = s.spool
  meter : t.meter = s.meter
  alerts : t.alerts = s.alerts
  dispatch : t.dispatch = s.dispatch
  time : t.partTime = s.partTime
  panel : t.panel = s.panel
  choices : t.choices = s.choices
  pending : t.pending = s.pending

/-- A cause is in a cause set (R171). -/
def CauseSet.has (c : CauseSet) : Cause → Prop
  | .linkLost => c.linkLost = true
  | .engineFault => c.fault ≠ none
  | .jam => c.jam ≠ none
  | .underrun => c.underrun = true
  | .setupTimeout => c.setupTimeout = true
  | .trayEmpty => c.trayEmpty = true

/-- An account's record with a new state of the watch (R162): below the floor HELD, below the low threshold LOW, else OPEN. -/
def Account.watchedTo (x : Account) : Account :=
  { x with state := if x.balance < x.floor then .held else if x.balance < x.low then .low else .opened }

/-- An account's record is replaced, and a change that enters or leaves LOW or HELD raises its notice (R162). -/
def State.accountTold (s : State) (a : AccountNo) (x : Account) (cause : AccountCause) : State :=
  let before := (s.account a).state
  if before ≠ x.state ∧ (before = .low ∨ before = .held ∨ x.state = .low ∨ x.state = .held) then
    (s.setAccount a x).notify .account
      ([byte a.val, before.code, x.state.code] ++ int32 x.balance ++ int32 x.low ++ int32 x.floor ++ [cause.code])
  else s.setAccount a x

/-- A new panel line waits for the panel (R182), in its place where one waits for the port, else at the tail; an idle driver
takes the oldest line (R183). -/
def Panel.withLine (x : Panel) (p : PortNo) (text : List Char) : Panel :=
  let queue :=
    if (∃ e ∈ x.queue, e.1 = p) then x.queue.map (fun e => if e.1 = p then (p, text) else e) else x.queue ++ [(p, text)]
  match x.sending, queue with
  | none, line :: rest => { queue := rest, sending := some line }
  | _, _ => { x with queue := queue }

/-! ## Bodies, number by number

A body is told as the numbers it carries, each with its width in bytes, in the order in which they stand. -/

/-- The bytes of numbers of given widths, each most significant byte first (R184). -/
def spelled (numbers : List (Nat × Nat)) : List Byte := numbers.flatMap (fun f => num f.1 f.2)

/-- An optional field behind its presence byte (R186). -/
def maybe (width : Nat) (v : Option Nat) : List (Nat × Nat) := [(1, if v.isSome then 1 else 0), (width, v.getD 0)]

/-- A flag as a number. -/
def one (b : Bool) : Nat := if b then 1 else 0

/-- Flags as a number, bit n for flag n (R184). -/
def bits (l : List Bool) : Nat := (l.zipIdx.map (fun e => one e.1 * 2 ^ e.2)).sum

/-- A port number, or FFh (R184). -/
def portOr (p : Option PortNo) : Nat := (p.map (·.val)).getD 255

/-- A signed number in two's complement (R184). -/
def twos (v : Int) : Nat := (v % 4294967296).toNat

/-- The eight job states of a record, in the order of their codes (R192). -/
def jobStates : List JobState := [.queued, .stockwait, .running, .paused, .held, .done, .cancelled, .failed]

/-- The numbers of a STATUS reply (R11, R189). -/
def State.statusNumbers (s : State) : List (Nat × Nat) :=
  [(1, s.spool.startUp.code.toNat), (1, one s.link.overflow), (1, s.link.notices.length), (4, s.partTime.toNat),
   (2, s.spool.pool.length), (2, ((List.finRange 128).map (fun j => (imageBlocks (s.imagesOf j)).length)).sum),
   (2, s.spool.retired.length), (2, s.meter.log.length), (2, s.meter.dropped), (1, s.meter.policy.code.toNat),
   (1, ((List.finRange 128).filter (fun j => s.job j = none)).length)]
  ++ jobStates.map (fun st => (1, ((List.finRange 128).filter (fun j => (s.job j).map (·.state) = some st)).length))
  ++ (List.finRange 12).map (fun p => (1, (s.port p).state.code.toNat))

/-- The numbers of a JOB_QUERY reply (R33): the job record in the order of its table. -/
def Job.numbers (j : Slot) (x : Job) : List (Nat × Nat) :=
  [(1, j.val), (4, x.label.toNat), (1, x.state.code.toNat), (1, x.account.val), (1, x.level.val), (1, x.sizeClass.val),
   (1, x.sides), (2, x.sheets), (2, x.copies), (4, x.sheets * x.copies), (1, x.stock.toNat), (1, one x.colour),
   (1, bits [x.onSheet, x.onRoll]), (1, portOr x.pinned), (1, portOr x.barred), (1, x.lead), (1, one x.forcedWhole)]
  ++ [x.setup.bin, x.setup.finishing, x.setup.profile, x.setup.quality, x.setup.offset].flatMap
      (fun o => maybe 1 (o.map BitVec.toNat))
  ++ [(2, bits x.refusedBy.toList), (1, bits [x.cancel, x.suspend, x.slice]), (4, x.next), (4, x.good), (4, x.waste),
      (4, x.underruns), (8, x.charge), (4, x.pressTime), (1, portOr x.lastPort)]
  ++ maybe 4 x.lostOrdinal ++ [(1, x.lossCount)]

/-- The numbers of an engine's capabilities (R86, R98). -/
def capsNumbers : Option Capabilities → List (Nat × Nat)
  | some c =>
    [(1, 1), (1, one c.colour), (1, one c.duplex), (1, c.depth), (1, c.classes.toNat % 256), (1, c.classes.toNat / 256),
     (1, one c.reject)]
  | none => List.replicate 7 (1, 0)

/-- The numbers of a band request in waiting (R98, R101). -/
def requestNumbers : Option BandRequest → List (Nat × Nat)
  | some q => [(1, 1), (1, q.tag.toNat), (1, one q.back), (1, q.band), (1, q.timer.length)]
  | none => List.replicate 5 (1, 0)

/-- The numbers of a last setup refusal (R92, R98). -/
def refusalNumbers : Option (Slot × Byte) → List (Nat × Nat)
  | some (slot, code) => [(1, 1), (1, slot.val), (1, code.toNat)]
  | none => List.replicate 3 (1, 0)

/-- The numbers of a PORT_QUERY reply (R98), the feeding fields of R101 at its end. -/
def Port.numbers (x : Port) (job : Option Slot) : List (Nat × Nat) :=
  [(1, x.state.code.toNat), (4, x.stateTime.toNat), (1, one x.signal), (1, (PortClass.code x.cls).toNat), (1, one x.held)]
  ++ capsNumbers x.caps
  ++ (1, x.trays.length)
    :: x.trays.flatMap (fun t => [(1, t.number.toNat), (1, t.stock.toNat), (1, one t.loaded)])
  ++ maybe 1 (x.owner.map (·.val)) ++ maybe 1 (job.map (·.val))
  ++ (1, x.path.length)
    :: x.path.flatMap (fun z => [(1, z.tag.toNat), (4, z.ordinal), (1, z.state.code.toNat), (1, z.mark.code.toNat)])
  ++ [(1, x.nextTag.toNat)]
  ++ requestNumbers x.request ++ refusalNumbers x.refusal
  ++ [(1, x.underruns), (1, x.grace), (2, x.gateWait), (2, x.interval), (4, x.counters.sheetsStarted), (4, x.counters.good),
      (4, x.counters.waste), (4, x.counters.withdrawn), (4, x.counters.fills), (4, x.counters.stops),
      (4, x.counters.linkLosses), (4, x.counters.framesDiscarded), (1, x.wait.code.toNat)]
  ++ maybe 2 (x.gateTimer.map (·.length))
  ++ [(1, (DrainCause.code x.drain).toNat), (1, (Destination.code x.destination).toNat), (1, x.reads.length)]
  ++ x.reads.flatMap (fun q => [(1, q.tag.toNat), (1, one q.back), (1, q.band)])

/-- The numbers of an account record (R154, R156). -/
def Account.numbers (a : AccountNo) (x : Account) : List (Nat × Nat) :=
  [(1, a.val), (1, x.state.code.toNat)] ++ maybe 1 (x.tier.map (·.val))
  ++ [(4, twos x.balance), (4, twos x.low), (4, twos x.floor), (8, x.charged), (4, x.goodSheets), (4, x.wasteSheets),
      (8, x.pressTime)]

/-- The numbers of an ACCOUNT_QUERY reply (R160): the record, and how many of the account's jobs are in each state. -/
def State.accountNumbers (s : State) (a : AccountNo) : List (Nat × Nat) :=
  (s.account a).numbers a
  ++ jobStates.map (fun st =>
      (1, ((List.finRange 128).filter (fun j => (s.job j).map (fun x => (x.account, x.state)) = some (a, st))).length))

/-- The cause set of a port's alert, with the zone of JAM and the code of ENGINE_FAULT (R178, R179). -/
def CauseSet.numbers (c : CauseSet) : List (Nat × Nat) :=
  (1, bits [c.linkLost, c.fault.isSome, c.jam.isSome, c.underrun, c.setupTimeout, c.trayEmpty])
  :: maybe 1 (c.jam.map BitVec.toNat) ++ maybe 1 (c.fault.map BitVec.toNat)

/-- The severity rank of a displayed cause; 0 for none (R172, R191). -/
def shownRank (c : Option Cause) : Nat := (c.map Cause.rank).getD 0

/-- The numbers of an ALERT_QUERY reply (R179). -/
def State.alertNumbers (s : State) : List (Nat × Nat) :=
  (List.finRange 12).flatMap (fun p =>
    let a := s.alert p
    a.causes.numbers ++ [(1, shownRank a.causes.displayed)] ++ maybe 1 a.level ++ [(1, one a.acknowledged)]
    ++ maybe 4 (a.raised.map BitVec.toNat)
    ++ maybe 4 (a.timer.map (fun k => k.length - elapsed s.partTime k.start)))
  ++ [(1, s.panel.queue.length), (1, portOr (s.panel.sending.map (·.1)))]

/-- The numbers of a timer told by its length and its expiry time (R171, R178). -/
def timerNumbers : Option Timer → List (Nat × Nat)
  | some k => [(1, 1), (4, k.length), (4, (k.start.toNat + k.length) % 4294967296)]
  | none => [(1, 0), (4, 0), (4, 0)]

/-- The numbers of an ALERT_ACK reply (R178): the record in the order of R171, the escalation timer as its length and its
expiry time. -/
def Alert.numbers (a : Alert) : List (Nat × Nat) :=
  a.causes.numbers ++ [(1, shownRank a.causes.displayed)] ++ maybe 1 a.level ++ [(1, one a.acknowledged)]
  ++ timerNumbers a.timer ++ maybe 4 (a.raised.map BitVec.toNat)

/-- The numbers of an ALERT notice's body (R191). -/
def alertNoticeNumbers (p : PortNo) (reason : AlertReason) (before : Option Cause) (a : Alert) : List (Nat × Nat) :=
  [(1, p.val), (1, reason.code.toNat),
   (1, bits [a.causes.linkLost, a.causes.fault.isSome, a.causes.jam.isSome, a.causes.underrun, a.causes.setupTimeout,
     a.causes.trayEmpty]),
   (1, (a.causes.jam.map BitVec.toNat).getD 0), (1, (a.causes.fault.map BitVec.toNat).getD 0), (1, shownRank before),
   (1, shownRank a.causes.displayed), (1, a.level.getD 0), (1, one a.acknowledged), (4, (a.raised.map BitVec.toNat).getD 0)]

/-- The panel word of a cause (R172). -/
def panelWord : Cause → String
  | .linkLost => "LINK" | .engineFault => "FAULT" | .jam => "JAM" | .underrun => "UNDR" | .setupTimeout => "SETUP"
  | .trayEmpty => "TRAY"

/-- The panel line of a port (R181). -/
def panelLine (p : PortNo) (a : Alert) : String :=
  let port := (if p.val < 10 then "P0" else "P") ++ toString p.val
  match a.causes.displayed, a.level with
  | some c, some level =>
    port ++ " " ++ panelWord c
      ++ (if c = .jam then " Z" ++ toString (a.causes.jam.getD 0).toNat
          else if c = .engineFault then " C" ++ toString (a.causes.fault.getD 0).toNat else "")
      ++ " L" ++ toString level ++ (if a.acknowledged then " ACK" else "") ++ "\n"
  | _, _ => port ++ " CLEAR\n"

/-- An alert record becomes `a`; the notice of the event and the panel line follow (R174 to R182). -/
def State.alertTold (s : State) (p : PortNo) (a : Alert) (reason : AlertReason) : State :=
  let t := (s.setAlert p a).notify .alert (spelled (alertNoticeNumbers p reason (s.alert p).causes.displayed a))
  { t with panel := s.panel.withLine p (panelLine p a).toList }

end Sys2Proof.Machine
end

