-- ==== Sys2Proof/Certificates/Slice0/Obligations.lean ====
section
/-! DEFINITION. The statements about the machine, for the provers. Each docstring names the rules it rests on. -/

open Sys2Proof Sys2Proof.Machine

/-! ## The machine as a whole -/

/-- A step takes the command at the front of the queue and is what that command does to the state with the queue's rest. -/
def Obligations.StepRunsFrontCommand : Prop :=
  ∀ (c : Instr) (rest : List Instr) (s : State),
    s.pending = c :: rest → step s = exec c { s with pending := rest }

/-- With no command waiting, a step is 1 ms of part time, and nothing else (R15; the model's choice, log entry 8). -/
def Obligations.IdleStepIsOneMillisecond : Prop :=
  ∀ s : State, s.pending = [] → step s = .next { s with partTime := s.partTime + 1 }

/-- Every command answers a next state, with nothing left over to bring about, and leaves the commands that wait behind it
alone (the model's choice, log entries 4 and 5). -/
def Obligations.EveryCommandAnswersNext : Prop :=
  ∀ (c : Instr) (s : State), ∃ t : State, exec c s = .next t ∧ t.agenda = [] ∧ t.pending = s.pending

/-- The values that R13, R14 and the chapters give for the state after power-on. -/
def Obligations.ResetValues : Prop :=
  (State.reset.link.receiver.rx = .hunt false ∧ State.reset.link.requests = [] ∧ State.reset.link.replies = []
    ∧ State.reset.link.notices = [] ∧ State.reset.link.enable = 0xFF#8 ∧ State.reset.link.overflow = false
    ∧ State.reset.link.outbound = none)
  ∧ State.reset.partTime = 0
  ∧ (∀ j : Slot, State.reset.job j = none ∧ State.reset.imagesOf j = [])
  ∧ State.reset.spool.startUp = .starting ∧ State.reset.spool.retired = []
  ∧ (∀ l : Level, State.reset.readyAt l = [] ∧ State.reset.dispatch.slices[l] = 0) ∧ State.reset.dispatch.stockWait = []
  ∧ (∀ p : PortNo, State.reset.assignment p = none ∧ (State.reset.port p).state = .absent
    ∧ (State.reset.port p).held = false ∧ (State.reset.port p).path = [] ∧ (State.reset.port p).owner = none
    ∧ (State.reset.port p).grace = 40 ∧ (State.reset.port p).gateWait = 10000 ∧ (State.reset.port p).interval = 60
    ∧ (State.reset.port p).underruns = 0 ∧ (State.reset.port p).counters = .zero)
  ∧ (∀ c : ClassNo, State.reset.meter.sizes[c] = none) ∧ (∀ t : TierNo, State.reset.meter.tiers[t] = none)
  ∧ (∀ a : AccountNo, State.reset.account a = .unset)
  ∧ State.reset.meter.log = [] ∧ State.reset.meter.policy = .stall ∧ State.reset.meter.dropped = 0
  ∧ State.reset.meter.highMark = false ∧ State.reset.meter.reservations = 0
  ∧ (∀ p : PortNo, State.reset.alert p = .closed) ∧ State.reset.panel = { queue := [], sending := none }

/-- The state after power-on is sound. -/
def Obligations.SoundAtReset : Prop := State.reset.Sound

/-- Every step keeps a sound state sound: the limits of the input queue, the reply list and the notice queue (R3, R6, R8), of
the settings (R16, R17), of the tables of the meter unit (R141, R143, R154), of every job's description (R19) and its next
ordinal (R22), of the paper-path queues and the declared depths (R85, R110), of the meter log and, under STALL, its
reservations (R166, R167); the pool, ascending and without repeats, the retired list and the blocks of present bands, together
each of the 32,768 blocks once, and the image records (R43 to R46); each job in the place of its state, once (R25, R58, R60,
R78); the block of a write still in the pool (R47, R48); and the canonical form of the spool DRAM. -/
def Obligations.SoundKept : Prop := ∀ s t : State, s.Sound → step s = .next t → t.Sound

/-- A job's description stays as JOB_OPEN fixed it for as long as the slot holds the job (R19). It is billed with its good
sheets and with nothing else: neither its good count nor its charge total ever falls, and the charge total stays while the
good count does (R22, R152, R153). -/
def Obligations.JobKeepsDescriptionAndBill : Prop :=
  ∀ (s t : State) (j : Slot) (x y : Job),
    step s = .next t → s.job j = some x → t.job j = some y →
      y.described = x.described ∧ x.good ≤ y.good ∧ x.charge ≤ y.charge ∧ (y.good = x.good → y.charge = x.charge)

/-! ## The control link (chapter 1) -/

/-- The bytes of a control-link frame, taken by a hunting receiver, bring what its received frame brings (R1, R2,
R185; that one row carries the bytes and the other the frame is the model's choice, log entry 3). -/
def Obligations.ControlFrameIsReceived : Prop :=
  ∀ (s : State) (kind : Byte) (tag : Word16) (body : List Byte),
    body.length ≤ 16445 → s.link.receiver.rx = .hunt false →
      exec (.markerPairSeen (frameBytes kind tag body)) s = exec (.receivedFrame kind tag body) s

/-- RECEIVED_FRAME joins the input request queue, or, with four requests in it, is answered BUSY (R3, R6). That a frame which
comes whole while a partial one stands in the receiver drops that one without a FRAME_ERROR is the model's choice (log entry
35). -/
def Obligations.ReceivedFrameAdmittedOrBusy : Prop :=
  ∀ (s : State) (kind : Byte) (tag : Word16) (body : List Byte),
    body.length ≤ 16445 → (∀ k, s.link.reset ≠ .due k) → s.agenda = [] →
      (s.link.requests.length < 4 →
        exec (.receivedFrame kind tag body) s =
          .next (State.pump { s with link := { s.link.huntAgain s.partTime with
            requests := s.link.requests ++ [{ kind := kind, tag := tag, body := body }] } }))
      ∧ (4 ≤ s.link.requests.length →
        exec (.receivedFrame kind tag body) s =
          .next (State.pump { s with link := (s.link.huntAgain s.partTime).errorArisen tag .busy }))

/-- MARKER_PAIR_SEEN: whatever bytes without a pair stand before them, A5h and then 5Ah take the receiver to its header; an
A5h after an A5h is a new first marker, any other byte but 5Ah returns it to the search (R1). FRAME_ERROR: a frame whose
length is below 3 or above 16,448, or whose CRC differs, is dropped and answered FRAME_ERROR with tag 0. FRAME_GAP_EXPIRY: so
is a frame that has begun once more than 50 ms have passed since its last byte (R2, R6). That a lone first marker counts as a
frame begun, and that the gap has not expired at 50 ms, is the model's choice (log entry 11: R15 against R2 and R193). -/
def Obligations.ReceiverFindsAndDropsFrames : Prop :=
  ∀ s : State, s.agenda = [] →
    (s.link.receiver.rx = .hunt false → (∀ k, s.link.reset ≠ .due k) →
      (∀ (junk : List Byte) (n : Nat), (∀ a b, junk ≠ a ++ 0xA5#8 :: 0x5A#8 :: b) →
        exec (.markerPairSeen (junk ++ List.replicate (n + 1) 0xA5#8 ++ [0x5A#8])) s =
          .next (State.pump { s with link := { s.link with receiver := { rx := .header [], last := s.partTime } } })
        ∧ (∀ b, (b = 0x5A#8 → junk.getLast? ≠ some 0xA5#8) →
          exec (.markerPairSeen (junk ++ [b])) s =
            .next (State.pump { s with link := { s.link with
              receiver := { rx := .hunt (b = 0xA5#8), last := s.partTime } } })))
      ∧ (∀ n, n < 65536 → n < 3 ∨ 16448 < n →
        exec (.frameError (0xA5#8 :: 0x5A#8 :: num 2 n)) s =
          .next (State.pump { s with link := (s.link.huntAgain s.partTime).errorArisen 0 .frameError }))
      ∧ (∀ (counted : List Byte) (c1 c0 : Byte), 3 ≤ counted.length → counted.length ≤ 16448 →
        [c1, c0] ≠ word16 (crc (num 2 counted.length ++ counted)) →
        exec (.frameError (0xA5#8 :: 0x5A#8 :: num 2 counted.length ++ counted ++ [c1, c0])) s =
          .next (State.pump { s with link := (s.link.huntAgain s.partTime).errorArisen 0 .frameError })))
    ∧ (s.link.receiver.rx.midFrame = true →
      (50 < elapsed s.partTime s.link.receiver.last →
        exec .frameGapExpiry s =
          .next (State.pump { s with link := (s.link.huntAgain s.partTime).errorArisen 0 .frameError }))
      ∧ (elapsed s.partTime s.link.receiver.last ≤ 50 → exec .frameGapExpiry s = .next s.pump))

/-- OUTBOUND_FRAME_END: the line goes on to the oldest reply, else to the oldest notice, else idle (R7); at the end of a
RESET's reply the reset falls due and the line stays idle (R12). -/
def Obligations.OutboundLineGoesOn : Prop :=
  ∀ (s : State) (f : OutFrame), s.link.outbound = some f → s.agenda = [] → (∀ k, s.link.reset ≠ .due k) →
    ((∀ r, f = .reply r → r.ofReset = false) →
      (∀ r rest, s.link.replies = r :: rest →
        exec .outboundFrameEnd s = .next { s with link := { s.link with outbound := some (.reply r), replies := rest } })
      ∧ (∀ n rest, s.link.replies = [] → s.link.notices = n :: rest →
        exec .outboundFrameEnd s = .next { s with link := { s.link with outbound := some (.notice n), notices := rest } })
      ∧ (s.link.replies = [] → s.link.notices = [] →
        exec .outboundFrameEnd s = .next { s with link := { s.link with outbound := none } }))
    ∧ (∀ r k, f = .reply r → r.ofReset = true → s.link.reset = .pending k →
      exec .outboundFrameEnd s = .next { s with link := { s.link with outbound := none, reset := .due k } })

/-- A raised notice is dropped if its kind is not enabled, joins the queue if it holds fewer than 64, and else sets the
overflow flag (R8). The numbers that the bodies of JOB, BAND_LOST, PORT and STOCK notices carry (R25, R51, R60, R87), in the
widths that log entry 15 reads from R186. -/
def Obligations.NoticeQueuedOrDropped : Prop :=
  ∀ (s : State) (k : NoticeKind) (body : List Byte),
    (s.link.enable.getLsbD k.bit = false → s.notify k body = s)
    ∧ (s.link.enable.getLsbD k.bit = true → s.link.notices.length < 64 →
      s.notify k body = { s with link := { s.link with
        notices := s.link.notices ++ [{ kind := k, time := s.partTime, body := body }] } })
    ∧ (s.link.enable.getLsbD k.bit = true → 64 ≤ s.link.notices.length →
      s.notify k body = { s with link := { s.link with overflow := true } })
    ∧ (∀ (j : Slot) (before : JobState) (x : Job), jobNoticeBody j before x = spelled (
        [(1, j.val), (4, x.label.toNat), (1, before.code.toNat), (1, x.state.code.toNat), (4, x.next), (4, x.good),
         (4, x.waste), (8, x.charge), (1, portOr x.lastPort)]))
    ∧ (∀ (j : Slot) (label : Word32) (image index : Nat) (counts : Planes) (block : Nat) (reader : Option PortNo)
        (present lost : Nat), bandLostBody j label image index counts block reader present lost = spelled (
        [(1, j.val), (4, label.toNat), (2, image), (1, index), (4, counts.p0), (4, counts.p1), (4, counts.p2),
         (4, counts.p3), (2, block), (1, portOr reader), (1, present), (1, lost)]))
    ∧ (∀ (p : PortNo) (before : PortState) (x : Port) (reason : PortReason), portNoticeBody p before x reason = spelled (
        [(1, p.val), (1, before.code.toNat), (1, x.state.code.toNat), (1, one x.held), (1, (PortClass.code x.cls).toNat)]
        ++ (match reason with
            | .state job => (1, 0) :: maybe 1 (job.map (·.val))
            | .hold => [(1, 1)]
            | .identityRejected case => [(1, 2), (1, case)]
            | .setupRefused slot code => [(1, 3), (1, slot.val), (1, code.toNat)]
            | .looptest count sent returned early =>
              [(1, 4), (1, count), (1, sent), (1, returned), (1, one early)])))
    ∧ (∀ (j : Slot) (x : Job) (waiting : Nat), stockBody j x waiting = spelled (
        [(1, j.val), (4, x.label.toNat), (1, x.stock.toNat), (1, x.level.val), (1, waiting)]))

/-- Every request taken into service is judged by its kind first and by its length second, both BAD_FIELD, and by the start-up
state third, NOT_READY; a request so refused changes no state (R4, R5). The first clause is UNKNOWN_REQUEST. -/
def Obligations.RequestTestsInOrder : Prop :=
  ∀ (s : State) (r : Request) (rest : List Request), s.Oldest r rest →
    (requestLength r.kind = none → exec .unknownRequest s = .next (s.answered r .badField []))
    ∧ (∀ (i : Instr) (kind : Byte), requestKind i = some kind → r.kind = kind →
      (lengthFits r = false → exec i s = .next (s.answered r .badField []))
      ∧ (lengthFits r = true → s.spool.startUp.refuses = true → servedAlways kind = false →
        exec i s = .next (s.answered r .notReady [])))

/-- IDENTIFY is answered OK with the vendor code, the part code and the revision in every start-up state, and changes no
state (R10). -/
def Obligations.IdentifyAnswered : Prop :=
  ∀ (s : State) (r : Request) (rest : List Request),
    s.Oldest r rest → r.kind = 0x01#8 → r.body = [] →
      exec .identify s = .next (s.answered r .ok (num 2 0x1A07 ++ num 2 0x1240 ++ [3]))

/-- JOB_QUERY, PORT_QUERY, ACCOUNT_QUERY and ALERT_QUERY are answered with every field of the records as they stand and
change no state; STATUS is answered with the part as it stood, and clears the notice-overflow flag (R11, R33, R98, R101,
R160, R179, R184, R189). The numbers, their order and their widths are written out. Where no byte table gives them they are
the model's reading of R186 (log entry 15): the rank byte of a displayed cause, the twelve alert records without a count, a
byte for each capability flag. -/
def Obligations.QueriesReportAsItStands : Prop :=
  ∀ (s : State) (r : Request) (rest : List Request),
    (∀ (j : Slot) (x : Job), s.Takes 0x15 r rest → r.body = [byte j.val] → s.job j = some x →
      exec .jobQuery s = .next (s.answered r .ok (spelled (x.numbers j))))
    ∧ (∀ p : PortNo, s.Takes 0x33 r rest → r.body = [byte p.val] →
      exec .portQuery s = .next (s.answered r .ok (spelled ((s.port p).numbers (s.assigned p)))))
    ∧ (∀ a : AccountNo, s.Takes 0x54 r rest → r.body = [byte a.val] →
      exec .accountQuery s = .next (s.answered r .ok (spelled (s.accountNumbers a))))
    ∧ (s.Takes 0x61 r rest → exec .alertQuery s = .next (s.answered r .ok (spelled s.alertNumbers)))
    ∧ (s.Takes 0x02 r rest →
      exec .status s =
        .next (State.answered { s with link := { s.link with overflow := false } } r .ok (spelled s.statusNumbers)))

/-- RESET: an accepted one is answered OK and pends; QUICK is refused while the part is STARTING, an unknown kind always
(R12). -/
def Obligations.ResetRequestPends : Prop :=
  ∀ (s : State) (r : Request) (rest : List Request) (b : Byte),
    s.Oldest r rest → r.kind = 0x03#8 → r.body = [b] →
      (∀ k, (b = 0 ∧ k = ResetKind.full) ∨ (b = 1 ∧ k = .quick ∧ s.spool.startUp ≠ .starting) →
        exec .reset s =
          .next (State.pump { s with link := { s.link with
            requests := rest
            service := none
            reset := .pending k
            replies := s.link.replies ++ [{ tag := r.tag, status := .ok, body := [], ofReset := true }] } }))
      ∧ (b = 1 → s.spool.startUp = .starting → exec .reset s = .next (s.answered r .badState []))
      ∧ (2 ≤ b.toNat → exec .reset s = .next (s.answered r .badField []))

/-- RESET_TAKES_EFFECT and POWER_ON. Both FULL and power-on leave every register at its reset value. FULL keeps the DRAM's
bytes, the line signals, the frames of the press links and the panel line being sent, and the reads that run on (R13, R101,
R183, R193); power-on takes the line signals it carries (R14), and what the DRAM holds then is the model's choice (log
entries 6 and 26); both keep the commands that wait (the model's choice, log entry 30). QUICK: the retired list is kept and
every other block is free, the start-up state follows the number of retired blocks, the START notice goes out, and every port
reads its sense lines (R13, R41, R42, R81). -/
def Obligations.ResetsAndPowerOn : Prop :=
  ∀ s : State,
    (∀ senses : Vector Sense 12, s.link.reset = .due .full →
      exec (.resetTakesEffect senses) s =
        .next { State.reset with
          ports := s.ports.map (fun x => { Port.afterReset with
            signal := x.signal
            sending := x.sending
            reads := x.reads.map (fun r => { r with live := false, gone := true }) })
          panel := { queue := [], sending := s.panel.sending }
          spool := { Spool.afterPowerOn with dram := s.spool.dram }
          choices := s.choices
          pending := s.pending })
    ∧ (∀ signals : Vector Bool 12,
      exec (.powerOn signals) s =
        .next { State.reset with
          ports := signals.map (fun b => { Port.afterReset with signal := b })
          choices := s.choices
          pending := s.pending })
    ∧ (∀ senses : Vector Sense 12, s.link.reset = .due .quick →
      ∃ t : State, exec (.resetTakesEffect senses) s = .next t
        ∧ t.partTime = 0 ∧ (∀ j, t.job j = none) ∧ t.meter = .afterReset ∧ (∀ p, t.alert p = .closed)
        ∧ t.link.requests = [] ∧ t.link.replies = [] ∧ t.link.enable = 0xFF#8 ∧ t.link.reset = .none
        ∧ t.spool.retired = s.spool.retired ∧ t.spool.dram = s.spool.dram
        ∧ (∀ b, b ∈ t.spool.pool ↔ b < 32768 ∧ b ∉ s.spool.retired)
        ∧ t.spool.startUp = startUpOf s.spool.retired.length
        ∧ t.link.outbound = some (.notice { kind := .start, time := 0, body :=
            (startUpOf s.spool.retired.length).code :: num 2 s.spool.retired.length ++ num 2 t.spool.pool.length })
        ∧ (∀ p : PortNo, (t.port p).state =
            if (s.port p).signal = false then .absent
            else if senses[p] = 0 ∨ senses[p] = 1 then .identifying
            else if senses[p] = 2 then .absent
            else .probing))

/-- NOTICE_MASK, LEVEL_SET and PORT_SET take the values they carry, each setting clamped to its range, and are answered with
the values taken (R9, R16, R17). -/
def Obligations.SettingsTaken : Prop :=
  ∀ (s : State) (r : Request) (rest : List Request),
    (∀ b : Byte, s.Takes 0x04 r rest → r.body = [b] →
      exec .noticeMask s = .next (State.answered { s with link := { s.link with enable := b } } r .ok [b]))
    ∧ (∀ (l : Level) (v : Nat), v < 4294967296 → s.Takes 0x05 r rest → r.body = byte l.val :: num 4 v →
      exec .levelSet s =
        .next (State.answered { s with dispatch := { s.dispatch with slices := s.dispatch.slices.set l (min v 600000) } }
          r .ok (byte l.val :: num 4 (min v 600000))))
    ∧ (∀ (p : PortNo) (g w i : Nat), g < 65536 → w < 65536 → i < 65536 → s.Takes 0x06 r rest →
      r.body = byte p.val :: num 2 g ++ num 2 w ++ num 2 i →
      exec .portSet s =
        .next (State.answered
          (s.setPort p { s.port p with grace := min g 250, gateWait := min w 60000, interval := max 10 (min i 600) })
          r .ok (byte p.val :: byte (min g 250) :: num 2 (min w 60000) ++ num 2 (max 10 (min i 600)))))

/-- SELF_TEST_ATTEMPT_END. Before the last block: a passed block joins the pool; a failed attempt is followed by the next,
and the fourth failed one retires the block; the block holds the attempt's pattern (R40). At the last block: the start-up
state follows the number of retired blocks, 0 READY, up to 4,096 READY_DEGRADED, more FAILED; the START notice joins the
queue; every port, ABSENT until now, reads its sense lines (R41, R81). -/
def Obligations.SelfTestRuns : Prop :=
  ∀ (s : State) (senses : Vector Sense 12), s.spool.startUp = .starting → s.agenda = [] →
    (s.spool.testBlock < 32767 →
      let dram := Memory.write s.spool.dram (blockAddress s.spool.testBlock) (testPattern s.spool.testFails)
      exec (.selfTestAttemptEnd true senses) s =
          .next (State.pump { s with spool := { s.spool with
            dram := dram, pool := Blocks.add s.spool.pool s.spool.testBlock
            testBlock := s.spool.testBlock + 1, testFails := 0 } })
      ∧ (s.spool.testFails ≠ 3 →
        exec (.selfTestAttemptEnd false senses) s =
          .next (State.pump { s with spool := { s.spool with dram := dram, testFails := s.spool.testFails + 1 } }))
      ∧ (s.spool.testFails = 3 →
        exec (.selfTestAttemptEnd false senses) s =
          .next (State.pump { s with spool := { s.spool with
            dram := dram, retired := s.spool.retired ++ [s.spool.testBlock]
            testBlock := s.spool.testBlock + 1, testFails := 0 } })))
    ∧ (s.spool.testBlock = 32767 → s.link.outbound ≠ none → s.link.notices.length < 64 → s.link.enable.getLsbD 0 = true →
      (∀ p, (s.port p).state = .absent) →
      ∃ t : State, exec (.selfTestAttemptEnd true senses) s = .next t
        ∧ t.spool.retired = s.spool.retired ∧ t.spool.pool = Blocks.add s.spool.pool 32767
        ∧ (s.spool.retired.length = 0 → t.spool.startUp = .ready)
        ∧ (1 ≤ s.spool.retired.length → s.spool.retired.length ≤ 4096 → t.spool.startUp = .readyDegraded)
        ∧ (4096 < s.spool.retired.length → t.spool.startUp = .failed)
        ∧ s.link.notices ++ [{ kind := .start, time := s.partTime, body :=
            t.spool.startUp.code :: num 2 s.spool.retired.length ++ num 2 t.spool.pool.length }] <+: t.link.notices
        ∧ t.jobs = s.jobs ∧ t.meter = s.meter ∧ t.alerts = s.alerts ∧ t.partTime = s.partTime
        ∧ (∀ p : PortNo, (t.port p).state =
            if (s.port p).signal = false then .absent
            else if senses[p] = 0 ∨ senses[p] = 1 then .identifying
            else if senses[p] = 2 then .absent
            else .probing))

/-! ## Jobs (chapter 2) -/

/-- The body that describes a job in its ranges, whose account and size class are set, is judged good by JOB_OPEN, and read
as exactly that description, for the lowest-numbered FREE slot (R19, R20, R27, R187). -/
def Obligations.JobOpenReadsDescription : Prop :=
  ∀ (s : State) (x : Job) (t : TierNo) (j : Slot),
    x.Fresh s.meter → (s.account x.account).state ≠ .closed → (s.account x.account).tier = some t
      → (s.meter.tiers[t]).isSome = true → s.job j = none → (∀ i : Slot, i < j → (s.job i).isSome = true) →
      s.judgeOpen x.openBody = .ok (j, x)

/-- JOB_OPEN fills the slot: HELD if the account is HELD; else STOCKWAIT, with a place on the stock wait list and a STOCK
notice, if the stock is not present; else QUEUED at the tail of its level: none of its bands has come, so its gate is unmet,
and whatever ports are free or feed, the choice of port finds none and the signal reaches none (R56, R64, R69, R74). A body
with a field out of its range, whatever the others are, is BAD_FIELD, a CLOSED account BAD_STATE, a full table NO_ROOM (R20,
R27, R28, R60, R61). -/
def Obligations.JobOpenFillsSlot : Prop :=
  ∀ (s : State) (r : Request) (rest : List Request) (j : Slot) (x : Job),
    s.Takes 0x10 r rest →
    (s.judgeOpen r.body = .ok (j, x) →
      ((s.account x.account).state = .held →
        exec .jobOpen s = .next (State.answered (s.filled j { x with state := .held }) r .ok [byte j.val, 5]))
      ∧ ((s.account x.account).state ≠ .held → s.stockPresent x.stock = false → s.unlisted j →
        exec .jobOpen s =
          .next (State.answered (((s.filled j { x with state := .stockwait }).joinWait j).notifyStock j)
            r .ok [byte j.val, 2]))
      ∧ ((s.account x.account).state ≠ .held → s.stockPresent x.stock = true → s.unlisted j →
        1 ≤ s.bandsPerSide x.sizeClass ∨ s.noPortToChoose →
        exec .jobOpen s =
          .next (State.answered
            { s.filled j { x with state := .queued } with dispatch := { s.dispatch with
              ready := s.dispatch.ready.set x.level (s.readyAt x.level ++ [j]) } } r .ok [byte j.val, 1])))
    ∧ (∀ (label : Word32) (account level cls sides stock flags pinned barred lead present : Byte) (sheets copies : Nat)
        (bin finishing profile quality offset : Byte), sheets < 65536 → copies < 65536 →
      r.body = word32 label ++ [account, level, cls, sides] ++ num 2 sheets ++ num 2 copies
        ++ [stock, flags, pinned, barred, lead, present, bin, finishing, profile, quality, offset] →
      8 ≤ level.toNat
      ∨ 16 ≤ cls.toNat ∨ (∃ c : ClassNo, cls = byte c.val ∧ s.meter.sizes[c] = none)
      ∨ (sides ≠ 1 ∧ sides ≠ 2)
      ∨ sheets < 1 ∨ 4096 < sheets ∨ copies < 1 ∨ 9999 < copies
      ∨ 8192 < sheets * sides.toNat
      ∨ stock = 0
      ∨ (flags.getLsbD 1 = false ∧ flags.getLsbD 2 = false)
      ∨ (pinned ≠ 0xFF ∧ 12 ≤ pinned.toNat) ∨ (barred ≠ 0xFF ∧ 12 ≤ barred.toNat) ∨ (pinned = barred ∧ pinned ≠ 0xFF)
      ∨ (present.getLsbD 0 = true ∧ 7 < bin.toNat) ∨ (present.getLsbD 1 = true ∧ 3 < finishing.toNat)
      ∨ (present.getLsbD 2 = true ∧ 63 < profile.toNat) ∨ (present.getLsbD 3 = true ∧ 2 < quality.toNat)
      ∨ (present.getLsbD 4 = true ∧ 1 < offset.toNat)
      ∨ 64 ≤ account.toNat
      ∨ (∃ a : AccountNo, account = byte a.val
          ∧ ((s.account a).state = .unset ∨ ∀ t, (s.account a).tier = some t → s.meter.tiers[t] = none)) →
      exec .jobOpen s = .next (s.answered r .badField []))
    ∧ (∀ (y : Job) (t : TierNo), r.body = y.openBody → y.Fresh s.meter → (s.account y.account).tier = some t →
      (s.meter.tiers[t]).isSome = true →
      ((s.account y.account).state = .closed → exec .jobOpen s = .next (s.answered r .badState []))
      ∧ ((s.account y.account).state ≠ .closed → (∀ i : Slot, (s.job i).isSome = true) →
        exec .jobOpen s = .next (s.answered r .noRoom [])))

/-- JOB_CANCEL: a waiting job becomes CANCELLED, leaves its list, and everything the spool holds for it goes back to the
pool; a running job is flagged; a job that has ended is refused (R29, R55). A FEEDING port that runs the job is told of the
changed flag and decides (R24, R105): it stops feeding for FLAGS, or for HOLD if it is held, and drains while its path holds
sheets (R104); with an empty path the job leaves at once, CANCELLED unless it is done or failing, and the port, with no
eligible job, is READY (R26, R111). A flag already set changes nothing (R24). -/
def Obligations.CancelEndsOrFlagsJob : Prop :=
  ∀ (s : State) (r : Request) (rest : List Request) (j : Slot) (x : Job),
    s.Takes 0x11 r rest → r.body = [byte j.val] → s.job j = some x →
    (x.state = .queued ∨ x.state = .stockwait ∨ x.state = .paused ∨ x.state = .held →
      ∃ t : State, exec .jobCancel s = .next (t.answered r .ok [JobState.cancelled.code])
        ∧ t.job j = some { x with state := .cancelled } ∧ t.imagesOf j = []
        ∧ (∀ l, t.readyAt l = (s.readyAt l).filter (fun i => i ≠ j))
        ∧ t.dispatch.stockWait = s.dispatch.stockWait.filter (fun i => i ≠ j)
        ∧ (∀ b, b ∈ t.spool.pool ↔ b ∈ s.spool.pool ∨ b ∈ imageBlocks (s.imagesOf j))
        ∧ t.link = (s.notify .job (jobNoticeBody j x.state { x with state := .cancelled })).link
        ∧ (∀ i, i ≠ j → t.job i = s.job i ∧ t.imagesOf i = s.imagesOf i)
        ∧ t.meter = s.meter ∧ t.alerts = s.alerts ∧ t.spool.dram = s.spool.dram ∧ t.spool.retired = s.spool.retired
        ∧ t.dispatch.assignments = s.dispatch.assignments ∧ t.dispatch.slices = s.dispatch.slices
        ∧ (∀ p, t.port p = { s.port p with
            reads := (s.port p).reads.map (fun q => if q.slot = j then { q with gone := true } else q) }))
    ∧ (x.state = .running → s.notFeeding j →
      exec .jobCancel s = .next (State.answered (s.setJob j (some { x with cancel := true })) r .ok [JobState.running.code]))
    ∧ (x.state = .running → x.cancel = true → exec .jobCancel s = .next (s.answered r .ok [JobState.running.code]))
    ∧ (∀ p, x.state = .running → x.cancel = false → (s.port p).state = .feeding → s.assigned p = some j →
      (∀ q, s.assigned q = some j → q = p) →
      let flagged := s.setJob j (some { x with cancel := true })
      let cause : DrainCause := if (s.port p).held = true then .hold else .flags
      let draining : Port := { s.port p with
        drain := some cause, destination := some .head, gateTimer := none, wait := .none, state := .draining
        stateTime := s.partTime }
      ((s.port p).path ≠ [] →
        exec .jobCancel s =
          .next (State.answered ((flagged.setPort p draining).notifyPort p .feeding (.state (some j)))
            r .ok [JobState.running.code]))
      ∧ ((s.port p).path = [] → s.noneReady → x.good ≠ x.sheets * x.copies → x.lossCount ≠ 5 →
        ∃ t : State, exec .jobCancel s = .next (t.answered r .ok [JobState.cancelled.code])
          ∧ (∀ a, s.assignment p = some a → t.job j = some { x with
              cancel := false, suspend := false, slice := false, state := .cancelled
              pressTime := min (x.pressTime + elapsed s.partTime a.since) 4294967295 })
          ∧ t.assignment p = none ∧ t.imagesOf j = []
          ∧ (∀ b, b ∈ t.spool.pool ↔ b ∈ s.spool.pool ∨ b ∈ imageBlocks (s.imagesOf j))
          ∧ (∀ i, i ≠ j → t.job i = s.job i ∧ t.imagesOf i = s.imagesOf i)
          ∧ (t.port p).state = .ready ∧ (t.port p).path = [] ∧ (t.port p).drain = none ∧ (t.port p).wait = .none
          ∧ (t.alert p).causes = { (s.alert p).causes with trayEmpty := false })
      ∧ (∀ t y, State.Decides p 5 flagged t → t.job j = some y → exec .jobCancel s = .next (t.answered r .ok [y.state.code])))
    ∧ (x.state.terminal = true → exec .jobCancel s = .next (s.answered r .badState []))

/-- JOB_SUSPEND: a waiting job becomes PAUSED and leaves its list, a running one is flagged. JOB_RESUME: a running job loses
its flag; a PAUSED one is HELD if its account is HELD or CLOSED, and else placed again: STOCKWAIT if its stock is not
present, with its place on the stock wait list and a STOCK notice, QUEUED at the tail of its level if it is, with the choice
of port and the signal that follow (R69, R74); any other job is refused (R30, R31, R58, R60, R61). A FEEDING port that runs
the job is told of a changed flag and decides (R24, R105): of SUSPEND set, it stops feeding for FLAGS, or for HOLD if it is
held (R104). A flag already set changes nothing (R24). -/
def Obligations.SuspendAndResume : Prop :=
  ∀ (s : State) (r : Request) (rest : List Request) (j : Slot) (x : Job),
    r.body = [byte j.val] → s.job j = some x →
    (s.Takes 0x12 r rest →
      (x.state = .queued ∨ x.state = .stockwait ∨ x.state = .held ∨ x.state = .paused →
        exec .jobSuspend s = .next (State.answered ((s.unlist j).jobTo j .paused) r .ok [JobState.paused.code]))
      ∧ (x.state = .running → s.notFeeding j →
        exec .jobSuspend s =
          .next (State.answered (s.setJob j (some { x with suspend := true })) r .ok [JobState.running.code]))
      ∧ (x.state = .running → x.suspend = true → exec .jobSuspend s = .next (s.answered r .ok [JobState.running.code]))
      ∧ (∀ p, x.state = .running → x.suspend = false → (s.port p).state = .feeding → s.assigned p = some j →
        (∀ q, s.assigned q = some j → q = p) →
        let flagged := s.setJob j (some { x with suspend := true })
        let cause : DrainCause := if (s.port p).held = true then .hold else .flags
        let draining : Port := { s.port p with
          drain := some cause, destination := some .head, gateTimer := none, wait := .none, state := .draining
          stateTime := s.partTime }
        ((s.port p).path ≠ [] →
          exec .jobSuspend s =
            .next (State.answered ((flagged.setPort p draining).notifyPort p .feeding (.state (some j)))
              r .ok [JobState.running.code]))
        ∧ (∀ t y, State.Decides p 5 flagged t → t.job j = some y →
          exec .jobSuspend s = .next (t.answered r .ok [y.state.code])))
      ∧ (x.state.terminal = true → exec .jobSuspend s = .next (s.answered r .badState [])))
    ∧ (s.Takes 0x13 r rest →
      (x.state = .paused → (s.account x.account).state.stops = true →
        exec .jobResume s = .next (State.answered (s.jobTo j .held) r .ok [JobState.held.code]))
      ∧ (x.state = .paused → (s.account x.account).state.stops = false → s.stockPresent x.stock = false → s.unlisted j →
        exec .jobResume s =
          .next (State.answered (((s.joinWait j).jobTo j .stockwait).notifyStock j) r .ok [JobState.stockwait.code]))
      ∧ (x.state = .paused → (s.account x.account).state.stops = false → s.stockPresent x.stock = true → s.unlisted j →
        s.noPortToChoose →
        exec .jobResume s =
          .next (State.answered
            (State.jobTo { s with dispatch := { s.dispatch with
              ready := s.dispatch.ready.set x.level (s.readyAt x.level ++ [j]) } } j .queued)
            r .ok [JobState.queued.code]))
      ∧ (x.state = .paused → (s.account x.account).state.stops = false → s.stockPresent x.stock = true → s.unlisted j →
        ∀ t y, State.Sought
            (State.jobTo { s with dispatch := { s.dispatch with
              ready := s.dispatch.ready.set x.level (s.readyAt x.level ++ [j]) } } j .queued) j t →
          t.job j = some y → exec .jobResume s = .next (t.answered r .ok [y.state.code]))
      ∧ (x.state = .running → x.suspend = true → s.notFeeding j →
        exec .jobResume s =
          .next (State.answered (s.setJob j (some { x with suspend := false })) r .ok [JobState.running.code]))
      ∧ (∀ p t y, x.state = .running → x.suspend = true → s.assigned p = some j → (∀ q, s.assigned q = some j → q = p) →
        State.Decides p 5 (s.setJob j (some { x with suspend := false })) t → t.job j = some y →
          exec .jobResume s = .next (t.answered r .ok [y.state.code]))
      ∧ (x.state ≠ .paused → (x.state = .running → x.suspend = false) →
        exec .jobResume s = .next (s.answered r .badState [])))

/-- JOB_LEVEL: the level field takes its value; a QUEUED job goes to the tail of its new level, a STOCKWAIT job to its new
place on the stock wait list; a job that has ended and a level above 7 are refused (R32, R58, R60). The choice of port and
the signal to feeding ports follow the move of a QUEUED job (R61, R69, R74). -/
def Obligations.JobLevelMovesJob : Prop :=
  ∀ (s : State) (r : Request) (rest : List Request) (j : Slot) (x : Job) (l : Level),
    s.Takes 0x14 r rest → s.job j = some x →
    (r.body = [byte j.val, byte l.val] →
      (x.state = .paused ∨ x.state = .held ∨ x.state = .running →
        exec .jobLevel s = .next (State.answered (s.setJob j (some { x with level := l })) r .ok [byte l.val]))
      ∧ (x.state = .stockwait →
        exec .jobLevel s =
          .next (State.answered (((s.setJob j (some { x with level := l })).unlist j).joinWait j) r .ok [byte l.val]))
      ∧ (x.state = .queued → s.stockPresent x.stock = true → s.noPortToChoose →
        exec .jobLevel s =
          .next (State.answered (((s.setJob j (some { x with level := l })).unlist j).joinReady j false)
            r .ok [byte l.val]))
      ∧ (x.state = .queued → s.stockPresent x.stock = true →
        ∀ t, State.Sought (((s.setJob j (some { x with level := l })).unlist j).joinReady j false) j t →
          exec .jobLevel s = .next (t.answered r .ok [byte l.val]))
      ∧ (x.state.terminal = true → exec .jobLevel s = .next (s.answered r .badState [])))
    ∧ (∀ b : Byte, 8 ≤ b.toNat → r.body = [byte j.val, b] → exec .jobLevel s = .next (s.answered r .badField []))

/-- JOB_FORGET: a job that has ended leaves its slot FREE, and no port keeps its setup; any other job is refused. Every job
request on a FREE slot is refused with NO_SUCH, and on a slot number above 127 with BAD_FIELD (R18, R34, R94). -/
def Obligations.ForgetFreesSlot : Prop :=
  ∀ (s : State) (r : Request) (rest : List Request) (j : Slot),
    (∀ x, s.Takes 0x16 r rest → r.body = [byte j.val] → s.job j = some x →
      (x.state.terminal = true →
        exec .jobForget s =
          .next (State.answered
            { s.setJob j none with
              ports := s.ports.map (fun q => if q.owner = some j then { q with owner := none } else q) } r .ok []))
      ∧ (x.state.terminal = false → exec .jobForget s = .next (s.answered r .badState [])))
    ∧ (∀ (i : Instr) (kind b : Byte), i ∈ [.jobCancel, .jobSuspend, .jobResume, .jobLevel, .jobQuery, .jobForget] →
      requestKind i = some kind → s.Takes kind r rest → r.body.head? = some b →
      (b = byte j.val → s.job j = none → exec i s = .next (s.answered r .noSuch []))
      ∧ (128 ≤ b.toNat → exec i s = .next (s.answered r .badField [])))

/-! ## Spool memory (chapter 3) -/

/-- The gate of an ordinal is met exactly when the ordinal is below total and, for each image it uses, every band below the
gate's count is present: all bands of the side under the forced-whole flag or with lead bands 0, else the smaller of lead
bands and bands per side. So ordinals that print the same sheet of two copies have the same gate (R21, R56). -/
def Obligations.GateCondition : Prop :=
  ∀ (s : State) (j : Slot) (x : Job) (o : Nat), s.job j = some x →
    (s.gateMet j o = true ↔
      o < x.sheets * x.copies
      ∧ ∀ (i b : Nat),
        (i = (o % x.sheets) * x.sides ∨ (x.sides = 2 ∧ i = (o % x.sheets) * x.sides + 1)) →
        b < (if x.forcedWhole = true ∨ x.lead = 0 then s.bandsPerSide x.sizeClass
             else min x.lead (s.bandsPerSide x.sizeClass)) →
        ∃ block length counts, s.band j i b = some (.present block length counts))
    ∧ (o + x.sheets < x.sheets * x.copies → s.gateMet j (o + x.sheets) = s.gateMet j o)

/-- BAND_PUT: one that passes its tests begins its write into the lowest-numbered block of the pool, which is kept ascending
(an invariant of SoundKept), and stays in service; a present band is DUPLICATE, a released image BAD_STATE, an empty pool
NO_ROOM (R43, R47, R48, R188). -/
def Obligations.BandPutBeginsWrite : Prop :=
  ∀ (s : State) (r : Request) (rest : List Request) (j : Slot) (x : Job) (image band : Nat) (counts : Planes)
    (payload : List Byte),
    s.Takes 0x20 r rest →
    r.body = byte j.val :: num 2 image ++ [byte band] ++ planesWire 4 counts ++ payload →
    s.job j = some x → x.state.terminal = false → image < x.sheets * x.sides → image < 65536 →
    band < s.bandsPerSide x.sizeClass → band < 256 →
    counts.p0 ≤ 1048575 → counts.p1 ≤ 1048575 → counts.p2 ≤ 1048575 → counts.p3 ≤ 1048575 →
    (s.imageReleased j image = true → exec .bandPut s = .next (s.answered r .badState []))
    ∧ (s.imageReleased j image = false →
      (s.bandPresent j image band = true → exec .bandPut s = .next (s.answered r .duplicate []))
      ∧ (s.bandPresent j image band = false →
        (s.spool.pool = [] → exec .bandPut s = .next (s.answered r .noRoom []))
        ∧ (∀ block, s.spool.pool.Pairwise (· < ·) → block ∈ s.spool.pool → (∀ b ∈ s.spool.pool, block ≤ b) →
          exec .bandPut s =
            .next (State.pump { s with link := { s.link with service := some (.write
              { slot := j, image := image, band := band, counts := counts, payload := payload, block := block }) } }))))

/-- BAND_PUT_WRITE_COMPLETE: for a live job and an unreleased image the band is stored whole, and its block reads back what was
written; for an ended job the reply is NO_SUCH, for a released image BAD_STATE, and the block stays in the pool (R48). A
request that waits for the band begins its read (R114). A store that completes the gate of the next ordinal, by one of the
bands that it requires, is signalled (R57): for a QUEUED job the choice of port is made and, if it stays QUEUED, the signal to
feeding ports sent (R69, R70, R74); the port that runs a RUNNING job decides (R105). That the
payload of such a discarded write stands in the DRAM of its free block is the model's choice (log entry 6). -/
def Obligations.BandPutStoresBand : Prop :=
  ∀ (s : State) (r : Request) (rest : List Request) (w : BandWrite) (rec : ImageRec),
    s.link.requests = r :: rest → s.link.service = some (.write w) → s.link.reset = .none → s.agenda = [] →
    Memory.wf s.spool.dram → w.payload.length ≤ 16384 → w.block < 32768 →
    let dram := Memory.write s.spool.dram (blockAddress w.block) w.payload
    (s.live w.slot = false →
      exec .bandPutWriteComplete s =
        .next (State.answered { s with spool := { s.spool with dram := dram } } r .noSuch []))
    ∧ (s.live w.slot = true → s.image w.slot w.image = some rec → rec.released = true →
      exec .bandPutWriteComplete s =
        .next (State.answered { s with spool := { s.spool with dram := dram } } r .badState []))
    ∧ (s.live w.slot = true → s.image w.slot w.image = some rec → rec.released = false →
      ∃ t : State,
        t.band w.slot w.image w.band = some (.present w.block w.payload.length w.counts)
        ∧ (∃ rec', t.image w.slot w.image = some rec' ∧ rec'.present = rec.present + 1
          ∧ rec'.lost = (if Bands.find rec.bands w.band = some .lost then rec.lost - 1 else rec.lost)
          ∧ rec'.released = false
          ∧ rec'.sums = { p0 := rec.sums.p0 + w.counts.p0, p1 := rec.sums.p1 + w.counts.p1,
                          p2 := rec.sums.p2 + w.counts.p2, p3 := rec.sums.p3 + w.counts.p3 })
        ∧ (∀ k, k ≠ w.band → t.band w.slot w.image k = s.band w.slot w.image k)
        ∧ (∀ j i k, (j ≠ w.slot ∨ i ≠ w.image) → t.band j i k = s.band j i k)
        ∧ (∀ b, b ∈ t.spool.pool ↔ b ∈ s.spool.pool ∧ b ≠ w.block)
        ∧ Memory.load t.spool.dram (blockAddress w.block) w.payload.length = w.payload
        ∧ (∀ a, a < blockAddress w.block ∨ blockAddress w.block + w.payload.length ≤ a →
          Memory.read t.spool.dram a = Memory.read s.spool.dram a)
        ∧ t.spool.retired = s.spool.retired ∧ t.jobs = s.jobs ∧ t.ports = s.ports ∧ t.meter = s.meter
        ∧ t.dispatch = s.dispatch ∧ t.alerts = s.alerts ∧ t.link = s.link ∧ t.partTime = s.partTime ∧ t.agenda = []
        ∧ (let done (u : State) : Prop := exec .bandPutWriteComplete s =
            .next (State.answered u r .ok
              (byte w.slot.val :: num 2 w.image ++ [byte w.band] ++ num 2 w.block ++ [byte (rec.present + 1),
                byte (if Bands.find rec.bands w.band = some .lost then rec.lost - 1 else rec.lost)]
                ++ num 2 t.spool.pool.length))
          (s.portRunning w.slot = none → s.jobIs w.slot .queued = false → done t)
          ∧ (∀ x v, s.job w.slot = some x → t.Serves w v →
            let front := (x.next % x.sheets) * x.sides
            let completes : Prop := t.gateMet w.slot x.next = true
              ∧ (w.image = front ∨ (x.sides = 2 ∧ w.image = front + 1))
              ∧ w.band < (if x.forcedWhole = true ∨ x.lead = 0 then s.bandsPerSide x.sizeClass
                  else min x.lead (s.bandsPerSide x.sizeClass))
            (¬ completes → done v)
            ∧ (completes →
              (x.state = .queued → ∀ u, v.Sought w.slot u → done u)
              ∧ (x.state = .running → ∀ p u, s.assigned p = some w.slot → (∀ q, s.assigned q = some w.slot → q = p) →
                State.Decides p 5 v u → done u)
              ∧ (x.state ≠ .queued → (∀ p, s.assigned p ≠ some w.slot) → done v)))))

/-- BAND_SUM begins a read and stays in service; at BAND_SUM_READ_END the reply is the byte sum, the length and the counts of
a present band read without error. A present band read with a parity error is lost: its block is retired, its counts leave
the plane sums, READY becomes READY_DEGRADED, BAND_LOST is raised, and the reply is NO_SUCH. A band no longer present is
NO_SUCH, with no loss (R50, R51, R52). -/
def Obligations.BandSumReadsOrLosesBand : Prop :=
  ∀ (s : State) (r : Request) (rest : List Request) (q : SumRead),
    (∀ (x : Job) (block length : Nat) (counts : Planes), s.Takes 0x21 r rest →
      r.body = byte q.slot.val :: num 2 q.image ++ [byte q.band] → s.job q.slot = some x → x.state.terminal = false →
      q.image < x.sheets * x.sides → q.image < 65536 → q.band < s.bandsPerSide x.sizeClass → q.band < 256 →
      (s.band q.slot q.image q.band = some (.present block length counts) → q.block = block →
        exec .bandSum s = .next (State.pump { s with link := { s.link with service := some (.sum q) } }))
      ∧ (s.bandPresent q.slot q.image q.band = false → exec .bandSum s = .next (s.answered r .noSuch [])))
    ∧ (s.link.requests = r :: rest → s.link.service = some (.sum q) → s.link.reset = .none → s.agenda = [] →
      (s.bandPresent q.slot q.image q.band = false → ∀ e, exec (.bandSumReadEnd e) s = .next (s.answered r .noSuch []))
      ∧ (∀ (length : Nat) (counts : Planes), s.band q.slot q.image q.band = some (.present q.block length counts) →
        exec (.bandSumReadEnd false) s =
          .next (s.answered r .ok
            (num 2 (((Memory.load s.spool.dram (blockAddress q.block) length).map BitVec.toNat).sum % 65536)
              ++ num 2 length ++ planesWire 4 counts))
        ∧ (∀ (x : Job) (rec : ImageRec), s.job q.slot = some x → s.image q.slot q.image = some rec →
          ∃ t : State, exec (.bandSumReadEnd true) s = .next (t.answered r .noSuch [])
            ∧ t.band q.slot q.image q.band = some .lost
            ∧ (∃ rec', t.image q.slot q.image = some rec' ∧ rec'.present = rec.present - 1 ∧ rec'.lost = rec.lost + 1
              ∧ rec'.released = rec.released
              ∧ rec'.sums = { p0 := rec.sums.p0 - counts.p0, p1 := rec.sums.p1 - counts.p1,
                              p2 := rec.sums.p2 - counts.p2, p3 := rec.sums.p3 - counts.p3 })
            ∧ (∀ j i k, (j ≠ q.slot ∨ i ≠ q.image ∨ k ≠ q.band) → t.band j i k = s.band j i k)
            ∧ t.spool.retired = s.spool.retired ++ [q.block] ∧ t.spool.pool = s.spool.pool
            ∧ t.spool.startUp = (if s.spool.startUp = .ready then .readyDegraded else s.spool.startUp)
            ∧ t.spool.dram = s.spool.dram
            ∧ t.link = (s.notify .bandLost (bandLostBody q.slot x.label q.image q.band counts q.block none
                (rec.present - 1) (rec.lost + 1))).link
            ∧ t.jobs = s.jobs ∧ t.ports = s.ports ∧ t.meter = s.meter ∧ t.dispatch = s.dispatch ∧ t.alerts = s.alerts)))

/-- SPOOL_READ_END for a sheet still in the queue: a payload read without error is sent as BAND; a band no longer present,
for a sheet already marked, is answered FILL. A parity error loses the band (R50): its block is retired, its counts leave the
plane sums, READY becomes READY_DEGRADED, BAND_LOST names the port; FILL is sent and the sheet spoiled PARITY. A read whose
sheet is gone sends nothing, its payload discarded (R49, R51, R115). -/
def Obligations.SpoolReadAnswersEngine : Prop :=
  ∀ (s : State) (p : PortNo) (index : Nat) (q : BandRead), (s.port p).reads[index]? = some q → s.agenda = [] →
    q.gone = false →
    (q.live = true → ∀ length counts, s.band q.slot q.image q.band = some (.present q.block length counts) →
      exec (.spoolReadEnd p index false) s =
        .next (State.pump (s.setPort p (Port.queueOut { s.port p with reads := (s.port p).reads.eraseIdx index }
          (.band q.tag q.back q.band (Memory.load s.spool.dram (blockAddress q.block) length))))))
    ∧ (q.live = true → s.bandPresent q.slot q.image q.band = false →
      (∀ y, sheetOf (s.port p).path q.tag = some y → y.mark ≠ .unmarked →
        ∀ e, exec (.spoolReadEnd p index e) s =
          .next (State.pump (s.setPort p (Port.queueOut
            { s.port p with
              reads := (s.port p).reads.eraseIdx index
              counters := { (s.port p).counters with fills := min ((s.port p).counters.fills + 1) 4294967295 } }
            (.fill q.tag q.back q.band))))))
    ∧ (∀ (length : Nat) (counts : Planes) (x : Job) (rec : ImageRec), s.job q.slot = some x →
      s.image q.slot q.image = some rec → s.band q.slot q.image q.band = some (.present q.block length counts) →
      ∃ t : State,
        exec (.spoolReadEnd p index true) s = .next (if q.live = true then (t.spoil p q.tag .parity).finish else t.pump)
        ∧ t.band q.slot q.image q.band = some .lost
        ∧ (∃ rec', t.image q.slot q.image = some rec' ∧ rec'.present = rec.present - 1 ∧ rec'.lost = rec.lost + 1
          ∧ rec'.released = rec.released
          ∧ rec'.sums = { p0 := rec.sums.p0 - counts.p0, p1 := rec.sums.p1 - counts.p1,
                          p2 := rec.sums.p2 - counts.p2, p3 := rec.sums.p3 - counts.p3 })
        ∧ (∀ j i k, (j ≠ q.slot ∨ i ≠ q.image ∨ k ≠ q.band) → t.band j i k = s.band j i k)
        ∧ t.spool.retired = s.spool.retired ++ [q.block] ∧ t.spool.pool = s.spool.pool
        ∧ t.spool.startUp = (if s.spool.startUp = .ready then .readyDegraded else s.spool.startUp)
        ∧ t.link = (s.notify .bandLost (bandLostBody q.slot x.label q.image q.band counts q.block (some p)
            (rec.present - 1) (rec.lost + 1))).link
        ∧ t.port p = (let read : Port := { s.port p with reads := (s.port p).reads.eraseIdx index }
            if q.live = true then
              Port.queueOut { read with counters := { read.counters with fills := min (read.counters.fills + 1) 4294967295 } }
                (.fill q.tag q.back q.band)
            else read)
        ∧ (∀ r, r ≠ p → t.port r = s.port r)
        ∧ t.spool.dram = s.spool.dram ∧ t.jobs = s.jobs ∧ t.meter = s.meter ∧ t.dispatch = s.dispatch
        ∧ t.alerts = s.alerts ∧ t.agenda = [])
    ∧ (q.live = false →
      (s.bandPresent q.slot q.image q.band = false →
        ∀ e, exec (.spoolReadEnd p index e) s =
          .next (State.pump (s.setPort p { s.port p with reads := (s.port p).reads.eraseIdx index })))
      ∧ (∀ length counts, s.band q.slot q.image q.band = some (.present q.block length counts) →
        exec (.spoolReadEnd p index false) s =
          .next (State.pump (s.setPort p { s.port p with reads := (s.port p).reads.eraseIdx index }))))

/-! ## Dispatch (chapter 4) -/

/-- SLICE_EXPIRY: an expired slice timer becomes absent and its job's SLICE flag is set; a FEEDING port then decides, any
other does nothing more; one still counting goes on (R75, R76, R105). -/
def Obligations.SliceExpirySetsFlag : Prop :=
  ∀ (s : State) (p : PortNo) (a : Assignment) (x : Job) (t : Timer),
    s.assignment p = some a → s.job a.slot = some x → a.slice = some t → s.agenda = [] →
    (t.length ≤ elapsed s.partTime t.start → (s.port p).state ≠ .feeding →
      exec (.sliceExpiry p) s =
        .next (State.pump ((s.setAssignment p (some { a with slice := none })).setJob a.slot (some { x with slice := true }))))
    ∧ (t.length ≤ elapsed s.partTime t.start → (s.port p).state = .feeding →
      ∀ u, State.Decides p 5
          ((s.setAssignment p (some { a with slice := none })).setJob a.slot (some { x with slice := true })) u →
        exec (.sliceExpiry p) s = .next u.pump)
    ∧ (elapsed s.partTime t.start < t.length → exec (.sliceExpiry p) s = .next s.pump)

/-- The choice of port for a QUEUED job assigns it to the port it takes, and leaves it where it is if there is none: of the
free ports it is eligible for, the lowest-numbered that holds its setup, else the lowest-numbered that holds none, else the
lowest-numbered (R69). The choice of job for a port assigns it the first eligible job of the ready queue, level 0 first and
each level from its head (R68). The signal to feeding ports for a job still QUEUED makes exactly the FEEDING ports decide
that run a job of a greater level and for which it is eligible ignoring availability (R74). A stock is present when a port in
one of the six counting states has a tray LOADED with it (R59), and a job is eligible when every condition of R64's table
holds. -/
def Obligations.ChoicesOfPortAndJob : Prop :=
  ∀ s : State,
    (∀ (j : Slot) (p : PortNo), s.choosePort j = some p →
      s.eligible j p = true
      ∧ (((s.port p).owner = some j ∧ ∀ q, q < p → s.eligible j q = true → (s.port q).owner ≠ some j)
        ∨ ((∀ q, s.eligible j q = true → (s.port q).owner ≠ some j)
          ∧ (s.port p).owner = none ∧ ∀ q, q < p → s.eligible j q = true → (s.port q).owner ≠ none)
        ∨ ((∀ q, s.eligible j q = true → (s.port q).owner ≠ some j ∧ (s.port q).owner ≠ none)
          ∧ ∀ q, q < p → s.eligible j q = false)))
    ∧ (∀ j : Slot, s.choosePort j = none → ∀ p, s.eligible j p = false)
    ∧ (∀ (p : PortNo) (j : Slot), s.chooseJob p = some j →
      s.eligible j p = true
      ∧ ∃ before after, (List.finRange 8).flatMap s.readyAt = before ++ j :: after ∧ ∀ i ∈ before, s.eligible i p = false)
    ∧ (∀ p : PortNo, s.chooseJob p = none → ∀ (l : Level) (j : Slot), j ∈ s.readyAt l → s.eligible j p = false)
    ∧ (∀ stock : Byte, s.stockPresent stock = true ↔
      ∃ p : PortNo, (s.port p).state ∈ [.identifying, .ready, .setup, .feeding, .draining, .stopped]
        ∧ ∃ t ∈ (s.port p).trays, t.loaded = true ∧ t.stock = stock)
    ∧ (∀ (j : Slot) (p : PortNo), s.eligible j p = true ↔
      ((s.port p).state = .ready ∧ (s.port p).held = false ∧ s.assignment p = none) ∧ s.eligibleIgnoring j p = true)
    ∧ (∀ (j : Slot) (p : PortNo), s.eligibleIgnoring j p = true ↔
      ∃ (x : Job) (c : Capabilities), s.job j = some x ∧ (s.port p).caps = some c
        ∧ (((s.port p).cls = some .sheet ∧ x.onSheet = true) ∨ ((s.port p).cls = some .roll ∧ x.onRoll = true))
        ∧ x.barred ≠ some p ∧ (x.pinned = none ∨ x.pinned = some p)
        ∧ c.classes.getLsbD x.sizeClass.val = true
        ∧ (c.colour = true ∨ x.colour = false) ∧ (c.duplex = true ∨ x.sides = 1)
        ∧ (∃ t ∈ (s.port p).trays, t.loaded = true ∧ t.stock = x.stock)
        ∧ x.refusedBy[p] = false
        ∧ ((s.account x.account).state = .opened ∨ (s.account x.account).state = .low)
        ∧ s.gateMet j x.next = true)
    ∧ (∀ (j : Slot) (x : Job), s.job j = some x →
      (x.state = .queued →
        (∀ p, s.choosePort j = some p → doTask (.choosePort j) s = s.assign p j)
        ∧ (s.choosePort j = none → doTask (.choosePort j) s = s)
        ∧ doTask (.signalPorts j) s = s.post (.decideEach (s.signalled j)))
      ∧ (x.state ≠ .queued → doTask (.choosePort j) s = s ∧ doTask (.signalPorts j) s = s)
      ∧ (s.signalled j).Pairwise (· < ·)
      ∧ (∀ p, p ∈ s.signalled j ↔
        (s.port p).state = .feeding
        ∧ (∃ (i : Slot) (y : Job), s.assigned p = some i ∧ s.job i = some y ∧ x.level < y.level)
        ∧ s.eligibleIgnoring j p = true))
    ∧ (∀ p : PortNo,
      (∀ j, s.chooseJob p = some j → doTask (.chooseJob p) s = s.assign p j)
      ∧ (s.chooseJob p = none → doTask (.chooseJob p) s = s))

/-- The sheet-boundary decision of a FEEDING port goes by the first of these that holds: held, a pending flag or a failing job,
an account HELD or CLOSED, the end of the job, no tray of its stock, the boundary test's answer, a full log under STALL, the
gate, the path; else it starts a sheet (R72, R73, R103, R104). The boundary test stops for a more urgent job, or, once the
SLICE flag is set, for a job of the same level or below, with the flag cleared; with none of these waiting a set flag is
cleared, the slice timer restarted with the slice of the job's level, absent for 0, and the decision goes on (R72, R77). -/
def Obligations.DecisionOrder : Prop :=
  ∀ (s : State) (p : PortNo) (j : Slot) (x : Job),
    (s.port p).state = .feeding → s.assigned p = some j → s.job j = some x →
    ((s.port p).held = true → s.runDecision p = s.stopFeeding p .hold)
    ∧ ((s.port p).held = false →
      (x.cancel = true ∨ x.suspend = true ∨ x.lossCount = 5 → s.runDecision p = s.stopFeeding p .flags)
      ∧ (x.cancel = false → x.suspend = false → x.lossCount ≠ 5 →
        ((s.account x.account).state = .held ∨ (s.account x.account).state = .closed →
          s.runDecision p = s.stopFeeding p .account)
        ∧ ((s.account x.account).state ≠ .held → (s.account x.account).state ≠ .closed →
          (x.next = x.sheets * x.copies → s.runDecision p = s.stopFeeding p .endOfJob)
          ∧ (x.next ≠ x.sheets * x.copies →
            (loadedWith (s.port p).trays x.stock = false → s.runDecision p = s.stopFeeding p .noTray)
            ∧ (loadedWith (s.port p).trays x.stock = true →
              ((∃ (l : Level) (i : Slot), l < x.level ∧ i ∈ s.readyAt l ∧ s.eligibleIgnoring i p = true) →
                s.runDecision p = s.stopFeeding p .urgent)
              ∧ ((∀ (l : Level) (i : Slot), l < x.level → i ∈ s.readyAt l → s.eligibleIgnoring i p = false) →
                x.slice = true →
                let unflagged := s.setJob j (some { x with slice := false })
                ((∃ (l : Level) (i : Slot), l ≤ x.level ∧ i ∈ s.readyAt l ∧ s.eligibleIgnoring i p = true) →
                  s.runDecision p = unflagged.stopFeeding p .slice)
                ∧ ((∀ (l : Level) (i : Slot), l ≤ x.level → i ∈ s.readyAt l → s.eligibleIgnoring i p = false) →
                  ∀ a, s.assignment p = some a →
                    s.runDecision p = State.runDecision (unflagged.setAssignment p (some { a with
                      slice := if s.dispatch.slices[x.level] = 0 then none
                        else some { start := s.partTime, length := s.dispatch.slices[x.level] } })) p))
              ∧ ((∀ (l : Level) (i : Slot), l < x.level → i ∈ s.readyAt l → s.eligibleIgnoring i p = false) →
                x.slice = false →
                (s.meter.policy = .stall → 256 ≤ s.meter.log.length + s.meter.reservations →
                  s.runDecision p = s.waitFor p .log)
                ∧ ((s.meter.policy ≠ .stall ∨ s.meter.log.length + s.meter.reservations < 256) →
                  (s.gateMet j x.next = false → s.runDecision p = s.waitForGate p)
                  ∧ (s.gateMet j x.next = true →
                    ((s.port p).depth ≤ (s.port p).path.length → s.runDecision p = s.waitFor p .path)
                    ∧ ((s.port p).path.length < (s.port p).depth → s.runDecision p = s.startSheet p j x)))))))))

/-- Where the choice of job gives a port a job (R67, R90): it leaves the ready queue and becomes RUNNING with this last port,
the assignment record and the slice timer of its level start now, and the port, its setup owner, feeds and decides, or sends
SETUP with the present fields and starts its setup timer at 5,000 ms. The JOB notice of RUNNING is raised (R25), then the
PORT notice of FEEDING or SETUP (R87). -/
def Obligations.AssignmentBegins : Prop :=
  ∀ (s : State) (p : PortNo) (j : Slot) (x : Job),
    s.job j = some x → x.state = .queued → (s.port p).state = .ready →
    let t := s.assign p j
    t.job j = some { x with state := .running, lastPort := some p }
    ∧ (∀ i, i ≠ j → t.job i = s.job i)
    ∧ (∀ l, t.readyAt l = (s.readyAt l).filter (fun i => i ≠ j))
    ∧ t.dispatch.stockWait = s.dispatch.stockWait.filter (fun i => i ≠ j)
    ∧ t.assignment p = some
        { slot := j, since := s.partTime
          slice := if s.dispatch.slices[x.level] = 0 then none
                   else some { start := s.partTime, length := s.dispatch.slices[x.level] } }
    ∧ (∀ q, q ≠ p → t.assignment q = s.assignment q ∧ t.port q = s.port q)
    ∧ ((s.port p).owner = some j →
        t.port p = { s.port p with state := .feeding, stateTime := s.partTime } ∧ t.agenda = s.agenda ++ [.decide p])
    ∧ ((s.port p).owner ≠ some j →
        t.port p = Port.queueOut
          { s.port p with
            state := .setup, stateTime := s.partTime
            setupTimer := some { start := s.partTime, length := 5000 } } (.setup x.setup)
        ∧ t.agenda = s.agenda)
    ∧ t.link = ((s.notify .job (jobNoticeBody j .queued { x with state := .running, lastPort := some p })).notify .port
        (portNoticeBody p .ready (t.port p) (.state (some j)))).link
    ∧ t.spool = s.spool ∧ t.meter = s.meter ∧ t.alerts = s.alerts ∧ t.dispatch.slices = s.dispatch.slices
    ∧ t.panel = s.panel ∧ t.partTime = s.partTime ∧ t.choices = s.choices ∧ t.pending = s.pending

/-- Where a port reports that its job has left (R26, R78): the assignment ends, the time assigned joins the press time of the
job and its account, the pending flags are cleared, and the job becomes the first that holds of DONE, FAILED, CANCELLED,
PAUSED and HELD, with its JOB notice. Else it is placed (R58, R60, R61): QUEUED where its stock is present, at the head or
the tail of its level as the port says, with the choice of port and the signal to feeding ports to follow; STOCKWAIT where it
is not, behind the last entry of its level on the stock wait list and before the first of a greater one, with a STOCK notice.
A job that has ended gives its blocks to the pool and leaves no image and no entry for a read (R35, R55). One that enters
HELD while its account is OPEN or LOW is released next (R164). A second report changes nothing. -/
def Obligations.LeavingGoesByOrder : Prop :=
  ∀ (s : State) (p : PortNo) (d : Destination),
    (s.assignment p = none → s.leaveNow p d = s)
    ∧ (∀ (a : Assignment) (x : Job), s.assignment p = some a → s.job a.slot = some x →
      let t := s.leaveNow p d
      let final : JobState :=
        if x.good = x.sheets * x.copies then .done
        else if x.lossCount = 5 then .failed
        else if x.cancel = true then .cancelled
        else if x.suspend = true then .paused
        else if (s.account x.account).state = .held ∨ (s.account x.account).state = .closed ∨ d = .held then .held
        else if s.stockPresent x.stock = true then .queued
        else .stockwait
      let left : Job := { x with
        cancel := false, suspend := false, slice := false
        pressTime := min (x.pressTime + elapsed s.partTime a.since) 4294967295, state := final }
      let others (l : List Slot) : List Slot := l.filter (fun i => i ≠ a.slot)
      let waiting := others s.dispatch.stockWait
      t.job a.slot = some left
      ∧ (∀ j, j ≠ a.slot → t.job j = s.job j)
      ∧ t.assignment p = none
      ∧ (∀ q, q ≠ p → t.assignment q = s.assignment q)
      ∧ t.account x.account = { s.account x.account with
          pressTime := min ((s.account x.account).pressTime + elapsed s.partTime a.since) 18446744073709551615 }
      ∧ (∀ b, b ≠ x.account → t.account b = s.account b)
      ∧ (final = .done ∨ final = .failed ∨ final = .cancelled →
        t.imagesOf a.slot = []
        ∧ (∀ j, j ≠ a.slot → t.imagesOf j = s.imagesOf j)
        ∧ (∀ b, b ∈ t.spool.pool ↔ b ∈ s.spool.pool ∨ b ∈ imageBlocks (s.imagesOf a.slot))
        ∧ t.spool.retired = s.spool.retired ∧ t.spool.dram = s.spool.dram
        ∧ (∀ q, t.port q = { s.port q with
            reads := (s.port q).reads.map (fun r => if r.slot = a.slot then { r with gone := true } else r) }))
      ∧ (final ≠ .done → final ≠ .failed → final ≠ .cancelled → t.spool = s.spool ∧ t.ports = s.ports)
      ∧ (final = .queued →
        t.dispatch.stockWait = waiting
        ∧ (∀ l, l ≠ x.level → t.readyAt l = others (s.readyAt l))
        ∧ t.readyAt x.level =
          if d = .head then a.slot :: others (s.readyAt x.level) else others (s.readyAt x.level) ++ [a.slot])
      ∧ (final = .stockwait →
        (∀ l, t.readyAt l = others (s.readyAt l))
        ∧ t.dispatch.stockWait = waiting.filter (fun i => s.levelOf i ≤ x.level.val)
            ++ a.slot :: waiting.filter (fun i => x.level.val < s.levelOf i))
      ∧ (final ≠ .queued → final ≠ .stockwait →
        t.dispatch.ready = s.dispatch.ready ∧ t.dispatch.stockWait = s.dispatch.stockWait)
      ∧ t.agenda = s.agenda ++
          (if final = .queued then [.choosePort a.slot, .signalPorts a.slot]
           else if final = .held ∧ ((s.account x.account).state = .opened ∨ (s.account x.account).state = .low) then
             [.releaseHeld a.slot]
           else [])
      ∧ (x.state ≠ final →
        let told := s.notify .job (jobNoticeBody a.slot x.state left)
        t.link =
          (if final = .stockwait then told.notify .stock (stockBody a.slot left (waiting.length + 1)) else told).link)
      ∧ t.dispatch.slices = s.dispatch.slices ∧ t.alerts = s.alerts ∧ t.panel = s.panel ∧ t.partTime = s.partTime
      ∧ t.pending = s.pending ∧ t.meter.log = s.meter.log ∧ t.meter.reservations = s.meter.reservations)

/-! ## Engine ports and the press link (chapter 5) -/

/-- LINE_SIGNAL_RETURNS: an ABSENT or LOST port of a part that is not STARTING reads its sense lines: 00 and 01 take it to
IDENTIFYING with HELLO, 10 to ABSENT, 11 to PROBING with PROBE 0 and 20 ms to wait; in any other case the signal is recorded
and nothing more happens (R80, R81). -/
def Obligations.LineSignalReturns : Prop :=
  ∀ (s : State) (p : PortNo) (sense : Sense), s.agenda = [] → (s.port p).signal = false →
    let old := s.port p
    (s.spool.startUp = .starting ∨ (old.state ≠ .absent ∧ old.state ≠ .lost) →
      exec (.lineSignalReturns p sense) s = .next (State.pump (s.setPort p { old with signal := true })))
    ∧ (s.spool.startUp ≠ .starting → old.state = .absent ∨ old.state = .lost →
      (∀ cls, (sense = 0 ∧ cls = PortClass.sheet) ∨ (sense = 1 ∧ cls = .roll) →
        exec (.lineSignalReturns p sense) s =
          .next (State.pump (((s.setPort p { old with
            signal := true, cls := some cls, receiver := .hunting, state := .identifying, stateTime := s.partTime
            nextTag := 0, owner := none }).notifyPort p old.state (.state (s.assigned p))).send p .hello)))
      ∧ (sense = 2 → old.state = .absent →
        exec (.lineSignalReturns p sense) s =
          .next (State.pump (s.setPort p { old with signal := true, cls := none, receiver := .hunting })))
      ∧ (sense = 2 → old.state = .lost →
        exec (.lineSignalReturns p sense) s =
          .next (State.pump ((s.setPort p (Port.emptied
            { old with signal := true, cls := none, receiver := .hunting } .absent s.partTime)).notifyPort p .lost
              (.state (s.assigned p)))))
      ∧ (sense = 3 →
        exec (.lineSignalReturns p sense) s =
          .next (State.pump (((s.setPort p (Port.emptied
            { old with
              signal := true, cls := none, receiver := .hunting
              probeTimer := some { start := s.partTime, length := 20 } } .probing s.partTime)).notifyPort p old.state
                (.state (s.assigned p))).send p (.probe 0)))))

/-- LINE_SIGNAL_LOST: nothing but the line in ABSENT and LOST; PROBING and LOOPBACK go to ABSENT, a running loop test ending
early and no result told where none runs; IDENTIFYING and READY go to LOST; SETUP, and the states that feed, go to LOST and
their job leaves, here HELD by its account, once every sheet of the path, oldest first, has taken its outcome (R125, R130).
Each entry to LOST is counted and adds LINK_LOST; capabilities and trays go (R80, R82, R84, R138). -/
def Obligations.LineSignalLost : Prop :=
  ∀ (s : State) (p : PortNo), s.agenda = [] →
    let x := (s.port p).unplugged
    let lost : Port := { x.emptied .lost s.partTime with
      request := none, gateTimer := none, wait := .none, owner := none, receiver := .hunting, drain := none
      destination := none
      counters := { x.counters with linkLosses := min (x.counters.linkLosses + 1) 4294967295 } }
    (x.state = .absent ∨ x.state = .lost → exec (.lineSignalLost p) s = .next (State.pump (s.setPort p x)))
    ∧ (x.state = .probing →
      exec (.lineSignalLost p) s =
        .next (State.pump ((s.setPort p (Port.emptied { x with probeTimer := none } .absent s.partTime)).notifyPort p .probing
          (.state (s.assigned p)))))
    ∧ (∀ k, x.state = .loopback → x.loop = some k →
      exec (.lineSignalLost p) s =
        .next (State.pump ((((s.setPort p { x with loop := none }).notifyPort p .loopback
          (.looptest k.count k.awaited k.returned true)).setPort p
            (Port.emptied { x with loop := none } .absent s.partTime)).notifyPort p .loopback (.state (s.assigned p)))))
    ∧ (x.state = .loopback → x.loop = none →
      exec (.lineSignalLost p) s =
        .next (State.pump ((s.setPort p (Port.emptied x .absent s.partTime)).notifyPort p .loopback
          (.state (s.assigned p)))))
    ∧ ((x.state = .identifying ∨ x.state = .ready) → s.noneReady → (s.alert p).causes.linkLost = false →
      ∃ t : State, exec (.lineSignalLost p) s = .next t.pump ∧ s.AtPort t p ∧ t.port p = lost
        ∧ t.alert p = s.alarm p { (s.alert p).causes with linkLost := true, trayEmpty := false })
    ∧ (∀ a y, (x.state = .setup ∨ ((x.state = .feeding ∨ x.state = .draining ∨ x.state = .stopped) ∧ x.path = [])) →
      s.LeavesHeld p a y → s.noneReady → (s.alert p).causes.linkLost = false →
      ∃ t : State, exec (.lineSignalLost p) s = .next t.pump
        ∧ s.LeftHeld t p a (y.leftHeld (elapsed s.partTime a.since))
        ∧ t.port p = { lost with setupTimer := if x.state = .setup then none else x.setupTimer }
        ∧ t.alert p = s.alarm p { (s.alert p).causes with linkLost := true, trayEmpty := false })
    ∧ (x.state = .feeding ∨ x.state = .draining ∨ x.state = .stopped → s.noneReady →
      let u := ((s.setPort p { lost with drain := x.drain, destination := x.destination }).notifyPort p x.state
        (.state (s.assigned p))).settleSheets p (x.path.map (fun z => (z, abandonedOutcome z)))
      ∀ a y, u.agenda = [] → u.LeavesHeld p a y → (u.alert p).causes.linkLost = false →
      ∃ t : State, exec (.lineSignalLost p) s = .next t.pump
        ∧ u.LeftHeld t p a (y.leftHeld (elapsed s.partTime a.since))
        ∧ t.port p = (u.port p).clearFeeding ∧ (t.port p).state = .lost ∧ (t.port p).path = []
        ∧ t.alert p = u.alarm p { (u.alert p).causes with linkLost := true, trayEmpty := false })

/-- PROBE_ECHO, PROBE_TIMEOUT, PORT_LOOPTEST and LOOP_FRAME_EXPIRY: probing ends at its intact echo or its expiry (R83); the
loop test sends its frames in turn, counts those that return intact in their 20 ms and reports its result (R84). -/
def Obligations.ProbingAndLoopTest : Prop :=
  ∀ (s : State) (p : PortNo),
    let x := s.port p
    let now20 : Timer := { start := s.partTime, length := 20 }
    (x.state = .probing →
      (s.Hears p →
        exec (.probeEcho p 0 probePattern) s =
          .next (State.pump ((s.setPort p (Port.emptied { x.heard s.partTime with probeTimer := none } .loopback
            s.partTime)).notifyPort p .probing (.state (s.assigned p))))
        ∧ (∀ sequence pattern, pattern.length = 16 → sequence ≠ 0 ∨ pattern ≠ probePattern →
          exec (.probeEcho p sequence pattern) s = .next (State.pump (s.setPort p (x.heard s.partTime)))))
      ∧ (∀ k, s.agenda = [] → x.probeTimer = some k →
        (k.length ≤ elapsed s.partTime k.start →
          exec (.probeTimeout p) s =
            .next (State.pump ((s.setPort p (Port.emptied { x with probeTimer := none } .absent s.partTime)).notifyPort p
              .probing (.state (s.assigned p)))))
        ∧ (elapsed s.partTime k.start < k.length → exec (.probeTimeout p) s = .next s.pump)))
    ∧ (∀ (r : Request) (rest : List Request) (count : Byte), s.Takes 0x34 r rest → r.body = [byte p.val, count] →
      (count = 0 → exec .portLooptest s = .next (s.answered r .badField []))
      ∧ (count ≠ 0 → x.state ≠ .loopback ∨ x.loop ≠ none → exec .portLooptest s = .next (s.answered r .badState []))
      ∧ (count ≠ 0 → x.state = .loopback → x.loop = none →
        exec .portLooptest s =
          .next (State.answered ((s.setPort p
            { x with loop := some { count := count.toNat, awaited := 1, returned := 0, timer := now20 } }).send p
              (.probe 1)) r .ok [])))
    ∧ (∀ k, x.state = .loopback → x.loop = some k → k.count ≤ 255 →
      (s.Hears p →
        (k.awaited < k.count →
          exec (.probeEcho p (byte k.awaited) probePattern) s =
            .next (State.pump ((s.setPort p { x.heard s.partTime with
              loop := some { k with awaited := k.awaited + 1, returned := k.returned + 1, timer := now20 } }).send p
                (.probe (byte (k.awaited + 1))))))
        ∧ (k.awaited = k.count →
          exec (.probeEcho p (byte k.awaited) probePattern) s =
            .next (State.pump ((s.setPort p { x.heard s.partTime with loop := none }).notifyPort p .loopback
              (.looptest k.count k.count (k.returned + 1) false)))))
      ∧ (s.agenda = [] →
        (k.timer.length ≤ elapsed s.partTime k.timer.start →
          (k.awaited < k.count →
            exec (.loopFrameExpiry p) s =
              .next (State.pump ((s.setPort p
                { x with loop := some { k with awaited := k.awaited + 1, timer := now20 } }).send p
                  (.probe (byte (k.awaited + 1))))))
          ∧ (k.awaited = k.count →
            exec (.loopFrameExpiry p) s =
              .next (State.pump ((s.setPort p { x with loop := none }).notifyPort p .loopback
                (.looptest k.count k.count k.returned false)))))
        ∧ (elapsed s.partTime k.timer.start < k.timer.length → exec (.loopFrameExpiry p) s = .next s.pump)))

/-- IDENTITY in IDENTIFYING: rejected with the first failing case, by a path depth outside 1 to 4, no tray or more than 6, a
tray number outside 0 to 5 or given twice, a LOADED tray with stock code 0; else the capabilities and the tray table are
taken, the port leaves every refused-by set, four causes leave its alert and it enters READY (R23, R85, R86). -/
def Obligations.IdentityJudged : Prop :=
  ∀ (s : State) (p : PortNo) (c : EngineIdentity),
    s.Hears p → (s.port p).state = .identifying → c.trays.length ≤ 255 →
    let x := (s.port p).heard s.partTime
    let rejected (case : Nat) := exec (.identity p c) s =
      .next (State.pump ((s.setPort p x).notifyPort p .identifying (.identityRejected case)))
    let depthBad := c.depth.toNat < 1 ∨ 4 < c.depth.toNat
    let countBad := c.trays = [] ∨ 6 < c.trays.length
    let numbersBad := (∃ t ∈ c.trays, 5 < t.number.toNat) ∨ ¬ (c.trays.map (·.number)).Nodup
    let stockBad := ∃ t ∈ c.trays, t.loaded = true ∧ t.stock = 0
    (depthBad → rejected 1)
    ∧ (¬ depthBad → countBad → rejected 2)
    ∧ (¬ depthBad → ¬ countBad → numbersBad → rejected 3)
    ∧ (¬ depthBad → ¬ countBad → ¬ numbersBad → stockBad → rejected 4)
    ∧ (¬ depthBad → ¬ countBad → ¬ numbersBad → ¬ stockBad → s.noneReady → s.dispatch.stockWait = [] →
      ∃ t : State, exec (.identity p c) s = .next t.pump ∧ s.Beyond t p
        ∧ t.port p = { x with
            state := .ready, stateTime := s.partTime, trays := c.trays
            caps := some { colour := c.colour, duplex := c.duplex, depth := c.depth.toNat, classes := c.classes
                           reject := c.reject } }
        ∧ (t.alert p).causes =
            { (s.alert p).causes with linkLost := false, setupTimeout := false, jam := none, fault := none }
        ∧ (∀ j, t.job j = (s.job j).map (fun y => { y with refusedBy := y.refusedBy.set p false }))
        ∧ t.dispatch = s.dispatch ∧ t.meter = s.meter)

/-- SETUP_DONE in SETUP: the setup timer stops, the job becomes the setup owner, and the port feeds; where its first decision
finds the gate of the next ordinal unmet, it waits for it with its gate wait timer started. In any other state it is ignored
(R91, R99, R103, R108). -/
def Obligations.SetupDoneFeeds : Prop :=
  ∀ (s : State) (p : PortNo), s.Hears p →
    let x := (s.port p).heard s.partTime
    (x.state ≠ .setup → exec (.setupDone p) s = .next (State.pump (s.setPort p x)))
    ∧ (∀ (j : Slot) (y : Job), x.state = .setup → s.assigned p = some j → s.job j = some y → x.held = false →
      y.cancel = false → y.suspend = false → y.slice = false → y.lossCount ≠ 5 → (s.account y.account).state.stops = false →
      y.next ≠ y.sheets * y.copies → loadedWith x.trays y.stock = true → s.noneReady →
      (s.meter.policy ≠ .stall ∨ s.meter.log.length + s.meter.reservations < 256) → s.gateMet j y.next = false →
      x.gateWait ≠ 0 → x.gateTimer = none →
      exec (.setupDone p) s =
        .next (State.pump (((s.setPort p { x with
            setupTimer := none, owner := some j, state := .feeding, stateTime := s.partTime }).notifyPort p .setup
              (.state (some j))).setPort p { x with
            setupTimer := none, owner := some j, state := .feeding, stateTime := s.partTime, wait := .gate
            gateTimer := some { start := s.partTime, length := x.gateWait } })))

/-- SETUP_REFUSED and SETUP_TIMER_EXPIRY in SETUP: the job leaves for the head of its level, here HELD by its account; a
refusal is recorded, joins the job's refused-by set and leaves the port READY with its owner kept; an expiry adds
SETUP_TIMEOUT and takes the port to IDENTIFYING with HELLO. A refusal in another state is ignored, and so is a timer that
still counts (R26, R92, R93, R99). -/
def Obligations.SetupFails : Prop :=
  ∀ (s : State) (p : PortNo),
    (∀ code, s.Hears p →
      let x := (s.port p).heard s.partTime
      (x.state ≠ .setup → exec (.setupRefused p code) s = .next (State.pump (s.setPort p x)))
      ∧ (∀ a y, x.state = .setup → s.LeavesHeld p a y → s.noneReady →
        ∃ t : State, exec (.setupRefused p code) s = .next t.pump
          ∧ s.LeftHeld t p a { y.leftHeld (elapsed s.partTime a.since) with refusedBy := y.refusedBy.set p true }
          ∧ t.port p = { x.clearFeeding with
              setupTimer := none, refusal := some (a.slot, code), state := .ready, stateTime := s.partTime }
          ∧ (t.alert p).causes = { (s.alert p).causes with trayEmpty := false }))
    ∧ (∀ k, s.agenda = [] → (s.port p).state = .setup → (s.port p).setupTimer = some k →
      (elapsed s.partTime k.start < k.length → exec (.setupTimerExpiry p) s = .next s.pump)
      ∧ (∀ a y, k.length ≤ elapsed s.partTime k.start → s.LeavesHeld p a y →
        ∃ t : State, exec (.setupTimerExpiry p) s = .next t.pump
          ∧ s.LeftHeld t p a (y.leftHeld (elapsed s.partTime a.since))
          ∧ t.port p = Port.queueOut { (s.port p).clearFeeding with
              setupTimer := none, state := .identifying, stateTime := s.partTime, nextTag := 0, owner := none } .hello
          ∧ (t.alert p).causes = { (s.alert p).causes with trayEmpty := false, setupTimeout := true }))

/-- TRAY: ignored in the states that take none, for a number not in the table, for LOADED with stock code 0; a repetition
changes nothing; else the entry is replaced. The last tray of the assigned job's stock emptied adds TRAY_EMPTY; a stock
loaded releases the jobs that wait for it (R62, R88, R89, R99). A stock that no counting port holds any longer: its QUEUED
jobs, in ready-queue order, leave their lists for the stock wait list, each behind the jobs of its level, as STOCKWAIT (R59,
R60, R63). -/
def Obligations.TrayChangesTable : Prop :=
  ∀ (s : State) (p : PortNo) (item : TrayItem), s.Hears p →
    let x := (s.port p).heard s.partTime
    let after := x.trays.map (fun t => if t.number = item.number then item else t)
    let ignored := exec (.tray p item) s = .next (State.pump (s.setPort p x))
    (x.state.takesTray = false → ignored)
    ∧ (item.loaded = true → item.stock = 0 → ignored)
    ∧ (x.trays.find? (fun t => t.number = item.number) = none → ignored)
    ∧ (x.trays.find? (fun t => t.number = item.number) = some item → ignored)
    ∧ (∀ old, x.trays.find? (fun t => t.number = item.number) = some old → old ≠ item →
      (item.loaded = true → item.stock ≠ 0) → s.noneReady →
      (x.state = .ready → s.assigned p = none → s.dispatch.stockWait = [] →
        exec (.tray p item) s = .next (State.pump (s.setPort p { x with trays := after })))
      ∧ (∀ j y, x.state = .setup → s.assigned p = some j → s.job j = some y → s.dispatch.stockWait = [] →
        loadedWith x.trays y.stock = true → loadedWith after y.stock = false →
        ∃ t : State, exec (.tray p item) s = .next t.pump ∧ s.AtPort t p ∧ t.port p = { x with trays := after }
          ∧ (t.alert p).causes = { (s.alert p).causes with trayEmpty := true })
      ∧ (∀ j y, x.state = .stopped → s.assigned p = none → s.dispatch.stockWait = [j] → s.job j = some y →
        y.state = .stockwait → y.stock = item.stock → item.loaded = true → ¬ (old.loaded = true ∧ old.stock = item.stock) →
        s.noPortToChoose →
        ∃ t : State, exec (.tray p item) s = .next t.pump ∧ s.Beyond t p ∧ t.port p = { x with trays := after }
          ∧ t.job j = some { y with state := .queued } ∧ (∀ i, i ≠ j → t.job i = s.job i)
          ∧ t.dispatch.stockWait = []
          ∧ (∀ l, t.readyAt l = if l = y.level then [j] else [])
          ∧ t.alert p = s.alert p ∧ t.meter = s.meter))
    ∧ (∀ old, x.trays.find? (fun t => t.number = item.number) = some old → old.loaded = true → item.loaded = false →
      x.state = .ready ∨ x.state = .stopped → s.assigned p = none →
      exec (.tray p item) s = .next (State.pump ((s.setPort p { x with trays := after }).judgeStock old.stock)))
    ∧ (∀ stock : Byte,
      let t := s.judgeStock stock
      ((∃ q, (s.port q).state ∈ [.identifying, .ready, .setup, .feeding, .draining, .stopped]
          ∧ ∃ k ∈ (s.port q).trays, k.loaded = true ∧ k.stock = stock) → t = s)
      ∧ ((∀ q, (s.port q).state ∈ [.identifying, .ready, .setup, .feeding, .draining, .stopped] →
          ∀ k ∈ (s.port q).trays, k.loaded = true → k.stock ≠ stock) →
        (∀ l j, j ∈ s.readyAt l → ∃ y, s.job j = some y ∧ y.level = l ∧ y.state = .queued) →
        (∀ l, (s.readyAt l).Nodup) → (∀ l, ∀ j ∈ s.readyAt l, j ∉ s.dispatch.stockWait) →
        let goes (j : Slot) : Bool := (s.job j).any (fun y => y.stock = stock)
        (∀ l, t.readyAt l = (s.readyAt l).filter (fun j => !goes j))
        ∧ (∀ l : Level, t.dispatch.stockWait.filter (fun j => t.levelOf j = l.val) =
            s.dispatch.stockWait.filter (fun j => s.levelOf j = l.val) ++ (s.readyAt l).filter goes)
        ∧ (s.dispatch.stockWait.Pairwise (fun i j => s.levelOf i ≤ s.levelOf j) →
          t.dispatch.stockWait.Pairwise (fun i j => t.levelOf i ≤ t.levelOf j))
        ∧ (∀ l j y, j ∈ s.readyAt l → goes j = true → s.job j = some y → t.job j = some { y with state := .stockwait })
        ∧ (∀ j, (∀ l, j ∈ s.readyAt l → goes j = false) → t.job j = s.job j)
        ∧ (∀ j y, s.readyOrder.filter goes = [j] → s.job j = some y →
          let z : Job := { y with state := .stockwait }
          t.link = ((s.notify .job (jobNoticeBody j .queued z)).notify .stock
            (stockBody j z (s.dispatch.stockWait.length + 1))).link)
        ∧ t.ports = s.ports ∧ t.spool = s.spool ∧ t.meter = s.meter ∧ t.alerts = s.alerts ∧ t.agenda = s.agenda
        ∧ t.dispatch.assignments = s.dispatch.assignments))

/-- PORT_HOLD and PORT_RELEASE: a repeated one changes nothing; else the flag is set or cleared with a HOLD notice. A FEEDING
port held stops feeding for HOLD and drains towards the head of the level; a READY port released takes the job that the
choice of job gives it (R68, R95, R96, R104). -/
def Obligations.HoldAndRelease : Prop :=
  ∀ (s : State) (r : Request) (rest : List Request) (p : PortNo), r.body = [byte p.val] →
    let x := s.port p
    let turned (b : Bool) : State := (s.setPort p { x with held := b }).notifyPort p x.state .hold
    (s.Takes 0x30 r rest →
      (x.held = true → exec .portHold s = .next (s.answered r .ok [x.state.code]))
      ∧ (x.held = false → x.state ≠ .feeding →
        exec .portHold s = .next (State.answered (turned true) r .ok [x.state.code]))
      ∧ (∀ j y, x.held = false → x.state = .feeding → s.assigned p = some j → s.job j = some y → x.path ≠ [] →
        exec .portHold s =
          .next (State.answered (((turned true).setPort p { x with
            held := true, drain := some .hold, destination := some .head, gateTimer := none, wait := .none
            state := .draining, stateTime := s.partTime }).notifyPort p .feeding (.state (some j)))
              r .ok [PortState.draining.code])))
    ∧ (s.Takes 0x31 r rest →
      (x.held = false → exec .portRelease s = .next (s.answered r .ok [x.state.code]))
      ∧ (x.held = true → x.state ≠ .feeding → x.state ≠ .ready ∨ s.noneReady →
        exec .portRelease s = .next (State.answered (turned false) r .ok [x.state.code]))
      ∧ (∀ j y, x.held = true → x.state = .ready → s.assignment p = none → (turned false).chooseJob p = some j →
        s.job j = some y → y.state = .queued → x.owner ≠ some j →
        exec .portRelease s =
          .next (State.answered ((turned false).assign p j) r .ok [PortState.setup.code])))

/-- PORT_RESET: timers, loop test and band request go, every sheet of the path takes the outcome of a link loss and the job
is rewound (R125, R130, R139), an assigned job leaves, here HELD by its account; owner, capabilities, trays, refusal, tag,
run count and counters are emptied, every cause leaves the alert, and the sense lines are read afresh; the held flag and the
settings stay (R81, R97). Two clauses are the model's choice: R139 says that the port does not enter LOST, and does not say
which state it settles in; the model settles with the port taken as LOST, so that no rewind takes it back to FEEDING and no
third underrun stops its feeding (log entry 31); and the state time is set at the reading whether or not the state changes
(log entry 22). -/
def Obligations.PortResetEmptiesPort : Prop :=
  ∀ (s : State) (r : Request) (rest : List Request) (p : PortNo) (sense : Sense),
    s.Takes 0x32 r rest → r.body = [byte p.val] → s.noneReady →
    let entered := if (s.port p).signal = false then PortState.absent
      else if sense = 0 ∨ sense = 1 then .identifying else if sense = 2 then .absent else .probing
    let reset (t : State) : Prop :=
      (t.port p).state = entered ∧ (t.port p).stateTime = s.partTime ∧ (t.port p).owner = none ∧ (t.port p).caps = none
      ∧ (t.port p).trays = [] ∧ (t.port p).refusal = none ∧ (t.port p).nextTag = 0 ∧ (t.port p).underruns = 0
      ∧ (t.port p).counters = .zero ∧ (t.port p).loop = none ∧ (t.port p).setupTimer = none
      ∧ (t.port p).gateTimer = none ∧ (t.port p).request = none ∧ (t.port p).wait = .none ∧ (t.port p).drain = none
      ∧ (t.port p).destination = none ∧ (t.port p).path = []
      ∧ (t.port p).probeTimer = (if entered = .probing then some { start := s.partTime, length := 20 } else none)
      ∧ (t.port p).cls = (if entered = .identifying then some (if sense = 0 then .sheet else .roll) else none)
      ∧ (t.port p).held = (s.port p).held ∧ (t.port p).signal = (s.port p).signal
      ∧ (t.port p).grace = (s.port p).grace ∧ (t.port p).gateWait = (s.port p).gateWait
      ∧ (t.port p).interval = (s.port p).interval ∧ (t.alert p).causes = .empty
    (s.assignment p = none → (s.port p).path = [] →
      ∃ t : State, exec (.portReset sense) s = .next (t.answered r .ok [entered.code]) ∧ s.AtPort t p ∧ reset t)
    ∧ (∀ a y, (s.port p).path = [] → s.LeavesHeld p a y →
      ∃ t : State, exec (.portReset sense) s = .next (t.answered r .ok [entered.code])
        ∧ s.LeftHeld t p a (y.leftHeld (elapsed s.partTime a.since)) ∧ reset t)
    ∧ (let x := s.port p
      let u := (s.setPort p { x with
          loop := none, setupTimer := none, probeTimer := none, gateTimer := none, request := none
          state := .lost }).settleSheets p (x.path.map (fun z => (z, abandonedOutcome z)))
      let v := u.setPort p { u.port p with state := x.state }
      ∀ a y, u.agenda = [] → v.LeavesHeld p a y → v.noneReady →
        ∃ t : State, exec (.portReset sense) s = .next (t.answered r .ok [entered.code])
          ∧ v.LeftHeld t p a (y.leftHeld (elapsed s.partTime a.since)) ∧ reset t)

/-- The bytes of a press-link frame that carries a message, taken by a hunting receiver, bring what the message's row brings
(R99, R193, R194, R195). -/
def Obligations.PressFrameIsReceived : Prop :=
  ∀ (s : State) (i : Instr) (p : PortNo) (m : PressIn),
    pressMessage i = some (p, m) → m.fits = true → s.Hears p → exec (.pressMarkerSeen p (pressFrame m.wire)) s = exec i s

/-- The port's receiver. PRESS_MARKER_SEEN: the marker takes it to its header, whatever stands before.
PRESS_FRAME_CHECK_FAIL: a length below 1 or above 16,388, a CRC that differs and contents that fit no message of the table
discard the frame and count it; PRESS_FRAME_GAP_EXPIRY does so once more than 50 ms have passed within a frame; that at 50 ms
it has not expired is the model's choice (log entry 11: R15 against R193). PRESS_MESSAGE_IGNORED: a whole frame of a kind the
port does not take changes nothing else. A port that does not hear takes nothing; that its partial frame's gap then does not
expire either is the model's choice (log entry 34). PRESS_FRAME_SENT: the port goes on to its next waiting frame (R99, 
R193). -/
def Obligations.PressReceiver : Prop :=
  ∀ (s : State) (p : PortNo), s.agenda = [] →
    let x := s.port p
    let discarded := State.pump (s.setPort p { x.heard s.partTime with
      counters := { x.counters with framesDiscarded := min (x.counters.framesDiscarded + 1) 4294967295 } })
    (s.Hears p →
      (∀ junk : List Byte, 0xC3#8 ∉ junk →
        exec (.pressMarkerSeen p (junk ++ [0xC3#8])) s =
          .next (State.pump (s.setPort p { x with receiver := { rx := .header [], last := s.partTime } })))
      ∧ (∀ n, n < 65536 → n < 1 ∨ 16388 < n → exec (.pressFrameCheckFail p (0xC3#8 :: num 2 n)) s = .next discarded)
      ∧ (∀ (counted : List Byte) (c1 c0 : Byte), 1 ≤ counted.length → counted.length ≤ 16388 →
        [c1, c0] ≠ word16 (crc (num 2 counted.length ++ counted)) →
        exec (.pressFrameCheckFail p (0xC3#8 :: num 2 counted.length ++ counted ++ [c1, c0])) s = .next discarded)
      ∧ (∀ (kind : Byte) (body : List Byte), body.length ≤ 16387 →
        (readPress kind body = none → exec (.pressFrameCheckFail p (pressFrame (kind :: body))) s = .next discarded)
        ∧ (readPress kind body = some .foreign →
          exec (.pressMessageIgnored p (pressFrame (kind :: body))) s =
            .next (State.pump (s.setPort p (x.heard s.partTime))))))
    ∧ (s.hears p = true → x.receiver.rx.midFrame = true →
      (50 < elapsed s.partTime x.receiver.last → exec (.pressFrameGapExpiry p) s = .next discarded)
      ∧ (elapsed s.partTime x.receiver.last ≤ 50 → exec (.pressFrameGapExpiry p) s = .next s.pump))
    ∧ (s.hears p = false → ∀ bytes,
      exec (.pressMarkerSeen p bytes) s = .next s.pump ∧ exec (.pressFrameCheckFail p bytes) s = .next s.pump
      ∧ exec (.pressMessageIgnored p bytes) s = .next s.pump ∧ exec (.pressFrameGapExpiry p) s = .next s.pump)
    ∧ (∀ m, x.sending = some m →
      (x.outQueue = [] → exec (.pressFrameSent p) s = .next (State.pump (s.setPort p { x with sending := none })))
      ∧ (∀ n rest, x.outQueue = n :: rest →
        exec (.pressFrameSent p) s =
          .next (State.pump (s.setPort p { x with sending := some n, outQueue := rest }))))

/-! ## Feeding sheets (chapter 6) -/

/-- A run that ends in GATE wait starts the gate wait timer at the port's setting, unless it counts already; a setting of 0
does not wait. That a timer which counts goes on whatever the setting is by then is the model's choice (log entry 18).
GATE_WAIT_EXPIRY: the wait, once its length has elapsed, ends in DRAINING for the head of the level; with an empty path the
job leaves at once, here HELD by its account, and the port is READY. Before that, and in any other state or wait, it has no
effect (R103, R104, R108, R111). -/
def Obligations.GateWaitStartsAndExpires : Prop :=
  ∀ (s : State) (p : PortNo),
    let x := s.port p
    (x.gateTimer ≠ none → s.waitForGate p = s.setPort p { x with wait := .gate })
    ∧ (x.gateTimer = none → x.gateWait ≠ 0 →
      s.waitForGate p =
        s.setPort p { x with wait := .gate, gateTimer := some { start := s.partTime, length := x.gateWait } })
    ∧ (x.gateTimer = none → x.gateWait = 0 → s.waitForGate p = s.stopFeeding p .gateWait)
    ∧ (s.agenda = [] →
      (x.state ≠ .feeding ∨ x.wait ≠ .gate ∨ x.gateTimer = none → exec (.gateWaitExpiry p) s = .next s.pump)
      ∧ (∀ k, x.gateTimer = some k → elapsed s.partTime k.start < k.length →
        exec (.gateWaitExpiry p) s = .next s.pump)
      ∧ (∀ k, x.state = .feeding → x.wait = .gate → x.gateTimer = some k → k.length ≤ elapsed s.partTime k.start →
        (x.path ≠ [] →
          exec (.gateWaitExpiry p) s =
            .next (State.pump ((s.setPort p { x with
              drain := some .gateWait, destination := some .head, gateTimer := none, wait := .none, state := .draining
              stateTime := s.partTime }).notifyPort p .feeding (.state (s.assigned p)))))
        ∧ (∀ a y, x.path = [] → s.LeavesHeld p a y → s.noneReady →
          ∃ t : State, exec (.gateWaitExpiry p) s = .next t.pump
            ∧ s.LeftHeld t p a (y.leftHeld (elapsed s.partTime a.since))
            ∧ t.port p = { x.clearFeeding with state := .ready, stateTime := s.partTime }
            ∧ (t.alert p).causes = { (s.alert p).causes with trayEmpty := false })))

/-- Step 9 of the decision, in one step (R22, R98, R110, R167): SHEET names the lowest-numbered tray LOADED with the job's
stock, the sheet joins the tail of the path STARTED and unmarked, the next ordinal and the next tag rise by 1, the sheet is
counted and, under STALL, takes a reservation; then the decision runs again. A queue in the order of R121 so stays in it, and
its tags distinct; the sheets in flight rise by 1, as the reservations do. -/
def Obligations.SheetStarts : Prop :=
  ∀ (s : State) (p : PortNo) (j : Slot) (x : Job) (t : TrayItem),
    t ∈ (s.port p).trays → t.loaded = true → t.stock = x.stock →
    (∀ u ∈ (s.port p).trays, u.loaded = true → u.stock = x.stock → t.number.toNat ≤ u.number.toNat) →
    let q := s.port p
    s.startSheet p j x =
      State.post
        { (s.setPort p (Port.queueOut
            { q with
              path := q.path ++ [{ tag := q.nextTag, ordinal := x.next, state := .started, mark := .unmarked }]
              nextTag := q.nextTag + 1
              wait := .none
              gateTimer := none
              counters := { q.counters with sheetsStarted := min (q.counters.sheetsStarted + 1) 4294967295 } }
            (.sheet q.nextTag (BitVec.ofNat 16 x.next) x.sizeClass t.number x.sides))).setJob j
              (some { x with next := x.next + 1 }) with
          meter := { s.meter with
            reservations := if s.meter.policy = .stall then s.meter.reservations + 1 else s.meter.reservations } }
        (.decide p)
    ∧ (let t := s.startSheet p j x
      (q.InOrder x → q.path.length < 4 → x.next < x.sheets * x.copies →
        (t.port p).InOrder { x with next := x.next + 1 } ∧ ((t.port p).path.map (·.tag)).Nodup)
      ∧ ((List.finRange 12).map (fun r => (t.port r).path.length)).sum
          = ((List.finRange 12).map (fun r => (s.port r).path.length)).sum + 1)

/-- WANT is ignored in a state that follows no sheets, for a tag not in the path, a back the job has not, a band its class
has not. Else a present band begins a read, whatever the mark; a band not yet sent waits for its grace if the sheet is
unmarked and is filled at once if it is marked or the grace is 0; a lost band is filled (while its BAND_PUT writes, too: the
model's choice, log entry 33); an unmarked sheet so filled is spoiled, UNDERRUN or PARITY. A request that waited before is
filled first and its sheet spoiled UNDERRUN (R21, R99, R113); that the new one is answered before the decision which that
spoil runs is the model's choice (log entry 17). -/
def Obligations.WantAnswered : Prop :=
  ∀ (s : State) (p : PortNo) (tag : Byte) (back : Bool) (band : Byte), s.Hears p →
    let x := (s.port p).heard s.partTime
    let ignored := exec (.want p tag back band) s = .next (State.pump (s.setPort p x))
    let filled (z : Port) (tag : Byte) (back : Bool) (band : Nat) : Port := Port.queueOut
      { z with counters := { z.counters with fills := min (z.counters.fills + 1) 4294967295 } } (.fill tag back band)
    (x.state.follows = false → ignored)
    ∧ (sheetOf x.path tag = none → ignored)
    ∧ (∀ j y, s.assigned p = some j → s.job j = some y →
      (back = true → y.sides ≠ 2 → ignored)
      ∧ (s.bandsPerSide y.sizeClass ≤ band.toNat → ignored)
      ∧ (∀ z, x.state.follows = true → sheetOf x.path tag = some z → (back = true → y.sides = 2) →
        band.toNat < s.bandsPerSide y.sizeClass →
        let image := (z.ordinal % y.sheets) * y.sides + (if back = true then 1 else 0)
        (∀ block length counts, s.band j image band.toNat = some (.present block length counts) →
          let read : BandRead :=
            { tag := tag, back := back, band := band.toNat, slot := j, image := image, block := block, live := true
              gone := false }
          (x.request = none →
            exec (.want p tag back band) s = .next (State.pump (s.setPort p { x with reads := x.reads ++ [read] })))
          ∧ (∀ q, x.request = some q →
            let t := (s.setPort p (filled { x with request := none } q.tag q.back q.band)).spoil p q.tag .underrun
            exec (.want p tag back band) s =
              .next (State.finish (t.setPort p { t.port p with reads := (t.port p).reads ++ [read] }))))
        ∧ (x.request = none →
          (s.band j image band.toNat = none → z.mark = .unmarked → x.grace ≠ 0 →
            let waits : BandRequest :=
              { tag := tag, back := back, band := band.toNat, timer := { start := s.partTime, length := x.grace } }
            exec (.want p tag back band) s = .next (State.pump (s.setPort p { x with request := some waits })))
          ∧ (s.bandPresent j image band.toNat = false → z.mark ≠ .unmarked →
            exec (.want p tag back band) s = .next (State.pump (s.setPort p (filled x tag back band.toNat))))
          ∧ (∀ cause, (cause = .parity ∧ s.band j image band.toNat = some .lost)
              ∨ (cause = .underrun ∧ s.band j image band.toNat = none ∧ x.grace = 0) →
            exec (.want p tag back band) s =
              .next (State.finish ((s.setPort p (filled x tag back band.toNat)).spoil p tag cause))))))

/-- Spoiling an unmarked sheet (R112, R114, R116, R117): it is marked with its cause, every unmarked sheet above it
superseded, the next ordinal lowered to it, DIVERT sent for each sheet newly marked if the engine has a reject tray, a
request waiting for a superseded sheet filled; a port draining for END feeds again; then the decision runs; a queue in the
order of R121 so stays in it. A marked sheet is not marked again. Several sheets settled by one event take their outcomes in
turn; the job is then rewound, once, to the lowest ordinal among those that were unmarked and came out other than GOOD, if
there is one (R130). BAND_GRACE_EXPIRY fills the waiting request and spoils its sheet once its grace has elapsed, and not
before. -/
def Obligations.SpoilMarksAndRewinds : Prop :=
  ∀ (s : State) (p : PortNo),
    let q := s.port p
    (∀ (tag : Byte) (cause : SpoilCause) (x : Sheet), sheetOf q.path tag = some x →
      (x.mark ≠ .unmarked → s.spoil p tag cause = s)
      ∧ (∀ j y, x.mark = .unmarked → s.assigned p = some j → s.job j = some y →
        let t := s.spoil p tag cause
        let above := q.path.filter (fun z => z.mark = .unmarked ∧ x.ordinal < z.ordinal)
        s.Rewound t p j y x.ordinal
          (q.path.map (fun z =>
            if z.tag = tag then { z with mark := .spoiled cause }
            else if z.mark = .unmarked ∧ x.ordinal < z.ordinal then { z with mark := .superseded } else z))
          (q.path.filter (fun z => z.tag = tag ∨ (z.mark = .unmarked ∧ x.ordinal < z.ordinal))) above
        ∧ (q.InOrder y → q.path.length ≤ 4 → (t.port p).InOrder { y with next := x.ordinal })
        ∧ t.agenda = s.agenda ++ [.decide p]))
    ∧ (∀ l : List (Sheet × Outcome1),
      let u := l.foldl (fun t e => t.takeOutcome p e.1 e.2) s
      let lost := l.filter (fun e => e.1.mark = .unmarked ∧ e.2 ≠ .good)
      (lost = [] → s.settleSheets p l = u)
      ∧ (∀ e ∈ lost, (∀ f ∈ lost, e.1.ordinal ≤ f.1.ordinal) → ∀ j y, u.assigned p = some j → u.job j = some y →
        let t := s.settleSheets p l
        let path := (u.port p).path
        let above := path.filter (fun z => z.mark = .unmarked ∧ e.1.ordinal < z.ordinal)
        u.Rewound t p j y e.1.ordinal
          (path.map (fun z => if z.mark = .unmarked ∧ e.1.ordinal < z.ordinal then { z with mark := .superseded } else z))
          above above
        ∧ t.agenda = u.agenda))
    ∧ (s.agenda = [] →
      (q.request = none → exec (.bandGraceExpiry p) s = .next s.pump)
      ∧ (∀ r, q.request = some r →
        (elapsed s.partTime r.timer.start < r.timer.length → exec (.bandGraceExpiry p) s = .next s.pump)
        ∧ (r.timer.length ≤ elapsed s.partTime r.timer.start →
          exec (.bandGraceExpiry p) s =
            .next (State.finish ((s.setPort p (Port.queueOut
              { q with
                request := none
                counters := { q.counters with fills := min (q.counters.fills + 1) 4294967295 } }
              (.fill r.tag r.back r.band))).spoil p r.tag .underrun)))))

/-! ## The paper path (chapter 7) -/

/-- PICKED in FEEDING, DRAINING or STOPPED: a STARTED sheet of the tag becomes PICKED, any other sheet keeps its state, a tag
not in the queue is ignored, and nothing else changes (R122). The outcome each event gives a sheet, as the statements of
those events apply it, by its mark, its state and the STOP's list: at its DELIVERED (R123), at a later one that passes it, a
link loss or a PORT_RESET (R124, R138), at a STOP (R132), at CLEARED (R136); a marked sheet that is waste bears its mark's
cause (R125). So a STARTED sheet that is passed, lost or not named is withdrawn. -/
def Obligations.PickedMarksSheet : Prop :=
  ∀ (s : State) (p : PortNo) (tag : Byte), s.Hears p →
    let x := (s.port p).heard s.partTime
    (x.state = .feeding ∨ x.state = .draining ∨ x.state = .stopped →
      exec (.picked p tag) s =
        .next (State.pump (s.setPort p { x with path := x.path.map (fun z =>
          if z.tag = tag ∧ z.state = .started then { z with state := .picked } else z) }))
      ∧ (sheetOf x.path tag = none → exec (.picked p tag) s = .next (State.pump (s.setPort p x))))
    ∧ (x.state ≠ .feeding → x.state ≠ .draining → x.state ≠ .stopped →
      exec (.picked p tag) s = .next (State.pump (s.setPort p x)))
    ∧ (∀ (z : Sheet) (items : List StopItem), (∀ i ∈ items, i.tag ≠ z.tag) →
      (z.state = .picked → ∃ c d, abandonedOutcome z = .waste c ∧ stopOutcome items z = some (.waste d))
      ∧ (z.state = .started → abandonedOutcome z = .withdrawn ∧ stopOutcome items z = some .withdrawn))
    ∧ (∀ (z : Sheet) (items : List StopItem),
      let wasted (c : WasteCause) : Outcome1 := .waste (match z.mark with
        | .unmarked => c
        | .spoiled .underrun => .underrun
        | .spoiled .parity => .parity
        | .superseded => .superseded)
      deliveredOutcome z = (if z.mark = .unmarked then .good else wasted .unknown)
      ∧ abandonedOutcome z = (if z.state = .started then .withdrawn else wasted .unknown)
      ∧ clearedOutcome z = wasted .unknown
      ∧ stopOutcome items z =
        (if ({ tag := z.tag, disposition := .stranded } : StopItem) ∈ items then some (wasted .stranded)
         else if ({ tag := z.tag, disposition := .finish } : StopItem) ∈ items then none
         else if z.state = .started then some .withdrawn
         else if z.state = .picked then some (wasted .unknown) else none))

/-- DELIVERED is ignored in a state that follows no sheets and for a tag not in the path. The oldest sheet takes the outcome
of its mark; where a later sheet is named, the sheets ahead of it are settled as passed, the job rewound, and it then takes
the outcome of its mark (R123 to R125, R130). GOOD (R22, R118, R126, R129, R161, R165, R166): the charge joins the job's
total and leaves the account's balance, the record joins the log, the good counts rise, the lost ordinal and its count go
once passed (a failing job's too: the model's choice, log entry 32), the run count returns to 0, and the sheet leaves the
queue; stated whole for a sheet with others behind it at a port that does not feed, an account whose state the debit leaves,
and images that later ordinals use. In the last copy the images of the delivered ordinal are released and their blocks join
the pool (R54). A debit that takes the account to LOW or HELD is told by its notice; at HELD the account's waiting jobs
become HELD and the ports running its jobs are told (R162, R163). A draining port whose path is empty lets its job leave,
here HELD by its account, and is READY (R111, R129). -/
def Obligations.DeliveredGoodIsCharged : Prop :=
  ∀ (s : State) (p : PortNo) (tag : Byte), s.Hears p →
    let x := (s.port p).heard s.partTime
    let ignored := exec (.delivered p tag) s = .next (State.pump (s.setPort p x))
    (x.state.follows = false → ignored)
    ∧ (sheetOf x.path tag = none → ignored)
    ∧ (∀ y rest, x.state.follows = true → x.path = y :: rest → y.tag = tag →
      (∀ o, (y.mark = .unmarked ∧ o = .good) ∨ (y.mark = .spoiled .underrun ∧ o = .waste .underrun)
          ∨ (y.mark = .spoiled .parity ∧ o = .waste .parity) ∨ (y.mark = .superseded ∧ o = .waste .superseded) →
        let u := (s.setPort p x).takeOutcome p y o
        exec (.delivered p tag) s = .next (State.finish (u.post (.afterRemoval p)))
        ∧ (∀ a b, u.agenda = [] → (u.port p).state = .draining → (u.port p).path = [] → u.LeavesHeld p a b → u.noneReady →
          ∃ t : State, exec (.delivered p tag) s = .next t.pump
            ∧ u.LeftHeld t p a (b.leftHeld (elapsed s.partTime a.since))
            ∧ t.port p = { (u.port p).clearFeeding with state := .ready, stateTime := s.partTime }
            ∧ (t.alert p).causes = { (u.alert p).causes with trayEmpty := false }))
      ∧ (∀ j b, x.state ≠ .feeding → rest ≠ [] → (∀ z ∈ rest, z.tag ≠ tag) → y.mark = .unmarked →
        s.assigned p = some j → s.job j = some b → b.good < (b.copies - 1) * b.sheets →
        let charge := s.chargeOf j b y.ordinal
        let a := s.account b.account
        let paid : Account := { a with
          balance := max (-2147483648) (a.balance - charge)
          charged := min (a.charged + charge) 18446744073709551615
          goodSheets := min (a.goodSheets + 1) 4294967295 }
        let passed := b.lostOrdinal.any (fun o => o ≤ b.good)
        a.balance ≤ 2147483647 → a.state = .unset ∨ a.state = .closed ∨ paid.watchedTo = paid →
        s.meter.log.length < 256 → s.meter.log.length ≠ 191 ∨ s.meter.highMark = true →
        (s.alert p).causes.underrun = false →
          exec (.delivered p tag) s =
            .next (State.pump
              { (s.setPort p { x with
                  path := rest
                  request := x.request.filter (fun r => r.tag ≠ tag)
                  reads := x.reads.map (fun r => if r.tag = tag then { r with live := false } else r)
                  underruns := 0
                  counters := { x.counters with good := min (x.counters.good + 1) 4294967295 } }).setJob j
                (some { b with
                  charge := b.charge + charge
                  good := b.good + 1
                  lostOrdinal := if passed then none else b.lostOrdinal
                  lossCount := if passed then 0 else b.lossCount }) with
                meter := { s.meter with
                  accounts := s.meter.accounts.set b.account paid
                  log := s.meter.log ++
                    [{ waste := none, slot := j, label := b.label, account := b.account, ordinal := y.ordinal, port := p
                       sides := b.sides, coverage := s.coverageOf j b y.ordinal, charge := charge, time := s.partTime }]
                  reservations :=
                    if s.meter.policy = .stall then s.meter.reservations - 1 else s.meter.reservations } })))
    ∧ (∀ y, x.state.follows = true → sheetOf x.path tag = some y →
      let u := (s.setPort p x).settleSheets p
        ((x.path.takeWhile (fun z => z.tag ≠ tag)).map (fun z => (z, abandonedOutcome z)))
      ∀ now, sheetOf (u.port p).path tag = some now →
        exec (.delivered p tag) s =
          .next (State.finish ((u.takeOutcome p now (deliveredOutcome now)).post (.afterRemoval p))))
    ∧ (∀ (y : Sheet) (j : Slot) (b : Job), s.assigned p = some j → s.job j = some b →
      let t := s.takeOutcome p y .good
      ((b.copies - 1) * b.sheets ≤ b.good →
        let front := (b.good % b.sheets) * b.sides
        let last (i : Nat) : Prop := i = front ∨ (b.sides = 2 ∧ i = front + 1)
        (∀ i r, last i → s.image j i = some r →
          t.image j i = some { present := 0, lost := 0, sums := Planes.zero, released := true, bands := [] })
        ∧ (∀ i, ¬ last i → t.image j i = s.image j i)
        ∧ (∀ i, i ≠ j → t.imagesOf i = s.imagesOf i)
        ∧ (∀ k, k ∈ t.spool.pool ↔
          k ∈ s.spool.pool ∨ ∃ i r, last i ∧ s.image j i = some r ∧ k ∈ Bands.blocks r.bands)
        ∧ t.spool.retired = s.spool.retired ∧ t.spool.dram = s.spool.dram)
      ∧ (b.good < (b.copies - 1) * b.sheets → t.spool = s.spool)
      ∧ (let charge := s.chargeOf j b y.ordinal
        let a := s.account b.account
        let paid : Account := Account.watchedTo { a with
          balance := max (-2147483648) (a.balance - charge)
          charged := min (a.charged + charge) 18446744073709551615
          goodSheets := min (a.goodSheets + 1) 4294967295 }
        a.balance ≤ 2147483647 → a.state = .opened ∨ a.state = .low → b.state = .running →
          let u := (s.setJob j (some { b with charge := b.charge + charge })).accountTold b.account paid .debit
          let passed := b.lostOrdinal.any (fun o => o ≤ b.good)
          t.meter.accounts = s.meter.accounts.set b.account paid
          ∧ t.job j = some { b with
              charge := b.charge + charge
              good := b.good + 1
              lostOrdinal := if passed then none else b.lostOrdinal
              lossCount := if passed then 0 else b.lossCount }
          ∧ (∀ i, i ≠ j → t.job i = if paid.state = .held then (u.holdJobs b.account).job i else s.job i)
          ∧ t.dispatch = (if paid.state = .held then (u.holdJobs b.account).dispatch else s.dispatch)
          ∧ t.agenda = (if paid.state = .held then (u.holdJobs b.account).agenda else s.agenda)
          ∧ (s.meter.log.length ≠ 191 ∨ s.meter.highMark = true → (s.alert p).causes.underrun = false →
            t.link = if paid.state = .held then (u.holdJobs b.account).link else u.link)))

/-- A WASTE outcome (R22, R37, R118, R119, R127, R129, R153, R161): its record carries the charge it would have had, nothing
is debited, the waste counts rise, the loss of its ordinal is counted against the lowest lost ordinal up to 5, a third
UNDERRUN in a row is a permanent underrun, and the sheet leaves the queue. WITHDRAWN releases its reservation and counts, and
no more (R128); that the report of room then waits in the work list for the end of the settling is the model's choice (log
entry 37). -/
def Obligations.WasteAndWithdrawnReported : Prop :=
  ∀ (s : State) (p : PortNo) (y : Sheet) (j : Slot) (b : Job), s.assigned p = some j → s.job j = some b →
    let x := s.port p
    let gone : Port := { x with
      path := x.path.filter (fun z => z.tag ≠ y.tag)
      request := x.request.filter (fun r => r.tag ≠ y.tag)
      reads := x.reads.map (fun r => if r.tag = y.tag then { r with live := false } else r) }
    (∀ c, s.meter.log.length < 256 → s.meter.log.length ≠ 191 ∨ s.meter.highMark = true →
      let run := if c = .underrun then min (x.underruns + 1) 3 else x.underruns
      let lost : Option Nat × Nat :=
        if b.lossCount = 5 then (b.lostOrdinal, 5)
        else
          match b.lostOrdinal with
          | none => (some y.ordinal, 1)
          | some o => if o = y.ordinal then (some o, b.lossCount + 1) else if y.ordinal < o then (some y.ordinal, 1)
              else (some o, b.lossCount)
      let counted : Job := { b with
        waste := min (b.waste + 1) 4294967295
        underruns := if c = .underrun then min (b.underruns + 1) 4294967295 else b.underruns
        lostOrdinal := lost.1
        lossCount := lost.2 }
      let wasted (d : Job) : State :=
        { (s.setPort p { gone with
            underruns := run, counters := { x.counters with waste := min (x.counters.waste + 1) 4294967295 } }).setJob j
              (some d) with
          meter := { s.meter with
            accounts := s.meter.accounts.set b.account { s.account b.account with
              wasteSheets := min ((s.account b.account).wasteSheets + 1) 4294967295 }
            log := s.meter.log ++
              [{ waste := some c, slot := j, label := b.label, account := b.account, ordinal := y.ordinal, port := p
                 sides := b.sides, coverage := s.coverageOf j b y.ordinal, charge := s.chargeOf j b y.ordinal
                 time := s.partTime }]
            reservations := if s.meter.policy = .stall then s.meter.reservations - 1 else s.meter.reservations } }
      (c ≠ .underrun ∨ x.underruns < 2 → s.takeOutcome p y (.waste c) = wasted counted)
      ∧ (c = .underrun → 2 ≤ x.underruns →
        (x.state ≠ .feeding →
          s.takeOutcome p y (.waste c) =
            (wasted { counted with forcedWhole := true }).changeCauses p (fun k => { k with underrun := true }))
        ∧ (x.state = .feeding →
          let t := s.takeOutcome p y (.waste c)
          (t.port p).state = .draining ∧ (t.port p).drain = some .underrun ∧ (t.port p).destination = some .head
            ∧ (t.port p).path = gone.path ∧ t.job j = some { counted with forcedWhole := true }
            ∧ (t.alert p).causes = { (s.alert p).causes with underrun := true })))
    ∧ (let withdrawn : State := s.setPort p { gone with counters := { x.counters with
          withdrawn := min (x.counters.withdrawn + 1) 4294967295 } }
      (s.meter.policy ≠ .stall → s.takeOutcome p y .withdrawn = withdrawn)
      ∧ (s.meter.policy = .stall →
        s.takeOutcome p y .withdrawn = State.post
          { withdrawn with meter := { s.meter with reservations := s.meter.reservations - 1 } } .roomReport))

/-- STOP: ignored by a port that is none of READY to STOPPED; else the stop is counted, the waiting request discarded, the
cause added with its zone or code, STOPPED entered (R75, R100, R131, R135). Each sheet that the list names FINISH, or that is
FINISH and not named, stays as FINISH; the others take their outcomes, oldest first, and the job is rewound (R125, R130,
R132); with an empty path the job leaves at once, here HELD by its account (R133). CLEARED in STOPPED settles what is left,
lets the job leave and takes the port to READY without JAM and ENGINE_FAULT; it is ignored elsewhere (R99, R136). Where STOP
finds a READY port, the PORT notice of its change of state stands before the ALERT notice of the cause: R100 lists the cause
first, and R180 lets the causes be handed over once the port's own change is made, so the order is the model's choice (log
entry 27). -/
def Obligations.StopAndCleared : Prop :=
  ∀ (s : State) (p : PortNo), s.Hears p →
    let x := (s.port p).heard s.partTime
    let stopped : Port := { x with
      request := none, state := .stopped, stateTime := s.partTime
      counters := { x.counters with stops := min (x.counters.stops + 1) 4294967295 } }
    (∀ (reason : StopReason) (items : List StopItem) (add : CauseSet → CauseSet), items.length ≤ 255 →
      ((∃ zone : Byte, reason = .jam zone ∧ 1 ≤ zone.toNat ∧ zone.toNat ≤ 8
          ∧ ∀ k, add k = if k.jam = none then { k with jam := some zone } else k)
        ∨ (∃ code : Byte, reason = .fault code ∧ code ≠ 0
          ∧ ∀ k, add k = if k.fault = none then { k with fault := some code } else k)) →
      (x.state = .absent ∨ x.state = .probing ∨ x.state = .loopback ∨ x.state = .identifying ∨ x.state = .lost →
        exec (.stop p reason items) s = .next (State.pump (s.setPort p x)))
      ∧ (x.state = .ready → s.assignment p = none →
        exec (.stop p reason items) s =
          .next (State.pump (((s.setPort p stopped).notifyPort p .ready (.state none)).changeCauses p add)))
      ∧ (∀ a b, x.state = .setup → x.path = [] → s.LeavesHeld p a b → s.noneReady →
        ∃ t : State, exec (.stop p reason items) s = .next t.pump
          ∧ s.LeftHeld t p a (b.leftHeld (elapsed s.partTime a.since))
          ∧ t.port p = { stopped.clearFeeding with setupTimer := none, owner := none }
          ∧ (t.alert p).causes = { add (s.alert p).causes with trayEmpty := false })
      ∧ (x.state = .feeding ∨ x.state = .draining →
        (∀ a, s.assignment p = some a → x.path ≠ [] →
          (∀ y ∈ x.path, ({ tag := y.tag, disposition := .finish } : StopItem) ∈ items
            ∧ ({ tag := y.tag, disposition := .stranded } : StopItem) ∉ items) →
          exec (.stop p reason items) s =
            .next (State.pump ((((s.setPort p { stopped with
              gateTimer := none, wait := .none, drain := none, destination := some .head
              path := x.path.map (fun y => { y with state := .finish }) }).notifyPort p x.state
                (.state (some a.slot))).setAssignment p (some { a with slice := none })).changeCauses p add)))
        ∧ (∀ a b, x.path = [] → s.LeavesHeld p a b → s.noneReady →
          ∃ t : State, exec (.stop p reason items) s = .next t.pump
            ∧ s.LeftHeld t p a (b.leftHeld (elapsed s.partTime a.since))
            ∧ t.port p = stopped.clearFeeding
            ∧ (t.alert p).causes = { add (s.alert p).causes with trayEmpty := false }))
      ∧ (x.state = .feeding ∨ x.state = .draining ∨ x.state = .stopped → ∀ a, s.assignment p = some a →
        let kept : Port := { stopped with
          path := x.path.map (fun z => if stopOutcome items z = none then { z with state := .finish } else z) }
        let v : State := if x.state = .stopped then (s.setPort p { kept with stateTime := x.stateTime }).changeCauses p add
          else (((s.setPort p { kept with gateTimer := none, wait := .none, drain := none, destination := some .head }).notifyPort
            p x.state (.state (some a.slot))).setAssignment p (some { a with slice := none })).changeCauses p add
        let u := v.settleSheets p (x.path.filterMap (fun z => (stopOutcome items z).map (fun o => (z, o))))
        u.agenda = [] →
          ((u.port p).path ≠ [] → exec (.stop p reason items) s = .next u.pump)
          ∧ (∀ c b, (u.port p).path = [] → u.LeavesHeld p c b →
            ∃ t : State, exec (.stop p reason items) s = .next t.pump
              ∧ u.LeftHeld t p c (b.leftHeld (elapsed s.partTime c.since))
              ∧ t.port p = (u.port p).clearFeeding
              ∧ (t.alert p).causes = { (u.alert p).causes with trayEmpty := false }))
      ∧ (x.state = .stopped → (x.path = [] → s.assignment p = none) →
        (∀ y ∈ x.path, y.state = .finish ∧ ({ tag := y.tag, disposition := .stranded } : StopItem) ∉ items) →
        exec (.stop p reason items) s =
          .next (State.pump ((s.setPort p { stopped with stateTime := x.stateTime }).changeCauses p add))))
    ∧ (x.state ≠ .stopped → exec (.cleared p) s = .next (State.pump (s.setPort p x)))
    ∧ (x.state = .stopped → x.path = [] → s.assignment p = none → s.noneReady →
      ∃ t : State, exec (.cleared p) s = .next t.pump ∧ s.AtPort t p
        ∧ t.port p = { x with request := none, state := .ready, stateTime := s.partTime }
        ∧ (t.alert p).causes = { (s.alert p).causes with jam := none, fault := none })
    ∧ (x.state = .stopped →
      let u := (s.setPort p { x with request := none }).settleSheets p (x.path.map (fun z => (z, clearedOutcome z)))
      ∀ a b, u.agenda = [] → u.LeavesHeld p a b → u.noneReady →
        ∃ t : State, exec (.cleared p) s = .next t.pump
          ∧ u.LeftHeld t p a (b.leftHeld (elapsed s.partTime a.since))
          ∧ t.port p = { (u.port p).clearFeeding with state := .ready, stateTime := s.partTime } ∧ (t.port p).path = []
          ∧ (t.alert p).causes = { (u.alert p).causes with trayEmpty := false, jam := none, fault := none })

/-! ## Coverage and charge (chapter 8) -/

/-- SIZE_SET and TIER_SET replace all values of their entry and are answered with them; a class in use is BAD_STATE, a number
or value out of range BAD_FIELD, and then nothing changes (R79, R141 to R144). -/
def Obligations.TablesSet : Prop :=
  ∀ (s : State) (r : Request) (rest : List Request),
    (∀ (n f sh w b : Nat), s.Takes 0x40 r rest → n < 256 → f < 4294967296 → sh < 256 → w < 256 → b < 256 →
      r.body = byte n :: num 4 f ++ [byte sh, byte w, byte b] →
      (16 ≤ n → exec .sizeSet s = .next (s.answered r .badField []))
      ∧ (∀ c : ClassNo, c.val = n →
        ((∃ j x, s.job j = some x ∧ x.state.terminal = false ∧ x.sizeClass = c) →
          exec .sizeSet s = .next (s.answered r .badState []))
        ∧ ((∀ j x, s.job j = some x → x.state.terminal = true ∨ x.sizeClass ≠ c) →
          (1 ≤ f ∧ f ≤ 1048575 ∧ 16 ≤ sh ∧ sh ≤ 40 ∧ 1 ≤ w ∧ 1 ≤ b →
            exec .sizeSet s =
              .next (State.answered { s with meter := { s.meter with
                sizes := s.meter.sizes.set c (some { factor := f, shift := sh, weight := w, bands := b }) } }
                r .ok r.body))
          ∧ (f < 1 ∨ 1048575 < f ∨ sh < 16 ∨ 40 < sh ∨ w < 1 ∨ b < 1 →
            exec .sizeSet s = .next (s.answered r .badField [])))))
    ∧ (∀ (n base p0 p1 p2 p3 al : Nat), s.Takes 0x41 r rest → n < 256 → base < 65536 → p0 < 65536 → p1 < 65536 →
      p2 < 65536 → p3 < 65536 → al < 65536 →
      r.body = byte n :: num 2 base ++ num 2 p0 ++ num 2 p1 ++ num 2 p2 ++ num 2 p3 ++ num 2 al →
      (4 ≤ n ∨ 1024 < al → exec .tierSet s = .next (s.answered r .badField []))
      ∧ (∀ t : TierNo, t.val = n → al ≤ 1024 →
        exec .tierSet s =
          .next (State.answered { s with meter := { s.meter with
            tiers := s.meter.tiers.set t (some
              { base := base, rates := { p0 := p0, p1 := p1, p2 := p2, p3 := p3 }, allowance := al }) } }
            r .ok r.body)))

/-- The five stages of a side's charge (R146 to R150) and the sheet charge (R151): every stage's formula, its rounding half
up and its bounds for a class and a tier in their ranges. -/
def Obligations.ChargeStages : Prop :=
  ∀ (c : SizeClass) (t : Tier), c.Sound → t.Sound →
    (∀ sum, coverage c sum = min ((sum * c.factor + 2 ^ (c.shift - 1)) / 2 ^ c.shift) 1024
      ∧ coverage c sum ≤ 1024 ∧ coverage c 0 = 0
      ∧ (∀ k, k < 1024 → (coverage c sum = k ↔
          2 * k * 2 ^ c.shift ≤ 2 * sum * c.factor + 2 ^ c.shift
          ∧ 2 * sum * c.factor + 2 ^ c.shift < 2 * (k + 1) * 2 ^ c.shift)))
    ∧ (∀ cov, cov ≤ 1024 →
      (billable t cov = if cov < t.allowance then 0 else cov - t.allowance)
      ∧ billable t cov ≤ 1024 ∧ (cov ≤ t.allowance → billable t cov = 0) ∧ (t.allowance = 0 → billable t cov = cov)
      ∧ (t.allowance = 1024 → billable t cov = 0))
    ∧ (∀ bill rate, planeCharge bill rate = (bill * rate + 512) / 1024 ∧ planeCharge 1024 rate = rate
      ∧ planeCharge bill 0 = 0
      ∧ (bill ≤ 1024 → rate ≤ 65535 → planeCharge bill rate ≤ 65535))
    ∧ (∀ raw, scaleCharge c raw = (raw * c.weight + 8) / 16 ∧ (c.weight = 16 → scaleCharge c raw = raw)
      ∧ (raw ≤ 327675 → scaleCharge c raw ≤ 5222320))
    ∧ (∀ sums : Planes,
      let plane (n rate : Nat) : Nat := planeCharge (billable t (coverage c n)) rate
      let raw := t.base + plane sums.p0 t.rates.p0 + plane sums.p1 t.rates.p1 + plane sums.p2 t.rates.p2
        + plane sums.p3 t.rates.p3
      sideCharge c t sums = scaleCharge c raw ∧ raw ≤ 327675 ∧ sideCharge c t sums ≤ 5222320
      ∧ (t.allowance = 1024 → raw = t.base) ∧ sideCharge c t Planes.zero = scaleCharge c t.base
      ∧ sheetCharge c t [sums] = sideCharge c t sums)
    ∧ (∀ front back : Planes,
      sheetCharge c t [front, back] = sideCharge c t front + sideCharge c t back
      ∧ sheetCharge c t [front, back] ≤ 10444640
      ∧ (sheetCoverage c [front, back]).p0 = coverage c front.p0 + coverage c back.p0
      ∧ (sheetCoverage c [front, back]).p3 = coverage c front.p3 + coverage c back.p3
      ∧ (sheetCoverage c [front, back]).p0 ≤ 2048)

/-! ## Accounts and the meter log (chapter 9) -/

/-- ACCOUNT_SET, ACCOUNT_LIMITS, ACCOUNT_CREDIT and ACCOUNT_CLOSE, for an account with no jobs: their tests in order, the
values they take, the state the account watch sets from the balance, the notice of a change that enters or leaves LOW or
HELD, and their replies (R154, R156 to R159, R162). For an account with jobs: one that enters HELD or is closed holds its
QUEUED and STOCKWAIT jobs in slot order, each with its JOB notice, and reports to the ports that run its jobs, here none of
them FEEDING (R163); one that leaves HELD, or is reopened, for OPEN or LOW releases its HELD jobs in slot order, each placed
at the tail of its level or on the stock wait list before the next, here with no port to choose (R61, R164). -/
def Obligations.AccountRequestsAndWatch : Prop :=
  (∀ (s : State) (r : Request) (rest : List Request) (a : AccountNo) (v l f : Int) (t : TierNo),
    (∀ j x, s.job j = some x → x.account ≠ a) → inRange v → inRange l → inRange f →
    let x := s.account a
    let done (y : Account) (cause : AccountCause) : State := State.answered (s.accountTold a y cause) r .ok (accountBody a y)
    (s.Takes 0x50 r rest → r.body = byte a.val :: int32 v ++ int32 l ++ int32 f ++ [byte t.val] →
      (s.meter.tiers[t] = none ∨ l < f → exec .accountSet s = .next (s.answered r .badField []))
      ∧ (s.meter.tiers[t] ≠ none → f ≤ l →
        (x.state = .opened ∨ x.state = .low ∨ x.state = .held → exec .accountSet s = .next (s.answered r .badState []))
        ∧ (x.state = .unset ∨ x.state = .closed →
          exec .accountSet s =
            .next (done (Account.watchedTo
              { state := .opened, tier := some t, balance := v, low := l, floor := f, charged := 0, goodSheets := 0
                wasteSheets := 0, pressTime := 0 }) .set))))
    ∧ (s.Takes 0x51 r rest → r.body = byte a.val :: int32 l ++ int32 f ++ [byte t.val] →
      (s.meter.tiers[t] = none ∨ l < f → exec .accountLimits s = .next (s.answered r .badField []))
      ∧ (s.meter.tiers[t] ≠ none → f ≤ l →
        let y : Account := { x with low := l, floor := f, tier := some t }
        (x.state = .unset → exec .accountLimits s = .next (s.answered r .badState []))
        ∧ (x.state = .closed → exec .accountLimits s = .next (done y .limits))
        ∧ (x.state ≠ .unset → x.state ≠ .closed → exec .accountLimits s = .next (done y.watchedTo .limits))))
    ∧ (s.Takes 0x52 r rest → r.body = byte a.val :: int32 v →
      let y : Account := { x with balance := max (-2147483648) (min 2147483647 (x.balance + v)) }
      let credited (z : Account) : State :=
        State.answered (s.accountTold a z .credit) r .ok (int32 z.balance ++ [z.state.code])
      (x.state = .unset → exec .accountCredit s = .next (s.answered r .badState []))
      ∧ (x.state = .closed → exec .accountCredit s = .next (credited y))
      ∧ (x.state ≠ .unset → x.state ≠ .closed → exec .accountCredit s = .next (credited y.watchedTo)))
    ∧ (s.Takes 0x53 r rest → r.body = [byte a.val] →
      (x.state = .unset → exec .accountClose s = .next (s.answered r .badState []))
      ∧ (x.state = .closed → exec .accountClose s = .next (s.answered r .ok (accountBody a x)))
      ∧ (x.state ≠ .unset → x.state ≠ .closed →
        exec .accountClose s = .next (done { x with state := .closed } .close))))
  ∧ (∀ (s : State) (a : AccountNo),
    let t := s.holdJobs a
    let moves (j : Slot) : Bool :=
      match s.job j with
      | some x => x.account = a && (x.state = .queued || x.state = .stockwait)
      | none => false
    (∀ j x, s.job j = some x → t.job j = some (if moves j then { x with state := .held } else x))
    ∧ (∀ l, t.readyAt l = (s.readyAt l).filter (fun j => !moves j))
    ∧ t.dispatch.stockWait = s.dispatch.stockWait.filter (fun j => !moves j)
    ∧ t.meter = s.meter ∧ t.ports = s.ports ∧ t.spool = s.spool ∧ t.dispatch.assignments = s.dispatch.assignments
    ∧ t.link = (((List.finRange 128).filter moves).foldl (fun u j => (s.job j).elim u fun x =>
        u.notify .job (jobNoticeBody j x.state { x with state := .held })) s).link
    ∧ t.agenda = s.agenda ++ [.decideEach ((List.finRange 12).filter fun p => (s.assignedJob p).any (fun x => x.account = a))])
  ∧ (∀ (s : State) (r : Request) (rest : List Request) (a : AccountNo) (v l f : Int) (t : TierNo),
    inRange v → inRange l → inRange f →
    let x := s.account a
    let limited : Account := Account.watchedTo { x with low := l, floor := f, tier := some t }
    let credited : Account := Account.watchedTo { x with balance := max (-2147483648) (min 2147483647 (x.balance + v)) }
    let opened : Account := Account.watchedTo
      { state := .opened, tier := some t, balance := v, low := l, floor := f, charged := 0, goodSheets := 0, wasteSheets := 0
        pressTime := 0 }
    let closed : Account := { x with state := .closed }
    ((∀ p b, s.assignedJob p = some b → b.account = a → (s.port p).state ≠ .feeding) →
      let done (y : Account) (cause : AccountCause) (body : List Byte) : State :=
        State.answered { (s.accountTold a y cause).holdJobs a with agenda := [] } r .ok body
      (s.Takes 0x51 r rest → r.body = byte a.val :: int32 l ++ int32 f ++ [byte t.val] → s.meter.tiers[t] ≠ none → f ≤ l →
        x.state = .opened ∨ x.state = .low → limited.state = .held →
        exec .accountLimits s = .next (done limited .limits (accountBody a limited)))
      ∧ (s.Takes 0x52 r rest → r.body = byte a.val :: int32 v → x.state = .opened ∨ x.state = .low → credited.state = .held →
        exec .accountCredit s = .next (done credited .credit (int32 credited.balance ++ [credited.state.code])))
      ∧ (s.Takes 0x53 r rest → r.body = [byte a.val] → x.state = .opened ∨ x.state = .low ∨ x.state = .held →
        exec .accountClose s = .next (done closed .close (accountBody a closed))))
    ∧ (s.noPortToChoose →
      let waiting := (List.finRange 128).filter (fun j => (s.job j).any (fun b => b.account = a && b.state = .held))
      let done (y : Account) (cause : AccountCause) (body : List Byte) : State :=
        State.answered (waiting.foldl (fun u j => { u.place j false with agenda := [] }) (s.accountTold a y cause)) r .ok body
      (s.Takes 0x50 r rest → r.body = byte a.val :: int32 v ++ int32 l ++ int32 f ++ [byte t.val] → s.meter.tiers[t] ≠ none →
        f ≤ l → x.state = .closed → opened.state = .opened ∨ opened.state = .low →
        exec .accountSet s = .next (done opened .set (accountBody a opened)))
      ∧ (s.Takes 0x51 r rest → r.body = byte a.val :: int32 l ++ int32 f ++ [byte t.val] → s.meter.tiers[t] ≠ none → f ≤ l →
        x.state = .held → limited.state = .opened ∨ limited.state = .low →
        exec .accountLimits s = .next (done limited .limits (accountBody a limited)))
      ∧ (s.Takes 0x52 r rest → r.body = byte a.val :: int32 v → x.state = .held →
        credited.state = .opened ∨ credited.state = .low →
        exec .accountCredit s = .next (done credited .credit (int32 credited.balance ++ [credited.state.code])))))
  ∧ (∀ (s : State) (j : Slot) (x : Job), s.job j = some x → x.state = .held →
    let t := s.place j false
    let queued : Job := { x with state := .queued }
    let waits : Job := { x with state := .stockwait }
    let others (l : List Slot) : List Slot := l.filter (fun i => i ≠ j)
    let waiting := others s.dispatch.stockWait
    (∀ i, i ≠ j → t.job i = s.job i)
    ∧ t.meter = s.meter ∧ t.ports = s.ports ∧ t.spool = s.spool ∧ t.dispatch.assignments = s.dispatch.assignments
    ∧ (s.stockPresent x.stock = true →
      t.job j = some queued
      ∧ (∀ l, t.readyAt l = others (s.readyAt l) ++ (if l = x.level then [j] else []))
      ∧ t.dispatch.stockWait = waiting
      ∧ t.link = (s.notify .job (jobNoticeBody j .held queued)).link
      ∧ t.agenda = s.agenda ++ [.choosePort j, .signalPorts j])
    ∧ (s.stockPresent x.stock = false →
      t.job j = some waits
      ∧ (∀ l, t.readyAt l = others (s.readyAt l))
      ∧ t.dispatch.stockWait = waiting.filter (fun i => s.levelOf i ≤ x.level.val)
          ++ j :: waiting.filter (fun i => x.level.val < s.levelOf i)
      ∧ t.link = ((s.notify .job (jobNoticeBody j .held waits)).notify .stock (stockBody j waits (waiting.length + 1))).link
      ∧ t.agenda = s.agenda))

/-- METER_POLICY and METER_READ: the policy changes with its reservations, STALL only where records and sheets in flight fit
256; up to n records leave the front of the log, the dropped count is told and zeroed, the high mark re-armed below 128 (R167
to R170). Under STALL, a removal of records or a change of policy is reported to every port: the FEEDING port runs its
decision, and again after each sheet it starts, before the reply (R66, R105, R107, R167). Where several ports feed they take
the report one at a time, each carried through before the next, in an order the rules leave open (log entry 1); a port that
does not feed does nothing (R106). A record is written by the policy in force, and the rise from 191 to 192 records raises
METER_HIGH once (R166, R170). -/
def Obligations.MeterLogKept : Prop :=
  ∀ s : State,
    (∀ (r : Request) (rest : List Request), (∀ p, (s.port p).state ≠ .feeding) →
      (∀ b : Byte, s.Takes 0x55 r rest → r.body = [b] →
        let flight := ((List.finRange 12).map (fun p => (s.port p).path.length)).sum
        let became (policy : LogPolicy) (n : Nat) : State :=
          State.answered { s with meter := { s.meter with policy := policy, reservations := n } } r .ok
            ([policy.code] ++ num 2 s.meter.log.length ++ num 2 n)
        ((∀ k : LogPolicy, k.code ≠ b) → exec .meterPolicy s = .next (s.answered r .badField []))
        ∧ (∀ asked : LogPolicy, asked.code = b →
          (s.meter.policy = asked → exec .meterPolicy s = .next (became asked s.meter.reservations))
          ∧ (s.meter.policy ≠ asked →
            (s.meter.policy = .stall → exec .meterPolicy s = .next (became asked 0))
            ∧ (s.meter.policy ≠ .stall → asked ≠ .stall → exec .meterPolicy s = .next (became asked s.meter.reservations))
            ∧ (asked = .stall → s.meter.log.length + flight ≤ 256 → exec .meterPolicy s = .next (became .stall flight))
            ∧ (asked = .stall → 256 < s.meter.log.length + flight →
              exec .meterPolicy s = .next (s.answered r .badState [])))))
      ∧ (∀ n : Nat, s.Takes 0x56 r rest → n < 256 → r.body = [byte n] →
        (n < 1 ∨ 8 < n → exec .meterRead s = .next (s.answered r .badField []))
        ∧ (1 ≤ n → n ≤ 8 →
          let left := s.meter.log.drop n
          exec .meterRead s =
            .next (State.answered { s with meter := { s.meter with
              log := left
              dropped := 0
              highMark := if left.length < 128 ∧ left.length < s.meter.log.length then false else s.meter.highMark } }
              r .ok (num 2 left.length ++ num 2 s.meter.dropped ++ byte (s.meter.log.take n).length
                :: (s.meter.log.take n).flatMap meterRecordWire)))))
    ∧ (∀ (r : Request) (rest : List Request) (p : PortNo), (s.port p).state = .feeding →
      (∀ q, q ≠ p → (s.port q).state ≠ .feeding) → s.meter.policy = .stall →
      let reported (u : State) (body : State → List Byte) (done : Host.Outcome State Fault Refusal) : Prop :=
        let d := u.runDecision p
        let again := ({ d with agenda := [] } : State).runDecision p
        (d.agenda = [] → done = .next (d.answered r .ok (body d)))
        ∧ (d.agenda = [.decide p] → again.agenda = [] → done = .next (again.answered r .ok (body again)))
      (∀ asked : LogPolicy, asked ≠ .stall → s.Takes 0x55 r rest → r.body = [asked.code] →
        reported { s with meter := { s.meter with policy := asked, reservations := 0 } }
          (fun t => [asked.code] ++ num 2 t.meter.log.length ++ num 2 t.meter.reservations) (exec .meterPolicy s))
      ∧ (∀ n : Nat, 1 ≤ n → n ≤ 8 → s.meter.log ≠ [] → s.Takes 0x56 r rest → r.body = [byte n] →
        let left := s.meter.log.drop n
        reported
          { s with meter := { s.meter with
            log := left, dropped := 0, highMark := if left.length < 128 then false else s.meter.highMark } }
          (fun _ => num 2 left.length ++ num 2 s.meter.dropped ++ byte (s.meter.log.take n).length
            :: (s.meter.log.take n).flatMap meterRecordWire) (exec .meterRead s)))
    ∧ (∀ ps : List PortNo,
      let feeding := ps.filter (fun p => (s.port p).state = .feeding)
      (feeding = [] → doTask (.decideEach ps) s = s)
      ∧ (∀ q, feeding = [q] → doTask (.decideEach ps) s = s.post (.decide q))
      ∧ (2 ≤ feeding.length → ∃ q ∈ feeding, doTask (.decideEach ps) s =
          (({ s with choices := s.choices + 1 } : State).post (.decide q)).post (.decideEach (feeding.filter (fun p => p ≠ q))))
      ∧ doTask .roomReport s = s.post (.decideEach (List.finRange 12)))
    ∧ (∀ r : MeterRecord,
      let less (policy : LogPolicy) : Nat :=
        if policy = .stall then s.meter.reservations - 1 else s.meter.reservations
      (s.meter.log.length < 256 → s.meter.log.length ≠ 191 ∨ s.meter.highMark = true →
        s.writeRecord r = { s with meter := { s.meter with
          log := s.meter.log ++ [r], reservations := less s.meter.policy } })
      ∧ (s.meter.log.length = 191 → s.meter.highMark = false →
        let m : Meter := { s.meter with
          log := s.meter.log ++ [r], reservations := less s.meter.policy, highMark := true }
        s.writeRecord r = State.notify { s with meter := m } .meterHigh
          (num 2 192 ++ num 2 m.reservations ++ num 2 m.dropped ++ [m.policy.code]))
      ∧ (s.meter.log.length = 256 →
        (s.meter.policy = .keep →
          s.writeRecord r = { s with meter := { s.meter with dropped := min (s.meter.dropped + 1) 65535 } })
        ∧ (s.meter.policy = .wrap →
          s.writeRecord r = { s with meter := { s.meter with
            log := s.meter.log.drop 1 ++ [r], dropped := min (s.meter.dropped + 1) 65535 } })))

/-! ## Alerts and the panel (chapter 10) -/

/-- The displayed cause is the cause of lowest rank in the set (R172). A change of the cause set is judged once: none changes
nothing; one that displays a more severe cause than before opens or raises the alert, at level 1, unacknowledged, timed from
now; one that displays a less severe cause lowers it, one beneath the displayed cause is told by a notice only, and one that
empties the set closes the alert (R171, R173 to R175). The ALERT notice and the panel line carry what R180, R181 and R191
say, number by number and character by character (R182, R183). -/
def Obligations.CauseChangesJudged : Prop :=
  (∀ c : CauseSet,
    (∀ d, c.displayed = some d ↔ c.has d ∧ ∀ e, c.has e → d.rank ≤ e.rank)
    ∧ (c.displayed = none ↔ ∀ e, ¬ c.has e))
  ∧ (∀ (s : State) (p : PortNo) (change : CauseSet → CauseSet),
    let a := s.alert p
    let c := change a.causes
    (c = a.causes → s.changeCauses p change = s)
    ∧ (∀ d, c.displayed = some d → a.causes.displayed = none →
      s.changeCauses p change = s.alertTold p (s.alarm p c) .opened)
    ∧ (∀ d b, c ≠ a.causes → c.displayed = some d → a.causes.displayed = some b →
      (d.rank < b.rank → s.changeCauses p change = s.alertTold p (s.alarm p c) .raised)
      ∧ (b.rank < d.rank → (∀ n, a.level = some n → n ≤ 3) →
          s.changeCauses p change = s.alertTold p { a with causes := c } .lowered)
      ∧ (b = d → s.changeCauses p change =
          (s.setAlert p { a with causes := c }).notify .alert
            (spelled (alertNoticeNumbers p .cause (some b) { a with causes := c }))))
    ∧ (c.displayed = none → a.causes.displayed ≠ none →
      s.changeCauses p change = s.alertTold p
        { causes := c, level := none, acknowledged := false, timer := none, raised := none } .closed))

/-- ESCALATION_EXPIRY: the expired timer of an unacknowledged alert of level 1 or 2 raises the level by 1 and is started
again below level 3; nothing else escalates (R176). ALERT_ACK: an open alert is acknowledged and its timer stops, once; a
closed one is BAD_STATE, a port above 11 BAD_FIELD (R178); its reply carries the record in the order of R171, laid out as log
entry 15 reads R186. PANEL_LINE_SENT: the driver takes the oldest waiting line, else is idle (R183). -/
def Obligations.EscalationAckAndPanel : Prop :=
  ∀ s : State,
    (∀ p : PortNo, s.agenda = [] →
      let a := s.alert p
      (a.level = none ∨ a.acknowledged = true ∨ a.timer = none → exec (.escalationExpiry p) s = .next s.pump)
      ∧ (∀ k, a.timer = some k → elapsed s.partTime k.start < k.length → exec (.escalationExpiry p) s = .next s.pump)
      ∧ (∀ n, a.level = some n → 3 ≤ n → exec (.escalationExpiry p) s = .next s.pump)
      ∧ (∀ n k, a.level = some n → (n = 1 ∨ n = 2) → a.acknowledged = false → a.timer = some k →
        k.length ≤ elapsed s.partTime k.start →
        exec (.escalationExpiry p) s =
          .next (State.pump (s.alertTold p { a with
            level := some (n + 1)
            timer := if n = 1 then some { start := s.partTime, length := 1000 * (s.port p).interval } else none }
            .escalated))))
    ∧ (∀ (r : Request) (rest : List Request) (b : Byte), s.Takes 0x60 r rest → r.body = [b] →
      (12 ≤ b.toNat → exec .alertAck s = .next (s.answered r .badField []))
      ∧ (∀ p : PortNo, b = byte p.val →
        let a := s.alert p
        (a.level = none → exec .alertAck s = .next (s.answered r .badState []))
        ∧ (a.level ≠ none → a.acknowledged = true → exec .alertAck s = .next (s.answered r .ok (spelled a.numbers)))
        ∧ (a.level ≠ none → a.acknowledged = false → (∀ n, a.level = some n → n ≤ 3) →
          let acked : Alert := { a with acknowledged := true, timer := none }
          exec .alertAck s = .next (State.answered (s.alertTold p acked .ack) r .ok (spelled acked.numbers)))))
    ∧ (s.agenda = [] →
      (s.panel.queue = [] →
        exec .panelLineSent s = .next (State.pump { s with panel := { queue := [], sending := none } }))
      ∧ (∀ line more, s.panel.queue = line :: more →
        exec .panelLineSent s = .next (State.pump { s with panel := { queue := more, sending := some line } })))
end

