-- ==== Sys2Proof/Laws/State.lean ====
section
/-! SUPPORT. What each writer of Machine/Access.lean does to each field of the state and to each record that can be read. -/

namespace Sys2Proof.Machine

variable (s : State)

/-! ## setPort -/

@[simp] theorem State.setPort_link (p : PortNo) (x : Port) : (s.setPort p x).link = s.link := rfl
@[simp] theorem State.setPort_partTime (p : PortNo) (x : Port) : (s.setPort p x).partTime = s.partTime := rfl
@[simp] theorem State.setPort_jobs (p : PortNo) (x : Port) : (s.setPort p x).jobs = s.jobs := rfl
@[simp] theorem State.setPort_spool (p : PortNo) (x : Port) : (s.setPort p x).spool = s.spool := rfl
@[simp] theorem State.setPort_dispatch (p : PortNo) (x : Port) : (s.setPort p x).dispatch = s.dispatch := rfl
@[simp] theorem State.setPort_ports (p : PortNo) (x : Port) : (s.setPort p x).ports = s.ports.set p x := rfl
@[simp] theorem State.setPort_meter (p : PortNo) (x : Port) : (s.setPort p x).meter = s.meter := rfl
@[simp] theorem State.setPort_alerts (p : PortNo) (x : Port) : (s.setPort p x).alerts = s.alerts := rfl
@[simp] theorem State.setPort_panel (p : PortNo) (x : Port) : (s.setPort p x).panel = s.panel := rfl
@[simp] theorem State.setPort_choices (p : PortNo) (x : Port) : (s.setPort p x).choices = s.choices := rfl
@[simp] theorem State.setPort_agenda (p : PortNo) (x : Port) : (s.setPort p x).agenda = s.agenda := rfl
@[simp] theorem State.setPort_pending (p : PortNo) (x : Port) : (s.setPort p x).pending = s.pending := rfl

/-! ## modPort -/

@[simp] theorem State.modPort_link (p : PortNo) (f : Port → Port) : (s.modPort p f).link = s.link := rfl
@[simp] theorem State.modPort_partTime (p : PortNo) (f : Port → Port) : (s.modPort p f).partTime = s.partTime := rfl
@[simp] theorem State.modPort_jobs (p : PortNo) (f : Port → Port) : (s.modPort p f).jobs = s.jobs := rfl
@[simp] theorem State.modPort_spool (p : PortNo) (f : Port → Port) : (s.modPort p f).spool = s.spool := rfl
@[simp] theorem State.modPort_dispatch (p : PortNo) (f : Port → Port) : (s.modPort p f).dispatch = s.dispatch := rfl
@[simp] theorem State.modPort_ports (p : PortNo) (f : Port → Port) : (s.modPort p f).ports = s.ports.set p (f (s.port p)) := rfl
@[simp] theorem State.modPort_meter (p : PortNo) (f : Port → Port) : (s.modPort p f).meter = s.meter := rfl
@[simp] theorem State.modPort_alerts (p : PortNo) (f : Port → Port) : (s.modPort p f).alerts = s.alerts := rfl
@[simp] theorem State.modPort_panel (p : PortNo) (f : Port → Port) : (s.modPort p f).panel = s.panel := rfl
@[simp] theorem State.modPort_choices (p : PortNo) (f : Port → Port) : (s.modPort p f).choices = s.choices := rfl
@[simp] theorem State.modPort_agenda (p : PortNo) (f : Port → Port) : (s.modPort p f).agenda = s.agenda := rfl
@[simp] theorem State.modPort_pending (p : PortNo) (f : Port → Port) : (s.modPort p f).pending = s.pending := rfl

/-! ## setJob -/

@[simp] theorem State.setJob_link (j : Slot) (x : Option Job) : (s.setJob j x).link = s.link := rfl
@[simp] theorem State.setJob_partTime (j : Slot) (x : Option Job) : (s.setJob j x).partTime = s.partTime := rfl
@[simp] theorem State.setJob_jobs (j : Slot) (x : Option Job) : (s.setJob j x).jobs = s.jobs.set j x := rfl
@[simp] theorem State.setJob_spool (j : Slot) (x : Option Job) : (s.setJob j x).spool = s.spool := rfl
@[simp] theorem State.setJob_dispatch (j : Slot) (x : Option Job) : (s.setJob j x).dispatch = s.dispatch := rfl
@[simp] theorem State.setJob_ports (j : Slot) (x : Option Job) : (s.setJob j x).ports = s.ports := rfl
@[simp] theorem State.setJob_meter (j : Slot) (x : Option Job) : (s.setJob j x).meter = s.meter := rfl
@[simp] theorem State.setJob_alerts (j : Slot) (x : Option Job) : (s.setJob j x).alerts = s.alerts := rfl
@[simp] theorem State.setJob_panel (j : Slot) (x : Option Job) : (s.setJob j x).panel = s.panel := rfl
@[simp] theorem State.setJob_choices (j : Slot) (x : Option Job) : (s.setJob j x).choices = s.choices := rfl
@[simp] theorem State.setJob_agenda (j : Slot) (x : Option Job) : (s.setJob j x).agenda = s.agenda := rfl
@[simp] theorem State.setJob_pending (j : Slot) (x : Option Job) : (s.setJob j x).pending = s.pending := rfl

/-! ## modJob -/

@[simp] theorem State.modJob_link (j : Slot) (f : Job → Job) : (s.modJob j f).link = s.link := rfl
@[simp] theorem State.modJob_partTime (j : Slot) (f : Job → Job) : (s.modJob j f).partTime = s.partTime := rfl
@[simp] theorem State.modJob_jobs (j : Slot) (f : Job → Job) : (s.modJob j f).jobs = s.jobs.set j ((s.job j).map f) := rfl
@[simp] theorem State.modJob_spool (j : Slot) (f : Job → Job) : (s.modJob j f).spool = s.spool := rfl
@[simp] theorem State.modJob_dispatch (j : Slot) (f : Job → Job) : (s.modJob j f).dispatch = s.dispatch := rfl
@[simp] theorem State.modJob_ports (j : Slot) (f : Job → Job) : (s.modJob j f).ports = s.ports := rfl
@[simp] theorem State.modJob_meter (j : Slot) (f : Job → Job) : (s.modJob j f).meter = s.meter := rfl
@[simp] theorem State.modJob_alerts (j : Slot) (f : Job → Job) : (s.modJob j f).alerts = s.alerts := rfl
@[simp] theorem State.modJob_panel (j : Slot) (f : Job → Job) : (s.modJob j f).panel = s.panel := rfl
@[simp] theorem State.modJob_choices (j : Slot) (f : Job → Job) : (s.modJob j f).choices = s.choices := rfl
@[simp] theorem State.modJob_agenda (j : Slot) (f : Job → Job) : (s.modJob j f).agenda = s.agenda := rfl
@[simp] theorem State.modJob_pending (j : Slot) (f : Job → Job) : (s.modJob j f).pending = s.pending := rfl

/-! ## setAccount -/

@[simp] theorem State.setAccount_link (a : AccountNo) (x : Account) : (s.setAccount a x).link = s.link := rfl
@[simp] theorem State.setAccount_partTime (a : AccountNo) (x : Account) : (s.setAccount a x).partTime = s.partTime := rfl
@[simp] theorem State.setAccount_jobs (a : AccountNo) (x : Account) : (s.setAccount a x).jobs = s.jobs := rfl
@[simp] theorem State.setAccount_spool (a : AccountNo) (x : Account) : (s.setAccount a x).spool = s.spool := rfl
@[simp] theorem State.setAccount_dispatch (a : AccountNo) (x : Account) : (s.setAccount a x).dispatch = s.dispatch := rfl
@[simp] theorem State.setAccount_ports (a : AccountNo) (x : Account) : (s.setAccount a x).ports = s.ports := rfl
@[simp] theorem State.setAccount_meter (a : AccountNo) (x : Account) : (s.setAccount a x).meter = { s.meter with accounts := s.meter.accounts.set a x } := rfl
@[simp] theorem State.setAccount_alerts (a : AccountNo) (x : Account) : (s.setAccount a x).alerts = s.alerts := rfl
@[simp] theorem State.setAccount_panel (a : AccountNo) (x : Account) : (s.setAccount a x).panel = s.panel := rfl
@[simp] theorem State.setAccount_choices (a : AccountNo) (x : Account) : (s.setAccount a x).choices = s.choices := rfl
@[simp] theorem State.setAccount_agenda (a : AccountNo) (x : Account) : (s.setAccount a x).agenda = s.agenda := rfl
@[simp] theorem State.setAccount_pending (a : AccountNo) (x : Account) : (s.setAccount a x).pending = s.pending := rfl

/-! ## modAccount -/

@[simp] theorem State.modAccount_link (a : AccountNo) (f : Account → Account) : (s.modAccount a f).link = s.link := rfl
@[simp] theorem State.modAccount_partTime (a : AccountNo) (f : Account → Account) : (s.modAccount a f).partTime = s.partTime := rfl
@[simp] theorem State.modAccount_jobs (a : AccountNo) (f : Account → Account) : (s.modAccount a f).jobs = s.jobs := rfl
@[simp] theorem State.modAccount_spool (a : AccountNo) (f : Account → Account) : (s.modAccount a f).spool = s.spool := rfl
@[simp] theorem State.modAccount_dispatch (a : AccountNo) (f : Account → Account) : (s.modAccount a f).dispatch = s.dispatch := rfl
@[simp] theorem State.modAccount_ports (a : AccountNo) (f : Account → Account) : (s.modAccount a f).ports = s.ports := rfl
@[simp] theorem State.modAccount_meter (a : AccountNo) (f : Account → Account) : (s.modAccount a f).meter = { s.meter with accounts := s.meter.accounts.set a (f (s.account a)) } := rfl
@[simp] theorem State.modAccount_alerts (a : AccountNo) (f : Account → Account) : (s.modAccount a f).alerts = s.alerts := rfl
@[simp] theorem State.modAccount_panel (a : AccountNo) (f : Account → Account) : (s.modAccount a f).panel = s.panel := rfl
@[simp] theorem State.modAccount_choices (a : AccountNo) (f : Account → Account) : (s.modAccount a f).choices = s.choices := rfl
@[simp] theorem State.modAccount_agenda (a : AccountNo) (f : Account → Account) : (s.modAccount a f).agenda = s.agenda := rfl
@[simp] theorem State.modAccount_pending (a : AccountNo) (f : Account → Account) : (s.modAccount a f).pending = s.pending := rfl

/-! ## setAlert -/

@[simp] theorem State.setAlert_link (p : PortNo) (x : Alert) : (s.setAlert p x).link = s.link := rfl
@[simp] theorem State.setAlert_partTime (p : PortNo) (x : Alert) : (s.setAlert p x).partTime = s.partTime := rfl
@[simp] theorem State.setAlert_jobs (p : PortNo) (x : Alert) : (s.setAlert p x).jobs = s.jobs := rfl
@[simp] theorem State.setAlert_spool (p : PortNo) (x : Alert) : (s.setAlert p x).spool = s.spool := rfl
@[simp] theorem State.setAlert_dispatch (p : PortNo) (x : Alert) : (s.setAlert p x).dispatch = s.dispatch := rfl
@[simp] theorem State.setAlert_ports (p : PortNo) (x : Alert) : (s.setAlert p x).ports = s.ports := rfl
@[simp] theorem State.setAlert_meter (p : PortNo) (x : Alert) : (s.setAlert p x).meter = s.meter := rfl
@[simp] theorem State.setAlert_alerts (p : PortNo) (x : Alert) : (s.setAlert p x).alerts = s.alerts.set p x := rfl
@[simp] theorem State.setAlert_panel (p : PortNo) (x : Alert) : (s.setAlert p x).panel = s.panel := rfl
@[simp] theorem State.setAlert_choices (p : PortNo) (x : Alert) : (s.setAlert p x).choices = s.choices := rfl
@[simp] theorem State.setAlert_agenda (p : PortNo) (x : Alert) : (s.setAlert p x).agenda = s.agenda := rfl
@[simp] theorem State.setAlert_pending (p : PortNo) (x : Alert) : (s.setAlert p x).pending = s.pending := rfl

/-! ## setAssignment -/

@[simp] theorem State.setAssignment_link (p : PortNo) (x : Option Assignment) : (s.setAssignment p x).link = s.link := rfl
@[simp] theorem State.setAssignment_partTime (p : PortNo) (x : Option Assignment) : (s.setAssignment p x).partTime = s.partTime := rfl
@[simp] theorem State.setAssignment_jobs (p : PortNo) (x : Option Assignment) : (s.setAssignment p x).jobs = s.jobs := rfl
@[simp] theorem State.setAssignment_spool (p : PortNo) (x : Option Assignment) : (s.setAssignment p x).spool = s.spool := rfl
@[simp] theorem State.setAssignment_dispatch (p : PortNo) (x : Option Assignment) : (s.setAssignment p x).dispatch = { s.dispatch with assignments := s.dispatch.assignments.set p x } := rfl
@[simp] theorem State.setAssignment_ports (p : PortNo) (x : Option Assignment) : (s.setAssignment p x).ports = s.ports := rfl
@[simp] theorem State.setAssignment_meter (p : PortNo) (x : Option Assignment) : (s.setAssignment p x).meter = s.meter := rfl
@[simp] theorem State.setAssignment_alerts (p : PortNo) (x : Option Assignment) : (s.setAssignment p x).alerts = s.alerts := rfl
@[simp] theorem State.setAssignment_panel (p : PortNo) (x : Option Assignment) : (s.setAssignment p x).panel = s.panel := rfl
@[simp] theorem State.setAssignment_choices (p : PortNo) (x : Option Assignment) : (s.setAssignment p x).choices = s.choices := rfl
@[simp] theorem State.setAssignment_agenda (p : PortNo) (x : Option Assignment) : (s.setAssignment p x).agenda = s.agenda := rfl
@[simp] theorem State.setAssignment_pending (p : PortNo) (x : Option Assignment) : (s.setAssignment p x).pending = s.pending := rfl

/-! ## setImages -/

@[simp] theorem State.setImages_link (j : Slot) (x : List ImageRec) : (s.setImages j x).link = s.link := rfl
@[simp] theorem State.setImages_partTime (j : Slot) (x : List ImageRec) : (s.setImages j x).partTime = s.partTime := rfl
@[simp] theorem State.setImages_jobs (j : Slot) (x : List ImageRec) : (s.setImages j x).jobs = s.jobs := rfl
@[simp] theorem State.setImages_spool (j : Slot) (x : List ImageRec) : (s.setImages j x).spool = { s.spool with images := s.spool.images.set j x } := rfl
@[simp] theorem State.setImages_dispatch (j : Slot) (x : List ImageRec) : (s.setImages j x).dispatch = s.dispatch := rfl
@[simp] theorem State.setImages_ports (j : Slot) (x : List ImageRec) : (s.setImages j x).ports = s.ports := rfl
@[simp] theorem State.setImages_meter (j : Slot) (x : List ImageRec) : (s.setImages j x).meter = s.meter := rfl
@[simp] theorem State.setImages_alerts (j : Slot) (x : List ImageRec) : (s.setImages j x).alerts = s.alerts := rfl
@[simp] theorem State.setImages_panel (j : Slot) (x : List ImageRec) : (s.setImages j x).panel = s.panel := rfl
@[simp] theorem State.setImages_choices (j : Slot) (x : List ImageRec) : (s.setImages j x).choices = s.choices := rfl
@[simp] theorem State.setImages_agenda (j : Slot) (x : List ImageRec) : (s.setImages j x).agenda = s.agenda := rfl
@[simp] theorem State.setImages_pending (j : Slot) (x : List ImageRec) : (s.setImages j x).pending = s.pending := rfl

/-! ## setLists -/

@[simp] theorem State.setLists_link (r : Vector (List Slot) 8) (w : List Slot) : (s.setLists r w).link = s.link := rfl
@[simp] theorem State.setLists_partTime (r : Vector (List Slot) 8) (w : List Slot) : (s.setLists r w).partTime = s.partTime := rfl
@[simp] theorem State.setLists_jobs (r : Vector (List Slot) 8) (w : List Slot) : (s.setLists r w).jobs = s.jobs := rfl
@[simp] theorem State.setLists_spool (r : Vector (List Slot) 8) (w : List Slot) : (s.setLists r w).spool = s.spool := rfl
@[simp] theorem State.setLists_dispatch (r : Vector (List Slot) 8) (w : List Slot) : (s.setLists r w).dispatch = { s.dispatch with ready := r, stockWait := w } := rfl
@[simp] theorem State.setLists_ports (r : Vector (List Slot) 8) (w : List Slot) : (s.setLists r w).ports = s.ports := rfl
@[simp] theorem State.setLists_meter (r : Vector (List Slot) 8) (w : List Slot) : (s.setLists r w).meter = s.meter := rfl
@[simp] theorem State.setLists_alerts (r : Vector (List Slot) 8) (w : List Slot) : (s.setLists r w).alerts = s.alerts := rfl
@[simp] theorem State.setLists_panel (r : Vector (List Slot) 8) (w : List Slot) : (s.setLists r w).panel = s.panel := rfl
@[simp] theorem State.setLists_choices (r : Vector (List Slot) 8) (w : List Slot) : (s.setLists r w).choices = s.choices := rfl
@[simp] theorem State.setLists_agenda (r : Vector (List Slot) 8) (w : List Slot) : (s.setLists r w).agenda = s.agenda := rfl
@[simp] theorem State.setLists_pending (r : Vector (List Slot) 8) (w : List Slot) : (s.setLists r w).pending = s.pending := rfl

/-! ## modLink -/

@[simp] theorem State.modLink_link (f : Link → Link) : (s.modLink f).link = f s.link := rfl
@[simp] theorem State.modLink_partTime (f : Link → Link) : (s.modLink f).partTime = s.partTime := rfl
@[simp] theorem State.modLink_jobs (f : Link → Link) : (s.modLink f).jobs = s.jobs := rfl
@[simp] theorem State.modLink_spool (f : Link → Link) : (s.modLink f).spool = s.spool := rfl
@[simp] theorem State.modLink_dispatch (f : Link → Link) : (s.modLink f).dispatch = s.dispatch := rfl
@[simp] theorem State.modLink_ports (f : Link → Link) : (s.modLink f).ports = s.ports := rfl
@[simp] theorem State.modLink_meter (f : Link → Link) : (s.modLink f).meter = s.meter := rfl
@[simp] theorem State.modLink_alerts (f : Link → Link) : (s.modLink f).alerts = s.alerts := rfl
@[simp] theorem State.modLink_panel (f : Link → Link) : (s.modLink f).panel = s.panel := rfl
@[simp] theorem State.modLink_choices (f : Link → Link) : (s.modLink f).choices = s.choices := rfl
@[simp] theorem State.modLink_agenda (f : Link → Link) : (s.modLink f).agenda = s.agenda := rfl
@[simp] theorem State.modLink_pending (f : Link → Link) : (s.modLink f).pending = s.pending := rfl

/-! ## post -/

@[simp] theorem State.post_link (t : Task) : (s.post t).link = s.link := rfl
@[simp] theorem State.post_partTime (t : Task) : (s.post t).partTime = s.partTime := rfl
@[simp] theorem State.post_jobs (t : Task) : (s.post t).jobs = s.jobs := rfl
@[simp] theorem State.post_spool (t : Task) : (s.post t).spool = s.spool := rfl
@[simp] theorem State.post_dispatch (t : Task) : (s.post t).dispatch = s.dispatch := rfl
@[simp] theorem State.post_ports (t : Task) : (s.post t).ports = s.ports := rfl
@[simp] theorem State.post_meter (t : Task) : (s.post t).meter = s.meter := rfl
@[simp] theorem State.post_alerts (t : Task) : (s.post t).alerts = s.alerts := rfl
@[simp] theorem State.post_panel (t : Task) : (s.post t).panel = s.panel := rfl
@[simp] theorem State.post_choices (t : Task) : (s.post t).choices = s.choices := rfl
@[simp] theorem State.post_agenda (t : Task) : (s.post t).agenda = s.agenda ++ [t] := rfl
@[simp] theorem State.post_pending (t : Task) : (s.post t).pending = s.pending := rfl

/-! ## Records read after a write -/

@[simp] theorem State.setPort_port (p : PortNo) (x : Port) (k : PortNo) :
    (s.setPort p x).port k = if p = k then x else s.port k := by
  simp [State.port, Vector.getElem_set, Fin.ext_iff]
@[simp] theorem State.setPort_job (p : PortNo) (x : Port) (k : Slot) : (s.setPort p x).job k = s.job k := rfl
@[simp] theorem State.setPort_account (p : PortNo) (x : Port) (k : AccountNo) : (s.setPort p x).account k = s.account k := rfl
@[simp] theorem State.setPort_alert (p : PortNo) (x : Port) (k : PortNo) : (s.setPort p x).alert k = s.alert k := rfl
@[simp] theorem State.setPort_assignment (p : PortNo) (x : Port) (k : PortNo) : (s.setPort p x).assignment k = s.assignment k := rfl
@[simp] theorem State.setPort_imagesOf (p : PortNo) (x : Port) (k : Slot) : (s.setPort p x).imagesOf k = s.imagesOf k := rfl
@[simp] theorem State.setPort_readyAt (p : PortNo) (x : Port) (k : Level) : (s.setPort p x).readyAt k = s.readyAt k := rfl

@[simp] theorem State.modPort_port (p : PortNo) (f : Port → Port) (k : PortNo) :
    (s.modPort p f).port k = if p = k then f (s.port p) else s.port k := by
  simp [State.port, Vector.getElem_set, Fin.ext_iff]
@[simp] theorem State.modPort_job (p : PortNo) (f : Port → Port) (k : Slot) : (s.modPort p f).job k = s.job k := rfl
@[simp] theorem State.modPort_account (p : PortNo) (f : Port → Port) (k : AccountNo) : (s.modPort p f).account k = s.account k := rfl
@[simp] theorem State.modPort_alert (p : PortNo) (f : Port → Port) (k : PortNo) : (s.modPort p f).alert k = s.alert k := rfl
@[simp] theorem State.modPort_assignment (p : PortNo) (f : Port → Port) (k : PortNo) : (s.modPort p f).assignment k = s.assignment k := rfl
@[simp] theorem State.modPort_imagesOf (p : PortNo) (f : Port → Port) (k : Slot) : (s.modPort p f).imagesOf k = s.imagesOf k := rfl
@[simp] theorem State.modPort_readyAt (p : PortNo) (f : Port → Port) (k : Level) : (s.modPort p f).readyAt k = s.readyAt k := rfl

@[simp] theorem State.setJob_port (j : Slot) (x : Option Job) (k : PortNo) : (s.setJob j x).port k = s.port k := rfl
@[simp] theorem State.setJob_job (j : Slot) (x : Option Job) (k : Slot) :
    (s.setJob j x).job k = if j = k then x else s.job k := by
  simp [State.job, Vector.getElem_set, Fin.ext_iff]
@[simp] theorem State.setJob_account (j : Slot) (x : Option Job) (k : AccountNo) : (s.setJob j x).account k = s.account k := rfl
@[simp] theorem State.setJob_alert (j : Slot) (x : Option Job) (k : PortNo) : (s.setJob j x).alert k = s.alert k := rfl
@[simp] theorem State.setJob_assignment (j : Slot) (x : Option Job) (k : PortNo) : (s.setJob j x).assignment k = s.assignment k := rfl
@[simp] theorem State.setJob_imagesOf (j : Slot) (x : Option Job) (k : Slot) : (s.setJob j x).imagesOf k = s.imagesOf k := rfl
@[simp] theorem State.setJob_readyAt (j : Slot) (x : Option Job) (k : Level) : (s.setJob j x).readyAt k = s.readyAt k := rfl

@[simp] theorem State.modJob_port (j : Slot) (f : Job → Job) (k : PortNo) : (s.modJob j f).port k = s.port k := rfl
@[simp] theorem State.modJob_job (j : Slot) (f : Job → Job) (k : Slot) :
    (s.modJob j f).job k = if j = k then (s.job j).map f else s.job k := by
  simp [State.job, Vector.getElem_set, Fin.ext_iff]
@[simp] theorem State.modJob_account (j : Slot) (f : Job → Job) (k : AccountNo) : (s.modJob j f).account k = s.account k := rfl
@[simp] theorem State.modJob_alert (j : Slot) (f : Job → Job) (k : PortNo) : (s.modJob j f).alert k = s.alert k := rfl
@[simp] theorem State.modJob_assignment (j : Slot) (f : Job → Job) (k : PortNo) : (s.modJob j f).assignment k = s.assignment k := rfl
@[simp] theorem State.modJob_imagesOf (j : Slot) (f : Job → Job) (k : Slot) : (s.modJob j f).imagesOf k = s.imagesOf k := rfl
@[simp] theorem State.modJob_readyAt (j : Slot) (f : Job → Job) (k : Level) : (s.modJob j f).readyAt k = s.readyAt k := rfl

@[simp] theorem State.setAccount_port (a : AccountNo) (x : Account) (k : PortNo) : (s.setAccount a x).port k = s.port k := rfl
@[simp] theorem State.setAccount_job (a : AccountNo) (x : Account) (k : Slot) : (s.setAccount a x).job k = s.job k := rfl
@[simp] theorem State.setAccount_account (a : AccountNo) (x : Account) (k : AccountNo) :
    (s.setAccount a x).account k = if a = k then x else s.account k := by
  simp [State.account, Vector.getElem_set, Fin.ext_iff]
@[simp] theorem State.setAccount_alert (a : AccountNo) (x : Account) (k : PortNo) : (s.setAccount a x).alert k = s.alert k := rfl
@[simp] theorem State.setAccount_assignment (a : AccountNo) (x : Account) (k : PortNo) : (s.setAccount a x).assignment k = s.assignment k := rfl
@[simp] theorem State.setAccount_imagesOf (a : AccountNo) (x : Account) (k : Slot) : (s.setAccount a x).imagesOf k = s.imagesOf k := rfl
@[simp] theorem State.setAccount_readyAt (a : AccountNo) (x : Account) (k : Level) : (s.setAccount a x).readyAt k = s.readyAt k := rfl

@[simp] theorem State.modAccount_port (a : AccountNo) (f : Account → Account) (k : PortNo) : (s.modAccount a f).port k = s.port k := rfl
@[simp] theorem State.modAccount_job (a : AccountNo) (f : Account → Account) (k : Slot) : (s.modAccount a f).job k = s.job k := rfl
@[simp] theorem State.modAccount_account (a : AccountNo) (f : Account → Account) (k : AccountNo) :
    (s.modAccount a f).account k = if a = k then f (s.account a) else s.account k := by
  simp [State.account, Vector.getElem_set, Fin.ext_iff]
@[simp] theorem State.modAccount_alert (a : AccountNo) (f : Account → Account) (k : PortNo) : (s.modAccount a f).alert k = s.alert k := rfl
@[simp] theorem State.modAccount_assignment (a : AccountNo) (f : Account → Account) (k : PortNo) : (s.modAccount a f).assignment k = s.assignment k := rfl
@[simp] theorem State.modAccount_imagesOf (a : AccountNo) (f : Account → Account) (k : Slot) : (s.modAccount a f).imagesOf k = s.imagesOf k := rfl
@[simp] theorem State.modAccount_readyAt (a : AccountNo) (f : Account → Account) (k : Level) : (s.modAccount a f).readyAt k = s.readyAt k := rfl

@[simp] theorem State.setAlert_port (p : PortNo) (x : Alert) (k : PortNo) : (s.setAlert p x).port k = s.port k := rfl
@[simp] theorem State.setAlert_job (p : PortNo) (x : Alert) (k : Slot) : (s.setAlert p x).job k = s.job k := rfl
@[simp] theorem State.setAlert_account (p : PortNo) (x : Alert) (k : AccountNo) : (s.setAlert p x).account k = s.account k := rfl
@[simp] theorem State.setAlert_alert (p : PortNo) (x : Alert) (k : PortNo) :
    (s.setAlert p x).alert k = if p = k then x else s.alert k := by
  simp [State.alert, Vector.getElem_set, Fin.ext_iff]
@[simp] theorem State.setAlert_assignment (p : PortNo) (x : Alert) (k : PortNo) : (s.setAlert p x).assignment k = s.assignment k := rfl
@[simp] theorem State.setAlert_imagesOf (p : PortNo) (x : Alert) (k : Slot) : (s.setAlert p x).imagesOf k = s.imagesOf k := rfl
@[simp] theorem State.setAlert_readyAt (p : PortNo) (x : Alert) (k : Level) : (s.setAlert p x).readyAt k = s.readyAt k := rfl

@[simp] theorem State.setAssignment_port (p : PortNo) (x : Option Assignment) (k : PortNo) : (s.setAssignment p x).port k = s.port k := rfl
@[simp] theorem State.setAssignment_job (p : PortNo) (x : Option Assignment) (k : Slot) : (s.setAssignment p x).job k = s.job k := rfl
@[simp] theorem State.setAssignment_account (p : PortNo) (x : Option Assignment) (k : AccountNo) : (s.setAssignment p x).account k = s.account k := rfl
@[simp] theorem State.setAssignment_alert (p : PortNo) (x : Option Assignment) (k : PortNo) : (s.setAssignment p x).alert k = s.alert k := rfl
@[simp] theorem State.setAssignment_assignment (p : PortNo) (x : Option Assignment) (k : PortNo) :
    (s.setAssignment p x).assignment k = if p = k then x else s.assignment k := by
  simp [State.assignment, Vector.getElem_set, Fin.ext_iff]
@[simp] theorem State.setAssignment_imagesOf (p : PortNo) (x : Option Assignment) (k : Slot) : (s.setAssignment p x).imagesOf k = s.imagesOf k := rfl
@[simp] theorem State.setAssignment_readyAt (p : PortNo) (x : Option Assignment) (k : Level) : (s.setAssignment p x).readyAt k = s.readyAt k := rfl

@[simp] theorem State.setImages_port (j : Slot) (x : List ImageRec) (k : PortNo) : (s.setImages j x).port k = s.port k := rfl
@[simp] theorem State.setImages_job (j : Slot) (x : List ImageRec) (k : Slot) : (s.setImages j x).job k = s.job k := rfl
@[simp] theorem State.setImages_account (j : Slot) (x : List ImageRec) (k : AccountNo) : (s.setImages j x).account k = s.account k := rfl
@[simp] theorem State.setImages_alert (j : Slot) (x : List ImageRec) (k : PortNo) : (s.setImages j x).alert k = s.alert k := rfl
@[simp] theorem State.setImages_assignment (j : Slot) (x : List ImageRec) (k : PortNo) : (s.setImages j x).assignment k = s.assignment k := rfl
@[simp] theorem State.setImages_imagesOf (j : Slot) (x : List ImageRec) (k : Slot) :
    (s.setImages j x).imagesOf k = if j = k then x else s.imagesOf k := by
  simp [State.imagesOf, Vector.getElem_set, Fin.ext_iff]
@[simp] theorem State.setImages_readyAt (j : Slot) (x : List ImageRec) (k : Level) : (s.setImages j x).readyAt k = s.readyAt k := rfl

@[simp] theorem State.setLists_port (r : Vector (List Slot) 8) (w : List Slot) (k : PortNo) : (s.setLists r w).port k = s.port k := rfl
@[simp] theorem State.setLists_job (r : Vector (List Slot) 8) (w : List Slot) (k : Slot) : (s.setLists r w).job k = s.job k := rfl
@[simp] theorem State.setLists_account (r : Vector (List Slot) 8) (w : List Slot) (k : AccountNo) : (s.setLists r w).account k = s.account k := rfl
@[simp] theorem State.setLists_alert (r : Vector (List Slot) 8) (w : List Slot) (k : PortNo) : (s.setLists r w).alert k = s.alert k := rfl
@[simp] theorem State.setLists_assignment (r : Vector (List Slot) 8) (w : List Slot) (k : PortNo) : (s.setLists r w).assignment k = s.assignment k := rfl
@[simp] theorem State.setLists_imagesOf (r : Vector (List Slot) 8) (w : List Slot) (k : Slot) : (s.setLists r w).imagesOf k = s.imagesOf k := rfl
@[simp] theorem State.setLists_readyAt (r : Vector (List Slot) 8) (w : List Slot) (l : Level) : (s.setLists r w).readyAt l = r[l] := rfl

@[simp] theorem State.modLink_port (f : Link → Link) (k : PortNo) : (s.modLink f).port k = s.port k := rfl
@[simp] theorem State.modLink_job (f : Link → Link) (k : Slot) : (s.modLink f).job k = s.job k := rfl
@[simp] theorem State.modLink_account (f : Link → Link) (k : AccountNo) : (s.modLink f).account k = s.account k := rfl
@[simp] theorem State.modLink_alert (f : Link → Link) (k : PortNo) : (s.modLink f).alert k = s.alert k := rfl
@[simp] theorem State.modLink_assignment (f : Link → Link) (k : PortNo) : (s.modLink f).assignment k = s.assignment k := rfl
@[simp] theorem State.modLink_imagesOf (f : Link → Link) (k : Slot) : (s.modLink f).imagesOf k = s.imagesOf k := rfl
@[simp] theorem State.modLink_readyAt (f : Link → Link) (k : Level) : (s.modLink f).readyAt k = s.readyAt k := rfl

@[simp] theorem State.post_port (t : Task) (k : PortNo) : (s.post t).port k = s.port k := rfl
@[simp] theorem State.post_job (t : Task) (k : Slot) : (s.post t).job k = s.job k := rfl
@[simp] theorem State.post_account (t : Task) (k : AccountNo) : (s.post t).account k = s.account k := rfl
@[simp] theorem State.post_alert (t : Task) (k : PortNo) : (s.post t).alert k = s.alert k := rfl
@[simp] theorem State.post_assignment (t : Task) (k : PortNo) : (s.post t).assignment k = s.assignment k := rfl
@[simp] theorem State.post_imagesOf (t : Task) (k : Slot) : (s.post t).imagesOf k = s.imagesOf k := rfl
@[simp] theorem State.post_readyAt (t : Task) (k : Level) : (s.post t).readyAt k = s.readyAt k := rfl

/-! ## A record written twice -/

@[simp] theorem State.setPort_setPort (p : PortNo) (x y : Port) : (s.setPort p x).setPort p y = s.setPort p y := by
  simp [State.setPort]

theorem State.modPort_modPort (p : PortNo) (f g : Port → Port) :
    (s.modPort p f).modPort p g = s.modPort p (fun x => g (f x)) := by
  simp [State.modPort, State.setPort, State.port]

@[simp] theorem State.setJob_setJob (j : Slot) (x y : Option Job) : (s.setJob j x).setJob j y = s.setJob j y := by
  simp [State.setJob]

@[simp] theorem State.setAlert_setAlert (p : PortNo) (x y : Alert) : (s.setAlert p x).setAlert p y = s.setAlert p y := by
  simp [State.setAlert]

end Sys2Proof.Machine
end

