-- ==== Sys2Proof/Laws/Places.lean ====
section
/-! SUPPORT. Where the jobs are (R25, R58, R60, R78): what keeps every job in its place, and how a job leaves its place and
takes another. -/

namespace Sys2Proof.Machine

/-- What of a job record says where the job is. -/
def placeOf (o : Option Job) : Option (JobState × Level) := o.map (fun x => (x.state, x.level))

theorem placeOf_some {o : Option Job} {st : JobState} {l : Level} :
    placeOf o = some (st, l) ↔ ∃ x, o = some x ∧ x.state = st ∧ x.level = l := by
  cases o with
  | none => simp [placeOf]
  | some x => simp [placeOf, Prod.ext_iff]

theorem state_of_place {o o' : Option Job} (h : placeOf o' = placeOf o) (st : JobState) :
    (∃ x, o' = some x ∧ x.state = st) ↔ ∃ x, o = some x ∧ x.state = st := by
  cases o <;> cases o' <;> simp [placeOf] at h ⊢
  rw [h.1]

theorem level_of_place {o o' : Option Job} (h : placeOf o' = placeOf o) (st : JobState) (l : Level) :
    (∃ x, o' = some x ∧ x.state = st ∧ x.level = l) ↔ ∃ x, o = some x ∧ x.state = st ∧ x.level = l := by
  rw [← placeOf_some, ← placeOf_some, h]

/-- Jobs, lists, assignments and images that stand as before keep every job in its place. -/
theorem JobsPlaced.congr {jobs jobs' : Vector (Option Job) 128} {d d' : Dispatcher} {im im' : Vector (List ImageRec) 128}
    (h : JobsPlaced jobs d im) (hj : ∀ j : Slot, placeOf jobs'[j] = placeOf jobs[j]) (hr : d'.ready = d.ready)
    (hw : d'.stockWait = d.stockWait)
    (ha : ∀ p : PortNo, d'.assignments[p].map (·.slot) = d.assignments[p].map (·.slot))
    (hi : ∀ j : Slot, im[j] = [] → im'[j] = []) : JobsPlaced jobs' d' im' where
  ready l j := by rw [hr, h.ready]; exact (level_of_place (hj j) _ _).symm
  once l := by rw [hr]; exact h.once l
  waiting j := by rw [hw, h.waiting]; exact (state_of_place (hj j) _).symm
  waitOnce := by rw [hw]; exact h.waitOnce
  waitOrder := by
    rw [hw]
    refine h.waitOrder.imp fun {i j} g x y hx hy => ?_
    have a := hj i
    have b := hj j
    rw [hx] at a
    rw [hy] at b
    obtain ⟨x', hx', _, ex⟩ := placeOf_some.mp a.symm
    obtain ⟨y', hy', _, ey⟩ := placeOf_some.mp b.symm
    have := g x' y' hx' hy'
    rwa [ex, ey] at this
  running j := by
    constructor
    · rintro ⟨p, hp⟩
      rw [ha] at hp
      exact (state_of_place (hj j) .running).mpr ((h.running j).mp ⟨p, hp⟩)
    · intro g
      obtain ⟨p, hp⟩ := (h.running j).mpr ((state_of_place (hj j) .running).mp g)
      exact ⟨p, by rw [ha]; exact hp⟩
  alone p q j hp hq := h.alone p q j (by rw [← ha]; exact hp) (by rw [← ha]; exact hq)
  bare j g := hi j <| h.bare j fun x hx => by
    have a := hj j
    rw [hx] at a
    obtain ⟨x', hx', e, _⟩ := placeOf_some.mp a
    rw [← e]; exact g x' hx'

/-- A slot is in no place, and every other job is in its own. -/
structure JobOut (j : Slot) (jobs : Vector (Option Job) 128) (d : Dispatcher) (images : Vector (List ImageRec) 128) : Prop where
  ready : ∀ (l : Level) (k : Slot), k ∈ d.ready[l] ↔ k ≠ j ∧ ∃ x, jobs[k] = some x ∧ x.state = .queued ∧ x.level = l
  once : ∀ l : Level, (d.ready[l]).Nodup
  waiting : ∀ k : Slot, k ∈ d.stockWait ↔ k ≠ j ∧ ∃ x, jobs[k] = some x ∧ x.state = .stockwait
  waitOnce : d.stockWait.Nodup
  waitOrder : d.stockWait.Pairwise (fun i k => ∀ x y, jobs[i] = some x → jobs[k] = some y → x.level ≤ y.level)
  running : ∀ k : Slot, (∃ p : PortNo, d.assignments[p].map (·.slot) = some k) ↔
    k ≠ j ∧ ∃ x, jobs[k] = some x ∧ x.state = .running
  alone : ∀ (p q : PortNo) (k : Slot),
    d.assignments[p].map (·.slot) = some k → d.assignments[q].map (·.slot) = some k → p = q
  bare : ∀ k : Slot, k ≠ j → (∀ x, jobs[k] = some x → x.state.terminal = true) → images[k] = []

/-- A slot of a state is in no place. -/
def State.Out (s : State) (j : Slot) : Prop := JobOut j s.jobs s.dispatch s.spool.images

/-- What stands for the other slots as before keeps a slot out. -/
theorem JobOut.congr {j : Slot} {jobs jobs' : Vector (Option Job) 128} {d d' : Dispatcher}
    {im im' : Vector (List ImageRec) 128} (h : JobOut j jobs d im)
    (hj : ∀ k : Slot, k ≠ j → placeOf jobs'[k] = placeOf jobs[k]) (hr : d'.ready = d.ready)
    (hw : d'.stockWait = d.stockWait)
    (ha : ∀ p : PortNo, d'.assignments[p].map (·.slot) = d.assignments[p].map (·.slot))
    (hi : ∀ k : Slot, k ≠ j → im[k] = [] → im'[k] = []) : JobOut j jobs' d' im' where
  ready l k := by
    rw [hr, h.ready]
    exact and_congr_right fun n => (level_of_place (hj k n) _ _).symm
  once l := by rw [hr]; exact h.once l
  waiting k := by rw [hw, h.waiting]; exact and_congr_right fun n => (state_of_place (hj k n) _).symm
  waitOnce := by rw [hw]; exact h.waitOnce
  waitOrder := by
    rw [hw]
    refine List.Pairwise.imp_of_mem (fun {i k} mi mk g x y hx hy => ?_) h.waitOrder
    have a := hj i ((h.waiting i).mp mi).1
    have b := hj k ((h.waiting k).mp mk).1
    rw [hx] at a
    rw [hy] at b
    obtain ⟨x', hx', _, ex⟩ := placeOf_some.mp a.symm
    obtain ⟨y', hy', _, ey⟩ := placeOf_some.mp b.symm
    have := g x' y' hx' hy'
    rwa [ex, ey] at this
  running k := by
    constructor
    · rintro ⟨p, hp⟩
      rw [ha] at hp
      obtain ⟨n, g⟩ := (h.running k).mp ⟨p, hp⟩
      exact ⟨n, (state_of_place (hj k n) .running).mpr g⟩
    · rintro ⟨n, g⟩
      obtain ⟨p, hp⟩ := (h.running k).mpr ⟨n, (state_of_place (hj k n) .running).mp g⟩
      exact ⟨p, by rw [ha]; exact hp⟩
  alone p q k hp hq := h.alone p q k (by rw [← ha]; exact hp) (by rw [← ha]; exact hq)
  bare k n g := hi k n <| h.bare k n fun x hx => by
    have a := hj k n
    rw [hx] at a
    obtain ⟨x', hx', e, _⟩ := placeOf_some.mp a
    rw [← e]; exact g x' hx'

/-! ## A slot out of every place takes one -/

section
variable {j : Slot} {jobs : Vector (Option Job) 128} {d : Dispatcher} {images : Vector (List ImageRec) 128}

/-- A job in none of the three places: FREE, PAUSED, HELD or terminal; a FREE or terminal one without images. -/
theorem JobOut.stands (h : JobOut j jobs d images)
    (hs : ∀ x, jobs[j] = some x → x.state ≠ .queued ∧ x.state ≠ .stockwait ∧ x.state ≠ .running)
    (hi : (∀ x, jobs[j] = some x → x.state.terminal = true) → images[j] = []) : JobsPlaced jobs d images where
  ready l k := by
    rw [h.ready]
    refine ⟨fun g => g.2, fun g => ⟨?_, g⟩⟩
    rintro rfl
    obtain ⟨x, hx, e, _⟩ := g
    exact (hs x hx).1 e
  once := h.once
  waiting k := by
    rw [h.waiting]
    refine ⟨fun g => g.2, fun g => ⟨?_, g⟩⟩
    rintro rfl
    obtain ⟨x, hx, e⟩ := g
    exact (hs x hx).2.1 e
  waitOnce := h.waitOnce
  waitOrder := h.waitOrder
  running k := by
    rw [h.running]
    refine ⟨fun g => g.2, fun g => ⟨?_, g⟩⟩
    rintro rfl
    obtain ⟨x, hx, e⟩ := g
    exact (hs x hx).2.2 e
  alone := h.alone
  bare k g := by
    by_cases e : k = j
    · subst e; exact hi g
    · exact h.bare k e g

/-- A QUEUED job joins its level's list, at either end. -/
theorem JobOut.joins (h : JobOut j jobs d images) {x : Job} (hx : jobs[j] = some x) (hs : x.state = .queued)
    {d' : Dispatcher} (hr : ∀ l : Level, (d'.ready[l]).Perm (if l = x.level then j :: d.ready[l] else d.ready[l]))
    (hw : d'.stockWait = d.stockWait) (ha : d'.assignments = d.assignments) : JobsPlaced jobs d' images where
  ready l k := by
    rw [(hr l).mem_iff]
    have e := h.ready l k
    by_cases n : k = j
    · subst n
      rw [hx]
      by_cases g : l = x.level
      · rw [if_pos g]; simp [hs, g]
      · rw [if_neg g, e]; simp [Ne.symm g]
    · by_cases g : l = x.level
      · rw [if_pos g, List.mem_cons, e]; simp [n]
      · rw [if_neg g, e]; simp [n]
  once l := by
    rw [(hr l).nodup_iff]
    split
    · exact List.nodup_cons.mpr ⟨fun g => ((h.ready l j).mp g).1 rfl, h.once l⟩
    · exact h.once l
  waiting k := by
    rw [hw, h.waiting]
    refine ⟨fun g => g.2, fun g => ⟨?_, g⟩⟩
    rintro rfl
    obtain ⟨y, hy, e⟩ := g
    rw [hx] at hy; cases hy
    rw [hs] at e; cases e
  waitOnce := by rw [hw]; exact h.waitOnce
  waitOrder := by rw [hw]; exact h.waitOrder
  running k := by
    rw [ha, h.running]
    refine ⟨fun g => g.2, fun g => ⟨?_, g⟩⟩
    rintro rfl
    obtain ⟨y, hy, e⟩ := g
    rw [hx] at hy; cases hy
    rw [hs] at e; cases e
  alone := by rw [ha]; exact h.alone
  bare k g := by
    by_cases e : k = j
    · subst e
      have := g x hx
      rw [hs] at this; cases this
    · exact h.bare k e g

/-- A STOCKWAIT job takes its place on the stock wait list. -/
theorem JobOut.waits (h : JobOut j jobs d images) {x : Job} (hx : jobs[j] = some x) (hs : x.state = .stockwait)
    {d' : Dispatcher} (hr : d'.ready = d.ready) {a b : List Slot} (hd : (a ++ b).Perm d.stockWait)
    (hw : d'.stockWait = a ++ j :: b)
    (hab : (a ++ b).Pairwise (fun i k => ∀ x y, jobs[i] = some x → jobs[k] = some y → x.level ≤ y.level))
    (hl : ∀ k ∈ a, ∀ y, jobs[k] = some y → y.level ≤ x.level) (hg : ∀ k ∈ b, ∀ y, jobs[k] = some y → x.level ≤ y.level)
    (ha : d'.assignments = d.assignments) : JobsPlaced jobs d' images where
  ready l k := by
    rw [hr, h.ready]
    refine ⟨fun g => g.2, fun g => ⟨?_, g⟩⟩
    rintro rfl
    obtain ⟨y, hy, e, _⟩ := g
    rw [hx] at hy; cases hy
    rw [hs] at e; cases e
  once l := by rw [hr]; exact h.once l
  waiting k := by
    have m : k ∈ d'.stockWait ↔ k = j ∨ k ∈ d.stockWait := by
      rw [hw, ← hd.mem_iff]; simp only [List.mem_append, List.mem_cons]; tauto
    rw [m, h.waiting]
    by_cases n : k = j
    · subst n; simp [hx, hs]
    · simp [n]
  waitOnce := by
    have p : (d'.stockWait).Perm (j :: d.stockWait) := by
      rw [hw]; exact List.perm_middle.trans (hd.cons j)
    rw [p.nodup_iff]
    exact List.nodup_cons.mpr ⟨fun g => ((h.waiting j).mp g).1 rfl, h.waitOnce⟩
  waitOrder := by
    rw [hw]
    obtain ⟨p1, p2, p3⟩ := List.pairwise_append.mp hab
    refine List.pairwise_append.mpr ⟨p1, List.pairwise_cons.mpr ⟨fun k hk u v hu hv => ?_, p2⟩, fun i hi k hk u v hu hv => ?_⟩
    · rw [hx] at hu; cases hu; exact hg k hk v hv
    · rcases List.mem_cons.mp hk with rfl | hk
      · rw [hx] at hv; cases hv; exact hl i hi u hu
      · exact p3 i hi k hk u v hu hv
  running k := by
    rw [ha, h.running]
    refine ⟨fun g => g.2, fun g => ⟨?_, g⟩⟩
    rintro rfl
    obtain ⟨y, hy, e⟩ := g
    rw [hx] at hy; cases hy
    rw [hs] at e; cases e
  alone := by rw [ha]; exact h.alone
  bare k g := by
    by_cases e : k = j
    · subst e
      have := g x hx
      rw [hs] at this; cases this
    · exact h.bare k e g

/-- A RUNNING job is assigned to a port that had none. -/
theorem JobOut.assigned (h : JobOut j jobs d images) {x : Job} (hx : jobs[j] = some x) (hs : x.state = .running)
    {d' : Dispatcher} (hr : d'.ready = d.ready) (hw : d'.stockWait = d.stockWait) (p : PortNo)
    (hp : d.assignments[p] = none) (ha : d'.assignments[p].map (·.slot) = some j)
    (ho : ∀ q : PortNo, q ≠ p → d'.assignments[q] = d.assignments[q]) : JobsPlaced jobs d' images where
  ready l k := by
    rw [hr, h.ready]
    refine ⟨fun g => g.2, fun g => ⟨?_, g⟩⟩
    rintro rfl
    obtain ⟨y, hy, e, _⟩ := g
    rw [hx] at hy; cases hy
    rw [hs] at e; cases e
  once l := by rw [hr]; exact h.once l
  waiting k := by
    rw [hw, h.waiting]
    refine ⟨fun g => g.2, fun g => ⟨?_, g⟩⟩
    rintro rfl
    obtain ⟨y, hy, e⟩ := g
    rw [hx] at hy; cases hy
    rw [hs] at e; cases e
  waitOnce := by rw [hw]; exact h.waitOnce
  waitOrder := by rw [hw]; exact h.waitOrder
  running k := by
    by_cases n : k = j
    · subst n
      exact ⟨fun _ => ⟨x, hx, hs⟩, fun _ => ⟨p, ha⟩⟩
    · have e := h.running k
      constructor
      · rintro ⟨q, hq⟩
        by_cases g : q = p
        · subst g; rw [ha] at hq; exact absurd (Option.some.inj hq).symm n
        · rw [ho q g] at hq; exact (e.mp ⟨q, hq⟩).2
      · intro g
        obtain ⟨q, hq⟩ := e.mpr ⟨n, g⟩
        refine ⟨q, ?_⟩
        have : q ≠ p := by rintro rfl; rw [hp] at hq; cases hq
        rw [ho q this]; exact hq
  alone q r k hq hr' := by
    have out : ∀ q : PortNo, q ≠ p → d'.assignments[q].map (·.slot) ≠ some j := fun q g e => by
      rw [ho q g] at e
      exact ((h.running j).mp ⟨q, e⟩).1 rfl
    by_cases g : q = p
    · by_cases f : r = p
      · rw [g, f]
      · subst g; rw [ha] at hq; cases hq
        exact absurd hr' (out r f)
    · by_cases f : r = p
      · subst f; rw [ha] at hr'; cases hr'
        exact absurd hq (out q g)
      · rw [ho q g] at hq; rw [ho r f] at hr'
        exact h.alone q r k hq hr'
  bare k g := by
    by_cases e : k = j
    · subst e
      have := g x hx
      rw [hs] at this; cases this
    · exact h.bare k e g

/-! ## A job leaves its place -/

/-- A slot whose job runs on no port is taken out of its list. -/
theorem JobsPlaced.unlisted (h : JobsPlaced jobs d images) (hs : ∀ x, jobs[j] = some x → x.state ≠ .running)
    {d' : Dispatcher} (hr : ∀ l : Level, d'.ready[l] = (d.ready[l]).filter (fun i => i ≠ j))
    (hw : d'.stockWait = d.stockWait.filter (fun i => i ≠ j)) (ha : d'.assignments = d.assignments) :
    JobOut j jobs d' images where
  ready l k := by rw [hr, List.mem_filter, h.ready]; simp [and_comm]
  once l := by rw [hr]; exact (h.once l).filter _
  waiting k := by rw [hw, List.mem_filter, h.waiting]; simp [and_comm]
  waitOnce := by rw [hw]; exact h.waitOnce.filter _
  waitOrder := by rw [hw]; exact h.waitOrder.filter _
  running k := by
    rw [ha, h.running]
    refine ⟨fun g => ⟨?_, g⟩, fun g => g.2⟩
    rintro rfl
    obtain ⟨x, hx, e⟩ := g
    exact hs x hx e
  alone := by rw [ha]; exact h.alone
  bare k _ := h.bare k

/-- A slot already out stays out when it is taken from the lists. -/
theorem JobOut.unlisted (h : JobOut j jobs d images) {d' : Dispatcher}
    (hr : ∀ l : Level, d'.ready[l] = (d.ready[l]).filter (fun i => i ≠ j))
    (hw : d'.stockWait = d.stockWait.filter (fun i => i ≠ j)) (ha : d'.assignments = d.assignments) :
    JobOut j jobs d' images where
  ready l k := by rw [hr, List.mem_filter, h.ready]; simp; tauto
  once l := by rw [hr]; exact (h.once l).filter _
  waiting k := by rw [hw, List.mem_filter, h.waiting]; simp; tauto
  waitOnce := by rw [hw]; exact h.waitOnce.filter _
  waitOrder := by rw [hw]; exact h.waitOrder.filter _
  running k := by rw [ha]; exact h.running k
  alone := by rw [ha]; exact h.alone
  bare := h.bare

/-- The job of a port whose assignment ends is out of every place. -/
theorem JobsPlaced.unassigned (h : JobsPlaced jobs d images) {p : PortNo} (hp : d.assignments[p].map (·.slot) = some j)
    {d' : Dispatcher} (hr : d'.ready = d.ready) (hw : d'.stockWait = d.stockWait) (ha : d'.assignments[p] = none)
    (ho : ∀ q : PortNo, q ≠ p → d'.assignments[q] = d.assignments[q]) : JobOut j jobs d' images := by
  obtain ⟨x, hx, hs⟩ := (h.running j).mp ⟨p, hp⟩
  have other : ∀ (k : Slot) (st : JobState), st ≠ .running → (∃ y, jobs[k] = some y ∧ y.state = st) → k ≠ j := by
    rintro k st n ⟨y, hy, e⟩ rfl
    rw [hx] at hy; cases hy
    exact n (e.symm.trans hs)
  refine ⟨fun l k => ?_, fun l => by rw [hr]; exact h.once l, fun k => ?_, by rw [hw]; exact h.waitOnce,
    by rw [hw]; exact h.waitOrder, fun k => ?_, fun q r k hq hr' => ?_, fun k _ => h.bare k⟩
  · rw [hr, h.ready]
    exact ⟨fun g => ⟨other k .queued (by simp) (by obtain ⟨y, a, b, _⟩ := g; exact ⟨y, a, b⟩), g⟩, fun g => g.2⟩
  · rw [hw, h.waiting]
    exact ⟨fun g => ⟨other k .stockwait (by simp) g, g⟩, fun g => g.2⟩
  · constructor
    · rintro ⟨q, hq⟩
      have n : q ≠ p := by rintro rfl; rw [ha] at hq; cases hq
      rw [ho q n] at hq
      refine ⟨?_, (h.running k).mp ⟨q, hq⟩⟩
      rintro rfl
      exact n (h.alone q p k hq hp)
    · rintro ⟨n, g⟩
      obtain ⟨q, hq⟩ := (h.running k).mpr g
      have m : q ≠ p := by rintro rfl; rw [hp] at hq; exact n (Option.some.inj hq).symm
      exact ⟨q, by rw [ho q m]; exact hq⟩
  · have n : ∀ q : PortNo, d'.assignments[q].map (·.slot) = some k → q ≠ p := by rintro q hq rfl; rw [ha] at hq; cases hq
    have := n q hq
    have := n r hr'
    rw [ho q (n q hq)] at hq
    rw [ho r (n r hr')] at hr'
    exact h.alone q r k hq hr'

end

/-! ## The operations that move a job -/

section
variable {s t : State} {j : Slot}

/-- A state in which the jobs, the lists, the assignments and the images stand as before keeps every job in its place. -/
theorem State.Placed.congr (h : s.Placed) (hj : ∀ k, placeOf (t.job k) = placeOf (s.job k))
    (hr : t.dispatch.ready = s.dispatch.ready) (hw : t.dispatch.stockWait = s.dispatch.stockWait)
    (ha : ∀ p, t.assigned p = s.assigned p) (hi : ∀ k, s.imagesOf k = [] → t.imagesOf k = []) : t.Placed :=
  JobsPlaced.congr h hj hr hw ha hi

/-- What moves no other job and leaves the dispatcher alone keeps a slot out of every place. -/
theorem State.Out.congr (h : s.Out j) (hj : ∀ k, k ≠ j → placeOf (t.job k) = placeOf (s.job k))
    (hd : t.dispatch = s.dispatch) (hi : ∀ k, k ≠ j → s.imagesOf k = [] → t.imagesOf k = []) : t.Out j :=
  JobOut.congr h hj (by rw [hd]) (by rw [hd]) (by rw [hd]; exact fun _ => rfl) hi

theorem setJob_placed (h : s.Placed) (o : Option Job) (e : placeOf o = placeOf (s.job j)) : (s.setJob j o).Placed := by
  refine h.congr (fun k => ?_) rfl rfl (fun _ => rfl) (fun _ => id)
  rw [State.setJob_job]
  split
  · rename_i g; rw [← g]; exact e
  · rfl

theorem notice_jobs (k : NoticeKind) (b : List Byte) : (s.notify k b).jobs = s.jobs := by
  unfold State.notify; split
  · rfl
  · split <;> rfl

theorem notice_dispatch (k : NoticeKind) (b : List Byte) : (s.notify k b).dispatch = s.dispatch := by
  unfold State.notify; split
  · rfl
  · split <;> rfl

theorem notice_spool (k : NoticeKind) (b : List Byte) : (s.notify k b).spool = s.spool := by
  unfold State.notify; split
  · rfl
  · split <;> rfl

@[simp] theorem jobTo_dispatch (st : JobState) : (s.jobTo j st).dispatch = s.dispatch := by
  unfold State.jobTo
  split
  · split
    · rfl
    · rw [notice_dispatch]; rfl
  · rfl

@[simp] theorem jobTo_spool (st : JobState) : (s.jobTo j st).spool = s.spool := by
  unfold State.jobTo
  split
  · split
    · rfl
    · rw [notice_spool]; rfl
  · rfl

/-- A job's change of state changes the state field of its record, and no other record. -/
theorem jobTo_job (st : JobState) (k : Slot) :
    (s.jobTo j st).job k = if j = k then (s.job j).map (fun x => { x with state := st }) else s.job k := by
  unfold State.jobTo
  cases hx : s.job j with
  | none =>
    dsimp only
    by_cases g : j = k
    · rw [if_pos g, ← g, hx]; rfl
    · rw [if_neg g]
  | some x =>
    dsimp only
    split
    · rename_i e
      split
      · rename_i g; rw [← g, hx, ← e]; rfl
      · rfl
    · unfold State.job at hx ⊢
      rw [notice_jobs]
      exact State.setJob_job s j _ k

theorem jobTo_same_slot (st : JobState) : (s.jobTo j st).job j = (s.job j).map (fun x => { x with state := st }) := by
  rw [jobTo_job, if_pos rfl]

theorem jobTo_elsewhere (st : JobState) {k : Slot} (h : k ≠ j) : (s.jobTo j st).job k = s.job k := by
  rw [jobTo_job, if_neg (Ne.symm h)]

theorem State.Out.jobTo (h : s.Out j) (st : JobState) : (s.jobTo j st).Out j :=
  h.congr (fun k n => by rw [jobTo_elsewhere st n]) (jobTo_dispatch st) (fun k _ e => by
    unfold State.imagesOf; rw [jobTo_spool]; exact e)

theorem State.Out.setJob (h : s.Out j) (o : Option Job) : (s.setJob j o).Out j :=
  h.congr (fun k n => by rw [State.setJob_job, if_neg (Ne.symm n)]) rfl (fun _ _ => id)

/-- A job that runs on no port leaves its place. -/
theorem unlist_out (h : s.Placed) (n : ∀ x, s.job j = some x → x.state ≠ .running) : (s.unlist j).Out j :=
  JobsPlaced.unlisted h n (fun l => by simp [State.unlist]) rfl rfl

theorem State.Out.unlist (h : s.Out j) : (s.unlist j).Out j :=
  JobOut.unlisted h (fun l => by simp [State.unlist]) rfl rfl

/-- A job in no place enters a state that gives it none. -/
theorem jobTo_stands (h : s.Out j) (st : JobState) (n : st ≠ .queued ∧ st ≠ .stockwait ∧ st ≠ .running)
    (b : st.terminal = true ∨ s.job j = none → s.imagesOf j = []) : (s.jobTo j st).Placed := by
  refine JobOut.stands (h.jobTo st) (fun x hx => ?_) (fun g => ?_)
  · have e : (s.jobTo j st).job j = some x := hx
    rw [jobTo_same_slot] at e
    cases hy : s.job j with
    | none => rw [hy] at e; cases e
    | some y => rw [hy] at e; cases e; exact n
  · show (s.jobTo j st).spool.images[j] = []
    rw [jobTo_spool]
    apply b
    cases hy : s.job j with
    | none => exact .inr rfl
    | some y =>
      refine .inl (g { y with state := st } ?_)
      show (s.jobTo j st).job j = _
      rw [jobTo_same_slot, hy]; rfl

/-- A job in no place joins its level's list and becomes QUEUED (R58). -/
theorem joinReady_placed (h : s.Out j) {x : Job} (hx : s.job j = some x) (b : Bool) :
    ((s.joinReady j b).jobTo j .queued).Placed := by
  have o : State.Out _ j := h.jobTo .queued
  have e1 : (s.joinReady j b) = s.setLists (s.dispatch.ready.set x.level
      (if b then j :: s.readyAt x.level else s.readyAt x.level ++ [j])) s.dispatch.stockWait := by
    unfold State.joinReady; rw [hx]
  have ej : ∀ k, ((s.joinReady j b).jobTo j .queued).job k = (s.jobTo j .queued).job k := fun k => by
    rw [jobTo_job, jobTo_job, e1]; rfl
  have o' : JobOut j ((s.joinReady j b).jobTo j .queued).jobs (s.jobTo j .queued).dispatch
      ((s.joinReady j b).jobTo j .queued).spool.images :=
    JobOut.congr o (fun k _ => by
      have := ej k
      unfold State.job at this; rw [this]) rfl rfl (fun _ => rfl) (fun k _ e => by
        rw [jobTo_spool] at e ⊢; rw [e1]; exact e)
  refine o'.joins (x := { x with state := .queued }) ?_ rfl (fun l => ?_) ?_ ?_
  · exact (ej j).trans (by rw [jobTo_same_slot, hx]; rfl)
  · rw [jobTo_dispatch, jobTo_dispatch, e1]
    show (Vector.set s.dispatch.ready x.level _)[l].Perm _
    simp only [Fin.getElem_fin, Vector.getElem_set]
    by_cases g : l = x.level
    · subst g
      rw [if_pos rfl, if_pos rfl]
      unfold State.readyAt
      split
      · exact List.Perm.refl _
      · exact List.perm_append_comm
    · rw [if_neg (fun e => g (Fin.ext e.symm)), if_neg g]
  · rw [jobTo_dispatch, jobTo_dispatch, e1]; rfl
  · rw [jobTo_dispatch, jobTo_dispatch, e1]; rfl

/-- A job in no place takes its place on the stock wait list and becomes STOCKWAIT (R60). -/
theorem joinWait_placed (h : s.Out j) {x : Job} (hx : s.job j = some x) : ((s.joinWait j).jobTo j .stockwait).Placed := by
  have o : State.Out _ j := h.jobTo .stockwait
  have ej : ∀ k, ((s.joinWait j).jobTo j .stockwait).job k = (s.jobTo j .stockwait).job k := fun k => by
    rw [jobTo_job, jobTo_job]; rfl
  have o' : JobOut j ((s.joinWait j).jobTo j .stockwait).jobs (s.jobTo j .stockwait).dispatch
      ((s.joinWait j).jobTo j .stockwait).spool.images :=
    JobOut.congr o (fun k _ => by
      have := ej k
      unfold State.job at this; rw [this]) rfl rfl (fun _ => rfl) (fun k _ e => by
        rw [jobTo_spool] at e ⊢; exact e)
  have lev : ∀ k y, ((s.joinWait j).jobTo j .stockwait).jobs[k] = some y → s.levelOf k = y.level.val := fun k y hy => by
    have e : ((s.joinWait j).jobTo j .stockwait).job k = some y := hy
    rw [ej, jobTo_job] at e
    unfold State.levelOf
    split at e
    · rename_i g; subst g
      rw [hx] at e ⊢; cases e; rfl
    · rw [e]
  have lj : s.levelOf j = x.level.val := by unfold State.levelOf; rw [hx]
  refine o'.waits (x := { x with state := .stockwait }) (a := s.dispatch.stockWait.filter (fun i => s.levelOf i ≤ s.levelOf j))
    (b := s.dispatch.stockWait.filter (fun i => s.levelOf j < s.levelOf i)) ?_ rfl ?_ ?_ ?_ ?_ ?_ ?_ ?_
  · exact (ej j).trans (by rw [jobTo_same_slot, hx]; rfl)
  · rw [jobTo_dispatch, jobTo_dispatch]; rfl
  · rw [jobTo_dispatch]
    have := List.filter_append_perm (fun i => decide (s.levelOf i ≤ s.levelOf j)) s.dispatch.stockWait
    refine List.Perm.trans ?_ this
    refine List.Perm.append_left _ (List.Perm.of_eq ?_)
    apply List.filter_congr; intro i _
    rw [← decide_not]; exact decide_eq_decide.mpr (by omega)
  · rw [jobTo_dispatch]; rfl
  · have w := o'.waitOrder
    rw [jobTo_dispatch] at w
    refine List.pairwise_append.mpr ⟨w.filter _, w.filter _, fun i hi k hk u v hu hv => ?_⟩
    have h1 := of_decide_eq_true (List.mem_filter.mp hi).2
    have h2 := of_decide_eq_true (List.mem_filter.mp hk).2
    have := lev i u hu
    have := lev k v hv
    show u.level.val ≤ v.level.val
    omega
  · intro k hk y hy
    have h1 := of_decide_eq_true (List.mem_filter.mp hk).2
    have := lev k y hy
    show y.level.val ≤ x.level.val
    omega
  · intro k hk y hy
    have h1 := of_decide_eq_true (List.mem_filter.mp hk).2
    have := lev k y hy
    show x.level.val ≤ y.level.val
    omega
  · rw [jobTo_dispatch, jobTo_dispatch]; rfl

/-- A slot holds a job that runs on no port. -/
def State.Idle (s : State) (j : Slot) : Prop := ∃ x, s.job j = some x ∧ x.state ≠ .running

theorem State.Idle.jobTo {st : JobState} {k : Slot} (h : s.Idle k) (n : st ≠ .running) : (s.jobTo j st).Idle k := by
  obtain ⟨x, hx, hs⟩ := h
  unfold State.Idle
  rw [jobTo_job]
  split
  · rename_i e; subst e; rw [hx]; exact ⟨_, rfl, n⟩
  · exact ⟨x, hx, hs⟩

theorem State.Idle.unlist_out (h : s.Idle j) (p : s.Placed) : (s.unlist j).Out j := by
  obtain ⟨x, hx, hs⟩ := h
  exact Machine.unlist_out p (fun y hy => by rw [hx] at hy; cases hy; exact hs)

/-- What keeps the places of jobs and the idle jobs idle, one job after another, keeps them for a list of idle jobs. -/
theorem foldl_placed (f : State → Slot → State)
    (hf : ∀ (s : State) (j : Slot), s.Placed → s.Idle j → (f s j).Placed ∧ ∀ k, s.Idle k → (f s j).Idle k)
    (l : List Slot) : ∀ s : State, s.Placed → (∀ j ∈ l, s.Idle j) → (l.foldl f s).Placed := by
  induction l with
  | nil => exact fun s h _ => h
  | cons j l ih =>
    intro s h i
    obtain ⟨a, b⟩ := hf s j h (i j (by simp))
    exact ih _ a (fun k hk => b k (i k (by simp [hk])))

/-- The job of a port that runs one is idle on no port once its assignment has ended (R78). -/
theorem unassigned_out (h : s.Placed) {p : PortNo} (hp : s.assigned p = some j) : (s.setAssignment p none).Out j :=
  JobsPlaced.unassigned h hp rfl rfl (by simp [State.setAssignment])
    (fun q n => by
      have : (p : Nat) ≠ (q : Nat) := fun e => n (Fin.ext e.symm)
      simp [State.setAssignment, Vector.getElem_set_ne _ _ this])

/-- A RUNNING job in no place is assigned to a port that has none (R67). -/
theorem setAssignment_placed (h : s.Out j) {x : Job} (hx : s.job j = some x) (hs : x.state = .running) {p : PortNo}
    (hp : s.assignment p = none) (a : Assignment) (ha : a.slot = j) : (s.setAssignment p (some a)).Placed :=
  JobOut.assigned h hx hs rfl rfl p hp (by simp [State.setAssignment, ha])
    (fun q n => by
      have : (p : Nat) ≠ (q : Nat) := fun e => n (Fin.ext e.symm)
      simp [State.setAssignment, Vector.getElem_set_ne _ _ this])

/-- A slot whose job is in none of the three places is out of them: it is FREE, or its job is PAUSED, HELD or terminal. -/
theorem aside_out (h : s.Placed)
    (n : ∀ x, s.job j = some x → x.state ≠ .queued ∧ x.state ≠ .stockwait ∧ x.state ≠ .running) : s.Out j where
  ready l k := by
    rw [h.ready]
    refine ⟨fun g => ⟨?_, g⟩, fun g => g.2⟩
    rintro rfl
    obtain ⟨x, hx, e, _⟩ := g
    exact (n x hx).1 e
  once := h.once
  waiting k := by
    rw [h.waiting]
    refine ⟨fun g => ⟨?_, g⟩, fun g => g.2⟩
    rintro rfl
    obtain ⟨x, hx, e⟩ := g
    exact (n x hx).2.1 e
  waitOnce := h.waitOnce
  waitOrder := h.waitOrder
  running k := by
    rw [h.running]
    refine ⟨fun g => ⟨?_, g⟩, fun g => g.2⟩
    rintro rfl
    obtain ⟨x, hx, e⟩ := g
    exact (n x hx).2.2 e
  alone := h.alone
  bare k _ := h.bare k

/-- The level of a job in no list changes (R32). -/
theorem setLevel_placed (h : s.Placed) {x : Job} (hx : s.job j = some x) (n : x.state ≠ .queued ∧ x.state ≠ .stockwait)
    (l : Level) : (s.setJob j (some { x with level := l })).Placed := by
  have hj : ∀ k : Slot, (s.jobs.set j (some { x with level := l }))[k] = if j = k then some { x with level := l } else s.jobs[k] :=
    fun k => State.setJob_job s j _ k
  have same : ∀ (k : Slot) (st : JobState),
      (∃ y, (s.jobs.set j (some { x with level := l }))[k] = some y ∧ y.state = st) ↔ ∃ y, s.jobs[k] = some y ∧ y.state = st := by
    intro k st
    rw [hj]
    split
    · rename_i e
      subst e
      have hx' : s.jobs[j] = some x := hx
      rw [hx']; simp
    · rfl
  refine ⟨fun m k => ?_, h.once, fun k => ?_, h.waitOnce, ?_, fun k => ?_, h.alone, fun k g => h.bare k fun y hy => ?_⟩
  · show k ∈ s.dispatch.ready[m] ↔ _
    rw [h.ready m k]
    show _ ↔ ∃ y, (s.jobs.set j (some { x with level := l }))[k] = some y ∧ _
    rw [hj]
    split
    · rename_i e
      subst e
      have hx' : s.jobs[j] = some x := hx
      rw [hx']
      simp [n.1]
    · rfl
  · exact (h.waiting k).trans (same k _).symm
  · refine List.Pairwise.imp_of_mem (fun {i k} mi mk g u v hu hv => ?_) h.waitOrder
    have out : ∀ i ∈ s.dispatch.stockWait, j ≠ i := by
      rintro i mi rfl
      obtain ⟨y, hy, e⟩ := (h.waiting j).mp mi
      have hx' : s.jobs[j] = some x := hx
      rw [hx'] at hy; cases hy
      exact n.2 e
    have hu' : (s.jobs.set j (some { x with level := l }))[i] = some u := hu
    have hv' : (s.jobs.set j (some { x with level := l }))[k] = some v := hv
    rw [hj, if_neg (out i mi)] at hu'
    rw [hj, if_neg (out k mk)] at hv'
    exact g u v hu' hv'
  · exact (h.running k).trans (same k _).symm
  · obtain ⟨z, hz, e⟩ := (same k y.state).mpr ⟨y, hy, rfl⟩
    rw [← e]
    exact g z hz

/-- The image records of a slot out of every place are replaced. -/
theorem State.Out.setImages (h : s.Out j) (l : List ImageRec) : (s.setImages j l).Out j :=
  h.congr (fun _ _ => rfl) rfl (fun k n e => by rw [State.setImages_imagesOf, if_neg (Ne.symm n)]; exact e)

/-- With no job and no image every place is empty (R13). -/
theorem none_placed (images : Vector (List ImageRec) 128) (h : ∀ j : Slot, images[j] = []) :
    JobsPlaced (Vector.replicate 128 none) Dispatcher.afterReset images where
  ready l j := by simp [Dispatcher.afterReset]
  once l := by simp [Dispatcher.afterReset]
  waiting j := by simp [Dispatcher.afterReset]
  waitOnce := by simp [Dispatcher.afterReset]
  waitOrder := by simp [Dispatcher.afterReset]
  running j := by simp [Dispatcher.afterReset]
  alone p q j := by simp [Dispatcher.afterReset]
  bare j _ := h j

end

end Sys2Proof.Machine
end

