-- ==== Sys2Proof/Laws/Memory.lean ====
section
/-! SUPPORT. The laws of the spool DRAM: a write keeps the canonical form, a read after a write gives the byte written, and every
other address reads as before. -/

namespace Sys2Proof.Machine

/-- The addresses that written bytes list: each within the bytes, none at its blank value. -/
theorem cells_range (address : Nat) (bytes : List Byte) :
    ∀ c ∈ Memory.cells address bytes, address ≤ c.1 ∧ c.1 < address + bytes.length ∧ c.2 ≠ Memory.blank c.1 := by
  induction bytes generalizing address with
  | nil => simp [Memory.cells]
  | cons b bs ih =>
    intro c hc
    unfold Memory.cells at hc
    split at hc
    · have := ih (address + 1) c hc
      simp only [List.length_cons]; exact ⟨by omega, by omega, this.2.2⟩
    · rcases List.mem_cons.mp hc with h | h
      · subst h; simp only [List.length_cons]; exact ⟨by omega, by omega, by assumption⟩
      · have := ih (address + 1) c h
        simp only [List.length_cons]; exact ⟨by omega, by omega, this.2.2⟩

/-- Every entry that written bytes list is one of the bytes, at its address. -/
theorem cells_value (address : Nat) (bytes : List Byte) :
    ∀ c ∈ Memory.cells address bytes, ∃ (i : Nat) (h : i < bytes.length), c = (address + i, bytes[i]) := by
  induction bytes generalizing address with
  | nil => simp [Memory.cells]
  | cons b bs ih =>
    intro c hc
    have later : c ∈ Memory.cells (address + 1) bs → ∃ (i : Nat) (h : i < (b :: bs).length), c = (address + i, (b :: bs)[i]) := by
      intro h
      obtain ⟨i, hi, e⟩ := ih (address + 1) c h
      refine ⟨i + 1, by simpa using hi, ?_⟩
      rw [e, show address + 1 + i = address + (i + 1) by omega]
      simp
    unfold Memory.cells at hc
    split at hc
    · exact later hc
    · rcases List.mem_cons.mp hc with h | h
      · exact ⟨0, by simp, by simpa using h⟩
      · exact later h

theorem cells_rising (address : Nat) (bytes : List Byte) :
    (Memory.cells address bytes).Pairwise (fun a b => a.1 < b.1) := by
  induction bytes generalizing address with
  | nil => simp [Memory.cells]
  | cons b bs ih =>
    unfold Memory.cells
    split
    · exact ih _
    · refine List.pairwise_cons.mpr ⟨fun c hc => ?_, ih _⟩
      have := (cells_range (address + 1) bs c hc).1
      show address < c.1
      omega

/-- The only entry at an address, in a rising list. -/
theorem rising_unique {m : List Host.Cell} (h : m.Pairwise (fun a b => a.1 < b.1)) {c d : Host.Cell} (hc : c ∈ m)
    (hd : d ∈ m) (e : c.1 = d.1) : c = d := by
  induction m with
  | nil => simp at hc
  | cons x xs ih =>
    obtain ⟨hx, hxs⟩ := List.pairwise_cons.mp h
    rcases List.mem_cons.mp hc with rfl | hc' <;> rcases List.mem_cons.mp hd with rfl | hd'
    · rfl
    · have := hx _ hd'; omega
    · have := hx _ hc'; omega
    · exact ih hxs hc' hd'

theorem read_of_mem {m : List Host.Cell} (h : m.Pairwise (fun a b => a.1 < b.1)) {c : Host.Cell} (hc : c ∈ m) :
    Memory.read m c.1 = c.2 := by
  unfold Memory.read
  cases hf : m.find? (fun d => d.1 = c.1) with
  | none => simp only [List.find?_eq_none] at hf; exact absurd (hf c hc) (by simp)
  | some d =>
    have h1 := List.mem_of_find?_eq_some hf
    have h2 := List.find?_some hf
    rw [rising_unique h h1 hc (by simpa using h2)]

theorem read_of_not_mem {m : List Host.Cell} {a : Nat} (h : ∀ c ∈ m, c.1 ≠ a) : Memory.read m a = Memory.blank a := by
  unfold Memory.read
  rw [List.find?_eq_none.mpr (by simpa using h)]

/-- A write keeps the canonical form. -/
theorem write_wf {m : List Host.Cell} (h : Memory.wf m) (address : Nat) (bytes : List Byte) :
    Memory.wf (Memory.write m address bytes) := by
  obtain ⟨hr, hb⟩ := h
  have range := cells_range address (bytes.take (Memory.size - address))
  unfold Memory.write
  refine ⟨?_, ?_⟩
  · refine List.pairwise_append.mpr ⟨List.pairwise_append.mpr ⟨hr.filter _, cells_rising _ _, ?_⟩, hr.filter _, ?_⟩
    · intro a ha b hb'
      have h1 := (List.mem_filter.mp ha).2
      have h2 := range b hb'
      simp only [decide_eq_true_eq] at h1; omega
    · intro a ha b hb'
      have h1 := (List.mem_filter.mp hb').2
      simp only [decide_eq_true_eq] at h1
      rcases List.mem_append.mp ha with ha | ha
      · have h2 := (List.mem_filter.mp ha).2
        simp only [decide_eq_true_eq] at h2; omega
      · have h2 := range a ha; omega
  · intro c hc
    rcases List.mem_append.mp hc with hc | hc
    · rcases List.mem_append.mp hc with hc | hc
      · exact hb c (List.mem_filter.mp hc).1
      · have h2 := range c hc
        have h3 : (bytes.take (Memory.size - address)).length ≤ Memory.size - address := by
          rw [List.length_take]; omega
        exact ⟨by omega, h2.2.2⟩
    · exact hb c (List.mem_filter.mp hc).1

/-- An address outside the bytes written reads as before. -/
theorem read_write_elsewhere {m : List Host.Cell} (h : Memory.wf m) (address : Nat) (bytes : List Byte) (a : Nat)
    (ha : a < address ∨ address + bytes.length ≤ a) :
    Memory.read (Memory.write m address bytes) a = Memory.read m a := by
  have hw := write_wf h address bytes
  have hl : (bytes.take (Memory.size - address)).length ≤ bytes.length := by rw [List.length_take]; omega
  by_cases hm : ∃ c ∈ m, c.1 = a
  · obtain ⟨c, hc, rfl⟩ := hm
    rw [read_of_mem h.1 hc]
    refine read_of_mem hw.1 (?_ : c ∈ _)
    unfold Memory.write
    simp only [List.mem_append, List.mem_filter, decide_eq_true_eq]
    rcases ha with ha | ha
    · exact .inl (.inl ⟨hc, ha⟩)
    · exact .inr ⟨hc, by omega⟩
  · rw [read_of_not_mem (m := m) (fun c hc e => hm ⟨c, hc, e⟩)]
    refine read_of_not_mem fun c hc e => ?_
    unfold Memory.write at hc
    rcases List.mem_append.mp hc with hc | hc
    · rcases List.mem_append.mp hc with hc | hc
      · exact hm ⟨c, (List.mem_filter.mp hc).1, e⟩
      · have := cells_range _ _ c hc; omega
    · exact hm ⟨c, (List.mem_filter.mp hc).1, e⟩

theorem cells_mem (address : Nat) (bytes : List Byte) (i : Nat) (h : i < bytes.length)
    (n : bytes[i] ≠ Memory.blank (address + i)) : (address + i, bytes[i]) ∈ Memory.cells address bytes := by
  induction bytes generalizing address i with
  | nil => simp at h
  | cons b bs ih =>
    unfold Memory.cells
    cases i with
    | zero =>
      simp only [List.getElem_cons_zero, Nat.add_zero] at n
      rw [if_neg n]; simp
    | succ i =>
      have h' : i < bs.length := by simpa using h
      have e : address + 1 + i = address + (i + 1) := by omega
      have k := ih (address + 1) i h' (by rw [e]; simpa using n)
      rw [e] at k
      split
      · simpa using k
      · exact List.mem_cons_of_mem _ (by simpa using k)

/-- A byte written reads as written. -/
theorem read_write {m : List Host.Cell} (h : Memory.wf m) (address : Nat) (bytes : List Byte) (i : Nat)
    (hi : i < bytes.length) (ha : address + i < Memory.size) :
    Memory.read (Memory.write m address bytes) (address + i) = bytes[i] := by
  have hw := write_wf h address bytes
  have hl : i < (bytes.take (Memory.size - address)).length := by rw [List.length_take]; omega
  have he : (bytes.take (Memory.size - address))[i] = bytes[i] := by simp
  by_cases n : bytes[i] = Memory.blank (address + i)
  · rw [n]
    refine read_of_not_mem fun c hc e => ?_
    unfold Memory.write at hc
    rcases List.mem_append.mp hc with hc | hc
    · rcases List.mem_append.mp hc with hc | hc
      · have := (List.mem_filter.mp hc).2
        simp only [decide_eq_true_eq] at this; omega
      · obtain ⟨k, hk, ek⟩ := cells_value _ _ c hc
        have hik : k = i := by rw [ek] at e; simpa using e
        subst hik
        refine (cells_range _ _ c hc).2.2 ?_
        rw [ek]
        exact he.trans n
    · have := (List.mem_filter.mp hc).2
      simp only [decide_eq_true_eq] at this; omega
  · have k := cells_mem address _ i hl (by rw [he]; exact n)
    rw [he] at k
    refine read_of_mem (c := (address + i, bytes[i])) hw.1 ?_
    unfold Memory.write
    simp only [List.mem_append]
    exact .inl (.inr k)

/-! ## Sets of blocks -/

theorem Blocks.mem_add (pool : List Nat) (block b : Nat) : b ∈ Blocks.add pool block ↔ b ∈ pool ∨ b = block := by
  unfold Blocks.add
  simp only [List.mem_append, List.mem_filter, List.mem_cons, decide_eq_true_eq]
  constructor
  · rintro (⟨h, _⟩ | h | ⟨h, _⟩)
    · exact .inl h
    · exact .inr h
    · exact .inl h
  · rintro (h | h)
    · rcases Nat.lt_trichotomy b block with l | l | l
      · exact .inl ⟨h, l⟩
      · exact .inr (.inl l)
      · exact .inr (.inr ⟨h, l⟩)
    · exact .inr (.inl h)

theorem Blocks.mem_addAll (blocks : List Nat) (b : Nat) :
    ∀ pool, b ∈ Blocks.addAll pool blocks ↔ b ∈ pool ∨ b ∈ blocks := by
  unfold Blocks.addAll
  induction blocks with
  | nil => intro pool; simp
  | cons c l ih =>
    intro pool
    rw [List.foldl_cons, ih, Blocks.mem_add, List.mem_cons]
    tauto

theorem Blocks.mem_remove (pool : List Nat) (block b : Nat) : b ∈ Blocks.remove pool block ↔ b ∈ pool ∧ b ≠ block := by
  simp [Blocks.remove]

/-! ## Entries of the band map -/

theorem find_filter_key (q : Nat → Bool) (k : Nat) (l : List (Nat × BandEntry)) :
    (l.filter (fun e => q e.1)).find? (fun e => e.1 = k) = if q k then l.find? (fun e => e.1 = k) else none := by
  induction l with
  | nil => split <;> rfl
  | cons c l ih =>
    rw [List.filter_cons, List.find?_cons]
    by_cases hc : c.1 = k
    · subst hc
      split
      · simp
      · rename_i h
        rw [ih]; simp [h]
    · have : decide (c.1 = k) = false := by simpa using hc
      simp only [this]
      split
      · rw [List.find?_cons]; simp only [this]; exact ih
      · exact ih

theorem Bands.find_put (bands : List (Nat × BandEntry)) (i k : Nat) (e : BandEntry) :
    Bands.find (Bands.put bands i e) k = if k = i then some e else Bands.find bands k := by
  unfold Bands.find Bands.put
  rw [List.find?_append, find_filter_key (fun n => decide (n < i)), List.find?_cons, find_filter_key (fun n => decide (i < n))]
  rcases Nat.lt_trichotomy k i with l | l | l
  · have h1 : decide (i = k) = false := by simp; omega
    have h2 : ¬ i < k := by omega
    have h3 : ¬ k = i := by omega
    simp [h1, h2, h3, l]
  · subst l; simp
  · have h1 : decide (i = k) = false := by simp; omega
    have h2 : ¬ k < i := by omega
    have h3 : ¬ k = i := by omega
    simp [h1, h2, h3, l]

end Sys2Proof.Machine
end

