-- ==== Sys2Proof/Laws/Spool.lean ====
section
/-! SUPPORT. What the operations of the spool manager do to the pool, the retired list and the band map: each keeps them sound
(R43, R44, R46), said once for each. -/

namespace Sys2Proof.Machine

/-! ## Sets of blocks -/

theorem Blocks.add_ascending (pool : List Nat) (block : Nat) (h : pool.Pairwise (· < ·)) :
    (Blocks.add pool block).Pairwise (· < ·) := by
  unfold Blocks.add
  rw [List.pairwise_append]
  refine ⟨h.filter _, List.pairwise_cons.mpr ⟨fun a ha => ?_, h.filter _⟩, fun a ha b hb => ?_⟩
  · simpa using (List.mem_filter.mp ha).2
  · have h1 : a < block := by simpa using (List.mem_filter.mp ha).2
    rcases List.mem_cons.mp hb with rfl | hb
    · exact h1
    · have h2 : block < b := by simpa using (List.mem_filter.mp hb).2
      omega

theorem Blocks.addAll_ascending (blocks : List Nat) : ∀ pool : List Nat, pool.Pairwise (· < ·) →
    (Blocks.addAll pool blocks).Pairwise (· < ·) := by
  induction blocks with
  | nil => exact fun _ h => h
  | cons b l ih => exact fun pool h => ih _ (Blocks.add_ascending pool b h)

theorem Blocks.remove_ascending (pool : List Nat) (block : Nat) (h : pool.Pairwise (· < ·)) :
    (Blocks.remove pool block).Pairwise (· < ·) := h.filter _

/-- An ascending list without one of its blocks, and that block, are the list. -/
theorem Blocks.split_at (pool : List Nat) (block : Nat) (h : block ∉ pool) :
    (pool.filter (fun b => b < block) ++ pool.filter (fun b => block < b)).Perm pool := by
  induction pool with
  | nil => exact List.Perm.nil
  | cons a l ih =>
    have ha : a ≠ block := fun e => h (by simp [e])
    have hl := ih (fun e => h (List.mem_cons_of_mem _ e))
    by_cases e : a < block
    · have e' : ¬ block < a := by omega
      simpa [List.filter_cons, e, e'] using hl.cons a
    · have e' : block < a := by omega
      simp only [List.filter_cons, e, e', decide_true, decide_false, if_true, Bool.false_eq_true, if_false]
      exact List.perm_middle.trans (hl.cons a)

theorem Blocks.add_perm (pool : List Nat) (block : Nat) (h : block ∉ pool) : (Blocks.add pool block).Perm (block :: pool) :=
  List.perm_middle.trans ((Blocks.split_at pool block h).cons block)

theorem Blocks.addAll_perm (blocks : List Nat) : ∀ pool : List Nat, (pool ++ blocks).Nodup →
    (Blocks.addAll pool blocks).Perm (pool ++ blocks) := by
  induction blocks with
  | nil => intro pool _; simp [Blocks.addAll]
  | cons b l ih =>
    intro pool h
    have hp : (pool ++ b :: l).Perm ((b :: pool) ++ l) := List.perm_middle
    have hb : b ∉ pool := fun e => by
      have := (hp.nodup_iff.mp h); simp at this; exact this.1.1 e
    have ha : (Blocks.add pool b ++ l).Perm ((b :: pool) ++ l) := (Blocks.add_perm pool b hb).append_right l
    exact (ih (Blocks.add pool b) (ha.symm.nodup_iff.mp (hp.nodup_iff.mp h))).trans (ha.trans hp.symm)

theorem Blocks.remove_perm (pool : List Nat) (block : Nat) (h : block ∈ pool) (n : pool.Nodup) :
    (block :: Blocks.remove pool block).Perm pool := by
  unfold Blocks.remove
  have e : pool.filter (fun b => decide (b ≠ block)) = pool.erase block := by
    rw [n.erase_eq_filter]; apply List.filter_congr; intro b _; by_cases e : b = block <;> simp [e]
  rw [e]
  exact (List.perm_cons_erase h).symm

/-! ## The entries of one image -/

theorem Bands.put_rising (bands : List (Nat × BandEntry)) (i : Nat) (e : BandEntry)
    (h : bands.Pairwise (fun a b => a.1 < b.1)) : (Bands.put bands i e).Pairwise (fun a b => a.1 < b.1) := by
  unfold Bands.put
  rw [List.pairwise_append]
  refine ⟨h.filter _, List.pairwise_cons.mpr ⟨fun a ha => ?_, h.filter _⟩, fun a ha b hb => ?_⟩
  · simpa using (List.mem_filter.mp ha).2
  · have h1 : a.1 < i := by simpa using (List.mem_filter.mp ha).2
    rcases List.mem_cons.mp hb with rfl | hb
    · exact h1
    · have h2 : i < b.1 := by simpa using (List.mem_filter.mp hb).2
      omega

/-- Rising entries are those below an index, its own if there is one, and those above it. -/
theorem Bands.split_at (bands : List (Nat × BandEntry)) (i : Nat) (h : bands.Pairwise (fun a b => a.1 < b.1)) :
    bands = bands.filter (fun e => e.1 < i) ++
      ((Bands.find bands i).toList.map (fun e => (i, e)) ++ bands.filter (fun e => i < e.1)) := by
  induction bands with
  | nil => rfl
  | cons a l ih =>
    obtain ⟨h1, h2⟩ := List.pairwise_cons.mp h
    have above : ∀ k, k ≤ a.1 → l.filter (fun e => decide (e.1 < k)) = [] := fun k hk => by
      rw [List.filter_eq_nil_iff]; intro b hb; have := h1 b hb; simp; omega
    have all : ∀ k, k ≤ a.1 → l.filter (fun e => decide (k < e.1)) = l := fun k hk => by
      rw [List.filter_eq_self]; intro b hb; have := h1 b hb; simp; omega
    rcases Nat.lt_trichotomy a.1 i with e | e | e
    · have e2 : ¬ i < a.1 := by omega
      have e3 : ¬ a.1 = i := by omega
      have f : Bands.find (a :: l) i = Bands.find l i := by unfold Bands.find; simp [e3]
      rw [f]
      simp only [List.filter_cons, e, e2, decide_true, decide_false, if_true, Bool.false_eq_true, if_false,
        List.cons_append]
      exact congrArg (a :: ·) (ih h2)
    · have e2 : ¬ i < a.1 := by omega
      have e3 : ¬ a.1 < i := by omega
      have f : Bands.find (a :: l) i = some a.2 := by unfold Bands.find; simp [e]
      rw [f]
      simp only [List.filter_cons, e2, e3, decide_false, Bool.false_eq_true, if_false]
      rw [above i (by omega), all i (by omega), ← e]
      rfl
    · have e2 : ¬ a.1 < i := by omega
      have e3 : ¬ a.1 = i := by omega
      have f : Bands.find (a :: l) i = none := by
        unfold Bands.find
        have : l.find? (fun e => decide (e.1 = i)) = none := by
          rw [List.find?_eq_none]; intro b hb; have := h1 b hb; simp; omega
        simp [e3, this]
      rw [f]
      simp only [List.filter_cons, e, e2, decide_true, decide_false, if_true, Bool.false_eq_true, if_false]
      rw [above i (by omega), all i (by omega)]
      rfl

theorem Bands.blocks_append (a b : List (Nat × BandEntry)) : Bands.blocks (a ++ b) = Bands.blocks a ++ Bands.blocks b := by
  unfold Bands.blocks; rw [List.filterMap_append]

/-- The block of an entry, if it is present. -/
def BandEntry.block : BandEntry → List Nat
  | .present block _ _ => [block]
  | .lost => []

theorem Bands.blocks_cons (i : Nat) (e : BandEntry) (l : List (Nat × BandEntry)) :
    Bands.blocks ((i, e) :: l) = e.block ++ Bands.blocks l := by
  cases e <;> rfl

/-- An entry set in place of another trades the one's block for the other's. -/
theorem Bands.put_blocks (bands : List (Nat × BandEntry)) (i : Nat) (h : bands.Pairwise (fun a b => a.1 < b.1)) :
    ∃ rest, (Bands.blocks bands).Perm (((Bands.find bands i).map BandEntry.block).getD [] ++ rest)
      ∧ ∀ e, (Bands.blocks (Bands.put bands i e)).Perm (e.block ++ rest) := by
  refine ⟨Bands.blocks (bands.filter (fun e => e.1 < i)) ++ Bands.blocks (bands.filter (fun e => i < e.1)), ?_, fun e => ?_⟩
  · have s := Bands.split_at bands i h
    have : Bands.blocks bands = Bands.blocks (bands.filter (fun e => decide (e.1 < i))) ++
        (((Bands.find bands i).map BandEntry.block).getD [] ++ Bands.blocks (bands.filter (fun e => decide (i < e.1)))) := by
      conv => lhs; rw [s]
      rw [Bands.blocks_append, Bands.blocks_append]
      cases Bands.find bands i with
      | none => rfl
      | some e => simp only [Option.toList_some, List.map_cons, List.map_nil, Option.map_some, Option.getD_some]
                  rw [Bands.blocks_cons]; simp [Bands.blocks]
    rw [this]
    exact List.perm_append_comm_assoc _ _ _
  · unfold Bands.put
    rw [Bands.blocks_append, Bands.blocks_cons]
    exact List.perm_append_comm_assoc _ _ _

/-! ## The images of a job, and of all jobs -/

theorem imageBlocks_set (images : List ImageRec) (i : Nat) (r : ImageRec) (h : images[i]? = some r) :
    ∃ rest, (imageBlocks images).Perm (Bands.blocks r.bands ++ rest)
      ∧ ∀ r' : ImageRec, (imageBlocks (images.set i r')).Perm (Bands.blocks r'.bands ++ rest) := by
  obtain ⟨hi, e⟩ := List.getElem?_eq_some_iff.mp h
  refine ⟨imageBlocks (images.take i) ++ imageBlocks (images.drop (i + 1)), ?_, fun r' => ?_⟩
  · have : images = images.take i ++ r :: images.drop (i + 1) := by
      rw [← e]; simp
    conv => lhs; rw [this]
    unfold imageBlocks
    rw [List.flatMap_append, List.flatMap_cons]
    exact List.perm_append_comm_assoc _ _ _
  · rw [List.set_eq_take_append_cons_drop, if_pos hi]
    unfold imageBlocks
    rw [List.flatMap_append, List.flatMap_cons]
    exact List.perm_append_comm_assoc _ _ _

/-- The blocks that present bands of all jobs hold. -/
def usedOf (images : Vector (List ImageRec) 128) : List Nat := (List.finRange 128).flatMap (fun j => imageBlocks images[j])

theorem usedOf_set (images : Vector (List ImageRec) 128) (j : Slot) :
    ∃ rest, (usedOf images).Perm (imageBlocks images[j] ++ rest)
      ∧ ∀ l : List ImageRec, (usedOf (images.set j l)).Perm (imageBlocks l ++ rest) := by
  obtain ⟨a, b, e⟩ := List.append_of_mem (List.mem_finRange j)
  have n : (a ++ j :: b).Nodup := e ▸ List.nodup_finRange 128
  have ha : j ∉ a := fun h => by
    have := (List.nodup_append.mp n).2.2 j h j (by simp); exact this rfl
  have hb : j ∉ b := (List.nodup_cons.mp (List.nodup_append.mp n).2.1).1
  have same : ∀ (c : List Slot) (l : List ImageRec), j ∉ c →
      c.flatMap (fun k => imageBlocks (images.set j l)[k]) = c.flatMap (fun k => imageBlocks images[k]) := by
    intro c l hc
    rw [List.flatMap_def, List.flatMap_def]
    congr 1
    apply List.map_congr_left
    intro k hk
    have : (j : Nat) ≠ (k : Nat) := fun e => hc (Fin.ext e ▸ hk)
    simp [Vector.getElem_set_ne _ _ this]
  refine ⟨a.flatMap (fun k => imageBlocks images[k]) ++ b.flatMap (fun k => imageBlocks images[k]), ?_, fun l => ?_⟩
  · unfold usedOf
    rw [e, List.flatMap_append, List.flatMap_cons]
    exact List.perm_append_comm_assoc _ _ _
  · unfold usedOf
    rw [e, List.flatMap_append, List.flatMap_cons, same a l ha, same b l hb]
    have : (images.set j l)[j] = l := by simp
    rw [this]
    exact List.perm_append_comm_assoc _ _ _

/-- One image record replaced trades its blocks for those of the new record. -/
theorem usedOf_setImage (images : Vector (List ImageRec) 128) (j : Slot) (i : Nat) (r : ImageRec)
    (h : (images[j])[i]? = some r) :
    ∃ rest, (usedOf images).Perm (Bands.blocks r.bands ++ rest)
      ∧ ∀ r' : ImageRec, (usedOf (images.set j ((images[j]).set i r'))).Perm (Bands.blocks r'.bands ++ rest) := by
  obtain ⟨rest, a, b⟩ := usedOf_set images j
  obtain ⟨rest', c, d⟩ := imageBlocks_set images[j] i r h
  refine ⟨rest' ++ rest, ?_, fun r' => ?_⟩
  · exact a.trans ((c.append_right rest).trans (by rw [List.append_assoc]))
  · exact (b _).trans (((d r').append_right rest).trans (by rw [List.append_assoc]))

/-! ## What the spool manager's operations keep -/

/-- The band map holds this present entry. -/
def Spool.Holds (x : Spool) (j : Slot) (image index : Nat) (e : BandEntry) : Prop :=
  ∃ r, (x.images[j])[image]? = some r ∧ Bands.find r.bands index = some e ∧ e ≠ .lost

/-- What every operation of the spool manager but the store of a band does: a sound spool stays sound, the pool loses no block,
and no band becomes present. -/
structure SpoolCalm (x y : Spool) : Prop where
  sound : x.Sound → y.Sound
  grows : ∀ b ∈ x.pool, b ∈ y.pool
  absent : ∀ j image index e, y.Holds j image index e → x.Holds j image index e

theorem SpoolCalm.refl (x : Spool) : SpoolCalm x x := ⟨id, fun _ => id, fun _ _ _ _ => id⟩

theorem SpoolCalm.trans {x y z : Spool} (h : SpoolCalm x y) (k : SpoolCalm y z) : SpoolCalm x z :=
  ⟨fun e => k.sound (h.sound e), fun b e => k.grows b (h.grows b e), fun j i n e g => h.absent j i n e (k.absent j i n e g)⟩

theorem Spool.Sound.nodup {x : Spool} (h : x.Sound) : (x.pool ++ x.retired ++ usedOf x.images).Nodup :=
  h.blocks.symm.nodup_iff.mp List.nodup_range

theorem images_set_mem {images : Vector (List ImageRec) 128} {j : Slot} {l : List ImageRec} {P : ImageRec → Prop}
    (h : ∀ (k : Slot), ∀ r ∈ images[k], P r) (g : ∀ r ∈ l, P r) (k : Slot) : ∀ r ∈ (images.set j l)[k], P r := by
  intro r hr
  simp only [Fin.getElem_fin, Vector.getElem_set] at hr
  split at hr
  · exact g r hr
  · exact h k r hr

/-- The images of a slot and the pool change together, so that every block stays where it is counted once. -/
theorem Spool.Sound.trade {x : Spool} (h : x.Sound) (j : Slot) (l : List ImageRec) (pool : List Nat)
    (p : pool.Pairwise (· < ·)) (b : ∀ r ∈ l, r.bands.Pairwise (fun a b => a.1 < b.1))
    (e : (pool ++ usedOf (x.images.set j l)).Perm (x.pool ++ usedOf x.images)) :
    Spool.Sound { x with images := x.images.set j l, pool := pool } where
  pool := p
  bands := fun k => images_set_mem h.bands b k
  testing := h.testing
  blocks := by
    have a : ∀ u v w : List Nat, (u ++ v ++ w).Perm (v ++ (u ++ w)) := fun u v w => by
      rw [List.append_assoc]; exact List.perm_append_comm_assoc _ _ _
    exact (a _ _ _).trans ((e.append_left x.retired).trans ((a _ _ _).symm.trans h.blocks))

theorem gone_bands : ImageRec.gone.bands = [] := rfl

theorem perm_swap_in {a b c d : List Nat} (h : d.Perm (b ++ c)) : ((a ++ b) ++ c).Perm (a ++ d) := by
  rw [List.append_assoc]; exact h.symm.append_left a

theorem set_bands {x : Spool} (h : x.Sound) (j : Slot) (i : Nat) (r : ImageRec)
    (hr : r.bands.Pairwise (fun a b => a.1 < b.1)) :
    ∀ q ∈ (x.images[j]).set i r, q.bands.Pairwise (fun a b => a.1 < b.1) := by
  intro q hq
  rcases List.mem_or_eq_of_mem_set hq with m | rfl
  · exact h.bands j q m
  · exact hr

theorem fresh_pool {x : Spool} (h : x.Sound) {blocks rest : List Nat} (e : (usedOf x.images).Perm (blocks ++ rest)) :
    (x.pool ++ blocks).Nodup := by
  have n := h.nodup
  have m : ((x.pool ++ blocks) ++ (x.retired ++ rest)).Perm (x.pool ++ x.retired ++ usedOf x.images) := by
    have := e.append_left (x.pool ++ x.retired)
    refine List.Perm.trans ?_ this.symm
    rw [List.append_assoc, List.append_assoc]
    refine List.Perm.append_left _ ?_
    exact List.perm_append_comm_assoc _ _ _
  exact (List.nodup_append.mp (m.nodup_iff.mpr n)).1

theorem Spool.Holds.set {x : Spool} {j k : Slot} {i n index : Nat} {r : ImageRec} {e : BandEntry} {pool : List Nat}
    (h : Spool.Holds { x with images := x.images.set j ((x.images[j]).set i r), pool := pool } k n index e) :
    x.Holds k n index e ∨ (k = j ∧ n = i ∧ Bands.find r.bands index = some e) := by
  obtain ⟨q, h1, h2, h3⟩ := h
  simp only [Fin.getElem_fin, Vector.getElem_set] at h1
  split at h1
  · rename_i he
    have he' : j = k := Fin.ext he
    rw [List.getElem?_set] at h1
    split at h1
    · rename_i hn
      split at h1
      · cases h1; exact .inr ⟨he'.symm, hn.symm, h2⟩
      · cases h1
    · refine .inl ⟨q, ?_, h2, h3⟩
      rw [← he']; exact h1
  · exact .inl ⟨q, h1, h2, h3⟩

variable (s : State)

/-- R54: a released image's blocks join the pool, and its entries go. -/
theorem releaseImage_spool (j : Slot) (i : Nat) : SpoolCalm s.spool (s.releaseImage j i).spool := by
  unfold State.releaseImage
  cases h : s.image j i with
  | none => exact SpoolCalm.refl _
  | some r =>
    show SpoolCalm s.spool { s.spool with
      images := s.spool.images.set j ((s.spool.images[j]).set i .gone)
      pool := Blocks.addAll s.spool.pool (Bands.blocks r.bands) }
    refine ⟨fun g => ?_, fun b hb => (Blocks.mem_addAll _ _ _).mpr (.inl hb), fun k n index e he => ?_⟩
    · obtain ⟨rest, a, b⟩ := usedOf_setImage s.spool.images j i r h
      have f := fresh_pool g a
      refine g.trade j _ _ (Blocks.addAll_ascending _ _ g.pool) (set_bands g j i _ List.Pairwise.nil) ?_
      exact ((Blocks.addAll_perm _ _ f).append (b .gone)).trans (perm_swap_in a)
    · rcases he.set with he | ⟨_, _, he⟩
      · exact he
      · cases he

theorem releaseImages_spool (j : Slot) (l : List Nat) : ∀ s : State,
    SpoolCalm s.spool (l.foldl (fun s i => s.releaseImage j i) s).spool := by
  induction l with
  | nil => exact fun s => SpoolCalm.refl _
  | cons i l ih => exact fun s => (releaseImage_spool s j i).trans (ih _)

/-- R55: a terminal job's blocks join the pool, and its images go. -/
theorem discardJob_spool (j : Slot) : SpoolCalm s.spool (s.discardJob j).spool := by
  show SpoolCalm s.spool { s.spool with
    images := s.spool.images.set j []
    pool := Blocks.addAll s.spool.pool (imageBlocks s.spool.images[j]) }
  refine ⟨fun g => ?_, fun b hb => (Blocks.mem_addAll _ _ _).mpr (.inl hb), fun k n index e he => ?_⟩
  · obtain ⟨rest, a, b⟩ := usedOf_set s.spool.images j
    have f := fresh_pool g a
    refine g.trade j _ _ (Blocks.addAll_ascending _ _ g.pool) (fun r hr => by cases hr) ?_
    exact ((Blocks.addAll_perm _ _ f).append (b [])).trans (perm_swap_in a)
  · obtain ⟨q, h1, h2, h3⟩ := he
    simp only [Fin.getElem_fin, Vector.getElem_set] at h1
    split at h1
    · cases h1
    · exact ⟨q, h1, h2, h3⟩

theorem Spool.Sound.startUp {x : Spool} (h : x.Sound) (st : StartUp) (e : st = .starting ↔ x.startUp = .starting) :
    Spool.Sound { x with startUp := st } where
  pool := h.pool
  bands := h.bands
  testing := fun g => h.testing (e.mp g)
  blocks := by
    have := h.blocks
    by_cases g : x.startUp = .starting
    · rw [if_pos g] at this; rw [if_pos (by exact e.mpr g)]; exact this
    · rw [if_neg g] at this; rw [if_neg (by exact fun k => g (e.mp k))]; exact this

/-- R50: the block of a band lost is retired, and the entry is present no more. -/
theorem loseBand_spool (j : Slot) (i index : Nat) (reader : Option PortNo) :
    SpoolCalm s.spool (s.loseBand j i index reader).spool := by
  unfold State.loseBand
  split
  · rename_i r block length counts x hr hb hx
    have hf : Bands.find r.bands index = some (.present block length counts) := by
      unfold State.band at hb; rw [hr] at hb; exact hb
    have n : ∀ (t : State) (k : NoticeKind) (b : List Byte), (t.notify k b).spool = t.spool := fun t k b => by
      unfold State.notify; split
      · rfl
      · split <;> rfl
    rw [n]
    show SpoolCalm s.spool { s.spool with
      images := s.spool.images.set j ((s.spool.images[j]).set i (r.lose index counts))
      retired := s.spool.retired ++ [block]
      startUp := if s.spool.startUp = StartUp.ready then StartUp.readyDegraded else s.spool.startUp }
    refine ⟨fun g => ?_, fun b hb => hb, fun k n m e he => ?_⟩
    · have hrm : r ∈ s.spool.images[j] := List.mem_of_getElem? hr
      have hw := g.bands j r hrm
      obtain ⟨rest, a, b⟩ := usedOf_setImage s.spool.images j i r hr
      obtain ⟨rest', c, d⟩ := Bands.put_blocks r.bands index hw
      rw [hf] at c
      have c' : (Bands.blocks r.bands).Perm ([block] ++ rest') := c
      have d' : (Bands.blocks (r.lose index counts).bands).Perm ([] ++ rest') := d .lost
      refine Spool.Sound.startUp (x := { s.spool with
        images := s.spool.images.set j ((s.spool.images[j]).set i (r.lose index counts))
        retired := s.spool.retired ++ [block] }) ?_ _ (by cases s.spool.startUp <;> simp)
      refine ⟨g.pool, ?_, fun k => images_set_mem g.bands (set_bands g j i _ (Bands.put_rising _ _ _ hw)) k, g.testing⟩
      have e1 : (usedOf (s.spool.images.set j ((s.spool.images[j]).set i (r.lose index counts)))).Perm (rest' ++ rest) :=
        (b _).trans (d'.append_right rest)
      have e2 : (usedOf s.spool.images).Perm ([block] ++ (rest' ++ rest)) :=
        a.trans ((c'.append_right rest).trans (by rw [List.append_assoc]))
      refine List.Perm.trans ?_ g.blocks
      show (s.spool.pool ++ (s.spool.retired ++ [block]) ++ usedOf _).Perm _
      rw [List.append_assoc, List.append_assoc, List.append_assoc]
      refine List.Perm.append_left _ (List.Perm.append_left _ ?_)
      exact (e1.append_left [block]).trans e2.symm
    · have hl := he.choose_spec.2.2
      rcases Spool.Holds.set (pool := s.spool.pool) he with g | ⟨rfl, rfl, g⟩
      · exact g
      · refine ⟨r, hr, ?_, hl⟩
        have f : Bands.find (Bands.put r.bands index .lost) m = some e := g
        rw [Bands.find_put] at f
        split at f
        · cases f; exact absurd rfl hl
        · exact f
  · exact SpoolCalm.refl _

/-- R48: a band stored takes its block from the pool, at a key where none was present. -/
theorem storeBand_spool (w : BandWrite) (h : s.spool.Sound) (hb : w.block ∈ s.spool.pool)
    (ha : s.bandPresent w.slot w.image w.band = false) : (s.storeBand w).spool.Sound := by
  unfold State.storeBand
  cases hr : s.image w.slot w.image with
  | none => exact h
  | some r =>
    have hw := h.bands w.slot r (List.mem_of_getElem? hr)
    obtain ⟨rest, a, b⟩ := usedOf_setImage s.spool.images w.slot w.image r hr
    obtain ⟨rest', c, d⟩ := Bands.put_blocks r.bands w.band hw
    have c' : (Bands.blocks r.bands).Perm rest' := by
      have f : s.band w.slot w.image w.band = Bands.find r.bands w.band := by unfold State.band; rw [hr]
      unfold State.bandPresent at ha
      rw [f] at ha
      cases e : Bands.find r.bands w.band with
      | none => rw [e] at c; exact c
      | some e' =>
        rw [e] at c ha
        cases e' with
        | present => cases ha
        | lost => exact c
    refine h.trade w.slot _ _ (Blocks.remove_ascending _ _ h.pool) (set_bands h _ _ _ (Bands.put_rising _ _ _ hw)) ?_
    have n : s.spool.pool.Nodup := (List.nodup_append.mp (List.nodup_append.mp h.nodup).1).1
    have e1 := (b (r.store w.band w.block w.payload.length w.counts)).trans
      ((d (.present w.block w.payload.length w.counts)).append_right rest)
    have e2 := a.trans (c'.append_right rest)
    refine (e1.append_left _).trans ?_
    show (Blocks.remove s.spool.pool w.block ++ ([w.block] ++ rest' ++ rest)).Perm (s.spool.pool ++ usedOf s.spool.images)
    rw [List.append_assoc]
    refine List.perm_middle.trans ?_
    exact ((Blocks.remove_perm _ _ hb n).append_right _).trans (e2.symm.append_left _)

/-! ## Jobs opened, the self-test and the resets -/

theorem usedOf_none (images : Vector (List ImageRec) 128) (h : ∀ j : Slot, images[j] = []) : usedOf images = [] := by
  unfold usedOf
  rw [List.flatMap_eq_nil_iff]
  intro j _
  rw [h j]; rfl

/-- R45: the image records of a slot without images are made, all fresh. -/
theorem fill_spool (j : Slot) (n : Nat) (h : s.imagesOf j = []) :
    SpoolCalm s.spool (s.setImages j (List.replicate n ImageRec.fresh)).spool := by
  have none' : imageBlocks (List.replicate n ImageRec.fresh) = [] := by
    unfold imageBlocks
    rw [List.flatMap_eq_nil_iff]
    intro r hr
    rw [List.eq_of_mem_replicate hr]; rfl
  refine ⟨fun g => ?_, fun b hb => hb, fun k m index e he => ?_⟩
  · refine g.trade j _ _ g.pool (fun r hr => ?_) (List.Perm.append_left _ ?_)
    · rw [List.eq_of_mem_replicate hr]; exact List.Pairwise.nil
    · obtain ⟨rest, a, b⟩ := usedOf_set s.spool.images j
      have h' : s.spool.images[j] = [] := h
      rw [h'] at a
      have b' := b (List.replicate n ImageRec.fresh)
      rw [none'] at b'
      exact b'.trans a.symm
  · obtain ⟨q, h1, h2, h3⟩ := he
    simp only [State.setImages_spool, Fin.getElem_fin, Vector.getElem_set] at h1
    split at h1
    · rw [List.eq_of_mem_replicate (List.mem_of_getElem? h1)] at h2
      cases h2
    · exact ⟨q, h1, h2, h3⟩

/-- A block under test that takes its verdict joins the pool or the retired list (R40, R41). -/
theorem Spool.Sound.tested {x : Spool} (h : x.Sound) (hs : x.startUp = .starting) (pool retired : List Nat)
    (p : pool.Pairwise (· < ·)) (e : (pool ++ retired).Perm (x.testBlock :: (x.pool ++ x.retired))) (st : StartUp) (fails : Nat)
    (hst : st = .starting ↔ x.testBlock ≠ 32767) :
    Spool.Sound { x with
      pool := pool, retired := retired, testBlock := x.testBlock + 1, testFails := fails, startUp := st } where
  pool := p
  bands := h.bands
  testing g := by
    have := h.testing hs
    have := hst.mp g
    show x.testBlock + 1 < 32768
    omega
  blocks := by
    have b := h.blocks
    rw [if_pos hs] at b
    have r : (if st = .starting then x.testBlock + 1 else 32768) = x.testBlock + 1 := by
      split
      · rfl
      · rename_i g
        have : x.testBlock = 32767 := by
          by_contra n; exact g (hst.mpr n)
        omega
    show (pool ++ retired ++ _).Perm (List.range (if st = .starting then x.testBlock + 1 else 32768))
    rw [r, List.range_succ]
    refine (e.append_right _).trans ?_
    exact (b.cons x.testBlock).trans (List.perm_append_comm (l₁ := [x.testBlock]))

/-- The block under test is in no list yet (R40). -/
theorem Spool.Sound.untested {x : Spool} (h : x.Sound) (hs : x.startUp = .starting) : x.testBlock ∉ x.pool := by
  intro m
  have b := h.blocks
  rw [if_pos hs] at b
  have := b.mem_iff.mp (List.mem_append_left _ (List.mem_append_left _ m))
  simp at this

/-- The blocks not retired and the retired ones are the blocks, where the retired ones are blocks, each once (R42). -/
theorem blocksBut_perm (retired : List Nat) (n : retired.Nodup) (h : ∀ b ∈ retired, b < 32768) :
    (blocksBut retired ++ retired).Perm (List.range 32768) := by
  rw [List.perm_ext_iff_of_nodup]
  · intro b
    unfold blocksBut
    simp only [List.mem_append, List.mem_filter, List.mem_range, Bool.not_eq_true', List.contains_eq_mem, decide_eq_false_iff_not]
    constructor
    · rintro (g | g)
      · exact g.1
      · exact h b g
    · intro g
      by_cases m : b ∈ retired
      · exact .inr m
      · exact .inl ⟨g, m⟩
  · refine List.nodup_append.mpr ⟨List.nodup_range.filter _, n, fun a ha b hb e => ?_⟩
    unfold blocksBut at ha
    have := (List.mem_filter.mp ha).2
    rw [e] at this
    simp [hb] at this
  · exact List.nodup_range

/-- R41: the self-test ends in no other state than these. -/
theorem startUpOf_ends (n : Nat) : startUpOf n ≠ .starting := by
  unfold startUpOf; split
  · simp
  · split <;> simp

theorem blocksBut_ascending (retired : List Nat) : (blocksBut retired).Pairwise (· < ·) := by
  unfold blocksBut
  exact List.Pairwise.filter _ List.pairwise_lt_range

/-- The blocks of a sound spool manager are blocks of the DRAM. -/
theorem Spool.Sound.retired_lt {x : Spool} (h : x.Sound) : ∀ b ∈ x.retired, b < 32768 := by
  intro b hb
  have m := h.blocks.mem_iff.mp (List.mem_append_left _ (List.mem_append_right _ hb))
  rw [List.mem_range] at m
  split at m
  · rename_i g; have := h.testing g; omega
  · exact m

/-- R42: the spool manager is sound where a RESET QUICK leaves it. -/
theorem Spool.Sound.quick {x : Spool} (h : x.Sound) : x.quick.Sound := by
  have u : (List.finRange 128).flatMap (fun j => imageBlocks x.quick.images[j]) = [] :=
    usedOf_none x.quick.images (fun j => by simp [Spool.quick, Spool.afterPowerOn])
  have n := (List.nodup_append.mp (List.nodup_append.mp h.nodup).1).2.1
  have e := blocksBut_perm x.retired n h.retired_lt
  have st : x.quick.startUp ≠ .starting := startUpOf_ends _
  have pl : x.quick.pool = blocksBut x.retired := by simp only [Spool.quick]
  have rt : x.quick.retired = x.retired := by simp only [Spool.quick]
  refine ⟨by rw [pl]; exact blocksBut_ascending _, ?_, fun j r hr => by simp [Spool.quick, Spool.afterPowerOn] at hr,
    fun g => absurd g st⟩
  rw [u, List.append_nil, if_neg st, pl, rt]
  exact e

/-- R40: the spool manager is sound where a power-on or a RESET FULL leaves it. -/
theorem afterPowerOn_sound (dram : List Host.Cell) : Spool.Sound { Spool.afterPowerOn with dram := dram } where
  pool := List.Pairwise.nil
  bands j r hr := by simp [Spool.afterPowerOn] at hr
  testing _ := by simp [Spool.afterPowerOn]
  blocks := by
    have u : (List.finRange 128).flatMap (fun j => imageBlocks (Spool.afterPowerOn.images)[j]) = [] :=
      usedOf_none Spool.afterPowerOn.images (fun j => by simp [Spool.afterPowerOn])
    have r : (if Spool.afterPowerOn.startUp = StartUp.starting then Spool.afterPowerOn.testBlock else 32768) = 0 := if_pos rfl
    show ([] ++ [] ++ (List.finRange 128).flatMap (fun j => imageBlocks (Spool.afterPowerOn.images)[j])).Perm
      (List.range (if Spool.afterPowerOn.startUp = StartUp.starting then Spool.afterPowerOn.testBlock else 32768))
    rw [u, r]
    exact List.Perm.nil

end Sys2Proof.Machine
end

