-- ==== Sys2Proof/Laws/Calm.lean ====
section
/-! SUPPORT. What everything that follows from an event (the work list of Machine/Agenda.lean) leaves as it was, said once for
each shared operation: the clock, the queue of commands, the DRAM, the link but for its notices, the meter log, the accounts
but for their press time, the good count, waste and charge of every job, the settings of every port; and that the spool stays sound
and every job in its place. -/

namespace Sys2Proof.Machine

/-- What following events never change of a port: its line signal, held flag and settings; and its paper-path queue keeps to its
bound. -/
structure PortKept (x y : Port) : Prop where
  signal : y.signal = x.signal
  held : y.held = x.held
  grace : y.grace = x.grace
  gateWait : y.gateWait = x.gateWait
  interval : y.interval = x.interval
  bounded : x.Bounded → y.Bounded

/-- What following events never change of a job record: its description, its outcomes and its losses; and its next ordinal
never passes its total. -/
def JobCalm (o o' : Option Job) : Prop :=
  match o, o' with
  | none, none => True
  | some x, some y =>
    y = { x with
      state := y.state, cancel := y.cancel, suspend := y.suspend, slice := y.slice, next := y.next
      pressTime := y.pressTime, lastPort := y.lastPort } ∧ (x.next ≤ x.total → y.next ≤ y.total)
  | _, _ => False

/-- What every operation that serves what follows from an event leaves as it was, but for the places of jobs. -/
structure NearCalm (s t : State) : Prop where
  time : t.partTime = s.partTime
  pending : t.pending = s.pending
  dram : t.spool.dram = s.spool.dram
  startUp : t.spool.startUp = s.spool.startUp
  retired : t.spool.retired = s.spool.retired
  spool : SpoolCalm s.spool t.spool
  link : t.link = { s.link with notices := t.link.notices, overflow := t.link.overflow }
  notices : s.link.notices <+: t.link.notices
  room : s.link.notices.length ≤ 64 → t.link.notices.length ≤ 64
  meter : t.meter = { s.meter with accounts := t.meter.accounts, reservations := t.meter.reservations }
  logRoom : s.meter.Room → t.meter.Room
  slices : t.dispatch.slices = s.dispatch.slices
  accounts : ∀ a, t.account a = { s.account a with pressTime := (t.account a).pressTime }
  jobs : ∀ j, JobCalm (s.job j) (t.job j)
  ports : ∀ p, PortKept (s.port p) (t.port p)

/-- What everything that follows from an event leaves as it was; and every job stays in its place, or takes another whole. -/
structure Calm (s t : State) : Prop extends NearCalm s t where
  placed : s.Placed → t.Placed

theorem PortKept.refl (x : Port) : PortKept x x := ⟨rfl, rfl, rfl, rfl, rfl, id⟩

theorem PortKept.trans {x y z : Port} (h : PortKept x y) (k : PortKept y z) : PortKept x z :=
  ⟨k.signal.trans h.signal, k.held.trans h.held, k.grace.trans h.grace, k.gateWait.trans h.gateWait,
    k.interval.trans h.interval, fun b => k.bounded (h.bounded b)⟩

theorem JobCalm.refl (o : Option Job) : JobCalm o o := by cases o <;> simp [JobCalm]

theorem JobCalm.trans {a b c : Option Job} (h : JobCalm a b) (k : JobCalm b c) : JobCalm a c := by
  cases a <;> cases b <;> cases c <;> simp only [JobCalm] at *
  exact ⟨by rw [k.1, h.1], fun n => k.2 (h.2 n)⟩

theorem NearCalm.refl (s : State) : NearCalm s s :=
  ⟨rfl, rfl, rfl, rfl, rfl, SpoolCalm.refl _, rfl, List.prefix_rfl, id, rfl, id, rfl, fun _ => rfl, fun _ => JobCalm.refl _,
    fun _ => PortKept.refl _⟩

theorem Calm.refl (s : State) : Calm s s := ⟨NearCalm.refl s, id⟩

theorem NearCalm.trans {s t u : State} (h : NearCalm s t) (k : NearCalm t u) : NearCalm s u where
  time := k.time.trans h.time
  pending := k.pending.trans h.pending
  dram := k.dram.trans h.dram
  startUp := k.startUp.trans h.startUp
  retired := k.retired.trans h.retired
  spool := h.spool.trans k.spool
  link := by rw [k.link, h.link]
  notices := h.notices.trans k.notices
  room := fun r => k.room (h.room r)
  meter := by rw [k.meter, h.meter]
  logRoom := fun r => k.logRoom (h.logRoom r)
  slices := k.slices.trans h.slices
  accounts := fun a => by rw [k.accounts a, h.accounts a]
  jobs := fun j => (h.jobs j).trans (k.jobs j)
  ports := fun p => (h.ports p).trans (k.ports p)

theorem Calm.trans {s t u : State} (h : Calm s t) (k : Calm t u) : Calm s u :=
  ⟨h.toNearCalm.trans k.toNearCalm, fun g => k.placed (h.placed g)⟩

/-! ## The writers -/

variable (s : State)

theorem setPort_calm (p : PortNo) (x : Port) (h : PortKept (s.port p) x) : Calm s (s.setPort p x) :=
  { Calm.refl s with
    ports := fun q => by
      rw [State.setPort_port]
      split
      · rename_i e; rw [← e]; exact h
      · exact PortKept.refl _ }

theorem modPort_calm (p : PortNo) (f : Port → Port) (h : PortKept (s.port p) (f (s.port p))) : Calm s (s.modPort p f) :=
  setPort_calm s p _ h

theorem setJob_near (j : Slot) (o : Option Job) (h : JobCalm (s.job j) o) : NearCalm s (s.setJob j o) :=
  { NearCalm.refl s with
    jobs := fun k => by
      rw [State.setJob_job]
      split
      · rename_i e; rw [← e]; exact h
      · exact JobCalm.refl _ }

theorem setJob_calm (j : Slot) (o : Option Job) (h : JobCalm (s.job j) o) (e : placeOf o = placeOf (s.job j)) :
    Calm s (s.setJob j o) := ⟨setJob_near s j o h, fun g => setJob_placed g o e⟩

theorem modJob_calm (j : Slot) (f : Job → Job)
    (h : ∀ x, JobCalm (some x) (some (f x)) ∧ placeOf (some (f x)) = placeOf (some x)) : Calm s (s.modJob j f) := by
  refine setJob_calm s j _ ?_ ?_
  · cases s.job j with
    | none => trivial
    | some x => exact (h x).1
  · cases s.job j with
    | none => rfl
    | some x => exact (h x).2

theorem pressAccount_calm (a : AccountNo) (n : Account → Nat) :
    Calm s (s.modAccount a (fun x => { x with pressTime := n x })) :=
  { Calm.refl s with
    meter := rfl
    accounts := fun b => by
      rw [State.modAccount_account]
      split
      · rename_i e; rw [← e]
      · rfl }

theorem setAlert_calm (p : PortNo) (x : Alert) : Calm s (s.setAlert p x) := { Calm.refl s with }

theorem setAssignment_near (p : PortNo) (x : Option Assignment) : NearCalm s (s.setAssignment p x) := { NearCalm.refl s with }

/-- An assignment record that names the job it named. -/
theorem setAssignment_calm (p : PortNo) (x : Option Assignment) (h : x.map (·.slot) = s.assigned p) :
    Calm s (s.setAssignment p x) :=
  ⟨setAssignment_near s p x, fun g => g.congr (fun _ => rfl) rfl rfl (fun q => by
    unfold State.assigned at h ⊢
    rw [State.setAssignment_assignment]
    split
    · rename_i e; rw [← e]; exact h
    · rfl) (fun _ => id)⟩

theorem setLists_near (r : Vector (List Slot) 8) (w : List Slot) : NearCalm s (s.setLists r w) := { NearCalm.refl s with }

theorem post_calm (t : Task) : Calm s (s.post t) := { Calm.refl s with }

theorem foldl_calm {α : Type} (f : State → α → State) (h : ∀ s a, Calm s (f s a)) (l : List α) (s : State) :
    Calm s (l.foldl f s) := by
  induction l generalizing s with
  | nil => exact Calm.refl s
  | cons a l ih => exact (h s a).trans (ih _)

/-! ## Notices, alerts, the panel -/

theorem notify_calm (k : NoticeKind) (body : List Byte) : Calm s (s.notify k body) := by
  unfold State.notify
  split
  · exact Calm.refl s
  · split
    · rename_i h
      exact { Calm.refl s with
        link := rfl
        notices := List.prefix_append _ _
        room := fun _ => by simp only [State.modLink, List.length_append, List.length_singleton]; omega }
    · exact { Calm.refl s with link := rfl, notices := List.prefix_rfl, room := id }

theorem pumpPanel_calm : Calm s s.pumpPanel := by
  unfold State.pumpPanel; split <;> exact { Calm.refl s with }

theorem queueLine_calm (p : PortNo) : Calm s (s.queueLine p) := by
  unfold State.queueLine
  refine Calm.trans ?_ (pumpPanel_calm _)
  exact { Calm.refl s with }

theorem openAlert_calm (p : PortNo) (c : CauseSet) (r : AlertReason) : Calm s (s.openAlert p c r) := by
  unfold State.openAlert State.notifyAlert
  exact ((setAlert_calm _ _ _).trans (notify_calm _ _ _)).trans (queueLine_calm _ _)

theorem changeCauses_calm (p : PortNo) (f : CauseSet → CauseSet) : Calm s (s.changeCauses p f) := by
  unfold State.changeCauses State.notifyAlert
  dsimp only
  split
  · exact Calm.refl s
  · split
    · exact ((setAlert_calm _ _ _).trans (notify_calm _ _ _)).trans (queueLine_calm _ _)
    · exact openAlert_calm _ _ _ _
    · split
      · exact openAlert_calm _ _ _ _
      · split
        · exact ((setAlert_calm _ _ _).trans (notify_calm _ _ _)).trans (queueLine_calm _ _)
        · exact (setAlert_calm _ _ _).trans (notify_calm _ _ _)

/-! ## Jobs and stock -/

theorem jobTo_near (j : Slot) (st : JobState) : NearCalm s (s.jobTo j st) := by
  unfold State.jobTo
  split
  · rename_i x h
    split
    · exact NearCalm.refl s
    · exact (setJob_near _ _ _ (by rw [h]; exact ⟨rfl, id⟩)).trans (notify_calm _ _ _).toNearCalm
  · exact NearCalm.refl s

theorem unlist_near (j : Slot) : NearCalm s (s.unlist j) := setLists_near _ _ _

theorem joinReady_near (j : Slot) (b : Bool) : NearCalm s (s.joinReady j b) := by
  unfold State.joinReady
  split
  · exact setLists_near _ _ _
  · exact NearCalm.refl s

theorem joinWait_near (j : Slot) : NearCalm s (s.joinWait j) := setLists_near _ _ _

theorem notifyStock_calm (j : Slot) : Calm s (s.notifyStock j) := by
  unfold State.notifyStock
  split
  · exact notify_calm _ _ _
  · exact Calm.refl s

theorem toStockWait_near (j : Slot) : NearCalm s (s.toStockWait j) :=
  (((unlist_near _ _).trans (joinWait_near _ _)).trans (jobTo_near _ _ _)).trans (notifyStock_calm _ _).toNearCalm

variable {s} in
theorem toStockWait_placed (j : Slot) (h : s.Placed) (i : s.Idle j) : (s.toStockWait j).Placed := by
  obtain ⟨x, hx, hs⟩ := i
  exact (notifyStock_calm _ _).placed (joinWait_placed (State.Idle.unlist_out ⟨x, hx, hs⟩ h) (x := x) hx)

variable {s} in
theorem toStockWait_idle (j : Slot) {k : Slot} (i : s.Idle k) : (s.toStockWait j).Idle k := by
  have e : (s.toStockWait j).job k = (((s.unlist j).joinWait j).jobTo j .stockwait).job k := by
    unfold State.toStockWait State.notifyStock State.job
    split
    · rw [notice_jobs]
    · rfl
  unfold State.Idle
  rw [e]
  exact State.Idle.jobTo (s := (s.unlist j).joinWait j) i (by decide)

/-- The jobs that a stock's loss moves are QUEUED. -/
theorem judged_idle (h : s.Placed) (f : Slot → Bool) : ∀ j ∈ s.readyOrder.filter f, s.Idle j := by
  intro j hj
  obtain ⟨l, _, m⟩ := List.mem_flatMap.mp (List.mem_filter.mp hj).1
  obtain ⟨x, hx, hs, _⟩ := (h.ready l j).mp m
  exact ⟨x, hx, by rw [hs]; decide⟩

theorem foldl_near {α : Type} (f : State → α → State) (h : ∀ s a, NearCalm s (f s a)) (l : List α) (s : State) :
    NearCalm s (l.foldl f s) := by
  induction l generalizing s with
  | nil => exact NearCalm.refl s
  | cons a l ih => exact (h s a).trans (ih _)

theorem judgeStock_calm (b : Byte) : Calm s (s.judgeStock b) := by
  unfold State.judgeStock
  split
  · exact Calm.refl s
  · exact ⟨foldl_near _ (fun s j => toStockWait_near s j) _ _, fun g =>
      foldl_placed _ (fun s j p i => ⟨toStockWait_placed j p i, fun k q => toStockWait_idle j q⟩) _ s g
        (judged_idle s g _)⟩

theorem judgeStocks_calm (l : List Byte) : Calm s (s.judgeStocks l) :=
  foldl_calm _ (fun s b => judgeStock_calm s b) _ _

theorem place_near (j : Slot) (b : Bool) : NearCalm s (s.place j b) := by
  unfold State.place State.seekPort
  split
  · dsimp only
    split
    · exact ((((unlist_near _ _).trans (joinReady_near _ _ _)).trans (jobTo_near _ _ _)).trans (post_calm _ _).toNearCalm).trans
        (post_calm _ _).toNearCalm
    · exact (((unlist_near _ _).trans (joinWait_near _ _)).trans (jobTo_near _ _ _)).trans (notifyStock_calm _ _).toNearCalm
  · exact NearCalm.refl s

variable {s} in
/-- A job out of every place once it has left its list is placed whole (R61). -/
theorem place_placed (j : Slot) (b : Bool) (o : (s.unlist j).Out j) (h : (s.job j).isSome) : (s.place j b).Placed := by
  unfold State.place State.seekPort
  cases hx : s.job j with
  | none => rw [hx] at h; cases h
  | some x =>
    dsimp only
    split
    · exact ((post_calm _ _).trans (post_calm _ _)).placed (joinReady_placed o (x := x) hx b)
    · exact (notifyStock_calm _ _).placed (joinWait_placed o (x := x) hx)

/-- A job that runs on no port is placed anew. -/
theorem place_calm (j : Slot) (b : Bool) (h : s.jobIs j .running = false) : Calm s (s.place j b) := by
  refine ⟨place_near s j b, fun g => ?_⟩
  cases hx : s.job j with
  | none => unfold State.place; rw [hx]; exact g
  | some x =>
    refine place_placed j b (unlist_out g fun y hy e => ?_) (by rw [hx]; rfl)
    unfold State.jobIs at h
    rw [hy] at h
    simp [e] at h

/-! ## Ports -/

theorem enter_kept (x : Port) (st : PortState) (now : Word32) : PortKept x (x.enter st now) := by
  cases st <;> first
    | exact ⟨rfl, rfl, rfl, rfl, rfl, id⟩
    | exact ⟨rfl, rfl, rfl, rfl, rfl, fun h => ⟨h.1, fun c hc => by cases hc⟩⟩

theorem portTo_calm (p : PortNo) (st : PortState) : Calm s (s.portTo p st) := by
  unfold State.portTo State.notifyPort
  dsimp only
  split
  · exact Calm.refl s
  · split
    · exact ((setPort_calm _ _ _ (enter_kept _ _ _)).trans (notify_calm _ _ _)).trans (judgeStocks_calm _ _)
    · exact (setPort_calm _ _ _ (enter_kept _ _ _)).trans (notify_calm _ _ _)

theorem queueOut_kept (x : Port) (m : PressOut) : PortKept x (x.queueOut m) := by
  unfold Port.queueOut; split <;> exact ⟨rfl, rfl, rfl, rfl, rfl, id⟩

theorem send_calm (p : PortNo) (m : PressOut) : Calm s (s.send p m) := modPort_calm _ _ _ (queueOut_kept _ _)

theorem sendFill_calm (p : PortNo) (tag : Byte) (back : Bool) (band : Nat) : Calm s (s.sendFill p tag back band) :=
  (send_calm _ _ _).trans (modPort_calm _ _ _ (by exact ⟨rfl, rfl, rfl, rfl, rfl, id⟩))

theorem divert_calm (p : PortNo) (tag : Byte) : Calm s (s.divert p tag) := by
  unfold State.divert
  split
  · split
    · exact send_calm _ _ _
    · exact Calm.refl s
  · exact Calm.refl s

theorem identifyAt_calm (p : PortNo) : Calm s (s.identifyAt p) :=
  ((portTo_calm _ _ _).trans (modPort_calm _ _ _ (by exact ⟨rfl, rfl, rfl, rfl, rfl, id⟩))).trans (send_calm _ _ _)

theorem sensed_calm (p : PortNo) (sense : Sense) :
    Calm s (s.modPort p (fun x => { x with cls := senseClass x.signal sense, receiver := .hunting })) :=
  modPort_calm _ _ _ ⟨rfl, rfl, rfl, rfl, rfl, id⟩

theorem probe_calm (p : PortNo) (t : Option Timer) : Calm s (s.modPort p (fun x => { x with probeTimer := t })) :=
  modPort_calm _ _ _ ⟨rfl, rfl, rfl, rfl, rfl, id⟩

theorem readSense_calm (p : PortNo) (sense : Sense) : Calm s (s.readSense p sense) := by
  unfold State.readSense
  dsimp only
  split
  · exact (sensed_calm _ _ _).trans (portTo_calm _ _ _)
  · split
    · exact (sensed_calm _ _ _).trans (identifyAt_calm _ _)
    · split
      · exact (sensed_calm _ _ _).trans (portTo_calm _ _ _)
      · exact (((sensed_calm _ _ _).trans (portTo_calm _ _ _)).trans (probe_calm _ _ _)).trans (send_calm _ _ _)

theorem readSenseAfresh_calm (p : PortNo) (sense : Sense) : Calm s (s.readSenseAfresh p sense) :=
  (readSense_calm _ _ _).trans (modPort_calm _ _ _ (by exact ⟨rfl, rfl, rfl, rfl, rfl, id⟩))

theorem readAllSenses_calm (v : Vector Sense 12) : Calm s (s.readAllSenses v) :=
  foldl_calm _ (fun s p => readSenseAfresh_calm s p _) _ _

/-! ## The sheet-boundary decision -/

theorem stopFeeding_calm (p : PortNo) (c : DrainCause) : Calm s (s.stopFeeding p c) :=
  ((modPort_calm _ _ _ (by exact ⟨rfl, rfl, rfl, rfl, rfl, id⟩)).trans (portTo_calm _ _ _)).trans (post_calm _ _)

theorem reservations_near (n : Nat) (h : s.meter.Room → Meter.Room { s.meter with reservations := n }) :
    NearCalm s { s with meter := { s.meter with reservations := n } } := { NearCalm.refl s with meter := rfl, logRoom := h }

theorem reservations_calm (n : Nat) (h : s.meter.Room → Meter.Room { s.meter with reservations := n }) :
    Calm s { s with meter := { s.meter with reservations := n } } := ⟨reservations_near s n h, id⟩

/-- R110: a sheet is started where the log has room, the path has room and the job has a sheet to come. -/
theorem startSheet_calm (p : PortNo) (j : Slot) (x : Job) (h : s.job j = some x) (hl : s.logFull = false)
    (hp : (s.port p).path.length < (s.port p).depth) (hn : x.next < x.total) : Calm s (s.startSheet p j x) := by
  have path : ∀ m, Calm s ((s.send p m).modPort p fun q =>
      { q with
        path := q.path ++ [{ tag := q.nextTag, ordinal := x.next, state := .started, mark := .unmarked }]
        nextTag := q.nextTag + 1
        wait := .none
        gateTimer := none
        counters := { q.counters with sheetsStarted := bump q.counters.sheetsStarted } }) := fun m => by
    refine (send_calm _ _ _).trans (modPort_calm _ _ _ ⟨rfl, rfl, rfl, rfl, rfl, fun b => ⟨?_, b.2⟩⟩)
    have e : ((s.send p m).port p).path = (s.port p).path ∧ ((s.send p m).port p).caps = (s.port p).caps := by
      unfold State.send Port.queueOut
      rw [State.modPort_port, if_pos rfl]
      split <;> exact ⟨rfl, rfl⟩
    have d : (s.port p).depth ≤ 4 := by
      unfold Port.depth
      rw [← e.2]
      cases hc : ((s.send p m).port p).caps with
      | none => exact Nat.zero_le _
      | some c => exact b.2 c hc
    simp only [List.length_append, List.length_singleton]
    rw [e.1]
    omega
  have job : JobCalm (s.job j) (some { x with next := x.next + 1 }) := by
    rw [h]; exact ⟨rfl, fun _ => hn⟩
  have place : placeOf (some { x with next := x.next + 1 }) = placeOf (s.job j) := by rw [h]; rfl
  unfold State.startSheet
  dsimp only
  split
  · rename_i hs
    have hs : s.meter.policy = .stall := hs
    refine Calm.trans (Calm.trans ?_ (setJob_calm _ j _ (by exact job) (by exact place))) (post_calm _ _)
    refine (path _).trans (reservations_calm _ _ fun r => ⟨fun _ => ?_, fun n => absurd hs n⟩)
    have f : s.meter.log.length + s.meter.reservations < 256 := by
      unfold State.logFull at hl
      rw [hs] at hl
      simpa using hl
    show s.meter.log.length + (s.meter.reservations + 1) ≤ 256
    omega
  · exact Calm.trans (Calm.trans (path _) (setJob_calm _ j _ (by exact job) (by exact place))) (post_calm _ _)

theorem waitFor_calm (p : PortNo) (w : Wait) : Calm s (s.waitFor p w) := modPort_calm _ _ _ (by exact ⟨rfl, rfl, rfl, rfl, rfl, id⟩)

theorem waitForGate_calm (p : PortNo) : Calm s (s.waitForGate p) := by
  unfold State.waitForGate
  split
  · exact modPort_calm _ _ _ (by exact ⟨rfl, rfl, rfl, rfl, rfl, id⟩)
  · split
    · exact stopFeeding_calm _ _ _
    · exact modPort_calm _ _ _ (by exact ⟨rfl, rfl, rfl, rfl, rfl, id⟩)

theorem restartSlice_calm (p : PortNo) (j : Slot) (x : Job) (h : s.job j = some x) : Calm s (s.restartSlice p j x) := by
  unfold State.restartSlice
  split
  · dsimp only
    refine Calm.trans (t := s.setJob j (some { x with slice := false })) (setJob_calm _ j _ (by rw [h]; exact ⟨rfl, id⟩) (by rw [h]; rfl)) ?_
    split
    · rename_i a ha
      exact setAssignment_calm _ _ _ (by unfold State.assigned; rw [ha]; rfl)
    · exact Calm.refl _
  · exact Calm.refl s

theorem waitOrStart_calm (p : PortNo) (j : Slot) : Calm s (s.waitOrStart p j) := by
  unfold State.waitOrStart
  split
  · rename_i x h
    split
    · exact waitFor_calm _ _ _
    · split
      · exact waitForGate_calm _ _
      · split
        · exact waitFor_calm _ _ _
        · rename_i hl hg hp
          refine startSheet_calm _ _ _ _ h (by simpa using hl) (by omega) ?_
          unfold State.gateMet at hg
          rw [h] at hg
          simp at hg
          exact hg.1
  · exact Calm.refl s

/-- The record of a port's assigned job is the record of the slot its assignment names. -/
theorem assignedJob_of (p : PortNo) (j : Slot) (h : s.assigned p = some j) : s.assignedJob p = s.job j := by
  unfold State.assignedJob; rw [h]; rfl

theorem runDecision_calm (p : PortNo) : Calm s (s.runDecision p) := by
  unfold State.runDecision
  split
  · exact Calm.refl s
  · split
    · rename_i j x hj hx
      have h : s.job j = some x := by rw [← assignedJob_of s p j hj]; exact hx
      split
      · exact stopFeeding_calm _ _ _
      · split
        · exact stopFeeding_calm _ _ _
        · exact (setJob_calm _ j _ (by rw [h]; exact ⟨rfl, id⟩) (by rw [h]; rfl)).trans (stopFeeding_calm _ _ _)
        · exact (restartSlice_calm _ p j x h).trans (waitOrStart_calm _ _ _)
    · exact Calm.refl s

/-! ## Assignment and leaving -/

theorem takeJob_calm (p : PortNo) (j : Slot) (x : Job) : Calm s (s.takeJob p j x) := by
  unfold State.takeJob
  split
  · exact (portTo_calm _ _ _).trans (post_calm _ _)
  · exact ((portTo_calm _ _ _).trans (send_calm _ _ _)).trans (modPort_calm _ _ _ (by exact ⟨rfl, rfl, rfl, rfl, rfl, id⟩))

theorem assign_near (p : PortNo) (j : Slot) : NearCalm s (s.assign p j) := by
  unfold State.assign
  dsimp only
  refine NearCalm.trans (NearCalm.trans (NearCalm.trans (unlist_near s j)
    (modJob_calm _ j (fun x => { x with lastPort := some p }) (by intro; exact ⟨⟨rfl, id⟩, rfl⟩)).toNearCalm) (jobTo_near _ j .running)) ?_
  split
  · exact (setAssignment_near _ _ _).trans (takeJob_calm _ _ _ _).toNearCalm
  · exact NearCalm.refl _

variable {s} in
/-- A job that runs on no port is assigned to a port that has none (R67). -/
theorem assign_placed (p : PortNo) (j : Slot) (h : s.Placed) (i : s.Idle j) (hp : s.assignment p = none) :
    (s.assign p j).Placed := by
  obtain ⟨x, hx, hs⟩ := i
  have o : State.Out (((s.unlist j).modJob j (fun x => { x with lastPort := some p })).jobTo j .running) j :=
    ((State.Idle.unlist_out ⟨x, hx, hs⟩ h).setJob _).jobTo _
  have e : (((s.unlist j).modJob j (fun x => { x with lastPort := some p })).jobTo j .running).job j
      = some { x with lastPort := some p, state := .running } := by
    rw [jobTo_same_slot, State.modJob_job, if_pos rfl]
    show (((s.job j).map _).map _) = _
    rw [hx]; rfl
  unfold State.assign
  dsimp only
  rw [e]
  refine (takeJob_calm _ _ _ _).placed (setAssignment_placed o e rfl ?_ _ rfl)
  unfold State.assignment
  rw [jobTo_dispatch]
  exact hp

theorem free_assignment (p : PortNo) (h : s.free p = true) : s.assignment p = none := by
  unfold State.free at h
  simp only [Bool.and_eq_true, Option.isNone_iff_eq_none] at h
  exact h.2

theorem choosePort_free (j : Slot) (p : PortNo) (h : s.choosePort j = some p) : s.free p = true := by
  have e : ∀ q ∈ allPorts.filter (fun p => s.eligible j p), s.free q = true := by
    intro q hq
    have := (List.mem_filter.mp hq).2
    unfold State.eligible at this
    simp only [Bool.and_eq_true] at this
    exact this.1
  unfold State.choosePort at h
  dsimp only at h
  split at h
  · rename_i q hq
    cases h
    exact e _ (List.mem_of_find?_eq_some hq)
  · split at h
    · rename_i q hq
      cases h
      exact e _ (List.mem_of_find?_eq_some hq)
    · exact e _ (List.mem_of_head? h)

theorem jobIs_idle (j : Slot) (st : JobState) (h : s.jobIs j st = true) (n : st ≠ .running) : s.Idle j := by
  unfold State.jobIs at h
  split at h
  · rename_i x hx
    exact ⟨x, hx, by rw [of_decide_eq_true h]; exact n⟩
  · cases h

theorem seekPortNow_calm (j : Slot) : Calm s (s.seekPortNow j) := by
  unfold State.seekPortNow
  split
  · rename_i hj
    split
    · rename_i p hp
      exact ⟨assign_near _ _ _, fun g => assign_placed p j g (jobIs_idle s j _ hj (by decide))
        (free_assignment s p (choosePort_free s j p hp))⟩
    · exact Calm.refl s
  · exact Calm.refl s

theorem seekJobNow_calm (p : PortNo) : Calm s (s.seekJobNow p) := by
  unfold State.seekJobNow
  split
  · rename_i hp
    split
    · rename_i j hj
      refine ⟨assign_near _ _ _, fun g => assign_placed p j g ?_ (free_assignment s p hp)⟩
      exact judged_idle s g (fun _ => true) j (List.mem_filter.mpr ⟨List.mem_of_find?_eq_some hj, rfl⟩)
    · exact Calm.refl s
  · exact Calm.refl s

theorem jobIs_other (j : Slot) (a b : JobState) (h : s.jobIs j a = true) (n : a ≠ b) : s.jobIs j b = false := by
  unfold State.jobIs at h ⊢
  cases hx : s.job j with
  | none => rfl
  | some x =>
    rw [hx] at h
    have e : x.state = a := of_decide_eq_true h
    simp [e, n]

theorem signalNow_calm (j : Slot) : Calm s (s.signalNow j) := by
  unfold State.signalNow
  split
  · exact post_calm _ _
  · exact Calm.refl s

theorem endAssignment_near (p : PortNo) (a : Assignment) (x : Job) : NearCalm s (s.endAssignment p a x) := by
  unfold State.endAssignment
  exact ((modJob_calm _ _ _ (by intro; exact ⟨⟨rfl, id⟩, rfl⟩)).trans (pressAccount_calm _ _ _)).toNearCalm.trans
    (setAssignment_near _ _ _)

theorem dropReads_kept (x : Port) (j : Slot) : PortKept x (x.dropReads j) := ⟨rfl, rfl, rfl, rfl, rfl, id⟩

theorem mapPorts_calm (f : Port → Port) (h : ∀ x, PortKept x (f x)) : Calm s { s with ports := s.ports.map f } :=
  { Calm.refl s with
    ports := fun p => by
      show PortKept s.ports[p] (s.ports.map f)[p]
      have e : (s.ports.map f)[p] = f s.ports[p] := by simp
      rw [e]; exact h _ }

theorem discardJob_calm (j : Slot) : Calm s (s.discardJob j) :=
  { Calm.refl s with
    spool := discardJob_spool s j
    ports := fun p => by
      show PortKept s.ports[p] (s.ports.map (fun q => q.dropReads j))[p]
      have e : (s.ports.map (fun q => q.dropReads j))[p] = (s.ports[p]).dropReads j := by simp
      rw [e]; exact dropReads_kept _ _
    placed := fun g => g.congr (t := s.discardJob j) (fun _ => rfl) rfl rfl (fun _ => rfl) (fun k e => by
      show (s.setImages j []).imagesOf k = []
      rw [State.setImages_imagesOf]; split
      · rfl
      · exact e) }

theorem endJob_near (j : Slot) (st : JobState) : NearCalm s (s.endJob j st) :=
  (jobTo_near _ _ _).trans (discardJob_calm _ _).toNearCalm

variable {s} in
/-- A job in no place that ends leaves no images (R35, R55). -/
theorem endJob_placed (j : Slot) (st : JobState) (h : s.Out j) (t : st.terminal = true) : (s.endJob j st).Placed := by
  have n : st ≠ .queued ∧ st ≠ .stockwait ∧ st ≠ .running := by cases st <;> first | decide | cases t
  refine JobOut.stands (j := j) ?_ (fun x hx => ?_) (fun _ => ?_)
  · refine State.Out.congr (t := s.endJob j st) (h.jobTo st) (fun _ _ => rfl) rfl (fun k _ e => ?_)
    show ((s.jobTo j st).setImages j []).imagesOf k = []
    rw [State.setImages_imagesOf]; split
    · rfl
    · exact e
  · have e : (s.jobTo j st).job j = some x := hx
    rw [jobTo_same_slot] at e
    cases hy : s.job j with
    | none => rw [hy] at e; cases e
    | some y => rw [hy] at e; cases e; exact n
  · show ((s.jobTo j st).setImages j []).imagesOf j = []
    rw [State.setImages_imagesOf, if_pos rfl]

theorem leftPort_near (p : PortNo) (a : Assignment) (x : Job) :
    NearCalm s ((s.endAssignment p a x).modJob a.slot Job.clearFlags) :=
  (endAssignment_near s p a x).trans (modJob_calm _ _ _ (by intro; exact ⟨⟨rfl, id⟩, rfl⟩)).toNearCalm

variable {s} in
/-- The job whose assignment has ended is in no place until it is given one (R26, R78). -/
theorem leftPort_out (p : PortNo) (a : Assignment) (x : Job) (h : s.Placed) (e : s.assignment p = some a) :
    State.Out ((s.endAssignment p a x).modJob a.slot Job.clearFlags) a.slot := by
  have e' : s.assigned p = some a.slot := by unfold State.assigned; rw [e]; rfl
  have o := unassigned_out h e'
  refine State.Out.setJob ?_ _
  unfold State.endAssignment
  exact JobOut.congr o (fun k n => by
    show placeOf (State.job (s.modJob a.slot _) k) = placeOf (s.job k)
    rw [State.modJob_job, if_neg (Ne.symm n)]) rfl rfl (fun _ => rfl) (fun _ _ => id)

theorem leaveNow_calm (p : PortNo) (d : Destination) : Calm s (s.leaveNow p d) := by
  unfold State.leaveNow
  split
  · rename_i a x ha hx
    dsimp only
    have near := leftPort_near s p a x
    have out : s.Placed → _ := fun g => leftPort_out p a x g ha
    have some' : (State.job ((s.endAssignment p a x).modJob a.slot Job.clearFlags) a.slot).isSome := by
      have c := near.jobs a.slot
      have hx' : s.job a.slot = some x := by
        rw [← assignedJob_of s p a.slot (by unfold State.assigned; rw [ha]; rfl)]; exact hx
      rw [hx'] at c
      cases h : State.job ((s.endAssignment p a x).modJob a.slot Job.clearFlags) a.slot with
      | none => rw [h] at c; exact c.elim
      | some _ => rfl
    revert near out some'
    generalize (s.endAssignment p a x).modJob a.slot Job.clearFlags = u
    intro near out some'
    have stands : ∀ st : JobState, st ≠ .queued ∧ st ≠ .stockwait ∧ st ≠ .running → st.terminal = false →
        s.Placed → (u.jobTo a.slot st).Placed := fun st n t g =>
      jobTo_stands (out g) st n (fun b => by
        rcases b with b | b
        · rw [t] at b; cases b
        · rw [b] at some'; cases some')
    split
    · exact ⟨near.trans (endJob_near _ _ _), fun g => endJob_placed _ _ (out g) rfl⟩
    · exact ⟨near.trans (endJob_near _ _ _), fun g => endJob_placed _ _ (out g) rfl⟩
    · exact ⟨near.trans (endJob_near _ _ _), fun g => endJob_placed _ _ (out g) rfl⟩
    · have c : Calm s (u.jobTo a.slot .held) := ⟨near.trans (jobTo_near _ _ _), stands _ (by decide) rfl⟩
      split
      · exact c.trans (post_calm _ _)
      · exact c
    · rename_i st n1 n2 n3 n4 hst
      have e : st = .paused := by
        unfold State.leavingState at hst
        revert hst
        split
        · intro hst; cases hst; exact absurd rfl n1
        · split
          · intro hst; cases hst; exact absurd rfl n2
          · split
            · intro hst; cases hst; exact absurd rfl n3
            · split
              · intro hst; cases hst; rfl
              · split
                · intro hst; cases hst; exact absurd rfl n4
                · intro hst; cases hst
      subst e
      exact ⟨near.trans (jobTo_near _ _ _), stands _ (by decide) rfl⟩
    · exact ⟨near.trans (place_near _ _ _), fun g => place_placed _ _ (out g).unlist some'⟩
  · exact Calm.refl s

theorem leaveThen_calm (p : PortNo) (d : Destination) (t : Task) : Calm s (s.leaveThen p d t) :=
  (post_calm _ _).trans (post_calm _ _)

theorem afterRemovalNow_calm (p : PortNo) : Calm s (s.afterRemovalNow p) := by
  unfold State.afterRemovalNow
  split
  · exact runDecision_calm _ _
  · split
    · exact leaveThen_calm _ _ _ _
    · exact Calm.refl s
  · split
    · exact leaveThen_calm _ _ _ _
    · exact Calm.refl s
  · exact Calm.refl s

theorem clearAfterLeaving_calm (p : PortNo) : Calm s (s.clearAfterLeaving p) :=
  (modPort_calm _ _ _ (by exact ⟨rfl, rfl, rfl, rfl, rfl, id⟩)).trans (changeCauses_calm _ _ _)

theorem backToReadyNow_calm (p : PortNo) : Calm s (s.backToReadyNow p) :=
  ((clearAfterLeaving_calm _ _).trans (portTo_calm _ _ _)).trans (post_calm _ _)

theorem setupTimedOutNow_calm (p : PortNo) : Calm s (s.setupTimedOutNow p) :=
  ((clearAfterLeaving_calm _ _).trans (changeCauses_calm _ _ _)).trans (identifyAt_calm _ _)

theorem lostSettledNow_calm (p : PortNo) : Calm s (s.lostSettledNow p) :=
  (clearAfterLeaving_calm _ _).trans (changeCauses_calm _ _ _)

theorem clearedSettledNow_calm (p : PortNo) : Calm s (s.clearedSettledNow p) :=
  ((changeCauses_calm _ _ _).trans (portTo_calm _ _ _)).trans (post_calm _ _)

theorem portResetRestNow_calm (p : PortNo) (sense : Sense) : Calm s (s.portResetRestNow p sense) :=
  (((modPort_calm _ _ _ 
    (by exact ⟨rfl, rfl, rfl, rfl, rfl, fun b => ⟨b.1, fun c hc => by cases hc⟩⟩)).trans (judgeStocks_calm _ _)).trans (changeCauses_calm _ _ _)).trans
    (readSenseAfresh_calm _ _ _)

theorem decideEachNow_calm (ps : List PortNo) : Calm s (s.decideEachNow ps) := by
  unfold State.decideEachNow
  split
  · exact Calm.refl s
  · exact post_calm _ _
  · dsimp only
    refine Calm.trans (t := { s with choices := s.choices + 1 }) { Calm.refl s with } ?_
    exact (post_calm _ _).trans (post_calm _ _)

/-! ## The work list -/

theorem doTask_calm (t : Task) : Calm s (doTask t s) := by
  cases t <;> unfold doTask <;> dsimp only
  case decide => exact runDecision_calm _ _
  case decideEach => exact decideEachNow_calm _ _
  case afterRemoval => exact afterRemovalNow_calm _ _
  case leave => exact leaveNow_calm _ _ _
  case backToReady => exact backToReadyNow_calm _ _
  case leftStopped => exact clearAfterLeaving_calm _ _
  case choosePort => exact seekPortNow_calm _ _
  case signalPorts => exact signalNow_calm _ _
  case chooseJob => exact seekJobNow_calm _ _
  case stockLoaded => exact foldl_calm _ (fun s j => post_calm s _) _ _
  case releaseStocked =>
    split
    · rename_i h
      exact place_calm _ _ _ (jobIs_other s _ _ _ h (by decide))
    · exact Calm.refl s
  case releaseHeld =>
    split
    · rename_i x hx
      split
      · rename_i h
        refine place_calm _ _ _ ?_
        simp only [Bool.and_eq_true, decide_eq_true_eq] at h
        unfold State.jobIs; rw [hx]; simp [h.1]
      · exact Calm.refl s
    · exact Calm.refl s
  case roomReport => exact post_calm _ _
  case setupTimedOut => exact setupTimedOutNow_calm _ _
  case lostSettled => exact lostSettledNow_calm _ _
  case clearedSettled => exact clearedSettledNow_calm _ _
  case portResetRest => exact portResetRestNow_calm _ _ _

theorem agenda_calm (l : List Task) : Calm s { s with agenda := l } := { Calm.refl s with }

theorem settleWith_calm (n : Nat) : Calm s (settleWith n s) := by
  induction n generalizing s with
  | zero => exact agenda_calm s []
  | succ n ih =>
    unfold settleWith
    split
    · exact Calm.refl s
    · dsimp only
      exact (((agenda_calm s []).trans (doTask_calm _ _)).trans (agenda_calm _ _)).trans (ih _)

/-- The work list is empty once everything that follows has come about. -/
theorem settleWith_agenda (n : Nat) : (settleWith n s).agenda = [] := by
  induction n generalizing s with
  | zero => rfl
  | succ n ih =>
    unfold settleWith
    split
    · assumption
    · exact ih _

@[simp] theorem settle_agenda : s.settle.agenda = [] := settleWith_agenda s 65536

/-- Where nothing is left to bring about, nothing follows. -/
theorem settle_of_idle (h : s.agenda = []) : s.settle = s := by
  unfold State.settle settleWith
  rw [h]

/-- One task is done before the rest of the work list. -/
theorem settleWith_cons (n : Nat) (t : Task) (rest : List Task) (h : s.agenda = t :: rest) :
    settleWith (n + 1) s =
      settleWith n { doTask t { s with agenda := [] } with agenda := (doTask t { s with agenda := [] }).agenda ++ rest } := by
  rw [settleWith, h]

/-- Everything that follows from an event leaves as it was what `Calm` names. -/
theorem settle_calm : Calm s s.settle := settleWith_calm s 65536

end Sys2Proof.Machine
end

