-- ==== Sys2Proof/Laws/Service.lean ====
section
/-! SUPPORT. What the service of a request comes to, by the answer of its owner; the fields of a body as numbers. -/

namespace Sys2Proof.Machine

variable {s : State} {r : Request} {rest : List Request}

theorem State.Oldest.canServe (h : s.Oldest r rest) : s.canServe = true := by
  have h2 := h.room
  simp [State.canServe, h.service, h2, h.reset]

/-- A request that passes the tests of R4 is handed to its owner. -/
theorem State.Takes.serve {kind : Byte} (h : s.Takes kind r rest) (owner : State → List Byte → Answer) :
    s.serve kind owner = s.conclude r.tag (owner s r.body) := by
  have h1 := h.toOldest.canServe
  have h2 := h.served
  unfold State.serve
  rw [h.requests]
  simp only [h.isKind, h1, decide_true, Bool.and_self, if_true]
  unfold State.judgeRequest
  simp only [h.fits, Bool.not_true, Bool.false_eq_true, if_false, h.isKind]
  cases hr : s.spool.startUp.refuses with
  | false => simp
  | true => simp [h2 hr]

/-- A refused request is answered with its status and an empty body; nothing else changes. -/
theorem State.Takes.refused {kind : Byte} (h : s.Takes kind r rest) (owner : State → List Byte → Answer) (st : Status)
    (e : owner s r.body = .refuse st) : (s.serve kind owner).finish = s.answered r st [] := by
  rw [h.serve, e]
  have a : (s.placeReply { tag := r.tag, status := st, body := [], ofReset := false }).agenda = [] := h.agenda
  show State.finish (s.placeReply _) = _
  unfold State.finish
  rw [settle_of_idle _ a]
  rfl

/-- A request carried out at once, with nothing left to bring about and no reset asked, is answered OK. -/
theorem State.Takes.done {kind : Byte} (h : s.Takes kind r rest) (owner : State → List Byte → Answer) (t : State)
    (body : State → List Byte) (e : owner s r.body = .done t body) (ha : t.agenda = []) (hr : t.link.reset = .none) :
    (s.serve kind owner).finish = t.answered r .ok (body t) := by
  rw [h.serve, e]
  show State.finish (t.settle.replyOk r.tag (body t.settle)) = _
  rw [settle_of_idle _ ha]
  unfold State.replyOk State.finish
  have a : (t.placeReply
    { tag := r.tag, status := .ok, body := body t, ofReset := decide (t.link.reset ≠ .none) }).agenda = [] := ha
  rw [settle_of_idle _ a, hr]
  rfl

/-- A request whose effects go on: they are brought about, then the reply OK is placed. -/
theorem State.Takes.settled {kind : Byte} (h : s.Takes kind r rest) (owner : State → List Byte → Answer) (t : State)
    (body : State → List Byte) (e : owner s r.body = .done t body) (hr : t.link.reset = .none) :
    (s.serve kind owner).finish = t.settle.answered r .ok (body t.settle) := by
  rw [h.serve, e]
  show State.finish (t.settle.replyOk r.tag (body t.settle)) = _
  have a : (t.settle.replyOk r.tag (body t.settle)).agenda = [] := settle_agenda t
  unfold State.finish
  rw [settle_of_idle _ a]
  unfold State.replyOk
  have l : t.settle.link.reset = .none := by rw [(settle_calm t).link]; exact hr
  rw [l]
  rfl

/-- A request that stays in service is not answered yet. -/
theorem State.Takes.serving {kind : Byte} (h : s.Takes kind r rest) (owner : State → List Byte → Answer) (t : State)
    (e : owner s r.body = .serving t) (ha : t.agenda = []) : (s.serve kind owner).finish = t.pump := by
  rw [h.serve, e]
  show State.finish t = _
  unfold State.finish
  rw [settle_of_idle _ ha]

/-- With nothing left to bring about, the end of a step is the outbound line's choice alone. -/
theorem finish_of_idle (h : s.agenda = []) : s.finish = s.pump := by
  unfold State.finish; rw [settle_of_idle _ h]

/-- Tasks that find nothing to do leave the state as it is. -/
theorem settleWith_noops (n : Nat) : ∀ s : State, s.agenda.length ≤ n →
    (∀ t ∈ s.agenda, doTask t { s with agenda := [] } = { s with agenda := [] }) →
    settleWith n s = { s with agenda := [] } := by
  induction n with
  | zero => intro s _ _; rfl
  | succ n ih =>
    intro s hl h
    cases e : s.agenda with
    | nil => simp only [settleWith, e]; rw [← e]
    | cons t rest =>
      rw [settleWith_cons s n t rest e, h t (by rw [e]; simp)]
      rw [e] at hl h
      exact ih { s with agenda := [] ++ rest } (by simpa using hl) (fun u hu => h u (by simp at hu; simp [hu]))

theorem settle_noops (hl : s.agenda.length ≤ 65536)
    (h : ∀ t ∈ s.agenda, doTask t { s with agenda := [] } = { s with agenda := [] }) :
    s.settle = { s with agenda := [] } := settleWith_noops 65536 s hl h

/-- A settled state with nothing left to do stays. -/
theorem settleWith_idle (n : Nat) (h : s.agenda = []) : settleWith n s = s := by
  cases n with
  | zero => cases s; simp_all [settleWith]
  | succ n => simp only [settleWith, h]

/-- The only posted task is done first. -/
theorem settleWith_post (n : Nat) (ha : s.agenda = []) (t : Task) :
    settleWith (n + 1) (s.post t) = settleWith n (doTask t s) := by
  have e : ({ s.post t with agenda := [] } : State) = s := by cases s; simp_all [State.post]
  rw [settleWith_cons _ _ t [] (by simp [State.post, ha]), e]
  congr 1
  generalize doTask t s = u
  cases u; simp

/-- The first of two posted tasks is done first; what it brings about comes before the second. -/
theorem settleWith_post_post (n : Nat) (ha : s.agenda = []) (t u : Task) :
    settleWith (n + 1) ((s.post t).post u) = settleWith n ((doTask t s).post u) := by
  have e : ({ (s.post t).post u with agenda := [] } : State) = s := by cases s; simp_all [State.post]
  rw [settleWith_cons _ _ t [u] (by simp [State.post, ha]), e]
  rfl

/-- One posted task that finds nothing to do. -/
theorem settle_post (ha : s.agenda = []) (t : Task) (h : doTask t s = s) : (s.post t).settle = s := by
  have e : ({ s.post t with agenda := [] } : State) = s := by cases s; simp_all [State.post]
  have l : (s.post t).agenda = [t] := by simp [State.post, ha]
  rw [settle_noops (by rw [l]; simp), e]
  intro u hu
  rw [l] at hu
  rw [List.mem_singleton.mp hu, e, h]

/-- Two posted tasks that find nothing to do. -/
theorem settle_post_post (ha : s.agenda = []) (t u : Task) (ht : doTask t s = s) (hu : doTask u s = s) :
    ((s.post t).post u).settle = s := by
  have e : ({ (s.post t).post u with agenda := [] } : State) = s := by cases s; simp_all [State.post]
  have l : ((s.post t).post u).agenda = [t, u] := by simp [State.post, ha]
  rw [settle_noops (by rw [l]; simp), e]
  intro v hv
  rw [l] at hv
  simp only [List.mem_cons, List.not_mem_nil, or_false] at hv
  rw [e]
  rcases hv with hv | hv <;> rw [hv] <;> assumption

/-- A port that does not feed has nothing to decide (R106). -/
theorem decide_noop (p : PortNo) (h : (s.port p).state ≠ .feeding) : doTask (.decide p) s = s := by
  show s.runDecision p = s
  unfold State.runDecision; rw [if_pos h]

/-- A port that is not free takes no job (R68). -/
theorem chooseJob_noop (p : PortNo) (h : s.free p = false) : doTask (.chooseJob p) s = s := by
  show s.seekJobNow p = s
  unfold State.seekJobNow; rw [h]; rfl

/-- With no eligible job the port stays free (R68). -/
theorem chooseJob_none (p : PortNo) (h : s.chooseJob p = none) : doTask (.chooseJob p) s = s := by
  show s.seekJobNow p = s
  unfold State.seekJobNow; rw [h]; split <;> rfl

/-- With no port for it the job stays in its place (R69). -/
theorem choosePort_noop (j : Slot) (h : s.choosePort j = none) : doTask (.choosePort j) s = s := by
  show s.seekPortNow j = s
  unfold State.seekPortNow; rw [h]; split <;> rfl

/-! ## Numbers in bodies -/

theorem num_length (n v : Nat) : (num n v).length = n := by
  induction n with
  | zero => rfl
  | succ n ih => simp [num, ih]

theorem natOf_from (l : List Byte) : ∀ acc, l.foldl (fun acc b => acc * 256 + b.toNat) acc = acc * 256 ^ l.length + natOf l := by
  unfold natOf
  induction l with
  | nil => simp
  | cons b l ih =>
    intro acc
    simp only [List.foldl_cons, List.length_cons]
    rw [ih (acc * 256 + b.toNat), ih (0 * 256 + b.toNat)]
    ring

theorem natOf_cons (b : Byte) (l : List Byte) : natOf (b :: l) = b.toNat * 256 ^ l.length + natOf l := by
  have := natOf_from l b.toNat
  unfold natOf at *
  simpa using this

/-- The number that a number's bytes spell (R184). -/
theorem natOf_num (n v : Nat) : natOf (num n v) = v % 256 ^ n := by
  induction n with
  | zero => simp [num, natOf, Nat.mod_one]
  | succ n ih =>
    rw [num, natOf_cons, ih, num_length]
    have e : v % (256 ^ n * 256) = v % 256 ^ n + 256 ^ n * (v / 256 ^ n % 256) := Nat.mod_mul
    have b : (BitVec.ofNat 8 (v / 256 ^ n)).toNat = v / 256 ^ n % 256 := by simp
    rw [pow_succ, e, b]
    ring

theorem natOf_num_of_lt {n v : Nat} (h : v < 256 ^ n) : natOf (num n v) = v := by
  rw [natOf_num, Nat.mod_eq_of_lt h]

/-- A number's field in a body that carries it after `l`. -/
theorem field_num {n v : Nat} (l m : List Byte) (h : v < 256 ^ n) : field (l ++ num n v ++ m) l.length n = v := by
  unfold field
  rw [List.append_assoc, List.drop_left]
  rw [List.take_append_of_le_length (by rw [num_length])]
  rw [List.take_of_length_le (by rw [num_length])]
  exact natOf_num_of_lt h

/-! ## Numbers of things -/

theorem port_byte (p : PortNo) : port? (byte p.val) = some p := by
  have h : (byte p.val).toNat = p.val := by have := p.isLt; simp [byte]; omega
  simp [port?, h]

theorem slot_byte (j : Slot) : slot? (byte j.val) = some j := by
  have h : (byte j.val).toNat = j.val := by have := j.isLt; simp [byte]; omega
  simp [slot?, h]

theorem account_byte (a : AccountNo) : account? (byte a.val) = some a := by
  have h : (byte a.val).toNat = a.val := by have := a.isLt; simp [byte]; omega
  simp [account?, h]

theorem level_byte (l : Level) : level? (byte l.val) = some l := by
  have h : (byte l.val).toNat = l.val := by have := l.isLt; simp [byte]; omega
  simp [level?, h]

theorem class_byte (c : ClassNo) : class? (byte c.val) = some c := by
  have h : (byte c.val).toNat = c.val := by have := c.isLt; simp [byte]; omega
  simp [class?, h]

theorem tier_byte (t : TierNo) : tier? (byte t.val) = some t := by
  have h : (byte t.val).toNat = t.val := by have := t.isLt; simp [byte]; omega
  simp [tier?, h]

/-! ## The outbound line (R7) -/

theorem pump_sending (f : OutFrame) (h : s.link.outbound = some f) : s.pump = s := by
  unfold State.pump; rw [h]

theorem pump_reply (x : Reply) (l : List Reply) (h : s.link.outbound = none) (hd : ∀ k, s.link.reset ≠ .due k)
    (hr : s.link.replies = x :: l) :
    s.pump = s.modLink (fun k => { k with outbound := some (.reply x), replies := l }) := by
  unfold State.pump; rw [h]
  split
  · simp_all
  · rename_i k e; exact absurd e (hd _)
  · rw [hr]

theorem pump_notice (n : Notice) (l : List Notice) (h : s.link.outbound = none) (hd : ∀ k, s.link.reset ≠ .due k)
    (hr : s.link.replies = []) (hn : s.link.notices = n :: l) :
    s.pump = s.modLink (fun k => { k with outbound := some (.notice n), notices := l }) := by
  unfold State.pump; rw [h]
  split
  · simp_all
  · rename_i k e; exact absurd e (hd _)
  · rw [hr, hn]

theorem pump_nothing (hr : s.link.replies = []) (hn : s.link.notices = []) : s.pump = s := by
  unfold State.pump
  split
  · rfl
  · rfl
  · rw [hr, hn]

theorem pump_due (k : ResetKind) (h : s.link.reset = .due k) : s.pump = s := by
  unfold State.pump
  split
  · rfl
  · rfl
  · rename_i e; exact absurd h (e k)

end Sys2Proof.Machine
end

