-- ==== Sys2Proof/Laws/Ops.lean ====
section
/-! SUPPORT. What the shared operations do to each field of the state, so that no proof unfolds them. -/

namespace Sys2Proof.Machine

variable (s : State)

/-! ## A raised notice touches the link interface alone (R8) -/

theorem notify_eq (k : NoticeKind) (b : List Byte) : s.notify k b = { s with link := (s.notify k b).link } := by
  unfold State.notify
  split
  · rfl
  · split <;> rfl

@[simp] theorem notify_partTime (k : NoticeKind) (b : List Byte) : (s.notify k b).partTime = s.partTime := by rw [notify_eq]
@[simp] theorem notify_jobs (k : NoticeKind) (b : List Byte) : (s.notify k b).jobs = s.jobs := by rw [notify_eq]
@[simp] theorem notify_spool (k : NoticeKind) (b : List Byte) : (s.notify k b).spool = s.spool := by rw [notify_eq]
@[simp] theorem notify_dispatch (k : NoticeKind) (b : List Byte) : (s.notify k b).dispatch = s.dispatch := by rw [notify_eq]
@[simp] theorem notify_ports (k : NoticeKind) (b : List Byte) : (s.notify k b).ports = s.ports := by rw [notify_eq]
@[simp] theorem notify_meter (k : NoticeKind) (b : List Byte) : (s.notify k b).meter = s.meter := by rw [notify_eq]
@[simp] theorem notify_alerts (k : NoticeKind) (b : List Byte) : (s.notify k b).alerts = s.alerts := by rw [notify_eq]
@[simp] theorem notify_panel (k : NoticeKind) (b : List Byte) : (s.notify k b).panel = s.panel := by rw [notify_eq]
@[simp] theorem notify_choices (k : NoticeKind) (b : List Byte) : (s.notify k b).choices = s.choices := by rw [notify_eq]
@[simp] theorem notify_agenda (k : NoticeKind) (b : List Byte) : (s.notify k b).agenda = s.agenda := by rw [notify_eq]
@[simp] theorem notify_pending (k : NoticeKind) (b : List Byte) : (s.notify k b).pending = s.pending := by rw [notify_eq]
@[simp] theorem notify_port (k : NoticeKind) (b : List Byte) (p : PortNo) : (s.notify k b).port p = s.port p := by
  rw [notify_eq]; rfl
@[simp] theorem notify_job (k : NoticeKind) (b : List Byte) (j : Slot) : (s.notify k b).job j = s.job j := by
  rw [notify_eq]; rfl
@[simp] theorem notify_account (k : NoticeKind) (b : List Byte) (a : AccountNo) : (s.notify k b).account a = s.account a := by
  rw [notify_eq]; rfl
@[simp] theorem notify_alert (k : NoticeKind) (b : List Byte) (p : PortNo) : (s.notify k b).alert p = s.alert p := by
  rw [notify_eq]; rfl
@[simp] theorem notify_assignment (k : NoticeKind) (b : List Byte) (p : PortNo) :
    (s.notify k b).assignment p = s.assignment p := by rw [notify_eq]; rfl
@[simp] theorem notify_assigned (k : NoticeKind) (b : List Byte) (p : PortNo) :
    (s.notify k b).assigned p = s.assigned p := by rw [notify_eq]; rfl
@[simp] theorem notify_imagesOf (k : NoticeKind) (b : List Byte) (j : Slot) :
    (s.notify k b).imagesOf j = s.imagesOf j := by rw [notify_eq]; rfl
@[simp] theorem notify_readyAt (k : NoticeKind) (b : List Byte) (l : Level) :
    (s.notify k b).readyAt l = s.readyAt l := by rw [notify_eq]; rfl
@[simp] theorem notify_service (k : NoticeKind) (b : List Byte) : (s.notify k b).link.service = s.link.service := by
  rw [(notify_calm s k b).link]
@[simp] theorem notify_reset (k : NoticeKind) (b : List Byte) : (s.notify k b).link.reset = s.link.reset := by
  rw [(notify_calm s k b).link]
@[simp] theorem notify_requests (k : NoticeKind) (b : List Byte) : (s.notify k b).link.requests = s.link.requests := by
  rw [(notify_calm s k b).link]
@[simp] theorem notify_replies (k : NoticeKind) (b : List Byte) : (s.notify k b).link.replies = s.link.replies := by
  rw [(notify_calm s k b).link]
@[simp] theorem notify_outbound (k : NoticeKind) (b : List Byte) : (s.notify k b).link.outbound = s.link.outbound := by
  rw [(notify_calm s k b).link]

theorem notify_setPort (k : NoticeKind) (b : List Byte) (p : PortNo) (y : Port) :
    (s.notify k b).setPort p y = (s.setPort p y).notify k b := by
  unfold State.notify
  simp only [State.setPort_link, State.setPort_partTime]
  by_cases h : (!s.link.enable.getLsbD k.bit) = true
  · simp only [h, if_true]
  · by_cases g : s.link.notices.length < 64
    · simp only [h, g, if_true, if_false, Bool.false_eq_true]; rfl
    · simp only [h, g, if_false, Bool.false_eq_true]; rfl

/-- A PORT notice reads the state, the held flag and the class of its port alone (R87): any other field may be changed before
or after. -/
theorem notifyPort_setPort (p : PortNo) (x y : Port) (before : PortState) (r : PortReason) (h1 : x.state = y.state)
    (h2 : x.held = y.held) (h3 : x.cls = y.cls) :
    ((s.setPort p x).notifyPort p before r).setPort p y = (s.setPort p y).notifyPort p before r := by
  have e : portNoticeBody p before x r = portNoticeBody p before y r := by unfold portNoticeBody; rw [h1, h2, h3]
  unfold State.notifyPort
  simp only [State.setPort_port, if_true, e]
  rw [notify_setPort, State.setPort_setPort]

/-- A notice's effect on the link interface is a function of the link interface and the part time alone (R8). -/
theorem notify_link_congr {s t : State} (k : NoticeKind) (b : List Byte) (h : s.link = t.link)
    (hp : s.partTime = t.partTime) : (s.notify k b).link = (t.notify k b).link := by
  unfold State.notify
  rw [h, hp]
  split
  · exact h
  · split <;> simp [State.modLink, h]

/-! ## A job's change of state (R25) -/

theorem jobTo_same (j : Slot) (x : Job) (h : s.job j = some x) : s.jobTo j x.state = s := by
  unfold State.jobTo; rw [h]; simp

theorem jobTo_other (j : Slot) (x : Job) (st : JobState) (h : s.job j = some x) (hs : x.state ≠ st) :
    s.jobTo j st = (s.setJob j (some { x with state := st })).notify .job (jobNoticeBody j x.state { x with state := st }) := by
  unfold State.jobTo; rw [h]; simp only [hs, if_false]

/-! ## A port's change of state (R80) -/

theorem portTo_same (p : PortNo) : s.portTo p (s.port p).state = s := by
  unfold State.portTo; simp

/-- A port that leaves no counting state judges no stock. -/
theorem portTo_kept_stock (p : PortNo) (st : PortState) (h : (s.port p).state ≠ st)
    (hc : (s.port p).state.counting = false ∨ st.counting = true) :
    s.portTo p st = (s.setPort p ((s.port p).enter st s.partTime)).notifyPort p (s.port p).state (.state (s.assigned p)) := by
  unfold State.portTo
  dsimp only
  rw [if_neg h]
  rcases hc with hc | hc <;> simp [hc]

end Sys2Proof.Machine
end

