-- ==== Sys2Proof/Laws/Alerts.lean ====
section
/-! SUPPORT. What a change of a port's causes does: it touches the link's notices, the alerts and the panel alone. -/

namespace Sys2Proof.Machine

variable (s : State) (p : PortNo)

theorem pumpPanel_eq : s.pumpPanel = { s with panel := s.pumpPanel.panel } := by
  unfold State.pumpPanel; split <;> rfl

theorem queueLine_eq : s.queueLine p = { s with panel := (s.queueLine p).panel } := by
  unfold State.queueLine; rw [pumpPanel_eq]

/-- An alert told: its notice and its panel line. -/
theorem told_eq (x : Alert) (r : AlertReason) (b : Option Cause) :
    ((s.setAlert p x).notifyAlert p r b).queueLine p =
      { s with
        link := ((s.setAlert p x).notifyAlert p r b).link
        alerts := s.alerts.set p x
        panel := (((s.setAlert p x).notifyAlert p r b).queueLine p).panel } := by
  rw [queueLine_eq]; unfold State.notifyAlert; rw [notify_eq]; rfl

theorem changeCauses_eq (f : CauseSet → CauseSet) :
    s.changeCauses p f = { s with
      link := (s.changeCauses p f).link, alerts := (s.changeCauses p f).alerts, panel := (s.changeCauses p f).panel } := by
  have told := told_eq s p
  unfold State.changeCauses State.openAlert
  dsimp only
  split
  · rfl
  · split
    · rw [told]
    · rw [told]
    · split
      · rw [told]
      · split
        · rw [told]
        · unfold State.notifyAlert; rw [notify_eq]; rfl

section fields
variable (f : CauseSet → CauseSet)
@[simp] theorem changeCauses_partTime : (s.changeCauses p f).partTime = s.partTime := by rw [changeCauses_eq]
@[simp] theorem changeCauses_jobs : (s.changeCauses p f).jobs = s.jobs := by rw [changeCauses_eq]
@[simp] theorem changeCauses_spool : (s.changeCauses p f).spool = s.spool := by rw [changeCauses_eq]
@[simp] theorem changeCauses_dispatch : (s.changeCauses p f).dispatch = s.dispatch := by rw [changeCauses_eq]
@[simp] theorem changeCauses_ports : (s.changeCauses p f).ports = s.ports := by rw [changeCauses_eq]
@[simp] theorem changeCauses_meter : (s.changeCauses p f).meter = s.meter := by rw [changeCauses_eq]
@[simp] theorem changeCauses_choices : (s.changeCauses p f).choices = s.choices := by rw [changeCauses_eq]
@[simp] theorem changeCauses_agenda : (s.changeCauses p f).agenda = s.agenda := by rw [changeCauses_eq]
@[simp] theorem changeCauses_pending : (s.changeCauses p f).pending = s.pending := by rw [changeCauses_eq]
@[simp] theorem changeCauses_port (q : PortNo) : (s.changeCauses p f).port q = s.port q := by rw [changeCauses_eq]; rfl
@[simp] theorem changeCauses_job (j : Slot) : (s.changeCauses p f).job j = s.job j := by rw [changeCauses_eq]; rfl
@[simp] theorem changeCauses_account (a : AccountNo) : (s.changeCauses p f).account a = s.account a := by
  rw [changeCauses_eq]; rfl
@[simp] theorem changeCauses_assignment (q : PortNo) : (s.changeCauses p f).assignment q = s.assignment q := by
  rw [changeCauses_eq]; rfl
@[simp] theorem changeCauses_assigned (q : PortNo) : (s.changeCauses p f).assigned q = s.assigned q := by
  rw [changeCauses_eq]; rfl
end fields

/-- A cause set that displays nothing is empty (R172). -/
theorem displayed_none (c : CauseSet) (h : c.displayed = none) : c = .empty := by
  obtain ⟨a, b, d, e, g, i⟩ := c
  unfold CauseSet.displayed at h
  cases a <;> cases b <;> cases d <;> cases e <;> cases g <;> cases i <;> simp_all [CauseSet.empty]

@[simp] theorem notifyAlert_alert (r : AlertReason) (b : Option Cause) (q : PortNo) :
    (s.notifyAlert p r b).alert q = s.alert q := by unfold State.notifyAlert; simp

theorem told_alert (x : Alert) (r : AlertReason) (b : Option Cause) (q : PortNo) :
    (((s.setAlert p x).notifyAlert p r b).queueLine p).alert q = (s.setAlert p x).alert q := by rw [told_eq]; rfl

/-- The other ports' alerts stay (R171). -/
theorem changeCauses_other (f : CauseSet → CauseSet) (q : PortNo) (h : q ≠ p) : (s.changeCauses p f).alert q = s.alert q := by
  have other (x : Alert) : (s.setAlert p x).alert q = s.alert q := by
    simp only [State.alert, State.setAlert]
    exact Vector.getElem_set_ne _ _ (fun e => h (Fin.ext e.symm))
  unfold State.changeCauses State.openAlert
  dsimp only
  split
  · rfl
  · split
    · rw [told_alert, other]
    · rw [told_alert, other]
    · split
      · rw [told_alert, other]
      · split
        · rw [told_alert, other]
        · rw [notifyAlert_alert, other]

theorem setAlert_same (x : Alert) : (s.setAlert p x).alert p = x := by simp [State.alert, State.setAlert]

/-- The alert's cause set becomes the changed one, whatever the change brings (R173 to R175). -/
theorem changeCauses_causes (f : CauseSet → CauseSet) : ((s.changeCauses p f).alert p).causes = f (s.alert p).causes := by
  unfold State.changeCauses State.openAlert
  dsimp only
  split
  · rename_i h; exact h.symm
  · split
    · rename_i h; rw [told_alert, setAlert_same, displayed_none _ h]; rfl
    · rw [told_alert, setAlert_same]
    · split
      · rw [told_alert, setAlert_same]
      · split
        · rw [told_alert, setAlert_same]
        · rw [notifyAlert_alert, setAlert_same]

/-- A cause more severe than any displayed opens or raises the alert (R174). -/
theorem changeCauses_alarm (f : CauseSet → CauseSet) (d : Cause) (hd : (f (s.alert p).causes).displayed = some d)
    (h : ∀ b, (s.alert p).causes.displayed = some b → d.rank < b.rank) :
    (s.changeCauses p f).alert p = s.alarm p (f (s.alert p).causes) := by
  have hne : f (s.alert p).causes ≠ (s.alert p).causes := by
    intro e; rw [e] at hd; exact absurd (h d hd) (by omega)
  unfold State.changeCauses State.openAlert
  dsimp only
  rw [if_neg hne, hd]
  cases hb : (s.alert p).causes.displayed with
  | none => simp only [told_alert, setAlert_same]; rfl
  | some b =>
    simp only
    rw [if_pos (h b hb), told_alert, setAlert_same]; rfl

end Sys2Proof.Machine
end

