-- ==== Sys2Proof/Laws/Bodies.lean ====
section
/-! SUPPORT. How the bodies of Machine/Bodies.lean and the numbers of Safety.lean go over into each other. -/

namespace Sys2Proof.Machine

@[simp] theorem spelled_nil : spelled [] = [] := rfl

theorem spelled_append (a b : List (Nat × Nat)) : spelled (a ++ b) = spelled a ++ spelled b := by simp [spelled]

theorem spelled_cons (a : Nat × Nat) (b : List (Nat × Nat)) : spelled (a :: b) = num a.1 a.2 ++ spelled b := by
  simp [spelled]

theorem spelled_flatMap {α : Type} (l : List α) (f : α → List (Nat × Nat)) (g : α → List Byte)
    (h : ∀ a, spelled (f a) = g a) : spelled (l.flatMap f) = l.flatMap g := by
  induction l with
  | nil => rfl
  | cons a l ih => simp only [List.flatMap_cons, spelled_append, h, ih]

/-- One byte holds a number below 256. -/
theorem num_one (n : Nat) : num 1 n = [byte n] := by simp [num, byte]

theorem spelled_map {α : Type} (l : List α) (f : α → Nat) :
    spelled (l.map (fun a => (1, f a))) = l.map (fun a => byte (f a)) := by
  induction l with
  | nil => rfl
  | cons a l ih => simp [spelled_cons, num_one, ih]

theorem byte_toNat (b : Byte) : byte b.toNat = b := by simp [byte]

theorem byte_one (b : Bool) : byte (one b) = flag b := by cases b <;> rfl

theorem byte_portOr (p : Option PortNo) : byte (portOr p) = optPort p := by cases p <;> rfl

/-- An optional field behind its presence byte (R186). -/
theorem spelled_maybe (n : Nat) (v : Option Nat) : spelled (maybe n v) = optNum n v := by
  cases v <;> simp [spelled, maybe, optNum, num_one] <;> rfl

/-- Flags in a byte or two, bit 0 first (R184). -/
theorem bits_eq (l : List Bool) : bits l = flagsValue l := by
  suffices h : ∀ (l : List Bool) (k : Nat), ((l.zipIdx k).map (fun e => one e.1 * 2 ^ e.2)).sum = 2 ^ k * flagsValue l by
    have := h l 0
    simpa [bits] using this
  intro l
  induction l with
  | nil => intro k; simp [flagsValue]
  | cons b l ih =>
    intro k
    simp only [List.zipIdx_cons, List.map_cons, List.sum_cons, ih, flagsValue]
    rw [pow_succ, Nat.mul_add, ← Nat.mul_assoc]
    congr 1
    cases b <;> simp [one]

theorem byte_bits (l : List Bool) : byte (bits l) = flags l := by rw [bits_eq]; rfl

theorem shownRank_eq (c : Option Cause) : shownRank c = rankOf c := by cases c <;> rfl

end Sys2Proof.Machine
end

