-- ==== Sys2Proof/Laws/Dispatch.lean ====
section
/-! SUPPORT. The dispatcher and the leaving of jobs where no job waits in the ready queue. -/

namespace Sys2Proof.Machine

variable {s : State} {p : PortNo}

theorem State.noneReady.order (h : s.noneReady) : s.readyOrder = [] := by
  unfold State.readyOrder
  rw [List.flatMap_eq_nil_iff]
  intro l _
  exact h l

theorem judgeStock_noneReady (h : s.noneReady) (b : Byte) : s.judgeStock b = s := by
  unfold State.judgeStock
  rw [h.order]
  simp

/-- With no QUEUED job no stock that goes moves one (R63). -/
theorem judgeStocks_noneReady (h : s.noneReady) (l : List Byte) : s.judgeStocks l = s := by
  unfold State.judgeStocks
  induction l with
  | nil => rfl
  | cons b l ih => rw [List.foldl_cons, judgeStock_noneReady h]; exact ih

theorem chooseJob_noneReady (h : s.noneReady) : s.chooseJob p = none := by
  unfold State.chooseJob; rw [h.order]; rfl

theorem waitsBelow_noneReady (h : s.noneReady) (n : Nat) : s.waitsBelow p n = false := by
  unfold State.waitsBelow
  rw [List.any_eq_false]
  intro l _
  rw [h l]
  simp

/-- A port's change of state, where no job waits (R80). -/
theorem portTo_noneReady (h : s.noneReady) (st : PortState) (hs : (s.port p).state ≠ st) :
    s.portTo p st = (s.setPort p ((s.port p).enter st s.partTime)).notifyPort p (s.port p).state (.state (s.assigned p)) := by
  unfold State.portTo
  dsimp only
  rw [if_neg hs]
  split
  · rw [judgeStocks_noneReady]
    intro l
    unfold State.notifyPort
    rw [notify_readyAt]
    exact h l
  · rfl

/-- The leaving of a job that its account makes HELD (R26, R78), whatever destination the port names. -/
theorem leaveNow_held {a : Assignment} {x : Job} (h : s.LeavesHeld p a x) (d : Destination) :
    let y := x.leftHeld (elapsed s.partTime a.since)
    s.leaveNow p d =
      (((s.setAssignment p none).setJob a.slot (some y)).setAccount x.account { s.account x.account with
        pressTime := min ((s.account x.account).pressTime + elapsed s.partTime a.since) 18446744073709551615 }).notify
          .job (jobNoticeBody a.slot .running y) := by
  intro y
  have haj : s.assignedJob p = some x := by
    unfold State.assignedJob State.assigned; rw [h.assignment]; exact h.job
  let acc : Account := { s.account x.account with
    pressTime := min ((s.account x.account).pressTime + elapsed s.partTime a.since) 18446744073709551615 }
  let running : Job := { y with state := .running }
  let u := ((s.setAssignment p none).setJob a.slot (some running)).setAccount x.account acc
  have hu : (s.endAssignment p a x).modJob a.slot Job.clearFlags = u := by
    have e1 : s.modJob a.slot (fun z => { z with
        pressTime := raiseTo max32 z.pressTime (elapsed s.partTime a.since) }) =
        s.setJob a.slot (some { x with pressTime := min (x.pressTime + elapsed s.partTime a.since) 4294967295 }) := by
      unfold State.modJob; rw [h.job]; rfl
    unfold State.endAssignment
    dsimp only
    rw [e1]
    have e2 : ∀ z, (((s.setJob a.slot (some z)).modAccount x.account (fun b => { b with
        pressTime := raiseTo max64 b.pressTime (elapsed s.partTime a.since) })).setAssignment p none) =
        (((s.setAssignment p none).setJob a.slot (some z)).setAccount x.account acc) := fun z => rfl
    rw [e2]
    have e3 : ∀ (v : State) (z : Job), v.job a.slot = some z →
        v.modJob a.slot Job.clearFlags = v.setJob a.slot (some z.clearFlags) := by
      intro v z hz; unfold State.modJob; rw [hz]; rfl
    rw [e3 _ { x with pressTime := min (x.pressTime + elapsed s.partTime a.since) 4294967295 } (by simp)]
    show State.setAccount ((State.setJob (State.setJob _ _ _)) _ _) _ _ = _
    rw [State.setJob_setJob]
    have e4 : ({ x with pressTime := min (x.pressTime + elapsed s.partTime a.since) 4294967295 } : Job).clearFlags
        = running := by
      have h1 := h.kept; have h2 := h.going; have h3 := h.running
      obtain ⟨_, _, _, _, _, _, _, _, _, _, _, _, _, _, _, _, _, _⟩ := x
      simp_all [running, y, Job.leftHeld, Job.clearFlags]
    rw [e4]
  have huj : u.job a.slot = some running := by
    show (State.setJob _ _ _).job _ = _
    simp
  have hua : ((u.account x.account).state) = (s.account x.account).state := by
    show ((State.setAccount _ _ _).account _).state = _
    simp [acc]
  have hl : ((s.endAssignment p a x).modJob a.slot Job.clearFlags).leavingState x d = some .held := by
    rw [hu]
    unfold State.leavingState
    rw [hua, h.stops]
    have h1 : x.good ≠ x.total := h.unfinished
    have h2 : x.failing = false := by simpa [Job.failing] using h.sound
    simp [h1, h2, h.kept, h.going]
  have hg : (s.account x.account).state.good = false := by
    have := h.stops
    cases e : (s.account x.account).state <;> rw [e] at this <;> simp_all [AccountState.stops, AccountState.good]
  unfold State.leaveNow
  simp only [h.assignment, haj]
  rw [hl, hu]
  have ht : u.jobTo a.slot .held = (u.setJob a.slot (some y)).notify .job (jobNoticeBody a.slot .running y) := by
    rw [jobTo_other u a.slot running .held huj (by simp [running])]
    rfl
  have hgu : ((u.jobTo a.slot .held).account x.account).state.good = false := by
    rw [ht, notify_account]
    show (u.account x.account).state.good = false
    rw [hua, hg]
  simp only [hgu, Bool.false_eq_true, if_false]
  rw [ht]
  show State.notify (State.setAccount (State.setJob (State.setJob _ _ _) _ _) _ _) _ _ = _
  rw [State.setJob_setJob]

end Sys2Proof.Machine
end

