-- ==== Sys2Proof/Laws/Kept.lean ====
section
/-! SUPPORT. What the outcomes of sheets and the messages of engines leave as it was, said once for each shared operation: the
clock, the queue of commands, the DRAM, the link but for its notices, the tables of the meter unit and the dispatcher, the
settings of every port, the limits of every account; that the meter log keeps to its 256 places, that the spool stays sound, and
that every job is in its place. -/

namespace Sys2Proof.Machine

/-- What outcomes never change of an account, and the range that its balance keeps to. -/
structure AccountKept (x y : Account) : Prop where
  tier : y.tier = x.tier
  low : y.low = x.low
  floor : y.floor = x.floor
  balance : inRange x.balance → inRange y.balance
  unset : y.state = .unset ↔ x.state = .unset

/-- What never changes of a port's settings; and its paper-path queue keeps to its bound. -/
structure SettingsKept (x y : Port) : Prop where
  grace : y.grace = x.grace
  gateWait : y.gateWait = x.gateWait
  interval : y.interval = x.interval
  bounded : x.Bounded → y.Bounded

/-- What never changes of a job record while its job lasts, and how its bill goes: the good count and the charge total never
fall, and the charge total stays while the good count does; its next ordinal never passes its total. -/
def JobKept (o o' : Option Job) : Prop :=
  match o, o' with
  | none, none => True
  | some x, some y =>
    y.described = x.described ∧ x.good ≤ y.good ∧ x.charge ≤ y.charge ∧ (y.good = x.good → y.charge = x.charge)
      ∧ (x.next ≤ x.total → y.next ≤ y.total)
  | _, _ => False

/-- What outcomes, messages of engines and all that follows from them leave as it was, but for the job records. -/
structure Frame (s t : State) : Prop where
  time : t.partTime = s.partTime
  pending : t.pending = s.pending
  dram : t.spool.dram = s.spool.dram
  link : t.link = { s.link with notices := t.link.notices, overflow := t.link.overflow }
  notices : s.link.notices <+: t.link.notices
  room : s.link.notices.length ≤ 64 → t.link.notices.length ≤ 64
  sizes : t.meter.sizes = s.meter.sizes
  tiers : t.meter.tiers = s.meter.tiers
  policy : t.meter.policy = s.meter.policy
  log : s.meter.log.length ≤ 256 → t.meter.log.length ≤ 256
  logRoom : s.meter.Room → t.meter.Room
  slices : t.dispatch.slices = s.dispatch.slices
  accounts : ∀ a, AccountKept (s.account a) (t.account a)
  ports : ∀ p, SettingsKept (s.port p) (t.port p)
  spool : SpoolCalm s.spool t.spool

/-- What they leave as it was, how they change a job record, and that every job stays in its place or takes another whole. -/
structure Kept (s t : State) : Prop extends Frame s t where
  jobs : ∀ j, JobKept (s.job j) (t.job j)
  placed : s.Placed → t.Placed

theorem JobKept.refl (o : Option Job) : JobKept o o := by cases o <;> simp [JobKept]

theorem JobKept.trans {a b c : Option Job} (h : JobKept a b) (k : JobKept b c) : JobKept a c := by
  cases a <;> cases b <;> cases c <;> simp only [JobKept] at *
  obtain ⟨h1, h2, h3, h4, h5⟩ := h
  obtain ⟨k1, k2, k3, k4, k5⟩ := k
  exact ⟨k1.trans h1, by omega, by omega, fun e => (k4 (by omega)).trans (h4 (by omega)), fun n => k5 (h5 n)⟩

/-- A change that leaves the description and the bill alone. -/
theorem JobKept.unbilled {x y : Job} (d : y.described = x.described) (g : y.good = x.good) (c : y.charge = x.charge)
    (n : x.next ≤ x.total → y.next ≤ y.total) : JobKept (some x) (some y) :=
  ⟨d, Nat.le_of_eq g.symm, Nat.le_of_eq c.symm, fun _ => c, n⟩

theorem JobKept.described {o o' : Option Job} (h : JobKept o o') : o'.map Job.described = o.map Job.described := by
  cases o <;> cases o' <;> simp only [JobKept] at h
  · rfl
  · simp [h.1]

theorem AccountKept.refl (x : Account) : AccountKept x x := ⟨rfl, rfl, rfl, id, Iff.rfl⟩

theorem AccountKept.trans {x y z : Account} (h : AccountKept x y) (k : AccountKept y z) : AccountKept x z :=
  ⟨k.tier.trans h.tier, k.low.trans h.low, k.floor.trans h.floor, fun r => k.balance (h.balance r),
    k.unset.trans h.unset⟩

theorem SettingsKept.refl (x : Port) : SettingsKept x x := ⟨rfl, rfl, rfl, id⟩

/-- A paper-path queue that grows no longer keeps to its bound. -/
theorem Port.Bounded.shrinks {x y : Port} (h : x.Bounded) (p : y.path.length ≤ x.path.length) (c : y.caps = x.caps) : y.Bounded :=
  ⟨Nat.le_trans p h.1, by rw [c]; exact h.2⟩

theorem forget_settings (x : Port) (tag : Byte) : SettingsKept x (x.forget tag) :=
  ⟨rfl, rfl, rfl, fun b => b.shrinks (List.length_filter_le _ _) rfl⟩

theorem SettingsKept.trans {x y z : Port} (h : SettingsKept x y) (k : SettingsKept y z) : SettingsKept x z :=
  ⟨k.grace.trans h.grace, k.gateWait.trans h.gateWait, k.interval.trans h.interval, fun b => k.bounded (h.bounded b)⟩

theorem Kept.refl (s : State) : Kept s s :=
  ⟨⟨rfl, rfl, rfl, rfl, List.prefix_rfl, id, rfl, rfl, rfl, id, id, rfl, fun _ => AccountKept.refl _,
    fun _ => SettingsKept.refl _, SpoolCalm.refl _⟩, fun _ => JobKept.refl _, id⟩

theorem Frame.trans {s t u : State} (h : Frame s t) (k : Frame t u) : Frame s u where
  time := k.time.trans h.time
  pending := k.pending.trans h.pending
  dram := k.dram.trans h.dram
  link := by rw [k.link, h.link]
  notices := h.notices.trans k.notices
  room := fun r => k.room (h.room r)
  sizes := k.sizes.trans h.sizes
  tiers := k.tiers.trans h.tiers
  policy := k.policy.trans h.policy
  log := fun r => k.log (h.log r)
  logRoom := fun r => k.logRoom (h.logRoom r)
  slices := k.slices.trans h.slices
  accounts := fun a => (h.accounts a).trans (k.accounts a)
  ports := fun p => (h.ports p).trans (k.ports p)
  spool := h.spool.trans k.spool

theorem Kept.trans {s t u : State} (h : Kept s t) (k : Kept t u) : Kept s u :=
  ⟨h.toFrame.trans k.toFrame, fun j => (h.jobs j).trans (k.jobs j), fun g => k.placed (h.placed g)⟩

theorem JobCalm.kept {o o' : Option Job} (h : JobCalm o o') : JobKept o o' := by
  cases o <;> cases o' <;> simp only [JobCalm, JobKept] at *
  refine ⟨?_, ?_, ?_, ?_, h.2⟩ <;> rw [h.1]
  · rfl
  · exact fun _ => rfl

theorem NearCalm.frame {s t : State} (h : NearCalm s t) : Frame s t where
  time := h.time
  pending := h.pending
  dram := h.dram
  link := h.link
  notices := h.notices
  room := h.room
  sizes := by rw [h.meter]
  tiers := by rw [h.meter]
  policy := by rw [h.meter]
  log := by rw [h.meter]; exact id
  logRoom := h.logRoom
  slices := h.slices
  accounts := fun a => by
    rw [h.accounts a]
    exact ⟨rfl, rfl, rfl, id, Iff.rfl⟩
  ports := fun p => ⟨(h.ports p).grace, (h.ports p).gateWait, (h.ports p).interval, (h.ports p).bounded⟩
  spool := h.spool

theorem Calm.kept {s t : State} (h : Calm s t) : Kept s t := ⟨h.toNearCalm.frame, fun j => (h.jobs j).kept, h.placed⟩

/-! ## The writers -/

variable (s : State)

theorem modPort_kept (p : PortNo) (f : Port → Port) (h : ∀ x, SettingsKept x (f x)) : Kept s (s.modPort p f) :=
  { Kept.refl s with
    ports := fun q => by
      rw [State.modPort_port]
      split
      · rename_i e; rw [← e]; exact h _
      · exact SettingsKept.refl _ }

theorem setJob_frame (j : Slot) (o : Option Job) : Frame s (s.setJob j o) := { (Kept.refl s).toFrame with }

theorem modJob_placed (j : Slot) (f : Job → Job) (h : ∀ x, placeOf (some (f x)) = placeOf (some x)) (g : s.Placed) :
    (s.modJob j f).Placed := by
  refine setJob_placed g _ ?_
  cases s.job j with
  | none => rfl
  | some x => exact h x

theorem setJob_kept (j : Slot) (o : Option Job) (h : JobKept (s.job j) o) (e : placeOf o = placeOf (s.job j)) :
    Kept s (s.setJob j o) :=
  { setJob_frame s j o with
    placed := fun g => setJob_placed g o e
    jobs := fun k => by
      rw [State.setJob_job]
      split
      · rename_i e; rw [← e]; exact h
      · exact JobKept.refl _ }

theorem modJob_kept (j : Slot) (f : Job → Job)
    (h : ∀ x, (f x).described = x.described ∧ (f x).good = x.good ∧ (f x).charge = x.charge
      ∧ placeOf (some (f x)) = placeOf (some x) ∧ (x.next ≤ x.total → (f x).next ≤ (f x).total)) : Kept s (s.modJob j f) := by
  refine setJob_kept s j _ ?_ ?_
  · cases s.job j with
    | none => trivial
    | some x =>
      obtain ⟨h1, h2, h3, _, h5⟩ := h x
      exact ⟨h1, Nat.le_of_eq h2.symm, Nat.le_of_eq h3.symm, fun _ => h3, h5⟩
  · cases s.job j with
    | none => rfl
    | some x => exact (h x).2.2.2.1

theorem setAccount_kept (a : AccountNo) (x : Account) (h : AccountKept (s.account a) x) : Kept s (s.setAccount a x) :=
  { Kept.refl s with
    sizes := rfl
    tiers := rfl
    policy := rfl
    log := id
    jobs := fun _ => JobKept.refl _
    accounts := fun b => by
      rw [State.setAccount_account]
      split
      · rename_i e; rw [← e]; exact h
      · exact AccountKept.refl _ }

theorem modAccount_kept (a : AccountNo) (f : Account → Account) (h : AccountKept (s.account a) (f (s.account a))) :
    Kept s (s.modAccount a f) := setAccount_kept s a _ h

theorem post_kept (t : Task) : Kept s (s.post t) := { Kept.refl s with }

theorem foldl_kept {α : Type} (f : State → α → State) (h : ∀ s a, Kept s (f s a)) (l : List α) (s : State) :
    Kept s (l.foldl f s) := by
  induction l generalizing s with
  | nil => exact Kept.refl s
  | cons a l ih => exact (h s a).trans (ih _)

theorem settle_kept : Kept s s.settle := (settle_calm s).kept

/-! ## Spool -/

/-- A change of the spool manager's records alone. -/
theorem spool_kept (x : Spool) (d : x.dram = s.spool.dram) (c : SpoolCalm s.spool x)
    (e : ∀ k : Slot, s.spool.images[k] = [] → x.images[k] = []) : Kept s { s with spool := x } :=
  { Kept.refl s with
    dram := d
    spool := c
    placed := fun g => g.congr (t := { s with spool := x }) (fun _ => rfl) rfl rfl (fun _ => rfl) e }

/-- A slot without images has none after one image record is replaced. -/
theorem setImage_none (images : Vector (List ImageRec) 128) (j : Slot) (i : Nat) (r : ImageRec) (k : Slot)
    (h : images[k] = []) : (images.set j ((images[j]).set i r))[k] = [] := by
  simp only [Fin.getElem_fin, Vector.getElem_set]
  split
  · rename_i e
    have e' : j = k := Fin.ext e
    subst e'
    show (images[j]).set i r = []
    rw [h]; rfl
  · exact h

theorem loseBand_kept (j : Slot) (image index : Nat) (reader : Option PortNo) : Kept s (s.loseBand j image index reader) := by
  have c := loseBand_spool s j image index reader
  unfold State.loseBand at c ⊢
  revert c
  split
  · intro c
    dsimp only at c ⊢
    rw [notice_spool] at c
    have h := spool_kept s _ (by rfl) c (fun k => setImage_none _ _ _ _ k)
    exact h.trans (notify_calm _ _ _).kept
  · exact fun _ => Kept.refl s

theorem releaseImage_kept (j : Slot) (image : Nat) : Kept s (s.releaseImage j image) := by
  have c := releaseImage_spool s j image
  unfold State.releaseImage at c ⊢
  revert c
  split
  · exact fun c => spool_kept s _ rfl c (fun k => setImage_none _ _ _ _ k)
  · exact fun _ => Kept.refl s

theorem releasePassed_kept (j : Slot) : Kept s (s.releasePassed j) := by
  unfold State.releasePassed
  split
  · dsimp only
    split
    · exact foldl_kept _ (fun s i => releaseImage_kept s j i) _ _
    · exact Kept.refl s
  · exact Kept.refl s

theorem endRead_kept (j : Slot) (image index block : Nat) (e : Bool) (reader : Option PortNo) :
    Kept s (s.endRead j image index block e reader).1 := by
  unfold State.endRead
  split
  · split
    · exact Kept.refl s
    · split
      · exact loseBand_kept _ _ _ _ _
      · exact Kept.refl s
  · exact Kept.refl s

/-! ## The meter unit -/

/-- An account's waiting jobs become HELD, each whole (R163). -/
theorem holdEach_calm (a : AccountNo) : Calm s ((allSlots.filter (fun j =>
    match s.job j with
    | some x => decide (x.account = a) && (decide (x.state = .queued) || decide (x.state = .stockwait))
    | none => false)).foldl (fun s j => (s.unlist j).jobTo j .held) s) := by
  refine ⟨foldl_near _ (fun s j => (unlist_near s j).trans (jobTo_near _ j .held)) _ _, fun g => ?_⟩
  refine foldl_placed _ (fun s j p i => ⟨?_, fun k q => State.Idle.jobTo (s := s.unlist j) q (by decide)⟩) _ s g fun j hj => ?_
  · refine jobTo_stands (i.unlist_out p) .held (by decide) (fun b => ?_)
    rcases b with b | b
    · cases b
    · obtain ⟨x, hx, _⟩ := i
      have : (s.unlist j).job j = some x := hx
      rw [this] at b; cases b
  · have f := (List.mem_filter.mp hj).2
    split at f
    · rename_i x hx
      refine ⟨x, hx, ?_⟩
      intro e
      rw [e] at f
      simp at f
    · cases f

theorem holdJobs_kept (a : AccountNo) : Kept s (s.holdJobs a) := by
  unfold State.holdJobs
  exact (holdEach_calm s a).kept.trans (post_kept _ _)

theorem releaseJobs_kept (a : AccountNo) : Kept s (s.releaseJobs a) :=
  foldl_kept _ (fun s j => post_kept s (.releaseHeld j)) _ _

theorem noticeAccount_kept (a : AccountNo) (b : AccountState) (x : Account) (c : AccountCause) :
    Kept s (s.noticeAccount a b x c) := by
  unfold State.noticeAccount
  split
  · exact (notify_calm _ _ _).kept
  · exact Kept.refl s

theorem moveAccountJobs_kept (a : AccountNo) (b c : AccountState) : Kept s (s.moveAccountJobs a b c) := by
  unfold State.moveAccountJobs
  split
  · exact Kept.refl s
  · split
    · exact holdJobs_kept _ _
    · split
      · exact releaseJobs_kept _ _
      · exact Kept.refl s

/-- What an account's change of state brings, once its record is written. -/
theorem accountTo_kept (a : AccountNo) (x : Account) (c : AccountCause) (h : AccountKept (s.account a) x) :
    Kept s (s.accountTo a x c) :=
  ((setAccount_kept s a x h).trans (noticeAccount_kept _ _ _ _ _)).trans (moveAccountJobs_kept _ _ _ _)

/-- A change of an account leaves a job's description and outcomes as they are. -/
theorem accountTo_calm (a : AccountNo) (x : Account) (c : AccountCause) (j : Slot) :
    JobCalm (s.job j) ((s.accountTo a x c).job j) := by
  have n : ∀ t : State, Calm t (t.noticeAccount a (s.account a).state x c) := by
    intro t; unfold State.noticeAccount; split
    · exact notify_calm _ _ _
    · exact Calm.refl _
  have m : ∀ t : State, Calm t (t.moveAccountJobs a (s.account a).state x.state) := by
    intro t; unfold State.moveAccountJobs State.holdJobs State.releaseJobs
    split
    · exact Calm.refl _
    · split
      · exact (holdEach_calm t a).trans (post_calm _ _)
      · split
        · exact foldl_calm _ (fun s j => post_calm s (.releaseHeld j)) _ _
        · exact Calm.refl _
  exact ((n (s.setAccount a x)).trans (m _)).jobs j

theorem saturate32_inRange (v : Int) : inRange (saturate32 v) := by
  unfold inRange saturate32; omega

theorem watchState_set (b l f : Int) : watchState b l f ≠ .unset := by
  unfold watchState; split
  · simp
  · split <;> simp

theorem watched_kept (x : Account) : AccountKept x x.watched := by
  unfold Account.watched
  split
  · rename_i h; exact ⟨rfl, rfl, rfl, id, by simp [h, watchState_set]⟩
  · rename_i h; exact ⟨rfl, rfl, rfl, id, by simp [h, watchState_set]⟩
  · rename_i h; exact ⟨rfl, rfl, rfl, id, by simp [h, watchState_set]⟩
  · exact ⟨rfl, rfl, rfl, id, Iff.rfl⟩

theorem debit_kept (x : Account) (n : Nat) : AccountKept x (x.debit n) :=
  ⟨rfl, rfl, rfl, fun _ => saturate32_inRange _, Iff.rfl⟩

/-- A written record never takes the log past 256 records (R166). -/
theorem writeLog_length (policy : LogPolicy) (log : List MeterRecord) (dropped : Nat) (r : MeterRecord)
    (h : log.length ≤ 256) : (writeLog policy log dropped r).1.length ≤ 256 := by
  unfold writeLog
  split
  · simp; omega
  · split
    · simp; omega
    · exact h

theorem highMark_kept (n : Nat) : Kept s (s.highMark n) := by
  unfold State.highMark
  split
  · refine Kept.trans ?_ (notify_calm _ _ _).kept
    exact { Kept.refl s with }
  · exact Kept.refl s

/-- A record written under STALL takes the place its sheet had reserved (R166, R167). -/
theorem writeLog_room (m : Meter) (r : MeterRecord) (h : m.Room) : Meter.Room { m with
    log := (writeLog m.policy m.log m.dropped r).1
    dropped := (writeLog m.policy m.log m.dropped r).2
    reservations := if m.policy = .stall then m.reservations - 1 else m.reservations } := by
  refine ⟨fun hs => ?_, fun hs => ?_⟩
  · have hs : m.policy = .stall := hs
    have := h.1 hs
    show (writeLog m.policy m.log m.dropped r).1.length + (if m.policy = .stall then m.reservations - 1 else m.reservations) ≤ 256
    rw [if_pos hs]
    unfold writeLog
    split
    · simp only [List.length_append, List.length_singleton]; omega
    · rw [hs]; show m.log.length + _ ≤ 256; omega
  · have hs : m.policy ≠ .stall := hs
    show (if m.policy = .stall then m.reservations - 1 else m.reservations) = 0
    rw [if_neg hs]
    exact h.2 hs

theorem writeRecord_kept (r : MeterRecord) : Kept s (s.writeRecord r) := by
  unfold State.writeRecord
  refine Kept.trans ?_ (highMark_kept _ _)
  exact { Kept.refl s with
    sizes := rfl
    tiers := rfl
    policy := rfl
    log := fun h => writeLog_length _ _ _ _ h
    logRoom := writeLog_room s.meter r }

theorem writeRecord_calm (r : MeterRecord) (j : Slot) : JobCalm (s.job j) ((s.writeRecord r).job j) := by
  have n : ∀ (t : State) (k : Nat), JobCalm (t.job j) ((t.highMark k).job j) := by
    intro t k
    unfold State.highMark
    split
    · exact (notify_calm { t with meter := { t.meter with highMark := true } } _ _).jobs j
    · exact JobCalm.refl _
  have e : s.job j = State.job { s with meter := { s.meter with
      log := (writeLog s.meter.policy s.meter.log s.meter.dropped r).1
      dropped := (writeLog s.meter.policy s.meter.log s.meter.dropped r).2
      reservations := if s.meter.policy = .stall then s.meter.reservations - 1 else s.meter.reservations } } j := rfl
  rw [e]
  exact n _ _

theorem releaseReservation_kept : Kept s s.releaseReservation := by
  unfold State.releaseReservation
  split
  · rename_i hs
    have room : s.meter.Room → Meter.Room { s.meter with reservations := s.meter.reservations - 1 } := fun r =>
      ⟨fun _ => Nat.le_trans (Nat.add_le_add_left (Nat.sub_le _ _) _) (r.1 hs), fun n => absurd hs n⟩
    exact ((reservations_calm s (s.meter.reservations - 1) room).kept).trans
      (post_kept _ _)
  · exact Kept.refl s

/-! ## Feeding -/

theorem rewindTo_kept (p : PortNo) (r : Nat) : Kept s (s.rewindTo p r) := by
  unfold State.rewindTo
  split
  · rename_i j x hj hx
    rw [assignedJob_of s p j hj] at hx
    split
    · rename_i hr
      have h : Kept s (s.setJob j (some { x with next := r })) :=
        setJob_kept _ _ _ (by rw [hx]; exact JobKept.unbilled rfl rfl rfl fun n => Nat.le_trans (Nat.le_of_lt hr) n) (by rw [hx]; rfl)
      dsimp only
      split
      · exact (h.trans (modPort_kept _ _ _ (by exact fun _ => ⟨rfl, rfl, rfl, id⟩))).trans (portTo_calm _ _ _).kept
      · exact h
    · exact Kept.refl s
  · exact Kept.refl s

theorem endRequestOf_kept (p : PortNo) (l : List Byte) : Kept s (s.endRequestOf p l) := by
  unfold State.endRequestOf
  split
  · split
    · exact (modPort_kept _ _ _ (by exact fun _ => ⟨rfl, rfl, rfl, id⟩)).trans (sendFill_calm _ _ _ _ _).kept
    · exact Kept.refl s
  · exact Kept.refl s

theorem divertAll_kept (p : PortNo) (l : List Byte) : Kept s (s.divertAll p l) :=
  foldl_kept _ (fun s t => (divert_calm s p t).kept) _ _

theorem supersede_length (path : List Sheet) (o : Nat) : (supersede path o).length ≤ path.length := by
  unfold supersede; rw [List.length_map]

theorem marked_length (path : List Sheet) (o : Nat) (tag : Byte) (c : SpoilCause) :
    (spoilMark (supersede path o) tag c).length ≤ path.length := by
  unfold spoilMark; rw [List.length_map]; exact supersede_length path o

theorem spoil_kept (p : PortNo) (tag : Byte) (c : SpoilCause) : Kept s (s.spoil p tag c) := by
  unfold State.spoil
  split
  · split
    · exact ((((modPort_kept _ _ _ (by exact fun x => ⟨rfl, rfl, rfl, fun b => b.shrinks (marked_length _ _ _ _) rfl⟩)).trans
        (rewindTo_kept _ _ _)).trans (divertAll_kept _ _ _)).trans
        (endRequestOf_kept _ _ _)).trans (post_kept _ _)
    · exact Kept.refl s
  · exact Kept.refl s

theorem rewindRule_kept (p : PortNo) (l : List (Sheet × Outcome1)) : Kept s (s.rewindRule p l) := by
  unfold State.rewindRule
  split
  · exact (((rewindTo_kept _ _ _).trans (modPort_kept _ _ _
      (by exact fun x => ⟨rfl, rfl, rfl, fun b => b.shrinks (supersede_length _ _) rfl⟩))).trans (divertAll_kept _ _ _)).trans
      (endRequestOf_kept _ _ _)
  · exact Kept.refl s

theorem failRequest_kept (p : PortNo) : Kept s (s.failRequest p) := by
  unfold State.failRequest
  split
  · exact ((modPort_kept _ _ _ (by exact fun _ => ⟨rfl, rfl, rfl, id⟩)).trans (sendFill_calm _ _ _ _ _).kept).trans (spoil_kept _ _ _ _)
  · exact Kept.refl s

theorem beginRead_kept (p : PortNo) (tag : Byte) (back : Bool) (index : Nat) (j : Slot) (image block : Nat) :
    Kept s (s.beginRead p tag back index j image block) := modPort_kept _ _ _ (by exact fun _ => ⟨rfl, rfl, rfl, id⟩)

theorem answerWant_kept (p : PortNo) (j : Slot) (image : Nat) (x : Sheet) (back : Bool) (index : Nat) :
    Kept s (s.answerWant p j image x back index) := by
  unfold State.answerWant
  split
  · exact beginRead_kept _ _ _ _ _ _ _ _
  · exact (sendFill_calm _ _ _ _ _).kept.trans (spoil_kept _ _ _ _)
  · split
    · split
      · exact (sendFill_calm _ _ _ _ _).kept.trans (spoil_kept _ _ _ _)
      · exact modPort_kept _ _ _ (by exact fun _ => ⟨rfl, rfl, rfl, id⟩)
    · exact (sendFill_calm _ _ _ _ _).kept

theorem takeWant_kept (p : PortNo) (tag : Byte) (back : Bool) (index : Nat) : Kept s (s.takeWant p tag back index) := by
  unfold State.takeWant
  split
  · split
    · exact Kept.refl s
    · dsimp only
      split
      · exact (failRequest_kept _ _).trans (answerWant_kept _ _ _ _ _ _ _)
      · exact failRequest_kept _ _
  · exact Kept.refl s

theorem serveRequest_kept (j : Slot) (image index block : Nat) : Kept s (s.serveRequest j image index block) := by
  unfold State.serveRequest
  split
  · split
    · split
      · split
        · exact (modPort_kept _ _ _ (by exact fun _ => ⟨rfl, rfl, rfl, id⟩)).trans (beginRead_kept _ _ _ _ _ _ _ _)
        · exact Kept.refl s
      · exact Kept.refl s
    · exact Kept.refl s
  · exact Kept.refl s

theorem answerRead_kept (p : PortNo) (r : BandRead) (x : ReadResult) : Kept s (s.answerRead p r x) := by
  unfold State.answerRead
  split
  · exact Kept.refl s
  · split
    · exact (send_calm _ _ _).kept
    · exact (sendFill_calm _ _ _ _ _).kept.trans (spoil_kept _ _ _ _)

/-! ## Outcomes -/

theorem oneMoreGood_kept (x : Job) :
    x.oneMoreGood.described = x.described ∧ x.oneMoreGood.good = x.good + 1 ∧ x.oneMoreGood.charge = x.charge
      ∧ placeOf (some x.oneMoreGood) = placeOf (some x) ∧ (x.next ≤ x.total → x.oneMoreGood.next ≤ x.oneMoreGood.total) := by
  unfold Job.oneMoreGood
  dsimp only
  split
  · split <;> exact ⟨rfl, rfl, rfl, rfl, id⟩
  · exact ⟨rfl, rfl, rfl, rfl, id⟩

theorem wasted_kept (x : Job) (c : WasteCause) (o : Nat) :
    ((x.oneMoreWaste c).loss o).described = x.described ∧ ((x.oneMoreWaste c).loss o).good = x.good
      ∧ ((x.oneMoreWaste c).loss o).charge = x.charge
      ∧ placeOf (some ((x.oneMoreWaste c).loss o)) = placeOf (some x)
      ∧ (x.next ≤ x.total → ((x.oneMoreWaste c).loss o).next ≤ ((x.oneMoreWaste c).loss o).total) := by
  unfold Job.loss Job.oneMoreWaste
  dsimp only
  split
  · exact ⟨rfl, rfl, rfl, rfl, id⟩
  · split
    · exact ⟨rfl, rfl, rfl, rfl, id⟩
    · split
      · exact ⟨rfl, rfl, rfl, rfl, id⟩
      · split <;> exact ⟨rfl, rfl, rfl, rfl, id⟩

theorem goodOutcome_kept (p : PortNo) (j : Slot) (x : Job) (sheet : Sheet) (h : s.job j = some x) :
    Kept s (s.goodOutcome p j x sheet) := by
  unfold State.goodOutcome
  dsimp only
  refine Kept.trans ?_ (modPort_kept _ _ _ (fun q => forget_settings q _))
  refine Kept.trans ?_ (changeCauses_calm _ _ _).kept
  refine Kept.trans ?_ (modPort_kept _ _ _ (by exact fun _ => ⟨rfl, rfl, rfl, id⟩))
  refine Kept.trans ?_ (releasePassed_kept _ _)
  refine ⟨?_, fun k => ?_, fun g => ?_⟩
  · refine Frame.trans ?_ (setJob_frame _ _ _)
    refine Frame.trans ?_ (writeRecord_kept _ _).toFrame
    refine Frame.trans ?_ (accountTo_kept _ _ _ _ ((debit_kept _ _).trans (watched_kept _))).toFrame
    exact setJob_frame _ _ _
  · have c := (accountTo_calm (s.setJob j (some { x with charge := x.charge + (s.recordOf j x p sheet.ordinal none).charge }))
      x.account ((State.account (s.setJob j (some { x with charge := x.charge + (s.recordOf j x p sheet.ordinal none).charge }))
        x.account).debit (s.recordOf j x p sheet.ordinal none).charge).watched .debit k).trans
          (writeRecord_calm _ (s.recordOf j x p sheet.ordinal none) k)
    unfold State.modJob
    rw [State.setJob_job]
    rw [State.setJob_job] at c
    split
    · rename_i e
      subst e
      rw [if_pos rfl] at c
      rw [h]
      revert c
      generalize (State.job _ j) = o
      intro c
      cases o with
      | none => exact c
      | some y =>
        obtain ⟨g1, g2, g3, _, g5⟩ := oneMoreGood_kept y
        obtain ⟨c', n⟩ := c
        have d1 : y.described = x.described := by rw [c']; rfl
        have d2 : y.good = x.good := by rw [c']
        have d3 : x.charge ≤ y.charge := by rw [c']; exact Nat.le_add_right _ _
        exact ⟨g1.trans d1, by omega, by omega, fun e => by omega, fun m => g5 (n m)⟩
    · rename_i e
      rw [if_neg e] at c
      exact c.kept
  · refine modJob_placed _ _ _ (fun y => (oneMoreGood_kept y).2.2.2.1) ?_
    refine (writeRecord_kept _ _).placed ?_
    refine (accountTo_kept _ _ _ _ ((debit_kept _ _).trans (watched_kept _))).placed ?_
    exact setJob_placed g _ (by rw [h]; rfl)

theorem permanentUnderrun_kept (p : PortNo) (j : Slot) : Kept s (s.permanentUnderrun p j) := by
  unfold State.permanentUnderrun
  dsimp only
  split
  · exact ((changeCauses_calm _ _ _).kept.trans (modJob_kept _ _ _ (by exact fun _ => ⟨rfl, rfl, rfl, rfl, id⟩))).trans (stopFeeding_calm _ _ _).kept
  · exact (changeCauses_calm _ _ _).kept.trans (modJob_kept _ _ _ (by exact fun _ => ⟨rfl, rfl, rfl, rfl, id⟩))

theorem countUnderrun_kept (p : PortNo) (j : Slot) : Kept s (s.countUnderrun p j) := by
  unfold State.countUnderrun
  dsimp only
  split
  · exact (modPort_kept _ _ _ (by exact fun _ => ⟨rfl, rfl, rfl, id⟩)).trans (permanentUnderrun_kept _ _ _)
  · exact modPort_kept _ _ _ (by exact fun _ => ⟨rfl, rfl, rfl, id⟩)

/-- What every WASTE outcome reports before its port's underrun run is counted. -/
theorem wasteReports_kept (p : PortNo) (j : Slot) (r : MeterRecord) (a : AccountNo) (n : Account → Nat) (f : Job → Job)
    (hf : ∀ x, (f x).described = x.described ∧ (f x).good = x.good ∧ (f x).charge = x.charge
      ∧ placeOf (some (f x)) = placeOf (some x) ∧ (x.next ≤ x.total → (f x).next ≤ (f x).total)) (g : Port → Counters) :
    Kept s ((((s.writeRecord r).modAccount a (fun y => { y with wasteSheets := n y })).modJob j f).modPort p
      (fun q => { q with counters := g q })) := by
  refine Kept.trans ?_ (modPort_kept _ _ _ (by exact fun _ => ⟨rfl, rfl, rfl, id⟩))
  refine Kept.trans ?_ (modJob_kept _ _ _ hf)
  refine Kept.trans ?_ (modAccount_kept _ _ _ ⟨rfl, rfl, rfl, id, Iff.rfl⟩)
  exact writeRecord_kept _ _

theorem wasteOutcome_kept (p : PortNo) (j : Slot) (x : Job) (sheet : Sheet) (c : WasteCause) :
    Kept s (s.wasteOutcome p j x sheet c) := by
  unfold State.wasteOutcome
  dsimp only
  refine Kept.trans ?_ (modPort_kept _ _ _ (fun q => forget_settings q _))
  split
  · exact (wasteReports_kept _ _ _ _ _ _ _ (fun y => wasted_kept y c _) _).trans (countUnderrun_kept _ _ _)
  · exact wasteReports_kept _ _ _ _ _ _ _ (fun y => wasted_kept y c _) _

theorem withdrawnOutcome_kept (p : PortNo) (sheet : Sheet) : Kept s (s.withdrawnOutcome p sheet) :=
  (releaseReservation_kept s).trans (modPort_kept _ _ _ (fun _ => { forget_settings _ _ with }))

theorem takeOutcome_kept (p : PortNo) (sheet : Sheet) (o : Outcome1) : Kept s (s.takeOutcome p sheet o) := by
  unfold State.takeOutcome
  split
  · rename_i j x hj hx
    rw [assignedJob_of s p j hj] at hx
    split
    · exact goodOutcome_kept _ _ _ _ _ hx
    · exact wasteOutcome_kept _ _ _ _ _ _
    · exact withdrawnOutcome_kept _ _ _
  · exact Kept.refl s

theorem settleSheets_kept (p : PortNo) (l : List (Sheet × Outcome1)) : Kept s (s.settleSheets p l) := by
  unfold State.settleSheets
  refine Kept.trans ?_ (rewindRule_kept _ _ _)
  exact foldl_kept _ (fun s (e : Sheet × Outcome1) => takeOutcome_kept s p e.1 e.2) _ _

theorem takeDelivered_kept (p : PortNo) (tag : Byte) : Kept s (s.takeDelivered p tag) := by
  unfold State.takeDelivered
  split
  · dsimp only
    split
    · exact ((settleSheets_kept _ _ _).trans (takeOutcome_kept _ _ _ _)).trans (post_kept _ _)
    · exact settleSheets_kept _ _ _
  · exact Kept.refl s

theorem settleStop_kept (p : PortNo) (l : List StopItem) : Kept s (s.settleStop p l) :=
  (modPort_kept _ _ _ (by exact fun _ => ⟨rfl, rfl, rfl, fun b => b.shrinks (by simp) rfl⟩)).trans (settleSheets_kept _ _ _)

theorem settleCleared_kept (p : PortNo) : Kept s (s.settleCleared p) := settleSheets_kept _ _ _

theorem settleAbandoned_kept (p : PortNo) : Kept s (s.settleAbandoned p) := by
  unfold State.settleAbandoned
  dsimp only
  refine Kept.trans ?_ (modPort_kept _ _ _ (by exact fun _ => ⟨rfl, rfl, rfl, id⟩))
  refine Kept.trans ?_ (settleSheets_kept _ _ _)
  exact modPort_kept _ _ _ (by exact fun _ => ⟨rfl, rfl, rfl, id⟩)

end Sys2Proof.Machine
end

