-- ==== Sys2Proof/Laws/Messages.lean ====
section
/-! SUPPORT. What everything that happens at a port (its line, its engine's messages, its timers) leaves as it was: what
`Kept` names, said once for each operation of Machine/PortOps.lean. -/

namespace Sys2Proof.Machine

variable (s : State)

theorem notifyPort_kept (p : PortNo) (st : PortState) (r : PortReason) : Kept s (s.notifyPort p st r) :=
  (notify_calm s _ _).kept

theorem portTo_kept (p : PortNo) (st : PortState) : Kept s (s.portTo p st) := (portTo_calm s p st).kept

theorem changeCauses_kept (p : PortNo) (f : CauseSet → CauseSet) : Kept s (s.changeCauses p f) :=
  (changeCauses_calm s p f).kept

theorem send_kept (p : PortNo) (m : PressOut) : Kept s (s.send p m) := (send_calm s p m).kept

theorem leaveThen_kept (p : PortNo) (d : Destination) (t : Task) : Kept s (s.leaveThen p d t) :=
  (leaveThen_calm s p d t).kept

theorem stopFeeding_kept (p : PortNo) (c : DrainCause) : Kept s (s.stopFeeding p c) := (stopFeeding_calm s p c).kept

/-- The slice timer of an assignment record changes. -/
theorem reslice_kept (p : PortNo) (a : Assignment) (t : Option Timer) (h : s.assignment p = some a) :
    Kept s (s.setAssignment p (some { a with slice := t })) :=
  (setAssignment_calm s p _ (by unfold State.assigned; rw [h]; rfl)).kept

/-! ## The line signal -/

theorem enterLost_kept (p : PortNo) : Kept s (s.enterLost p) := by
  unfold State.enterLost
  refine Kept.trans ?_ (modPort_kept _ _ _ (by exact fun _ => ⟨rfl, rfl, rfl, id⟩))
  refine Kept.trans ?_ (portTo_kept _ _ _)
  exact modPort_kept _ _ _ (by exact fun _ => ⟨rfl, rfl, rfl, id⟩)

theorem endLoopEarly_kept (p : PortNo) : Kept s (s.endLoopEarly p) := by
  unfold State.endLoopEarly
  split
  · exact (modPort_kept _ _ _ (by exact fun _ => ⟨rfl, rfl, rfl, id⟩)).trans (notifyPort_kept _ _ _ _)
  · exact Kept.refl s

theorem signalLost_kept (p : PortNo) : Kept s (s.signalLost p) := by
  unfold State.signalLost
  dsimp only
  refine Kept.trans (t := s.modPort p Port.unplugged) (modPort_kept _ _ _ (by exact fun _ => ⟨rfl, rfl, rfl, id⟩)) ?_
  generalize s.modPort p Port.unplugged = u
  split
  · exact Kept.refl u
  · exact Kept.refl u
  · exact (modPort_kept _ _ _ (by exact fun _ => ⟨rfl, rfl, rfl, id⟩)).trans (portTo_kept _ _ _)
  · exact (endLoopEarly_kept _ _).trans (portTo_kept _ _ _)
  · exact (enterLost_kept _ _).trans (lostSettledNow_calm _ _).kept
  · exact (enterLost_kept _ _).trans (lostSettledNow_calm _ _).kept
  · exact ((modPort_kept _ _ _ (by exact fun _ => ⟨rfl, rfl, rfl, id⟩)).trans (enterLost_kept _ _)).trans
      (leaveThen_kept _ _ _ _)
  · exact ((enterLost_kept _ _).trans (settleAbandoned_kept _ _)).trans (leaveThen_kept _ _ _ _)
  · exact ((enterLost_kept _ _).trans (settleAbandoned_kept _ _)).trans (leaveThen_kept _ _ _ _)
  · exact ((enterLost_kept _ _).trans (settleAbandoned_kept _ _)).trans (leaveThen_kept _ _ _ _)

theorem signalReturns_kept (p : PortNo) (sense : Sense) : Kept s (s.signalReturns p sense) := by
  unfold State.signalReturns
  have h : Kept s (s.modPort p (fun x => { x with signal := true })) :=
    modPort_kept _ _ _ (by exact fun _ => ⟨rfl, rfl, rfl, id⟩)
  split
  · exact Kept.refl s
  · dsimp only
    split
    · exact h
    · split
      · exact h.trans (readSense_calm _ _ _).kept
      · exact h

/-! ## Probing and the loop test -/

theorem nextLoopFrame_kept (p : PortNo) (t : LoopTest) : Kept s (s.nextLoopFrame p t) := by
  unfold State.nextLoopFrame
  split
  · exact (modPort_kept _ _ _ (by exact fun _ => ⟨rfl, rfl, rfl, id⟩)).trans (notifyPort_kept _ _ _ _)
  · exact (modPort_kept _ _ _ (by exact fun _ => ⟨rfl, rfl, rfl, id⟩)).trans (send_kept _ _ _)

theorem takeEcho_kept (p : PortNo) (n : Byte) (l : List Byte) : Kept s (s.takeEcho p n l) := by
  unfold State.takeEcho
  split
  · split
    · exact (modPort_kept _ _ _ (by exact fun _ => ⟨rfl, rfl, rfl, id⟩)).trans (portTo_kept _ _ _)
    · exact Kept.refl s
  · split
    · split
      · exact nextLoopFrame_kept _ _ _
      · exact Kept.refl s
    · exact Kept.refl s
  · exact Kept.refl s

theorem probeExpired_kept (p : PortNo) : Kept s (s.probeExpired p) := by
  unfold State.probeExpired
  split
  · exact (modPort_kept _ _ _ (by exact fun _ => ⟨rfl, rfl, rfl, id⟩)).trans (portTo_kept _ _ _)
  · exact Kept.refl s

theorem loopExpired_kept (p : PortNo) : Kept s (s.loopExpired p) := by
  unfold State.loopExpired
  split
  · split
    · exact nextLoopFrame_kept _ _ _
    · exact Kept.refl s
  · exact Kept.refl s

/-! ## Identification, setup and trays -/

theorem forgive_kept (p : PortNo) : Kept s (s.forgive p) :=
  { Kept.refl s with
    jobs := fun j => by
      simp only [State.job, State.forgive, Fin.getElem_fin, Vector.getElem_map]
      cases s.jobs[j.val] with
      | none => trivial
      | some x => exact JobKept.unbilled rfl rfl rfl id
    placed := fun g => g.congr (t := s.forgive p) (fun k => by
      simp only [State.job, State.forgive, Fin.getElem_fin, Vector.getElem_map]
      cases s.jobs[k.val] <;> rfl) rfl rfl (fun _ => rfl) (fun _ => id) }

/-- R85, R86: an identity that is not refused declares no depth over the paper path's bound. -/
theorem identityFault_depth {c : EngineIdentity} (h : identityFault c = none) : (capsOf c).depth ≤ 4 := by
  unfold identityFault at h
  split at h
  · cases h
  · rename_i g
    simp at g
    exact g.2

theorem identified_kept (p : PortNo) (c : EngineIdentity) (h : identityFault c = none) : Kept s (s.identified p c) := by
  unfold State.identified
  dsimp only
  refine Kept.trans ?_ (post_kept _ _)
  refine Kept.trans ?_ (foldl_kept _ (fun s b => post_kept s (.stockLoaded b)) _ _)
  refine Kept.trans ?_ (judgeStocks_calm _ _).kept
  refine Kept.trans ?_ (portTo_kept _ _ _)
  refine Kept.trans ?_ (changeCauses_kept _ _ _)
  refine Kept.trans ?_ (forgive_kept _ _)
  exact modPort_kept _ _ _ (by exact fun _ => ⟨rfl, rfl, rfl, fun b => ⟨b.1, fun y e => by cases e; exact identityFault_depth h⟩⟩)

theorem takeIdentity_kept (p : PortNo) (c : EngineIdentity) : Kept s (s.takeIdentity p c) := by
  unfold State.takeIdentity
  split
  · exact Kept.refl s
  · split
    · exact notifyPort_kept _ _ _ _
    · rename_i h
      exact identified_kept _ _ _ h

theorem takeSetupDone_kept (p : PortNo) : Kept s (s.takeSetupDone p) := by
  unfold State.takeSetupDone
  split
  · exact Kept.refl s
  · exact ((modPort_kept _ _ _ (by exact fun _ => ⟨rfl, rfl, rfl, id⟩)).trans (portTo_kept _ _ _)).trans (post_kept _ _)

theorem takeSetupRefused_kept (p : PortNo) (code : Byte) : Kept s (s.takeSetupRefused p code) := by
  unfold State.takeSetupRefused
  split
  · exact Kept.refl s
  · split
    · exact (((modPort_kept _ _ _ (by exact fun _ => ⟨rfl, rfl, rfl, id⟩)).trans (notifyPort_kept _ _ _ _)).trans
        (modJob_kept _ _ _ (by exact fun _ => ⟨rfl, rfl, rfl, rfl, id⟩))).trans (leaveThen_kept _ _ _ _)
    · exact Kept.refl s

theorem setupExpired_kept (p : PortNo) : Kept s (s.setupExpired p) := by
  unfold State.setupExpired
  split
  · exact (modPort_kept _ _ _ (by exact fun _ => ⟨rfl, rfl, rfl, id⟩)).trans (leaveThen_kept _ _ _ _)
  · exact Kept.refl s

theorem judgeTrayEmpty_kept (p : PortNo) (a b : List TrayItem) : Kept s (s.judgeTrayEmpty p a b) := by
  unfold State.judgeTrayEmpty
  split
  · split
    · exact changeCauses_kept _ _ _
    · split
      · exact changeCauses_kept _ _ _
      · exact Kept.refl s
  · exact Kept.refl s

theorem trayChanged_kept (p : PortNo) (old item : TrayItem) : Kept s (s.trayChanged p old item) := by
  unfold State.trayChanged
  dsimp only
  refine Kept.trans ?_ (post_kept _ _)
  have h : Kept s (s.modPort p (fun x => { x with trays := trayReplaced (s.port p).trays item })) :=
    modPort_kept _ _ _ (by exact fun _ => ⟨rfl, rfl, rfl, id⟩)
  revert h
  generalize s.modPort p (fun x => { x with trays := trayReplaced (s.port p).trays item }) = u
  intro h
  have g : ∀ (c : Bool), Kept s (if c then u.judgeStock old.stock else u) := by
    intro c; split
    · exact h.trans (judgeStock_calm _ _).kept
    · exact h
  split
  · exact (((g _).trans (judgeTrayEmpty_kept _ _ _ _)).trans (post_kept _ _)).trans (post_kept _ _)
  · exact (g _).trans (judgeTrayEmpty_kept _ _ _ _)

theorem takeTray_kept (p : PortNo) (item : TrayItem) : Kept s (s.takeTray p item) := by
  unfold State.takeTray
  split
  · exact Kept.refl s
  · split
    · exact Kept.refl s
    · split
      · split
        · exact Kept.refl s
        · exact trayChanged_kept _ _ _ _
      · exact Kept.refl s

/-! ## Sheets and stops -/

theorem takePicked_kept (p : PortNo) (tag : Byte) : Kept s (s.takePicked p tag) := by
  unfold State.takePicked
  split
  · exact modPort_kept _ _ _ (by exact fun _ => ⟨rfl, rfl, rfl, fun b => b.shrinks (by simp [pickSheet]) rfl⟩)
  · exact Kept.refl s

theorem takeWantIn_kept (p : PortNo) (tag : Byte) (back : Bool) (band : Byte) : Kept s (s.takeWantIn p tag back band) := by
  unfold State.takeWantIn
  split
  · exact takeWant_kept _ _ _ _ _
  · exact Kept.refl s

theorem takeDeliveredIn_kept (p : PortNo) (tag : Byte) : Kept s (s.takeDeliveredIn p tag) := by
  unfold State.takeDeliveredIn
  split
  · exact takeDelivered_kept _ _ _
  · exact Kept.refl s

theorem gateExpired_kept (p : PortNo) : Kept s (s.gateExpired p) := by
  unfold State.gateExpired
  split
  · exact stopFeeding_kept _ _ _
  · exact Kept.refl s

theorem graceExpired_kept (p : PortNo) : Kept s (s.graceExpired p) := by
  unfold State.graceExpired
  split
  · split
    · exact failRequest_kept _ _
    · exact Kept.refl s
  · exact Kept.refl s

theorem sliceExpired_kept (p : PortNo) : Kept s (s.sliceExpired p) := by
  unfold State.sliceExpired
  split
  · rename_i a ha
    split
    · exact ((reslice_kept s p a none ha).trans (modJob_kept _ _ _ (by exact fun _ => ⟨rfl, rfl, rfl, rfl, id⟩))).trans (post_kept _ _)
    · exact Kept.refl s
  · exact Kept.refl s

theorem countStop_kept (p : PortNo) : Kept s (s.countStop p) := modPort_kept _ _ _ (by exact fun _ => ⟨rfl, rfl, rfl, id⟩)

theorem enterStopped_kept (p : PortNo) : Kept s (s.enterStopped p) := by
  unfold State.enterStopped
  dsimp only
  split
  · rename_i a ha
    exact (portTo_kept _ _ _).trans (reslice_kept _ p a none ha)
  · exact portTo_kept _ _ _

theorem takeStop_kept (p : PortNo) (r : StopReason) (l : List StopItem) : Kept s (s.takeStop p r l) := by
  unfold State.takeStop
  split
  · exact ((countStop_kept _ _).trans (enterStopped_kept _ _)).trans (changeCauses_kept _ _ _)
  · exact ((((countStop_kept _ _).trans (modPort_kept _ _ _ (by exact fun _ => ⟨rfl, rfl, rfl, id⟩))).trans
      (enterStopped_kept _ _)).trans (changeCauses_kept _ _ _)).trans (post_kept _ _)
  · exact (((((countStop_kept _ _).trans (modPort_kept _ _ _ (by exact fun _ => ⟨rfl, rfl, rfl, id⟩))).trans
      (enterStopped_kept _ _)).trans (changeCauses_kept _ _ _)).trans (settleStop_kept _ _ _)).trans (post_kept _ _)
  · exact (((((countStop_kept _ _).trans (modPort_kept _ _ _ (by exact fun _ => ⟨rfl, rfl, rfl, id⟩))).trans
      (enterStopped_kept _ _)).trans (changeCauses_kept _ _ _)).trans (settleStop_kept _ _ _)).trans (post_kept _ _)
  · exact (((countStop_kept _ _).trans (changeCauses_kept _ _ _)).trans (settleStop_kept _ _ _)).trans (post_kept _ _)
  · exact Kept.refl s

theorem takeCleared_kept (p : PortNo) : Kept s (s.takeCleared p) := by
  unfold State.takeCleared
  split
  · exact (((modPort_kept _ _ _ (by exact fun _ => ⟨rfl, rfl, rfl, id⟩)).trans (settleCleared_kept _ _)).trans
      (post_kept _ _)).trans (post_kept _ _)
  · exact Kept.refl s

/-! ## The receiver -/

theorem frameDiscarded_kept (p : PortNo) : Kept s (s.frameDiscarded p) :=
  modPort_kept _ _ _ (by exact fun _ => ⟨rfl, rfl, rfl, id⟩)

theorem huntAgain_kept (p : PortNo) : Kept s (s.huntAgain p) := modPort_kept _ _ _ (by exact fun _ => ⟨rfl, rfl, rfl, id⟩)

/-- A message of an engine, whatever it is, leaves what `Kept` names. -/
theorem takeMessage_kept (p : PortNo) (m : PressIn) : Kept s (s.takeMessage p m) := by
  unfold State.takeMessage
  split
  · exact takeEcho_kept _ _ _ _
  · exact takeIdentity_kept _ _ _
  · exact takeSetupDone_kept _ _
  · exact takeSetupRefused_kept _ _ _
  · exact takePicked_kept _ _ _
  · exact takeWantIn_kept _ _ _ _ _
  · exact takeDeliveredIn_kept _ _ _
  · exact takeStop_kept _ _ _ _
  · exact takeCleared_kept _ _
  · exact takeTray_kept _ _ _
  · exact Kept.refl s

theorem message_kept (p : PortNo) (m : PressIn) : Kept s (s.message p m) := by
  unfold State.message
  split
  · split
    · exact (huntAgain_kept _ _).trans (takeMessage_kept _ _ _)
    · exact (huntAgain_kept _ _).trans (frameDiscarded_kept _ _)
  · exact Kept.refl s

theorem pressEvent_kept (p : PortNo) (e : RxEvent) : Kept s (s.pressEvent p e) := by
  unfold State.pressEvent
  split
  · exact frameDiscarded_kept _ _
  · exact frameDiscarded_kept _ _
  · split
    · exact takeMessage_kept _ _ _
    · exact frameDiscarded_kept _ _
  · exact Kept.refl s

theorem pressByte_kept (p : PortNo) (b : Byte) : Kept s (s.pressByte p b) := by
  unfold State.pressByte
  dsimp only
  have h : ∀ r : Receiver, Kept s (s.modPort p (fun x => { x with receiver := r })) := fun r =>
    modPort_kept _ _ _ (by exact fun _ => ⟨rfl, rfl, rfl, id⟩)
  split
  · exact (h _).trans (pressEvent_kept _ _ _)
  · exact h _

theorem pressGap_kept (p : PortNo) : Kept s (s.pressGap p) := by
  unfold State.pressGap
  split
  · exact (huntAgain_kept _ _).trans (frameDiscarded_kept _ _)
  · exact Kept.refl s

/-- Bytes on a press link, whatever they are, leave what `Kept` names. -/
theorem pressBytes_kept (p : PortNo) (l : List Byte) : Kept s (s.pressBytes p l) := by
  unfold State.pressBytes
  split
  · exact (pressGap_kept _ _).trans (foldl_kept _ (fun s b => (pressByte_kept s p b).trans (settle_kept _)) _ _)
  · exact Kept.refl s

end Sys2Proof.Machine
end

