-- ==== Sys2Proof/Laws/Receiver.lean ====
section
/-! SUPPORT. What the frame receivers of both links make of a run of bytes: byte by byte while no frame ends, and at the end of
a frame. -/

namespace Sys2Proof.Machine

/-- Where a run of bytes takes a receiver, if no frame ends within it. -/
def quietRun (f : RxState → Byte → RxState × Option RxEvent) : RxState → List Byte → Option RxState
  | st, [] => some st
  | st, b :: l =>
    match f st b with
    | (st', none) => quietRun f st' l
    | (_, some _) => none

theorem quietRun_append (f : RxState → Byte → RxState × Option RxEvent) (l m : List Byte) :
    ∀ st, quietRun f st (l ++ m) = (quietRun f st l).bind (fun st' => quietRun f st' m) := by
  induction l with
  | nil => intro st; rfl
  | cons b l ih =>
    intro st
    simp only [List.cons_append, quietRun]
    split
    · exact ih _
    · rfl

/-- The counted bytes of a frame take a receiver from its body state to its check state. -/
theorem counted_run (f : RxState → Byte → RxState × Option RxEvent) (lo hi : Nat)
    (hf : ∀ n k got b, f (.body n k got) b = rxInFrame lo hi (.body n k got) b) (n : Nat) (l : List Byte) :
    ∀ got, l ≠ [] → quietRun f (.body n l.length got) l = some (.check n (l.reverse ++ got) []) := by
  induction l with
  | nil => intro got h; exact absurd rfl h
  | cons b l ih =>
    intro got _
    simp only [quietRun, hf, rxInFrame, List.length_cons]
    cases l with
    | nil => simp [quietRun]
    | cons c l =>
      rw [if_neg (by simp)]
      have := ih (b :: got) (by simp)
      simpa using this

/-! ## The control link -/

variable (s : State)

theorem controlByte_quiet (b : Byte) (st : RxState) (h : rxControl s.link.receiver.rx b = (st, none)) :
    s.controlByte b = s.modLink (fun l => { l with receiver := { rx := st, last := s.partTime } }) := by
  unfold State.controlByte
  rw [h]

/-- A run of bytes within which no frame ends only moves the control-link receiver. -/
theorem controlRun (l : List Byte) : ∀ (s : State) (st : RxState), l ≠ [] → quietRun rxControl s.link.receiver.rx l = some st →
    l.foldl State.controlByte s = s.modLink (fun x => { x with receiver := { rx := st, last := s.partTime } }) := by
  induction l with
  | nil => intro _ _ h; exact absurd rfl h
  | cons b l ih =>
    intro s st _ h
    simp only [quietRun] at h
    split at h
    · rename_i st' e
      rw [List.foldl_cons, controlByte_quiet s b st' e]
      cases l with
      | nil => simp only [quietRun, Option.some.injEq] at h; subst h; rfl
      | cons c l => rw [ih _ st (by simp) h]; rfl
    · exact absurd h (by simp)

/-- Two bytes of a length in range take a header to the body of that length. -/
theorem header_run (f : RxState → Byte → RxState × Option RxEvent) (lo hi n : Nat)
    (hf : ∀ got b, f (.header got) b = rxInFrame lo hi (.header got) b) (h1 : lo ≤ n) (h2 : n ≤ hi) (h3 : n < 65536) :
    quietRun f (.header []) (num 2 n) = some (.body n n []) := by
  have e : natOf [BitVec.ofNat 8 (n / 256 ^ 1), BitVec.ofNat 8 (n / 256 ^ 0)] = n :=
    natOf_num_of_lt (n := 2) (v := n) (by omega)
  simp only [num, quietRun, hf, rxInFrame]
  rw [e, if_neg (by simp; omega)]

/-- A frame's bytes up to the last of its CRC take a hunting control-link receiver to the end of its check. -/
theorem control_run (counted : List Byte) (c1 : Byte) (h1 : 3 ≤ counted.length) (h2 : counted.length ≤ 16448) :
    quietRun rxControl (.hunt false) (0xA5#8 :: 0x5A#8 :: num 2 counted.length ++ counted ++ [c1])
      = some (.check counted.length counted.reverse [c1]) := by
  have a : quietRun rxControl (.hunt false) [0xA5#8, 0x5A#8] = some (.header []) := by decide
  have b := header_run rxControl 3 16448 counted.length (fun _ _ => rfl) h1 h2 (by omega)
  have c := counted_run rxControl 3 16448 (fun _ _ _ _ => rfl) counted.length counted [] (by
    intro e; rw [e] at h1; simp at h1)
  have e : (0xA5#8 :: 0x5A#8 :: num 2 counted.length ++ counted ++ [c1])
      = [0xA5#8, 0x5A#8] ++ num 2 counted.length ++ counted ++ [c1] := by simp
  rw [e, quietRun_append, quietRun_append, quietRun_append, a]
  simp only [Option.bind_some, b, c, List.append_nil]
  rfl

/-- A BUSY or FRAME_ERROR reply that arises last in a step (R6). -/
theorem placeError_finish (t : Word16) (st : Status) (h : s.agenda = []) :
    (s.placeError t st).finish = State.pump { s with link := s.link.errorArisen t st } := by
  unfold State.placeError Link.errorArisen
  simp only [Bool.or_eq_true, Bool.and_eq_true, decide_eq_true_eq, Option.isNone_iff_eq_none]
  split
  · rw [finish_of_idle (by exact h)]; rfl
  · rw [finish_of_idle h]

/-- Bytes that come to a receiver between frames, while no reset is due. -/
theorem controlBytes_between (l : List Byte) (h : s.link.receiver.rx.midFrame = false) (hr : ∀ k, s.link.reset ≠ .due k) :
    s.controlBytes l = l.foldl State.controlByte s := by
  unfold State.controlBytes
  have g : s.controlGap = s := by
    unfold State.controlGap Receiver.gap; rw [h]; simp
  split
  · rename_i k e; exact absurd e (hr k)
  · rw [g]

/-! ## The press links -/

/-- A frame's bytes up to the last of its CRC take a hunting press-link receiver to the end of its check. -/
theorem press_run (counted : List Byte) (c1 : Byte) (h1 : 1 ≤ counted.length) (h2 : counted.length ≤ 16388) :
    quietRun rxPress (.hunt false) (0xC3#8 :: num 2 counted.length ++ counted ++ [c1])
      = some (.check counted.length counted.reverse [c1]) := by
  have a : quietRun rxPress (.hunt false) [0xC3#8] = some (.header []) := by decide
  have b := header_run rxPress 1 16388 counted.length (fun _ _ => rfl) h1 h2 (by omega)
  have c := counted_run rxPress 1 16388 (fun _ _ _ _ => rfl) counted.length counted [] (by
    intro e; rw [e] at h1; simp at h1)
  have e : (0xC3#8 :: num 2 counted.length ++ counted ++ [c1]) = [0xC3#8] ++ num 2 counted.length ++ counted ++ [c1] := by
    simp
  rw [e, quietRun_append, quietRun_append, quietRun_append, a]
  simp only [Option.bind_some, b, c, List.append_nil]
  rfl

theorem pressByte_quiet (p : PortNo) (b : Byte) (st : RxState) (h : rxPress (s.port p).receiver.rx b = (st, none)) :
    s.pressByte p b = s.modPort p (fun x => { x with receiver := { rx := st, last := s.partTime } }) := by
  unfold State.pressByte
  rw [h]

/-- A run of bytes within which no frame ends only moves the port's receiver. -/
theorem pressRun (p : PortNo) (l : List Byte) : ∀ (s : State) (st : RxState), s.agenda = [] → l ≠ [] →
    quietRun rxPress (s.port p).receiver.rx l = some st →
    l.foldl (fun s b => (s.pressByte p b).settle) s =
      s.modPort p (fun x => { x with receiver := { rx := st, last := s.partTime } }) := by
  induction l with
  | nil => intro _ _ _ h; exact absurd rfl h
  | cons b l ih =>
    intro s st ha _ h
    simp only [quietRun] at h
    split at h
    · rename_i st' e
      rw [List.foldl_cons, pressByte_quiet s p b st' e, settle_of_idle _ (by exact ha)]
      cases l with
      | nil => simp only [quietRun, Option.some.injEq] at h; subst h; rfl
      | cons c l =>
        rw [ih _ st (by exact ha) (by simp) (by simpa using h), State.modPort_modPort]
        rfl
    · exact absurd h (by simp)

/-- Bytes that come to a port that hears its engine, between frames. -/
theorem pressBytes_between (p : PortNo) (l : List Byte) (h : (s.port p).receiver.rx.midFrame = false) (hh : s.hears p = true) :
    s.pressBytes p l = l.foldl (fun s b => (s.pressByte p b).settle) s := by
  unfold State.pressBytes
  have g : s.pressGap p = s := by
    unfold State.pressGap Receiver.gap; rw [h]; simp
  rw [if_pos hh, g]

end Sys2Proof.Machine
end

