-- ==== Sys2Proof/Laws/Sound.lean ====
section
/-! SUPPORT. Which operations keep a sound state sound: whatever keeps the frame of Laws/Kept.lean, the writers of the link
interface and the receivers of the control link. -/

namespace Sys2Proof.Machine

/-- A band is present where the band map holds it so. -/
theorem bandPresent_iff (s : State) (j : Slot) (image index : Nat) :
    s.bandPresent j image index = true ↔ ∃ e, s.spool.Holds j image index e := by
  have b : ∀ e, s.spool.Holds j image index e ↔ s.band j image index = some e ∧ e ≠ .lost := fun e => by
    unfold Spool.Holds State.band State.image State.imagesOf
    cases h : (s.spool.images[j])[image]? with
    | none => simp
    | some r => simp
  unfold State.bandPresent
  constructor
  · intro h
    split at h
    · rename_i x y z e
      exact ⟨_, (b _).mpr ⟨e, by simp⟩⟩
    · cases h
  · rintro ⟨e, h⟩
    obtain ⟨h1, h2⟩ := (b e).mp h
    rw [h1]
    cases e with
    | present => rfl
    | lost => exact absurd rfl h2

/-- The write of a BAND_PUT that waited for its end still does where the pool has lost no block and no band has become present
(R47, R48). -/
theorem SpoolCalm.writing {s t : State} (c : SpoolCalm s.spool t.spool) (h : s.WriteWaits)
    (l : ∀ w, t.link.service = some (.write w) → s.link.service = some (.write w)) : t.WriteWaits := by
  intro w hw
  obtain ⟨h1, h2⟩ := h w (l w hw)
  refine ⟨c.grows _ h1, ?_⟩
  rw [Bool.eq_false_iff] at h2 ⊢
  intro g
  obtain ⟨e, he⟩ := (bandPresent_iff t _ _ _).mp g
  exact h2 ((bandPresent_iff s _ _ _).mpr ⟨e, c.absent _ _ _ _ he⟩)

theorem Kept.sound {s t : State} (k : Kept s t) (h : s.Sound) (ha : t.agenda = []) : t.Sound where
  link := by
    have hl := k.link
    refine ⟨?_, ?_, k.room h.link.notices, ?_, ?_⟩ <;> rw [hl]
    · exact h.link.requests
    · exact h.link.replies
    · exact h.link.served
    · exact h.link.pending
  ports p := ⟨by rw [(k.ports p).grace]; exact (h.ports p).grace, by rw [(k.ports p).gateWait]; exact (h.ports p).gateWait,
    by rw [(k.ports p).interval]; exact (h.ports p).interval,
    (k.ports p).bounded (h.ports p).bounded⟩
  slices := by rw [k.slices]; exact h.slices
  sizes := by rw [k.sizes]; exact h.sizes
  tiers := by rw [k.tiers]; exact h.tiers
  accounts a := ⟨by rw [(k.accounts a).floor, (k.accounts a).low]; exact (h.accounts a).limits,
    (k.accounts a).balance (h.accounts a).balance, by
      rw [k.tiers, (k.accounts a).tier]
      intro hs; exact (h.accounts a).tier (fun e => hs ((k.accounts a).unset.mpr e))⟩
  jobs j x hx := by
    have hk := (k.jobs j).described
    rw [hx] at hk
    cases hy : s.job j with
    | none => rw [hy] at hk; simp at hk
    | some y =>
      rw [hy] at hk
      have e : x.described = y.described := by simpa using hk
      have g := h.jobs j y hy
      have f : ∀ {α : Type} (π : Job → α), (∀ z, π z.described = π z) → π x = π y := by
        intro α π hπ; rw [← hπ x, ← hπ y, e]
      have e1 : x.sides = y.sides := f Job.sides (fun _ => rfl)
      have e2 : x.sheets = y.sheets := f Job.sheets (fun _ => rfl)
      have e3 : x.copies = y.copies := f Job.copies (fun _ => rfl)
      have e4 : x.stock = y.stock := f Job.stock (fun _ => rfl)
      have e5 : x.onSheet = y.onSheet := f Job.onSheet (fun _ => rfl)
      have e6 : x.onRoll = y.onRoll := f Job.onRoll (fun _ => rfl)
      have e7 : x.sizeClass = y.sizeClass := f Job.sizeClass (fun _ => rfl)
      have e8 : x.account = y.account := f Job.account (fun _ => rfl)
      refine ⟨?_, ?_, ?_, ?_, ?_, ?_, ?_, ?_, ?_⟩
      · rw [e1]; exact g.sides
      · rw [e2]; exact g.sheets
      · rw [e3]; exact g.copies
      · rw [e1, e2]; exact g.images
      · rw [e4]; exact g.stock
      · rw [e5, e6]; exact g.mask
      · have := g.cls; simp only [e7, k.sizes]; exact this
      · simp only [e8]; exact fun e => g.account ((k.accounts y.account).unset.mp e)
      · have kj := k.jobs j
        rw [hx, hy] at kj
        exact kj.2.2.2.2 g.next
  log := k.log h.log
  room := k.logRoom h.room
  dram := by rw [k.dram]; exact h.dram
  spool := k.spool.sound h.spool
  placed := k.placed h.placed
  writing := k.spool.writing h.writing (fun w e => by rw [k.link] at e; exact e)
  agenda := ha

/-- Sound but for the work list, as a state is while its step is being taken. -/
def SoundSoFar (s : State) : Prop := State.Sound { s with agenda := [] }

theorem SoundSoFar.of {s : State} (h : s.Sound) : SoundSoFar s := by
  unfold SoundSoFar; rw [← h.agenda]; exact h

theorem Kept.soundSoFar {s t : State} (k : Kept s t) (h : SoundSoFar s) : SoundSoFar t := by
  have a : Kept { s with agenda := [] } s := { Kept.refl _ with }
  have b : Kept t { t with agenda := [] } := { Kept.refl _ with }
  exact ((a.trans k).trans b).sound h rfl

theorem link_sound {s : State} (h : SoundSoFar s) (f : Link → Link)
    (e : (f s.link).service = s.link.service ∨ (f s.link).service = none) (g : s.link.Sound → (f s.link).Sound) :
    SoundSoFar (s.modLink f) := by
  have h0 : State.Sound _ := h
  exact { h0 with
    link := g h0.link
    writing := (SpoolCalm.refl s.spool).writing (t := { s.modLink f with agenda := [] }) h0.writing fun w hw => by
      have hw' : (f s.link).service = some (.write w) := hw
      rcases e with e | e <;> rw [e] at hw'
      · exact hw'
      · cases hw' }

theorem pump_sound {s : State} (h : s.Sound) : s.pump.Sound := by
  unfold State.pump
  obtain ⟨h1, h2, h3, h4, h5⟩ := h.link
  split
  · exact h
  · exact h
  · split
    · rename_i e
      refine { h with link := ⟨h1, ?_, h3, h4, h5⟩ }
      simp only [State.modLink]; rw [e] at h2; simp at h2 ⊢; split at h2 <;> simp_all <;> omega
    · split
      · rename_i e
        refine { h with link := ⟨h1, h2, ?_, h4, h5⟩ }
        simp only [State.modLink]; rw [e] at h3; simp at h3 ⊢; omega
      · exact h

theorem finish_sound {s : State} (h : SoundSoFar s) : s.finish.Sound := by
  have h0 : SoundSoFar s.settle := (settle_kept s).soundSoFar h
  have : s.settle.Sound := by unfold SoundSoFar at h0; rw [← settle_agenda s] at h0; exact h0
  exact pump_sound this

theorem placeError_sound {s : State} (h : SoundSoFar s) (t : Word16) (st : Status) : SoundSoFar (s.placeError t st) := by
  unfold State.placeError
  split
  · rename_i c
    refine link_sound h _ (.inl rfl) fun ⟨h1, h2, h3, h4, h5⟩ => ⟨h1, ?_, h3, h4, h5⟩
    simp only [List.length_append, List.length_singleton]
    cases hs : s.link.service <;> simp_all <;> omega
  · exact h

theorem takeFrame_sound {s : State} (h : SoundSoFar s) (r : Request) : SoundSoFar (s.takeFrame r) := by
  unfold State.takeFrame
  split
  · rename_i c
    refine link_sound h _ (.inl rfl) fun ⟨h1, h2, h3, h4, h5⟩ => ⟨?_, h2, h3, ?_, h5⟩
    · simp; omega
    · simp
  · exact placeError_sound h _ _

theorem placeReply_sound {s : State} (h : SoundSoFar s) (r : Reply) (room : s.link.service = none → s.link.replies.length < 8) :
    SoundSoFar (s.placeReply r) := by
  unfold State.placeReply
  refine link_sound h _ (.inr rfl) fun ⟨h1, h2, h3, h4, h5⟩ => ⟨?_, ?_, h3, ?_, ?_⟩
  · simp; omega
  · cases hs : s.link.service <;> simp_all
  · simp
  · simp

theorem controlEvent_sound {s : State} (h : SoundSoFar s) (e : RxEvent) : SoundSoFar (s.controlEvent e) := by
  unfold State.controlEvent
  split
  · exact placeError_sound h _ _
  · exact placeError_sound h _ _
  · exact takeFrame_sound h _
  · exact h

theorem rx_sound {s : State} (h : SoundSoFar s) (r : Receiver) : SoundSoFar (s.modLink (fun l => { l with receiver := r })) :=
  link_sound h _ (.inl rfl) fun ⟨h1, h2, h3, h4, h5⟩ => ⟨h1, h2, h3, h4, h5⟩

theorem controlByte_sound {s : State} (h : SoundSoFar s) (b : Byte) : SoundSoFar (s.controlByte b) := by
  unfold State.controlByte
  dsimp only
  split
  · exact controlEvent_sound (rx_sound h _) _
  · exact rx_sound h _

theorem controlGap_sound {s : State} (h : SoundSoFar s) : SoundSoFar s.controlGap := by
  unfold State.controlGap
  split
  · exact placeError_sound (rx_sound h _) _ _
  · exact h

theorem controlBytes_sound {s : State} (h : SoundSoFar s) (l : List Byte) : SoundSoFar (s.controlBytes l) := by
  unfold State.controlBytes
  split
  · exact h
  · have : ∀ (l : List Byte) (t : State), SoundSoFar t → SoundSoFar (l.foldl State.controlByte t) := by
      intro l; induction l with
      | nil => exact fun _ h => h
      | cons b l ih => exact fun t h => ih _ (controlByte_sound h b)
    exact this _ _ (controlGap_sound h)

theorem controlFrame_sound {s : State} (h : SoundSoFar s) (r : Request) : SoundSoFar (s.controlFrame r) := by
  unfold State.controlFrame
  split
  · exact h
  · dsimp only
    split
    · exact takeFrame_sound (rx_sound h _) _
    · exact placeError_sound (rx_sound h _) _ _

end Sys2Proof.Machine
end

