-- ==== Sys2Proof/Laws/Requests.lean ====
section
/-! SUPPORT. Which answers of an owner keep a sound state sound until the request is answered (R4), and what the operations of
single commands keep. -/

namespace Sys2Proof.Machine

/-! ## The service of a request (R4) -/

theorem Kept.service {s t : State} (k : Kept s t) : t.link.service = s.link.service := by rw [k.link]

theorem Kept.replies {s t : State} (k : Kept s t) : t.link.replies = s.link.replies := by rw [k.link]

/-- An owner's answer leaves a sound state, and the reply its place. -/
def Answer.Keeps (s : State) : Answer → Prop
  | .refuse _ => True
  | .done t _ => SoundSoFar t ∧ t.link.service = s.link.service ∧ t.link.replies.length ≤ s.link.replies.length
  | .serving t => SoundSoFar t

theorem conclude_sound {s : State} (h : SoundSoFar s) (tag : Word16) (a : Answer) (g : a.Keeps s)
    (room : s.link.service = none → s.link.replies.length < 8) : SoundSoFar (s.conclude tag a) := by
  unfold State.conclude
  split
  · exact placeReply_sound h _ room
  · obtain ⟨g1, g2, g3⟩ := g
    rename_i t body
    have k := settle_kept t
    refine placeReply_sound (k.soundSoFar g1) _ fun e => ?_
    rw [k.service, g2] at e
    rw [k.replies]
    have := room e; omega
  · exact g

theorem serve_sound {s : State} (h : s.Sound) (kind : Byte) (owner : State → List Byte → Answer)
    (g : ∀ body, s.canServe = true → s.link.requests ≠ [] → (owner s body).Keeps s) : SoundSoFar (s.serve kind owner) := by
  unfold State.serve
  split
  · rename_i r rest e
    split
    · rename_i c
      have hc : s.canServe = true := by simp_all
      have room : s.link.service = none → s.link.replies.length < 8 := by
        intro _; unfold State.canServe at hc; simp at hc; exact hc.1.2
      unfold State.judgeRequest
      split
      · exact placeReply_sound (.of h) _ room
      · split
        · exact placeReply_sound (.of h) _ room
        · exact conclude_sound (.of h) _ _ (g _ hc (by rw [e]; simp)) room
    · exact .of h
  · exact .of h

theorem keeps_kept {s t : State} (h : s.Sound) (k : Kept s t) (f : State → List Byte) : (Answer.done t f).Keeps s :=
  ⟨k.soundSoFar (.of h), k.service, Nat.le_of_eq (by rw [k.replies])⟩

theorem withPort_keeps {s : State} (body : List Byte) (f : PortNo → Answer) (g : ∀ p, (f p).Keeps s) :
    (withPort body f).Keeps s := by
  unfold withPort; split
  · exact g _
  · trivial

theorem withJob_keeps {s : State} (body : List Byte) (f : Slot → Job → Answer) (g : ∀ j x, s.job j = some x → (f j x).Keeps s) :
    (withJob s body f).Keeps s := by
  unfold withJob; split
  · trivial
  · split
    · rename_i e; exact g _ _ e
    · trivial

theorem withAccount_keeps {s : State} (body : List Byte) (f : AccountNo → Answer) (g : ∀ a, (f a).Keeps s) :
    (withAccount body f).Keeps s := by
  unfold withAccount; split
  · exact g _
  · trivial

/-- A state that a sound one leads to, with what follows brought about. -/
theorem kept_finish {s t : State} (h : s.Sound) (k : Kept s t) : t.finish.Sound := finish_sound (k.soundSoFar (.of h))

/-- A request goes on being served (R47, R52); a BAND_PUT's with a block of the pool, for a band not present. -/
theorem serving_keeps {s : State} (h : s.Sound) (v : Service) (c : s.canServe = true) (n : s.link.requests ≠ [])
    (e : ∀ w, v = .write w → w.block ∈ s.spool.pool ∧ s.bandPresent w.slot w.image w.band = false) :
    (Answer.serving (s.modLink (fun l => { l with service := some v }))).Keeps s := by
  unfold State.canServe at c
  simp at c
  obtain ⟨h1, h2, h3, h4, h5⟩ := h.link
  refine { h with link := ⟨h1, ?_, h3, fun _ => n, ?_⟩, writing := fun w hw => ?_, agenda := rfl }
  · simp; omega
  · simp [c.2]
  · have hw' : some v = some (.write w) := hw
    exact e w (Option.some.inj hw')

theorem link_keeps {s : State} (h : s.Sound) (f : Link → Link) (b : State → List Byte)
    (g : s.link.Sound → (f s.link).Sound) (e1 : (f s.link).service = s.link.service)
    (e2 : (f s.link).replies = s.link.replies) : (Answer.done (s.modLink f) b).Keeps s :=
  ⟨link_sound (.of h) f (.inl e1) g, e1, by show (f s.link).replies.length ≤ _; rw [e2]⟩

/-! ## Numbers of a body -/

theorem natOf_from_lt (l : List Byte) : ∀ acc, l.foldl (fun acc b => acc * 256 + b.toNat) acc < (acc + 1) * 256 ^ l.length := by
  induction l with
  | nil => intro acc; simp
  | cons b l ih =>
    intro acc
    have := ih (acc * 256 + b.toNat)
    have hb : b.toNat < 256 := b.isLt
    simp only [List.foldl_cons, List.length_cons]
    have : (acc * 256 + b.toNat + 1) * 256 ^ l.length ≤ (acc + 1) * 256 ^ (l.length + 1) := by
      rw [Nat.pow_succ', ← Nat.mul_assoc]
      exact Nat.mul_le_mul_right _ (by omega)
    omega

theorem field_lt (body : List Byte) (o n : Nat) : field body o n < 256 ^ n := by
  unfold field natOf
  have := natOf_from_lt ((body.drop o).take n) 0
  have hl : ((body.drop o).take n).length ≤ n := by simp
  have : 256 ^ ((body.drop o).take n).length ≤ 256 ^ n := Nat.pow_le_pow_right (by omega) hl
  omega

theorem intField_range (body : List Byte) (o : Nat) : inRange (intField body o) := by
  unfold intField signed32 inRange
  have := field_lt body o 4
  split <;> omega

/-! ## Tables and accounts -/

theorem meter_sound {s : State} (h : s.Sound) (m : Meter)
    (sizes : ∀ (c : ClassNo) (x : SizeClass), m.sizes[c] = some x → x.Sound)
    (tiers : ∀ (t : TierNo) (x : Tier), m.tiers[t] = some x → x.Sound)
    (ts : ∀ t : TierNo, (s.meter.tiers[t]).isSome → (m.tiers[t]).isSome)
    (ss : ∀ t : ClassNo, (s.meter.sizes[t]).isSome → (m.sizes[t]).isSome)
    (acc : m.accounts = s.meter.accounts) (log : m.log.length ≤ 256) (room : m.Room) :
    SoundSoFar { s with meter := m } where
  link := h.link
  ports := h.ports
  slices := h.slices
  sizes := sizes
  tiers := tiers
  accounts a := by
    have e : State.account { s with meter := m, agenda := [] } a = s.account a := by
      unfold State.account; dsimp only; rw [acc]
    rw [e]
    exact ⟨(h.accounts a).limits, (h.accounts a).balance, fun n => by
      obtain ⟨t, h1, h2⟩ := (h.accounts a).tier n
      exact ⟨t, h1, ts t h2⟩⟩
  jobs j x hx := by
    have g := h.jobs j x hx
    exact ⟨g.sides, g.sheets, g.copies, g.images, g.stock, g.mask, ss _ g.cls, by
      have := g.account; simp only [acc]; exact this, g.next⟩
  log := log
  room := room
  dram := h.dram
  spool := h.spool
  placed := h.placed
  writing := h.writing
  agenda := rfl

theorem account_keeps {s : State} (h : s.Sound) (a : AccountNo) (x : Account) (c : AccountCause) (b : State → List Byte)
    (hx : x.Sound s.meter.tiers) (hu : x.state ≠ .unset) : (Answer.done (s.accountTo a x c) b).Keeps s := by
  have k : Kept (s.setAccount a x) (s.accountTo a x c) :=
    (noticeAccount_kept _ _ _ _ _).trans (moveAccountJobs_kept _ _ _ _)
  have g : SoundSoFar (s.setAccount a x) :=
    { h with
      accounts := fun b => by
        have e : State.account { s.setAccount a x with agenda := [] } b = (s.setAccount a x).account b := rfl
        rw [e, State.setAccount_account]
        split
        · exact hx
        · exact h.accounts b
      jobs := fun j y hy => by
        have g := h.jobs j y hy
        exact ⟨g.sides, g.sheets, g.copies, g.images, g.stock, g.mask, g.cls, by
          have e : ((s.setAccount a x).meter.accounts[y.account]) = (s.setAccount a x).account y.account := rfl
          show ((s.setAccount a x).meter.accounts[y.account]).state ≠ .unset
          rw [e, State.setAccount_account]
          split
          · exact hu
          · exact g.account, g.next⟩
      agenda := rfl }
  exact ⟨k.soundSoFar g, k.service, Nat.le_of_eq (by rw [k.replies]; rfl)⟩

theorem watched_sound (x : Account) (t : Vector (Option Tier) 4) (h : x.Sound t) : x.watched.Sound t := by
  have k := watched_kept x
  exact ⟨by rw [k.floor, k.low]; exact h.limits, k.balance h.balance,
    fun n => by rw [k.tier]; exact h.tier (fun e => n (k.unset.mpr e))⟩

/-! ## The store of a band (R48) -/

/-- No request is in service. -/
def State.unserved (s : State) : State := s.modLink (fun l => { l with service := none })

theorem Kept.unserved {s t : State} (k : Kept s t) : Kept s.unserved t.unserved :=
  { k with
    link := by
      have e := k.link
      show ({ t.link with service := none } : Link)
        = { s.link with service := none, notices := t.link.notices, overflow := t.link.overflow }
      rw [e]
    placed := k.placed
    spool := k.spool
    notices := k.notices
    room := k.room
    accounts := k.accounts
    ports := k.ports
    jobs := k.jobs }

/-- A request that was in service has a place for its reply (R6). -/
theorem concludeServed_sound {s : State} (h : SoundSoFar s.unserved) (tag : Word16) (t : State) (k : Kept s t)
    (body : State → List Byte) (room : s.link.replies.length < 8) : SoundSoFar (s.conclude tag (.done t body)) := by
  have k' := (k.trans (settle_kept t)).unserved
  have r : t.settle.unserved.link.replies.length < 8 := by
    show t.settle.link.replies.length < 8
    rw [(settle_kept t).replies, k.replies]; exact room
  exact placeReply_sound (k'.soundSoFar h) _ (fun _ => r)

theorem tellPort_kept (s : State) (j : Slot) : Kept s (s.tellPort j) := by
  unfold State.tellPort; split
  · exact post_kept _ _
  · exact Kept.refl _

theorem storeAndTell_kept (s : State) (w : BandWrite) : Kept (s.storeBand w) (s.storeAndTell w) := by
  unfold State.storeAndTell
  dsimp only
  have h := serveRequest_kept (s.storeBand w) w.slot w.image w.band w.block
  split
  · refine h.trans ?_
    unfold State.gateSignal State.seekPort
    split
    · exact (post_kept _ _).trans (post_kept _ _)
    · exact tellPort_kept _ _
  · exact h

theorem writeBlock_sound {s : State} (h : SoundSoFar s) (b : Nat) (l : List Byte) : SoundSoFar (s.writeBlock b l) := by
  have h0 : State.Sound _ := h
  exact { h0 with
    dram := write_wf h0.dram _ _
    spool := { h0.spool with } }

/-- The store keeps the places of jobs: an image record is replaced by one of the same slot. -/
theorem storeBand_placed {s : State} (h : s.Placed) (w : BandWrite) : (s.storeBand w).Placed := by
  unfold State.storeBand
  split
  · rename_i r hr
    refine h.congr (fun _ => rfl) rfl rfl (fun _ => rfl) (fun k e => ?_)
    exact setImage_none _ _ _ _ k e
  · exact h

theorem storeBand_sound {s : State} (h : SoundSoFar s) (w : BandWrite) (hw : s.link.service = some (.write w)) :
    SoundSoFar (s.storeBand w).unserved := by
  have h0 : State.Sound _ := h
  obtain ⟨h1, h2, h3, h4, h5⟩ := h0.link
  obtain ⟨p, a⟩ := h0.writing w hw
  have e : s.storeBand w = { s with spool := (s.storeBand w).spool } := by
    unfold State.storeBand; split <;> rfl
  have d : (s.storeBand w).spool.dram = s.spool.dram := by unfold State.storeBand; split <;> rfl
  have sp := storeBand_spool s w h0.spool p a
  have pl : (s.storeBand w).Placed := storeBand_placed (s := s) h0.placed w
  rw [e] at pl ⊢
  refine { h0 with
    link := ⟨h1, ?_, h3, ?_, ?_⟩, dram := ?_, spool := sp, placed := pl, writing := fun w hw => ?_ }
  · have : s.link.replies.length + 1 ≤ 8 := by
      have := h2
      rw [show (({ s with agenda := [] } : State).link.service) = some (.write w) from hw] at this
      exact this
    show s.link.replies.length + 0 ≤ 8
    omega
  · intro n; cases n
  · intro _; rfl
  · show Memory.wf (s.storeBand w).spool.dram
    rw [d]; exact h0.dram
  · cases hw

/-! ## Jobs -/

/-- R27: what JOB_OPEN's description passes, and the slot it is given. -/
theorem judgeOpen_sound {s : State} {body : List Byte} {j : Slot} {x : Job} (e : s.judgeOpen body = .ok (j, x)) :
    x.Sound s.meter ∧ s.job j = none := by
  unfold State.judgeOpen at e
  split at e
  · simp at e
  · rename_i hv
    split at e
    · rename_i a l c ha hl hc
      split at e
      · simp at e
      · rename_i hu
        split at e
        · simp at e
        · split at e
          · rename_i hf
            simp at e
            obtain ⟨rfl, rfl⟩ := e
            refine ⟨?_, ?_⟩
            · simp [openFieldsValid] at hv
              obtain ⟨⟨⟨⟨⟨⟨⟨⟨h1, h2⟩, h3⟩, ⟨⟨h4, h5⟩, h6⟩, h7⟩, h8⟩, h9⟩, h10⟩, h11⟩, h12⟩ := hv
              refine ⟨by simp only [jobOf]; omega, by simp only [jobOf]; omega, by simp only [jobOf]; omega, h8, h9, ?_, ?_, ?_,
                Nat.zero_le _⟩
              · simp only [jobOf]
                rw [BitVec.getLsbD_eq_getElem (by omega), BitVec.getLsbD_eq_getElem (by omega)]
                cases hq : (byteAt body 13)[1] <;> simp_all
              · unfold State.setClass? at hc
                split at hc
                · split at hc
                  · rename_i hs; simp at hc; subst hc; exact hs
                  · simp at hc
                · simp at hc
              · simp [State.accountUsable] at hu
                exact hu.1
            · unfold State.freeSlot at hf
              have := List.find?_some hf
              simpa using this
          · simp at e
    · simp at e

/-- The slot of a new job filled, with the job in a state (R28). -/
def State.opened (s : State) (j : Slot) (x : Job) (st : JobState) : State :=
  (s.setJob j (some { x with state := st })).setImages j (List.replicate x.images ImageRec.fresh)

section
variable {s : State} (h : s.Sound) (j : Slot) (x : Job) (hx : x.Sound s.meter) (hj : s.job j = none)
include h hj

theorem opened_out (st : JobState) : (s.opened j x st).Out j :=
  ((aside_out h.placed fun y hy => by rw [hj] at hy; cases hy).setJob _).setImages _

theorem opened_spool (st : JobState) : SpoolCalm s.spool (s.opened j x st).spool :=
  fill_spool s j x.images <| h.placed.bare j fun y hy => by
    have hj' : s.jobs[j] = none := hj
    rw [hj'] at hy; cases hy

include hx in
/-- A job opened HELD is in its place. -/
theorem openedHeld_sound : SoundSoFar (s.opened j x .held) := by
  have job : ∀ i, (s.opened j x .held).job i = if j = i then some { x with state := .held } else s.job i := fun i =>
    State.setJob_job s j _ i
  have p : (s.opened j x .held).Placed := by
    refine JobOut.stands (opened_out h j x hj .held) (fun y hy => ?_) (fun g => ?_)
    · have e : (s.opened j x .held).job j = some y := hy
      rw [job, if_pos rfl] at e; cases e
      exact ⟨by simp, by simp, by simp⟩
    · have := g { x with state := .held } ((job j).trans (if_pos rfl))
      cases this
  have c := opened_spool h j x hj .held
  exact { h with
    jobs := fun i y hy => by
      have e : (s.opened j x .held).job i = some y := hy
      rw [job] at e
      split at e
      · simp at e; subst e
        exact ⟨hx.sides, hx.sheets, hx.copies, hx.images, hx.stock, hx.mask, hx.cls, hx.account, hx.next⟩
      · exact h.jobs i y e
    spool := c.sound h.spool
    placed := p
    writing := SpoolCalm.writing (t := s.opened j x .held) c h.writing (fun _ => id)
    agenda := rfl }

/-- A job opened and placed is one opened HELD whose place is another. -/
theorem opened_kept (st : JobState) : Kept (s.opened j x .held) ((s.opened j x st).place j false) := by
  have job : ∀ (st : JobState) (i : Slot), (s.opened j x st).job i = if j = i then some { x with state := st } else s.job i :=
    fun st i => State.setJob_job s j _ i
  have c : NearCalm (s.opened j x st) ((s.opened j x st).place j false) := place_near _ _ _
  refine ⟨{ c.frame with }, fun i => ?_, fun _ => ?_⟩
  · refine JobKept.trans ?_ (c.jobs i).kept
    rw [job, job]
    split
    · exact JobKept.unbilled rfl rfl rfl id
    · exact JobKept.refl _
  · exact place_placed j false (opened_out h j x hj st).unlist (by rw [job, if_pos rfl]; rfl)

include hx in
/-- R28: the slot filled and the job placed. -/
theorem openJob_keeps (b : State → List Byte) : (Answer.done (s.openJob j x) b).Keeps s := by
  have k : ∀ t, Kept (s.opened j x .held) t → (Answer.done t b).Keeps s := fun t k =>
    ⟨k.soundSoFar (openedHeld_sound h j x hx hj), k.service, Nat.le_of_eq (by rw [k.replies]; rfl)⟩
  unfold State.openJob
  dsimp only
  split
  · exact k _ (Kept.refl _)
  · split
    · exact k _ (opened_kept h j x hj .queued)
    · exact k _ (opened_kept h j x hj .stockwait)

end

/-- A waiting, HELD or PAUSED job is ended (R29). -/
theorem cancelWaiting_kept (s : State) (j : Slot) (n : ∀ x, s.job j = some x → x.state ≠ .running) :
    Kept s ((s.unlist j).endJob j .cancelled) :=
  Calm.kept ⟨(unlist_near _ _).trans (endJob_near _ _ _), fun g => endJob_placed _ _ (unlist_out g n) rfl⟩

/-- A job enters PAUSED or HELD out of no port's assignment (R30, R31). -/
theorem standAside_kept (s : State) (j : Slot) (st : JobState) (n : s.Idle j)
    (e : st ≠ .queued ∧ st ≠ .stockwait ∧ st ≠ .running) (t : st.terminal = false) : Kept s ((s.unlist j).jobTo j st) :=
  Calm.kept ⟨(unlist_near _ _).trans (jobTo_near _ _ _), fun g =>
    jobTo_stands (n.unlist_out g) st e (fun b => by
      rcases b with b | b
      · rw [t] at b; cases b
      · obtain ⟨x, hx, _⟩ := n
        have : (s.unlist j).job j = some x := hx
        rw [this] at b; cases b)⟩

/-- A PAUSED job enters HELD (R31). -/
theorem pausedHeld_kept (s : State) (j : Slot) (x : Job) (hx : s.job j = some x) (hs : x.state = .paused) :
    Kept s (s.jobTo j .held) :=
  Calm.kept ⟨jobTo_near _ _ _, fun g => jobTo_stands
    (aside_out g fun y hy => by rw [hx] at hy; cases hy; rw [hs]; decide) .held (by decide) (fun b => by
      rcases b with b | b
      · cases b
      · rw [hx] at b; cases b)⟩

/-- R32: the level field takes its value, and a waiting job its new place. -/
theorem relevel_kept (s : State) (j : Slot) (x : Job) (l : Level) (hx : s.job j = some x) : Kept s (s.relevel j x l) := by
  have hk : JobKept (s.job j) (some { x with level := l }) := by rw [hx]; exact JobKept.unbilled rfl rfl rfl id
  have job : (s.setJob j (some { x with level := l })).job j = some { x with level := l } := by
    rw [State.setJob_job, if_pos rfl]
  have out : s.Placed → x.state ≠ .running → ((s.setJob j (some { x with level := l })).unlist j).Out j := fun g n =>
    (unlist_out g (fun y hy => by rw [hx] at hy; cases hy; exact n)).setJob (some { x with level := l })
  have base : ∀ t, NearCalm (s.setJob j (some { x with level := l })) t → (s.Placed → t.Placed) → Kept s t := fun t k p =>
    ⟨(setJob_frame s j _).trans k.frame, fun i => by
      refine JobKept.trans ?_ (k.jobs i).kept
      rw [State.setJob_job]
      split
      · rename_i e; rw [← e]; exact hk
      · exact JobKept.refl _, p⟩
  unfold State.relevel
  dsimp only
  split
  · rename_i hs
    exact base _ (place_near _ _ _) (fun g => place_placed j false (out g (by rw [hs]; decide)) (by rw [job]; rfl))
  · rename_i hs
    refine base _ ((unlist_near _ _).trans (joinWait_near _ _)) (fun g => ?_)
    have p := joinWait_placed (out g (by rw [hs]; decide)) (x := { x with level := l }) job
    have e : (((s.setJob j (some { x with level := l })).unlist j).joinWait j).jobTo j .stockwait
        = ((s.setJob j (some { x with level := l })).unlist j).joinWait j := by
      unfold State.jobTo
      rw [show (((s.setJob j (some { x with level := l })).unlist j).joinWait j).job j = some { x with level := l } from job]
      exact if_pos hs
    rwa [e] at p
  · rename_i n1 n2
    exact base _ (NearCalm.refl _) (fun g => setLevel_placed g hx ⟨fun e => n1 e, fun e => n2 e⟩ l)

/-- R34, R94: a terminal job is removed, and no port holds its setup. -/
theorem forgetJob_sound {s : State} (h : s.Sound) (j : Slot) (x : Job) (hx : s.job j = some x) (t : x.state.terminal = true) :
    SoundSoFar (s.forgetJob j) := by
  have bare : s.imagesOf j = [] := h.placed.bare j fun y hy => by
    have hx' : s.jobs[j] = some x := hx
    rw [hx'] at hy; cases hy; exact t
  have p : (s.setJob j none).Placed := by
    refine JobOut.stands ((aside_out h.placed fun y hy => ?_).setJob (j := j) none) (fun y hy => ?_) (fun _ => bare)
    · rw [hx] at hy; cases hy
      cases e : x.state <;> rw [e] at t <;> first | decide | cases t
    · have e : (s.setJob j none).job j = some y := hy
      rw [State.setJob_job, if_pos rfl] at e; cases e
  exact { h with
    ports := fun p => by
      have e : State.port { s.forgetJob j with agenda := [] } p = (s.port p).disown j := by
        simp [State.forgetJob, State.port, State.setJob]
      rw [e]
      have := h.ports p
      unfold Port.disown
      split
      · exact ⟨this.grace, this.gateWait, this.interval, this.bounded⟩
      · exact this
    jobs := fun k x hx => by
      have e : State.job { s.forgetJob j with agenda := [] } k = (s.setJob j none).job k := rfl
      rw [e, State.setJob_job] at hx
      split at hx
      · simp at hx
      · have g := h.jobs k x hx
        exact ⟨g.sides, g.sheets, g.copies, g.images, g.stock, g.mask, g.cls, g.account, g.next⟩
    placed := p
    agenda := rfl }

/-! ## Resets and the self-test (R13, R14, R40 to R42) -/

/-- Every block at its reset values but the ports, the panel and the spool manager. -/
theorem reset_sound (sp : Spool) (hd : Memory.wf sp.dram) (hs : sp.Sound) (hi : ∀ j : Slot, sp.images[j] = [])
    (ports : Vector Port 12) (hp : ∀ p : PortNo, (ports[p]).Sound) (panel : Panel) (c : Nat) (pend : List Instr) :
    State.Sound { State.reset with ports := ports, panel := panel, spool := sp, choices := c, pending := pend } where
  link := (⟨by decide, by decide, by decide, by decide, by decide⟩ : Link.afterReset.Sound)
  ports := hp
  slices l := by simp [State.reset, Dispatcher.afterReset]
  sizes c x hx := by simp [State.reset, Meter.afterReset] at hx
  tiers c x hx := by simp [State.reset, Meter.afterReset] at hx
  accounts a := by
    have e : State.account { State.reset with ports := ports, panel := panel, spool := sp, choices := c, pending := pend } a
        = Account.unset := by simp [State.account, State.reset, Meter.afterReset]
    rw [e]
    exact ⟨by decide, by simp [inRange, Account.unset], fun n => absurd rfl n⟩
  jobs j x hx := by simp [State.job, State.reset] at hx
  log := (by decide : Meter.afterReset.log.length ≤ 256)
  room := (⟨fun _ => by decide, fun _ => rfl⟩ : Meter.afterReset.Room)
  dram := hd
  spool := hs
  placed := none_placed sp.images hi
  writing w hw := by simp [State.reset, Link.afterReset] at hw
  agenda := rfl

theorem afterReset_sound (x : Port) (h : x.grace = 40 ∧ x.gateWait = 10000 ∧ x.interval = 60 ∧ x.path = [] ∧ x.caps = none) :
    x.Sound := by
  obtain ⟨h1, h2, h3, h4, h5⟩ := h
  exact ⟨by omega, by omega, by omega, by simp [Port.Bounded, h4, h5]⟩

theorem powerOn_sound (v : Vector Bool 12) (c : Nat) (pend : List Instr) : State.Sound { State.reset with
    ports := v.map (fun b => { Port.afterReset with signal := b }), choices := c, pending := pend } :=
  reset_sound Spool.afterPowerOn (by decide) (afterPowerOn_sound []) (fun j => by simp [Spool.afterPowerOn]) _
    (fun p => by simp only [Fin.getElem_fin, Vector.getElem_map]; exact afterReset_sound _ ⟨rfl, rfl, rfl, rfl, rfl⟩)
    State.reset.panel c pend

/-- A reset of the part leaves the spool manager with a sound record and no image (R13, R42). -/
theorem blocksReset_sound (s : State) (sp : Spool) (hd : Memory.wf sp.dram) (hs : sp.Sound)
    (hi : ∀ j : Slot, sp.images[j] = []) : State.Sound { s.blocksReset with spool := sp } :=
  reset_sound sp hd hs hi (s.ports.map Port.afterPartReset)
    (fun p => by simp only [Fin.getElem_fin, Vector.getElem_map]; exact afterReset_sound _ ⟨rfl, rfl, rfl, rfl, rfl⟩)
    { queue := [], sending := s.panel.sending } s.choices s.pending

theorem startUp_kept (s : State) (v : Vector Sense 12) : Kept s (s.startUp v) := by
  unfold State.startUp
  exact (notify_calm _ _ _).kept.trans (readAllSenses_calm _ _).kept

theorem takeReset_sound {s : State} (h : s.Sound) (k : ResetKind) (v : Vector Sense 12) : SoundSoFar (s.takeReset k v) := by
  cases k with
  | full =>
    exact .of (blocksReset_sound s { Spool.afterPowerOn with dram := s.spool.dram } h.dram (afterPowerOn_sound _)
      (fun j => by simp [Spool.afterPowerOn]))
  | quick =>
    exact (startUp_kept _ _).soundSoFar (.of (blocksReset_sound s s.spool.quick h.dram h.spool.quick
      (fun j => by simp [Spool.quick, Spool.afterPowerOn])))

/-- The test goes on from a sound state in which the block under test has been given to the pool or the retired list. -/
theorem nextBlock_sound {s t : State} (h : SoundSoFar s) (v : Vector Sense 12) (hs : s.spool.startUp = .starting)
    (pool retired : List Nat) (p : pool.Pairwise (· < ·))
    (e : (pool ++ retired).Perm (s.spool.testBlock :: (s.spool.pool ++ s.spool.retired)))
    (et : t = { s with spool := { s.spool with pool := pool, retired := retired } })
    (g : ∀ b ∈ s.spool.pool, b ∈ pool) : SoundSoFar (t.nextBlock v) := by
  have h0 : State.Sound _ := h
  have sp := fun st fails => Spool.Sound.tested h0.spool hs pool retired p e st fails
  have wr : ∀ x : Spool, x.images = s.spool.images → x.pool = pool → ∀ w, s.link.service = some (.write w) →
      w.block ∈ x.pool ∧ State.bandPresent { s with spool := x, agenda := [] } w.slot w.image w.band = false := by
    intro x hi hp w hw
    obtain ⟨h1, h2⟩ := h0.writing w hw
    refine ⟨by rw [hp]; exact g _ h1, ?_⟩
    have : State.bandPresent { s with spool := x, agenda := [] } w.slot w.image w.band = s.bandPresent w.slot w.image w.band := by
      unfold State.bandPresent State.band State.image State.imagesOf
      rw [hi]
    rw [this]; exact h2
  subst et
  unfold State.nextBlock
  split
  · rename_i eb
    have eb : s.spool.testBlock = 32767 := eb
    refine (startUp_kept _ _).soundSoFar ?_
    have q := sp (startUpOf retired.length) 0 (by
      constructor
      · intro f; exact absurd f (startUpOf_ends _)
      · intro f; exact absurd eb f)
    rw [eb] at q
    exact { h0 with spool := q, writing := wr _ rfl rfl }
  · rename_i eb
    have eb : s.spool.testBlock ≠ 32767 := eb
    have q := sp .starting 0 ⟨fun _ => eb, fun _ => rfl⟩
    refine { h0 with spool := ?_, writing := wr _ rfl rfl }
    have : s.spool.startUp = StartUp.starting := hs
    rw [← hs] at q
    exact q

theorem attemptEnd_sound {s : State} (h : SoundSoFar s) (b : Bool) (v : Vector Sense 12) : SoundSoFar (s.attemptEnd b v) := by
  unfold State.attemptEnd
  split
  · exact h
  · rename_i n
    have hs : s.spool.startUp = .starting := by simpa using n
    have h1 := writeBlock_sound h s.spool.testBlock (testPattern s.spool.testFails)
    have h0 : State.Sound _ := h1
    have un := Spool.Sound.untested h0.spool hs
    have pa := h0.spool.pool
    dsimp only
    split
    · refine nextBlock_sound h1 v hs (Blocks.add s.spool.pool s.spool.testBlock) s.spool.retired (Blocks.add_ascending _ _ pa)
        ((Blocks.add_perm _ _ un).append_right _) rfl (fun b hb => (Blocks.mem_add _ _ _).mpr (.inl hb))
    · split
      · refine nextBlock_sound h1 v hs s.spool.pool (s.spool.retired ++ [s.spool.testBlock]) pa ?_ rfl (fun b hb => hb)
        show (s.spool.pool ++ (s.spool.retired ++ [s.spool.testBlock])).Perm (s.spool.testBlock :: (s.spool.pool ++ s.spool.retired))
        rw [← List.append_assoc]
        exact List.perm_append_comm
      · exact { h0 with
          spool := { h0.spool with }
          writing := h0.writing }

/-! ## Settings, PORT_RESET and alerts -/

theorem setLevel_sound {s : State} (h : s.Sound) (l : Level) (n : Nat) (hn : n ≤ 600000) :
    SoundSoFar { s with dispatch := { s.dispatch with slices := s.dispatch.slices.set l n } } :=
  { h with
    slices := fun k => by
      have := h.slices k
      simp only [Fin.getElem_fin, Vector.getElem_set]
      split
      · exact hn
      · exact this
    placed := h.placed.congr (fun _ => rfl) rfl rfl (fun _ => rfl) (fun _ => id)
    agenda := rfl }

theorem modPort_sound {s : State} (h : s.Sound) (p : PortNo) (f : Port → Port) (g : (f (s.port p)).Sound) :
    SoundSoFar (s.modPort p f) :=
  { h with
    ports := fun q => by
      have e : State.port { s.modPort p f with agenda := [] } q = (s.modPort p f).port q := rfl
      rw [e, State.modPort_port]
      split
      · exact g
      · exact h.ports q
    agenda := rfl }

theorem resetPort_kept (s : State) (p : PortNo) (v : Sense) : Kept s (s.resetPort p v) := by
  unfold State.resetPort
  have h : Kept s (s.modPort p Port.resetTimers) := modPort_kept _ _ _ (by exact fun _ => ⟨rfl, rfl, rfl, id⟩)
  dsimp only
  split
  · refine Kept.trans (h.trans (settleAbandoned_kept (s.modPort p Port.resetTimers) p)) ?_
    exact { Kept.refl ((s.modPort p Port.resetTimers).settleAbandoned p) with }
  · exact h.trans (post_kept _ _)

theorem acknowledge_kept (s : State) (p : PortNo) : Kept s (s.acknowledge p) := by
  unfold State.acknowledge
  dsimp only
  split
  · exact Kept.refl _
  · exact (((setAlert_calm _ _ _).trans (notify_calm _ _ _)).trans (queueLine_calm _ _)).kept

theorem escalate_kept (s : State) (p : PortNo) : Kept s (s.escalate p) := by
  unfold State.escalate
  dsimp only
  split
  · split
    · exact (((setAlert_calm _ _ _).trans (notify_calm _ _ _)).trans (queueLine_calm _ _)).kept
    · exact Kept.refl _
  · exact Kept.refl _

end Sys2Proof.Machine
end

