-- ==== Sys2Proof/Tests/Slice0.lean ====
section
/-! SUPPORT. Tests of one step each, with the expected result worked out from the manual, and for every statement with
hypotheses a witness: a concrete state and operands that meet them, clause by clause. -/

namespace Sys2Proof.Tests

open Sys2Proof.Machine

set_option Elab.async false

/-! ## Small states -/

/-- A tray with a stock, loaded or not. -/
def trayItem (number stock : Nat) (loaded : Bool) : TrayItem := { number := byte number, stock := byte stock, loaded := loaded }

/-- A two-sided job of 3 sheets in 2 copies on account 2, level 3, size class 1, stock 5. -/
def job : Job :=
  { label := 7, state := .running, account := 2, level := 3, sizeClass := 1, sides := 2, sheets := 3, copies := 2
    stock := 5, colour := false, onSheet := true, onRoll := false, pinned := none, barred := none, lead := 0
    forcedWhole := false, setup := Setup.none, refusedBy := Vector.replicate 12 false, cancel := false, suspend := false
    slice := false, next := 1, good := 0, waste := 0, underruns := 0, charge := 100, pressTime := 11, lastPort := none
    lostOrdinal := none, lossCount := 0 }

/-- An OPEN account of tier 1. -/
def account : Account :=
  { state := .opened, tier := some 1, balance := 5000, low := 100, floor := 0, charged := 10, goodSheets := 1
    wasteSheets := 2, pressTime := 77 }

/-- A READY part that sends a reply, with size class 1, tier 1 and account 2 set. -/
def base : State :=
  { State.reset with
    link := { Link.afterReset with outbound := some (.reply { tag := 9, status := .ok, body := [], ofReset := false }) }
    partTime := 1000
    spool := { State.reset.spool with startUp := .ready, testBlock := 32768, pool := [3, 4, 5] }
    meter := { Meter.afterReset with
      sizes := Meter.afterReset.sizes.set 1 (some { factor := 3, shift := 16, weight := 16, bands := 2 })
      tiers := Meter.afterReset.tiers.set 1
        (some { base := 100, rates := { p0 := 1, p1 := 2, p2 := 3, p3 := 4 }, allowance := 0 })
      accounts := Meter.afterReset.accounts.set 2 account } }

/-- A port with an engine of path depth 3 and stock 5 in tray 0, whose setup owner is the job in slot 4. -/
def port (st : PortState) : Port :=
  { Port.afterReset with
    signal := true, cls := some .sheet, state := st
    caps := some { colour := true, duplex := true, depth := 3, classes := 0xFFFF, reject := true }
    trays := [trayItem 0 5 true, trayItem 1 6 false], nextTag := 17, stateTime := 900, owner := some 4 }

/-- The assignment of the job in slot 4. -/
def assignment : Assignment := { slot := 4, since := 400, slice := some { start := 400, length := 600 } }

/-- Port 2 with a record. -/
def portAt (x : Port) : State := base.setPort 2 x

/-- The job in slot 4 with a record. -/
def jobAt (x : Job) : State := base.setJob 4 (some x)

/-- The job in slot 4, assigned to port 2. -/
def feeding (x : Port) (y : Job) : State := ((portAt x).setJob 4 (some y)).setAssignment 2 (some assignment)

/-- The same, with the job's account HELD. -/
def leaving (x : Port) (y : Job) : State := (feeding x y).setAccount 2 { account with state := .held, balance := -5 }

/-- A request. -/
def request (kind : Byte) (body : List Byte) : Request := { kind := kind, tag := 77, body := body }

/-- A state whose oldest request is this one. -/
def asking (kind : Byte) (body : List Byte) (s : State) : State :=
  { s with link := { s.link with requests := [request kind body] } }

/-- A sheet. -/
def sheet (tag ordinal : Nat) (st : SheetState) (m : Mark) : Sheet :=
  { tag := byte tag, ordinal := ordinal, state := st, mark := m }

/-- The same state after one command. -/
def after (i : Instr) (s : State) : State :=
  match exec i s with
  | .next t => t
  | _ => s

/-- What `Takes` asks of a state, as one decidable test. -/
theorem takes_of (kind : Byte) (body : List Byte) (s : State)
    (h : s.link.service = none ∧ s.link.replies.length < 8 ∧ s.link.reset = .none ∧ s.agenda = []
      ∧ lengthFits (request kind body) = true ∧ (s.spool.startUp.refuses = true → servedAlways kind = true)) :
    (asking kind body s).Takes kind (request kind body) [] :=
  { requests := rfl, service := h.1, room := h.2.1, reset := h.2.2.1, agenda := h.2.2.2.1, isKind := rfl
    fits := h.2.2.2.2.1, served := h.2.2.2.2.2 }

/-- The same for the link interface alone. -/
theorem oldest_of (kind : Byte) (body : List Byte) (s : State)
    (h : s.link.service = none ∧ s.link.replies.length < 8 ∧ s.link.reset = .none ∧ s.agenda = []) :
    (asking kind body s).Oldest (request kind body) [] :=
  { requests := rfl, service := h.1, room := h.2.1, reset := h.2.2.1, agenda := h.2.2.2 }

/-- A port of a READY part that hears its engine. -/
theorem hears_of (s : State) (p : PortNo)
    (h : s.hears p = true ∧ (s.port p).receiver.rx.midFrame = false ∧ s.agenda = []) : s.Hears p :=
  { hears := h.1, between := h.2.1, agenda := h.2.2 }

/-- The job of `leaving` becomes HELD when it leaves. -/
theorem leaves_of (x : Port) (y : Job)
    (h : y.state = .running ∧ y.good ≠ y.sheets * y.copies ∧ y.lossCount ≠ 5 ∧ y.cancel = false ∧ y.suspend = false
      ∧ ((leaving x y).account y.account).state.stops = true) : (leaving x y).LeavesHeld 2 assignment y :=
  { assignment := rfl, job := rfl, running := h.1
    unfinished := h.2.1, sound := h.2.2.1, kept := h.2.2.2.1, going := h.2.2.2.2.1, stops := h.2.2.2.2.2 }

/-- Whether the job of a port becomes HELD by its account when it leaves. -/
def leavesHeld (s : State) (p : PortNo) : Bool :=
  match s.assignment p with
  | none => false
  | some a =>
    match s.job a.slot with
    | none => false
    | some x => x.state = .running && x.good ≠ x.sheets * x.copies && x.lossCount ≠ 5 && !x.cancel && !x.suspend
        && (s.account x.account).state.stops

/-- The job that so leaves, and its assignment. -/
theorem leaves_some (s : State) (p : PortNo) (h : leavesHeld s p = true) : ∃ a x, s.LeavesHeld p a x := by
  unfold leavesHeld at h
  split at h
  · cases h
  · rename_i a ha
    split at h
    · cases h
    · rename_i x hx
      simp at h
      obtain ⟨⟨⟨⟨⟨h1, h2⟩, h3⟩, h4⟩, h5⟩, h6⟩ := h
      exact ⟨a, x, ha, hx, h1, h2, h3, h4, h5, h6⟩

/-- A state under policy KEEP, in which no reservation is released. -/
def keeping (s : State) : State := { s with meter := { s.meter with policy := .keep } }

/-- Port 2 with a sheet PICKED and one STARTED, its job's account HELD. -/
def loaded (st : PortState) : State :=
  keeping (leaving { port st with path := [sheet 10 0 .picked .unmarked, sheet 11 1 .started .unmarked] } { job with next := 2 })

/-- A port told to decide waits; the job of slot 4 keeps its place. -/
theorem decides_waits (n : Nat) (s : State) (h : (s.runDecision 2).agenda = [] ∧ ((s.runDecision 2).job 4).isSome = true) :
    ∃ t y, State.Decides 2 (n + 1) s t ∧ t.job 4 = some y := by
  obtain ⟨y, hy⟩ := Option.isSome_iff_exists.mp h.2
  exact ⟨_, y, .inl ⟨h.1, rfl⟩, hy⟩

/-- It starts a sheet and decides again. -/
theorem decides_again (n : Nat) (s : State) (h : (s.runDecision 2).agenda = [.decide 2])
    (k : ∃ t y, State.Decides 2 n { s.runDecision 2 with agenda := [] } t ∧ t.job 4 = some y) :
    ∃ t y, State.Decides 2 (n + 1) s t ∧ t.job 4 = some y := by
  obtain ⟨t, y, d, hy⟩ := k
  exact ⟨t, y, .inr (.inl ⟨h, d⟩), hy⟩

/-- It stops feeding, with sheets in its path. -/
theorem decides_drains (n : Nat) (s : State)
    (h : (s.runDecision 2).agenda = [.afterRemoval 2] ∧ ((s.runDecision 2).port 2).state = .draining
      ∧ ((s.runDecision 2).port 2).path ≠ [] ∧ ((s.runDecision 2).job 4).isSome = true) :
    ∃ t y, State.Decides 2 (n + 1) s t ∧ t.job 4 = some y := by
  obtain ⟨y, hy⟩ := Option.isSome_iff_exists.mp h.2.2.2
  exact ⟨_, y, .inr (.inr ⟨h.1, h.2.1, .inl ⟨h.2.2.1, rfl⟩⟩), hy⟩

/-- It stops feeding with an empty path, its job leaves, and no job is eligible for it. -/
theorem decides_leaves (n : Nat) (s : State)
    (h : (s.runDecision 2).agenda = [.afterRemoval 2] ∧ ((s.runDecision 2).port 2).state = .draining
      ∧ ((s.runDecision 2).port 2).path = []
      ∧ let left := ({ s.runDecision 2 with agenda := [] } : State).leaveNow 2
          (((s.runDecision 2).port 2).destination.getD .head)
        let t := (left.clearAfterLeaving 2).portTo 2 .ready
        left.agenda = [] ∧ t.chooseJob 2 = none ∧ (t.job 4).isSome = true) :
    ∃ t y, State.Decides 2 (n + 1) s t ∧ t.job 4 = some y := by
  obtain ⟨y, hy⟩ := Option.isSome_iff_exists.mp h.2.2.2.2.2
  exact ⟨_, y, .inr (.inr ⟨h.1, h.2.1, .inr ⟨h.2.2.1, h.2.2.2.1, rfl, h.2.2.2.2.1⟩⟩), hy⟩

/-- A run of decisions, whatever it leaves of the job. -/
theorem decides_some (n : Nat) (s : State) (k : ∃ t y, State.Decides 2 n s t ∧ t.job 4 = some y) :
    ∃ t, State.Decides 2 n s t :=
  k.elim fun t h => h.elim fun _ d => ⟨t, d.1⟩

/-- Port 2 is chosen and decides. -/
theorem sought_port (s : State) (h : s.choosePort 4 = some 2)
    (k : ∃ t y, State.Decides 2 5 { s.assign 2 4 with agenda := [] } t ∧ t.job 4 = some y) :
    ∃ t y, s.Sought 4 t ∧ t.job 4 = some y :=
  k.elim fun t h' => h'.elim fun y d => ⟨t, y, .inl ⟨2, h, d.1⟩, d.2⟩

/-- No port is chosen, and port 2 is signalled. -/
theorem sought_signal (s : State) (h : s.choosePort 4 = none ∧ s.signalled 4 = [2])
    (k : ∃ t y, State.Decides 2 5 s t ∧ t.job 4 = some y) : ∃ t y, s.Sought 4 t ∧ t.job 4 = some y :=
  k.elim fun t h' => h'.elim fun y d => ⟨t, y, .inr ⟨h.1, .inr ⟨2, h.2, d.1⟩⟩, d.2⟩

theorem sought_some (s : State) (k : ∃ t y, s.Sought 4 t ∧ t.job 4 = some y) : ∃ t, s.Sought 4 t :=
  k.elim fun t h => h.elim fun _ d => ⟨t, d.1⟩

/-! ## Ill-formed operands -/

/-- A control-link body of 16,446 bytes does not fit the length field's 16,448 (R185). -/
theorem test_wellFormed_receivedFrame :
    (Instr.receivedFrame 1 0 (List.replicate 16446 0)).wellFormed = false
      ∧ (Instr.receivedFrame 1 0 (List.replicate 16445 0)).wellFormed = true := by
  decide +kernel

/-- A row for arriving bytes carries at least one. -/
theorem test_wellFormed_bytes :
    (Instr.frameError []).wellFormed = false ∧ (Instr.markerPairSeen []).wellFormed = false
      ∧ (Instr.pressFrameCheckFail 0 []).wellFormed = false ∧ (Instr.pressMessageIgnored 0 []).wellFormed = false
      ∧ (Instr.pressMarkerSeen 0 []).wellFormed = false := by decide

/-- A PROBE carries 16 pattern bytes (R193), an IDENTITY up to 255 trays (R195). -/
theorem test_wellFormed_probe_identity :
    (Instr.probeEcho 0 0 (List.replicate 15 0)).wellFormed = false
      ∧ (Instr.probeEcho 0 0 (List.replicate 16 0)).wellFormed = true
      ∧ (Instr.identity 0
          { colour := false, duplex := false, depth := 1, classes := 0, reject := false
            trays := List.replicate 256 (trayItem 0 1 true) }).wellFormed = false := by decide +kernel

/-- A STOP's zone lies in 1 to 8, its fault code in 1 to 255, its list holds up to 255 items (R195). -/
theorem test_wellFormed_stop :
    (Instr.stop 0 (.jam 0) []).wellFormed = false ∧ (Instr.stop 0 (.jam 9) []).wellFormed = false
      ∧ (Instr.stop 0 (.jam 8) []).wellFormed = true ∧ (Instr.stop 0 (.fault 0) []).wellFormed = false
      ∧ (Instr.stop 0 (.fault 1) (List.replicate 256 { tag := 0, disposition := .finish })).wellFormed = false := by
  decide +kernel

/-! ## Lines (chapters 1 and 11) -/

/-- R196: the nine characters 123456789 give 29B1h, and the worked IDENTIFY request ends in ADh C1h. -/
theorem test_crc :
    crc [0x31, 0x32, 0x33, 0x34, 0x35, 0x36, 0x37, 0x38, 0x39] = 0x29B1
      ∧ frameBytes 0x01 1 [] = [0xA5, 0x5A, 0x00, 0x03, 0x01, 0x00, 0x01, 0xAD, 0xC1] := by decide +kernel

/-- The worked IDENTIFY request arrives byte by byte and joins the queue. -/
theorem test_markerPairSeen :
    (after (.markerPairSeen [0xA5, 0x5A, 0x00, 0x03, 0x01, 0x00, 0x01, 0xAD, 0xC1]) base).link.requests =
      [{ kind := 0x01, tag := 1, body := [] }] := by decide +kernel

/-- With its last byte damaged to C0h it is answered FRAME_ERROR with tag 0. -/
theorem test_frameError :
    (after (.frameError [0xA5, 0x5A, 0x00, 0x03, 0x01, 0x00, 0x01, 0xAD, 0xC0]) base).link.replies =
      [{ tag := 0, status := .frameError, body := [], ofReset := false }] := by decide +kernel

/-- The worked reply: vendor 1A07h, part 1240h, revision 3. -/
theorem test_identify :
    (after .identify (asking 0x01 [] base)).link.replies =
      [{ tag := 77, status := .ok, body := [0x1A, 0x07, 0x12, 0x40, 0x03], ofReset := false }] := by decide +kernel

/-! ## Charges (the worked cases of chapter 8) -/

/-- The size class and the tier of case 1. -/
def class2 : SizeClass := { factor := 126381, shift := 32, weight := 16, bands := 12 }

/-- The tier of case 1, with its black rate. -/
def tier0 (black : Nat) : Tier := { base := 120, rates := { p0 := 500, p1 := 450, p2 := 450, p3 := black }, allowance := 51 }

/-- The plane sums of case 1, with its black sum. -/
def sums1 (black : Nat) : Planes := { p0 := 1200000, p1 := 0, p2 := 0, p3 := black }

/-- Cases 1, 4 and 5: 195 tu; 172 tu after the loss of band 4; 214 tu at the black rate 1,000. -/
theorem test_charge_simplex :
    sheetCharge class2 (tier0 800) [sums1 5000000] = 195
      ∧ sheetCoverage class2 [sums1 5000000] = { p0 := 35, p1 := 0, p2 := 0, p3 := 147 }
      ∧ sheetCharge class2 (tier0 800) [sums1 4000000] = 172
      ∧ sheetCharge class2 (tier0 1000) [sums1 5000000] = 214 := by decide +kernel

/-- Case 2: 310 + 94 = 404 tu, with coverage 61 and 1,224 cu. -/
theorem test_charge_duplex :
    let c : SizeClass := { factor := 262144, shift := 28, weight := 20, bands := 8 }
    let t : Tier := { base := 40, rates := { p0 := 300, p1 := 300, p2 := 300, p3 := 200 }, allowance := 20 }
    let front : Planes := { p0 := 61952, p1 := 0, p2 := 0, p3 := 1100000 }
    let back : Planes := { p0 := 0, p1 := 0, p2 := 0, p3 := 204800 }
    sideCharge c t front = 310 ∧ sideCharge c t back = 94 ∧ sheetCharge c t [front, back] = 404
      ∧ sheetCoverage c [front, back] = { p0 := 61, p1 := 0, p2 := 0, p3 := 1224 } := by decide +kernel

/-- Case 3: 10,444,640 tu, the largest a sheet can carry. -/
theorem test_charge_limits :
    let c : SizeClass := { factor := 1048575, shift := 16, weight := 255, bands := 255 }
    let t : Tier := { base := 65535, rates := { p0 := 65535, p1 := 65535, p2 := 65535, p3 := 65535 }, allowance := 0 }
    let full : Planes := { p0 := 267386625, p1 := 267386625, p2 := 267386625, p3 := 267386625 }
    sheetCharge c t [full, full] = 10444640 := by decide +kernel

/-! ## Dispatch (the worked sequences of chapter 4) -/

/-- Job A of the slice sequence. -/
def jobA : Job := { job with sides := 1, sheets := 9, copies := 1, level := 2, next := 3, good := 1, lead := 1 }

/-- An image whose bands 0 and 1 are present in these blocks. -/
def image (b0 b1 : Nat) : ImageRec :=
  { present := 2, lost := 0, sums := { p0 := 50000, p1 := 0, p2 := 0, p3 := 200000 }, released := false
    bands := [(0, .present b0 2 { p0 := 1, p1 := 2, p2 := 3, p3 := 4 }),
      (1, .present b1 2 { p0 := 4, p1 := 3, p2 := 2, p3 := 1 })] }

/-- A and B at part time 31,000: A feeds on port 2 with its slice of 30,000 ms at its end, B waits at its level. -/
def twoJobs : State :=
  let a : Assignment := { slot := 4, since := 1000, slice := some { start := 1000, length := 30000 } }
  let x : Port := { port .feeding with path := [sheet 15 1 .picked .unmarked, sheet 16 2 .started .unmarked], wait := .path }
  let s := (((portAt x).setJob 4 (some jobA)).setAssignment 2 (some a)).setImages 4 (List.replicate 9 (image 6 7))
  let s := (s.setJob 5 (some { jobA with state := .queued, next := 0, good := 0 })).setImages 5 (List.replicate 9 (image 8 9))
  { s with partTime := 31000, dispatch := { s.dispatch with ready := s.dispatch.ready.set 2 [5] } }

/-- Port 2 stops feeding A by its slice; A's flag is clear again and its timer absent. -/
theorem test_sliceExpiry :
    let t := after (.sliceExpiry 2) twoJobs
    (t.port 2).state = .draining ∧ (t.port 2).drain = some .slice ∧ (t.port 2).destination = some .tail
      ∧ t.job 4 = some jobA ∧ t.assignment 2 = some { slot := 4, since := 1000, slice := none } := by decide +kernel

/-- The tray sequence: stock 5 goes with the last tray; the waiting job 5 joins the stock wait list, the job that feeds
drains for NO_TRAY. -/
theorem test_tray :
    let t := after (.tray 2 (trayItem 0 5 false)) twoJobs
    t.dispatch.stockWait = [5] ∧ t.readyAt 2 = [] ∧ t.jobIs 5 .stockwait = true ∧ (t.port 2).drain = some .noTray
      ∧ (t.alert 2).causes.trayEmpty = true := by decide +kernel

/-! ## Feeding and the paper path (the worked sequences of chapters 6 and 7) -/

/-- Job 70 at 50,040, its band 3 of image 2 unsent and its request's grace run out. -/
def graceOut : State :=
  let x : Job := { job with sides := 1, sheets := 10, copies := 1, lead := 2, next := 4, good := 1 }
  let p : Port := { port .feeding with
    path := [sheet 17 1 .picked .unmarked, sheet 18 2 .picked .unmarked, sheet 19 3 .started .unmarked], nextTag := 20
    wait := .path
    request := some { tag := 18, back := false, band := 3, timer := { start := 50000, length := 40 } } }
  { (feeding p x).setImages 4 (List.replicate 10 (image 6 7)) with partTime := 50040 }

/-- FILL is sent, tag 18 spoiled, tag 19 superseded, both diverted, the job rewinds to 2 and the port waits for the path. -/
theorem test_bandGraceExpiry :
    let t := after (.bandGraceExpiry 2) graceOut
    (t.port 2).path = [sheet 17 1 .picked .unmarked, sheet 18 2 .picked (.spoiled .underrun),
        sheet 19 3 .started .superseded]
      ∧ (t.port 2).sending = some (.fill 18 false 3) ∧ (t.port 2).outQueue = [.divert 18, .divert 19]
      ∧ (t.port 2).request = none ∧ (t.port 2).wait = .path ∧ (t.port 2).counters.fills = 1
      ∧ (t.job 4).map (·.next) = some 2 := by decide +kernel

/-- Port 3's jam at 80,000, the port here being 2 and the job's slot 4. -/
def jammed : State :=
  let x : Job := { job with sides := 1, sheets := 12, copies := 1, next := 9, good := 5 }
  let p : Port := { port .feeding with
    path := [sheet 60 5 .picked .unmarked, sheet 61 6 .picked .unmarked, sheet 62 7 .picked .unmarked,
      sheet 63 8 .started .unmarked], nextTag := 64, wait := .path }
  let s := feeding p x
  { s with meter := { s.meter with reservations := 4 }, partTime := 80000 }

/-- The first STOP of the jam: 61 stranded, 60 and 62 named FINISH, 63 not named. -/
theorem test_stop :
    let t := after (.stop 2 (.jam 3) [{ tag := 61, disposition := .stranded }, { tag := 60, disposition := .finish },
      { tag := 62, disposition := .finish }]) jammed
    (t.port 2).state = .stopped ∧ (t.port 2).path = [sheet 60 5 .finish .unmarked, sheet 62 7 .finish .superseded]
      ∧ (t.port 2).sending = some (.divert 62)
      ∧ (t.job 4).map (fun x => (x.next, x.good, x.waste, x.lostOrdinal, x.lossCount)) = some (6, 5, 1, some 6, 1)
      ∧ t.meter.log.map (fun r => (r.waste, r.ordinal)) = [(some .stranded, 6)] ∧ t.meter.reservations = 2
      ∧ (t.alert 2).causes.jam = some 3 := by decide +kernel

/-- The link lost mid-run: two WASTE UNKNOWN, one WITHDRAWN, next ordinal back to 20, the job at the head of its level. -/
theorem test_lineSignalLost :
    let x : Job := { job with sides := 1, sheets := 30, copies := 1, next := 23, good := 20 }
    let p : Port := { port .feeding with
      path := [sheet 30 20 .picked .unmarked, sheet 31 21 .picked .unmarked, sheet 32 22 .started .unmarked]
      request := some { tag := 32, back := false, band := 0, timer := { start := 1000, length := 40 } } }
    let s := (feeding p x).setPort 3 (port .ready)
    let t := after (.lineSignalLost 2) { s with meter := { s.meter with reservations := 3 } }
    (t.port 2).state = .lost ∧ (t.port 2).path = [] ∧ t.readyAt 3 = [4] ∧ t.meter.reservations = 0
      ∧ (t.job 4).map (fun y => (y.next, y.good, y.waste, y.lostOrdinal, y.lossCount)) = some (20, 20, 2, some 20, 1)
      ∧ t.meter.log.map (fun r => (r.waste, r.ordinal)) = [(some .unknown, 20), (some .unknown, 21)]
      ∧ (t.alert 2).causes.linkLost = true := by decide +kernel

/-! ## Accounts and alerts (the worked sequences of chapters 9 and 10) -/

/-- Credit runs out: ordinal 11 comes out GOOD with 205 tu left; job 5 of the same account waits. -/
def creditOut : State :=
  let x : Job := { job with sides := 1, sheets := 30, copies := 1, sizeClass := 2, next := 14, good := 11 }
  let p : Port := { port .feeding with
    path := [sheet 21 11 .picked .unmarked, sheet 22 12 .picked .unmarked, sheet 23 13 .started .unmarked] }
  let s := (feeding p x).setImages 4 (List.replicate 30 { image 6 7 with sums := sums1 5000000 })
  let s := s.setJob 5 (some { x with state := .queued, level := 4, next := 0, good := 0 })
  { s with
    dispatch := { s.dispatch with ready := s.dispatch.ready.set 4 [5] }
    meter := { s.meter with
      sizes := s.meter.sizes.set 2 (some class2), tiers := s.meter.tiers.set 0 (some (tier0 800)), reservations := 3
      accounts := s.meter.accounts.set 2 { account with state := .low, tier := some 0, balance := 205, low := 300, floor := 100 } } }

/-- The debit of 195 tu holds the account, the waiting job and, at its boundary, the port. -/
theorem test_delivered :
    let t := after (.delivered 2 21) creditOut
    (t.account 2).balance = 10 ∧ (t.account 2).state = .held ∧ t.jobIs 5 .held = true ∧ t.readyAt 4 = []
      ∧ (t.port 2).state = .draining ∧ (t.port 2).drain = some .account ∧ (t.port 2).destination = some .held
      ∧ (t.job 4).map (fun y => (y.good, y.charge)) = some (12, 295) ∧ t.meter.log.map (·.charge) = [195]
      ∧ t.meter.reservations = 2 := by decide +kernel

/-- ACCOUNT_CREDIT of 1,000 tu at −380 tu: the account is OPEN again and its HELD jobs are queued in slot order. -/
theorem test_accountCredit :
    let x : Job := { job with state := .held }
    let s := ((base.setPort 2 (port .draining)).setJob 4 (some x)).setJob 5 (some { x with level := 4 })
    let s := s.setAccount 2 { account with state := .held, balance := -380, low := 300, floor := 100 }
    let t := after .accountCredit (asking 0x52 (2 :: int32 1000) s)
    t.account 2 = { account with balance := 620, low := 300, floor := 100 } ∧ t.readyAt 3 = [4] ∧ t.readyAt 4 = [5]
      ∧ t.link.replies.map (·.body) = [int32 620 ++ [1]] := by decide +kernel

/-- Port 7's JAM Z3 escalates at 160,000 to level 2 and is to expire again at 220,000; the panel is told. -/
theorem test_escalationExpiry :
    let a : Alert :=
      { causes := { CauseSet.empty with jam := some 3 }, level := some 1, acknowledged := false
        timer := some { start := 100000, length := 60000 }, raised := some 100000 }
    let t := after (.escalationExpiry 7) { base with alerts := base.alerts.set 7 a, partTime := 160000 }
    t.alert 7 = { a with level := some 2, timer := some { start := 160000, length := 60000 } }
      ∧ t.panel.sending = some (7, "P07 JAM Z3 L2\n".toList) := by decide +kernel

/-- The third STOP raises the alert to FAULT C12 at level 1, the jam staying beneath it. -/
theorem test_stop_raises :
    let a : Alert :=
      { causes := { CauseSet.empty with jam := some 3 }, level := some 2, acknowledged := true, timer := none
        raised := some 100000 }
    let s := base.setPort 7 (port .stopped)
    let t := after (.stop 7 (.fault 12) []) { s with alerts := s.alerts.set 7 a, partTime := 175000 }
    t.alert 7 = { causes := { CauseSet.empty with jam := some 3, fault := some 12 }, level := some 1, acknowledged := false
                  timer := some { start := 175000, length := 60000 }, raised := some 175000 }
      ∧ t.panel.sending = some (7, "P07 FAULT C12 L1\n".toList) := by decide +kernel

/-- CLEARED at port 7: the waiting line of port 7 is replaced in place. -/
theorem test_cleared :
    let a : Alert :=
      { causes := { CauseSet.empty with jam := some 3 }, level := some 1, acknowledged := true, timer := none
        raised := some 100000 }
    let s := base.setPort 7 { port .stopped with owner := none }
    let lines := [((11 : PortNo), "P11 LINK L1\n".toList), (7, "P07 JAM Z3 L1 ACK\n".toList)]
    let t := after (.cleared 7) { s with
      alerts := s.alerts.set 7 a, panel := { queue := lines, sending := some (3, "P03 TRAY L1\n".toList) } }
    t.panel.queue = [(11, "P11 LINK L1\n".toList), (7, "P07 CLEAR\n".toList)] ∧ t.alert 7 = .closed
      ∧ (t.port 7).state = .ready := by decide +kernel

/-! ## Witnesses: the machine and the control link -/

theorem witness_StepRunsFrontCommand :
    ({ base with pending := [.panelLineSent, .status] } : State).pending = .panelLineSent :: [.status] := rfl

theorem witness_IdleStepIsOneMillisecond : base.pending = [] := rfl

/-- A READY part with every block in its pool, an engine READY at port 2 and a panel line to be sent; its next step is sound. -/
theorem witness_SoundKept :
    let ports := (Vector.replicate 12 Port.afterReset).set 2 { port .ready with owner := none }
    let s : State := { State.reset with
      ports := ports, panel := { queue := [], sending := some (2, "P02 CLEAR\n".toList) }, spool := Spool.afterPowerOn.quick
      choices := 0, pending := [.panelLineSent] }
    s.Sound ∧ step s = .next { s with panel := { queue := [], sending := none }, pending := [] } := by
  refine ⟨reset_sound _ (by decide) (afterPowerOn_sound []).quick (fun j => by simp [Spool.quick, Spool.afterPowerOn]) _
    (fun p => ?_) _ _ _, rfl⟩
  simp only [Fin.getElem_fin, Vector.getElem_set, Vector.getElem_replicate]
  split
  · exact ⟨by decide, by decide, by decide, by decide, fun c h => by cases h; decide⟩
  · exact afterReset_sound _ ⟨rfl, rfl, rfl, rfl, rfl⟩

/-- A GOOD sheet is charged: the record before and after. -/
theorem witness_JobKeepsDescriptionAndBill :
    let s : State := { creditOut with pending := [.delivered 2 21] }
    let t := after (.delivered 2 21) creditOut
    step s = .next t ∧ s.job 4 = creditOut.job 4 ∧ (creditOut.job 4).isSome = true ∧ (t.job 4).isSome = true := by
  refine ⟨rfl, rfl, by decide +kernel, by decide +kernel⟩

theorem witness_ControlFrameIsReceived :
    (List.replicate 16445 (0 : Byte)).length ≤ 16445 ∧ base.link.receiver.rx = .hunt false := by
  exact ⟨by rw [List.length_replicate], rfl⟩

/-- Three requests and four. -/
theorem witness_ReceivedFrameAdmittedOrBusy :
    (∀ k, base.link.reset ≠ .due k) ∧ base.agenda = [] ∧ (List.replicate 16445 (0 : Byte)).length ≤ 16445
      ∧ (List.replicate 3 (request 1 [])).length < 4 ∧ 4 ≤ (List.replicate 4 (request 1 [])).length := by
  exact ⟨fun k h => (ResetPhase.noConfusion h), rfl, by rw [List.length_replicate], by decide, by decide⟩

/-- Lengths 2 and 16,449, a wrong CRC behind a right length, a gap of 50 ms and one of 51. -/
theorem witness_ReceiverFindsAndDropsFrames :
    base.agenda = [] ∧ base.link.receiver.rx = .hunt false ∧ (∀ k, base.link.reset ≠ .due k)
      ∧ (∀ a b, [0x5A#8, 0xA5, 0x00, 0xA5] ≠ a ++ 0xA5#8 :: 0x5A#8 :: b) ∧ (2 < 3 ∨ 16448 < 2) ∧ (16449 < 3 ∨ 16448 < 16449)
      ∧ [0xAD#8, 0xC0] ≠ word16 (crc (num 2 3 ++ [0x01, 0x00, 0x01])) ∧ (RxState.header []).midFrame = true
      ∧ 50 < elapsed 1000 949 ∧ elapsed 1000 950 ≤ 50 := by
  refine ⟨rfl, rfl, fun k h => (ResetPhase.noConfusion h), fun a b h => ?_, by decide, by decide, by decide +kernel, rfl,
    by decide, by decide⟩
  obtain ⟨n, hn⟩ : ∃ n, n = a.length := ⟨_, rfl⟩
  have l := congrArg List.length h
  have d := congrArg (List.drop a.length) h
  simp at l d
  rw [← hn] at l d
  have : n = 0 ∨ n = 1 ∨ n = 2 := by omega
  rcases this with rfl | rfl | rfl <;> simp at d

/-- R1: an A5h followed by neither A5h nor 5Ah returns the receiver to its search. -/
theorem test_markerSearch :
    (after (.markerPairSeen [0xA5, 0x00, 0x5A]) base).link.receiver.rx = .hunt false
      ∧ (after (.markerPairSeen [0xA5, 0x00, 0xA5, 0x5A]) base).link.receiver.rx = .header [] := by decide +kernel

/-- A reply waits, a notice waits, nothing waits, the RESET's reply ends. -/
theorem witness_OutboundLineGoesOn :
    let r : Reply := { tag := 9, status := .ok, body := [], ofReset := false }
    let n : Notice := { kind := .job, time := 5, body := [] }
    let withReply : State := { base with link := { base.link with replies := [r], notices := [n] } }
    let withNotice : State := { base with link := { base.link with notices := [n] } }
    let ends : State := { base with link := { base.link with outbound := some (.reply { r with ofReset := true })
                                                             reset := .pending .full } }
    base.link.outbound = some (.reply r) ∧ base.agenda = [] ∧ r.ofReset = false ∧ withReply.link.replies = r :: []
      ∧ withNotice.link.replies = [] ∧ withNotice.link.notices = n :: [] ∧ base.link.replies = []
      ∧ base.link.notices = [] ∧ ends.link.outbound = some (.reply { r with ofReset := true })
      ∧ ends.link.reset = .pending .full := ⟨rfl, rfl, rfl, rfl, rfl, rfl, rfl, rfl, rfl, rfl⟩

/-- A disabled kind, 63 notices and 64. -/
theorem witness_NoticeQueuedOrDropped :
    (0x7F#8).getLsbD (NoticeKind.bit .stock) = false ∧ base.link.enable.getLsbD (NoticeKind.bit .stock) = true
      ∧ (List.replicate 63 ({ kind := .job, time := 5, body := [] } : Notice)).length < 64
      ∧ 64 ≤ (List.replicate 64 ({ kind := .job, time := 5, body := [] } : Notice)).length := by decide

/-- Kind 7Fh; an IDENTIFY with a body; a NOTICE_MASK to a part that is STARTING. -/
theorem witness_RequestTestsInOrder :
    (asking 0x7F [] base).Oldest (request 0x7F []) [] ∧ requestLength 0x7F = none
      ∧ (asking 0x01 [5] base).Oldest (request 0x01 [5]) [] ∧ requestKind .identify = some 0x01
      ∧ lengthFits (request 0x01 [5]) = false
      ∧ (asking 0x04 [5] State.reset).Oldest (request 0x04 [5]) [] ∧ requestKind .noticeMask = some 0x04
      ∧ lengthFits (request 0x04 [5]) = true ∧ State.reset.spool.startUp.refuses = true ∧ servedAlways 0x04 = false :=
  ⟨oldest_of _ _ _ (by decide +kernel), rfl, oldest_of _ _ _ (by decide +kernel), rfl, by decide +kernel,
    oldest_of _ _ _ (by decide +kernel), rfl, by decide +kernel, rfl, rfl⟩

theorem witness_IdentifyAnswered : (asking 0x01 [] State.reset).Oldest (request 0x01 []) [] ∧ (request 0x01 []).kind = 0x01#8
    ∧ (request 0x01 []).body = [] := ⟨oldest_of _ _ _ (by decide +kernel), rfl, rfl⟩

theorem witness_QueriesReportAsItStands :
    (asking 0x15 [byte 4] (jobAt job)).Takes 0x15 (request 0x15 [byte 4]) [] ∧ (asking 0x15 [byte 4] (jobAt job)).job 4 = some job
      ∧ (asking 0x33 [byte 11] base).Takes 0x33 (request 0x33 [byte 11]) []
      ∧ (asking 0x54 [byte 63] base).Takes 0x54 (request 0x54 [byte 63]) []
      ∧ (asking 0x61 [] base).Takes 0x61 (request 0x61 []) [] ∧ (asking 0x02 [] base).Takes 0x02 (request 0x02 []) []
      ∧ base.link.notices.length ≤ 64 ∧ base.spool.pool.length ≤ 32768 ∧ base.meter.log.length ≤ 256 :=
  ⟨takes_of _ _ _ (by decide +kernel), rfl, takes_of _ _ _ (by decide +kernel), takes_of _ _ _ (by decide +kernel),
    takes_of _ _ _ (by decide +kernel), takes_of _ _ _ (by decide +kernel), by decide, by decide, by decide⟩

/-- FULL and QUICK on a READY part, QUICK on a part that is STARTING, kind 2. -/
theorem witness_ResetRequestPends :
    (asking 0x03 [0] base).Oldest (request 0x03 [0]) [] ∧ (asking 0x03 [1] base).Oldest (request 0x03 [1]) []
      ∧ base.spool.startUp ≠ .starting ∧ (asking 0x03 [1] State.reset).Oldest (request 0x03 [1]) []
      ∧ State.reset.spool.startUp = .starting ∧ (asking 0x03 [2] base).Oldest (request 0x03 [2]) [] ∧ 2 ≤ (2#8).toNat :=
  ⟨oldest_of _ _ _ (by decide +kernel), oldest_of _ _ _ (by decide +kernel), by decide,
    oldest_of _ _ _ (by decide +kernel), rfl, oldest_of _ _ _ (by decide +kernel), by decide⟩

theorem witness_ResetsAndPowerOn :
    ({ base with link := { base.link with reset := .due .full } } : State).link.reset = .due .full
      ∧ ({ base with link := { base.link with reset := .due .quick } } : State).link.reset = .due .quick := ⟨rfl, rfl⟩

/-- The greatest values that the bodies carry. -/
theorem witness_SettingsTaken :
    (asking 0x04 [0xFF] base).Takes 0x04 (request 0x04 [0xFF]) []
      ∧ (asking 0x05 (byte 7 :: num 4 4294967295) base).Takes 0x05 (request 0x05 (byte 7 :: num 4 4294967295)) []
      ∧ (asking 0x06 (byte 11 :: num 2 65535 ++ num 2 65535 ++ num 2 65535) base).Takes 0x06
          (request 0x06 (byte 11 :: num 2 65535 ++ num 2 65535 ++ num 2 65535)) [] :=
  ⟨takes_of _ _ _ (by decide +kernel), takes_of _ _ _ (by decide +kernel), takes_of _ _ _ (by decide +kernel)⟩

/-- Before the last block with 0 and 3 failed attempts, and at the last block with 0, 4,096 and 4,097 retired. -/
theorem witness_SelfTestRuns :
    let last (retired : Nat) : State := { base with spool := { base.spool with
      startUp := .starting, testBlock := 32767, retired := List.range retired } }
    State.reset.spool.startUp = .starting ∧ State.reset.agenda = [] ∧ State.reset.spool.testBlock < 32767
      ∧ State.reset.spool.testFails ≠ 3
      ∧ ({ State.reset with spool := { State.reset.spool with testBlock := 32766, testFails := 3 } } : State).spool.testFails = 3
      ∧ (last 0).spool.testBlock = 32767 ∧ (last 0).link.outbound ≠ none ∧ (last 0).link.notices.length < 64
      ∧ (last 0).link.enable.getLsbD 0 = true ∧ (∀ p, ((last 0).port p).state = .absent)
      ∧ (last 0).spool.retired.length = 0 ∧ 1 ≤ (last 4096).spool.retired.length
      ∧ (last 4096).spool.retired.length ≤ 4096 ∧ 4096 < (last 4097).spool.retired.length := by
  refine ⟨rfl, rfl, by decide, by decide, rfl, rfl, by decide, by decide, by decide, by decide +kernel, rfl, ?_, ?_, ?_⟩
  all_goals simp

/-! ## Witnesses: jobs -/

/-- A job as JOB_OPEN makes it, at the ends of its ranges: 4,096 sheets of two sides, 9,999 copies. -/
def opened : Job :=
  { job with
    state := .queued, level := 7, sheets := 4096, copies := 9999, lead := 255, pinned := some 11, barred := some 0
    setup := { bin := some 7, finishing := some 3, profile := some 63, quality := some 2, offset := some 1 }
    next := 0, charge := 0, pressTime := 0 }

theorem opened_fresh : opened.Fresh base.meter :=
  { sides := by decide, sheets := by decide, copies := by decide, images := by decide, stock := by decide
    mask := by decide, cls := by decide +kernel, account := by decide +kernel, opened := rfl, lead := by decide
    setup := by decide, ports := by decide, next := by decide }

theorem witness_JobOpenReadsDescription :
    opened.Fresh base.meter ∧ (base.account opened.account).state ≠ .closed
      ∧ (base.account opened.account).tier = some 1 ∧ (base.meter.tiers[(1 : TierNo)]).isSome = true
      ∧ (base.setJob 0 (some job)).job 1 = none ∧ (∀ i : Slot, i < 1 → ((base.setJob 0 (some job)).job i).isSome = true) :=
  ⟨opened_fresh, by decide +kernel, by decide +kernel, by decide +kernel, by decide +kernel, by decide +kernel⟩

/-- An account HELD; a stock not present; a stock present with no port to choose; an account CLOSED; a full table. -/
theorem witness_JobOpenFillsSlot :
    let held := base.setAccount 2 { account with state := .held }
    let present := base.setPort 2 (port .setup)
    let closed := base.setAccount 2 { account with state := .closed }
    let full : State := { base with jobs := Vector.replicate 128 (some job) }
    (asking 0x10 opened.openBody held).Takes 0x10 (request 0x10 opened.openBody) []
      ∧ (asking 0x10 opened.openBody held).judgeOpen opened.openBody = .ok (0, opened)
      ∧ (held.account opened.account).state = .held
      ∧ (asking 0x10 opened.openBody base).Takes 0x10 (request 0x10 opened.openBody) []
      ∧ (asking 0x10 opened.openBody base).judgeOpen opened.openBody = .ok (0, opened)
      ∧ (base.account opened.account).state ≠ .held ∧ base.stockPresent opened.stock = false ∧ base.unlisted 0
      ∧ (asking 0x10 opened.openBody present).Takes 0x10 (request 0x10 opened.openBody) []
      ∧ (asking 0x10 opened.openBody present).judgeOpen opened.openBody = .ok (0, opened)
      ∧ present.stockPresent opened.stock = true ∧ present.unlisted 0 ∧ present.noPortToChoose
      ∧ 1 ≤ present.bandsPerSide opened.sizeClass
      ∧ (asking 0x10 opened.openBody closed).Takes 0x10 (request 0x10 opened.openBody) []
      ∧ (closed.account opened.account).state = .closed
      ∧ (asking 0x10 opened.openBody full).Takes 0x10 (request 0x10 opened.openBody) []
      ∧ (∀ i : Slot, (full.job i).isSome = true) :=
  ⟨takes_of _ _ _ (by decide +kernel), by rfl, by decide +kernel, takes_of _ _ _ (by decide +kernel), by rfl,
    by decide +kernel, by decide +kernel, ⟨by decide +kernel, by decide +kernel⟩, takes_of _ _ _ (by decide +kernel),
    by rfl, by decide +kernel, ⟨by decide +kernel, by decide +kernel⟩, by unfold State.noPortToChoose; decide +kernel,
    by decide +kernel, takes_of _ _ _ (by decide +kernel), by decide +kernel, takes_of _ _ _ (by decide +kernel),
    by decide +kernel⟩

/-- Bodies with one field just out of its range, by offset and bytes (R27, R187): level 8; size class 16, and 2, which is
unset; sides 0 and 3; sheets 0 and 4,097; copies 0 and 10,000; stock 0; an empty mask; pinned and barred port 12, and both 0;
the five setup fields; account 64; accounts 3, UNSET, and 5, whose tier is unset. -/
def badFields : List (Nat × List Byte) :=
  [(5, [8]), (6, [16]), (6, [2]), (7, [0]), (7, [3]), (8, [0, 0]), (8, num 2 4097), (10, [0, 0]), (10, num 2 10000), (12, [0]),
   (13, [1]), (14, [12]), (15, [12]), (14, [0, 0]), (18, [8]), (19, [4]), (20, [64]), (21, [3]), (22, [2]), (4, [64]),
   (4, [3]), (4, [5])]

/-- Each is taken and refused; and the tier of account 5 alone is unset, its state OPEN. -/
theorem witness_JobOpenFillsSlot_fields :
    let s := base.setAccount 5 { account with tier := some 2 }
    (∀ e ∈ badFields,
      let body := opened.openBody.take e.1 ++ e.2 ++ opened.openBody.drop (e.1 + e.2.length)
      (asking 0x10 body s).Takes 0x10 (request 0x10 body) []
      ∧ (after .jobOpen (asking 0x10 body s)).link.replies = [{ tag := 77, status := .badField, body := [], ofReset := false }])
    ∧ s.meter.sizes[(2 : ClassNo)] = none ∧ (s.account 3).state = .unset ∧ (s.account 5).state = .opened
    ∧ (s.account 5).tier = some 2 ∧ s.meter.tiers[(2 : TierNo)] = none
    ∧ opened.openBody = word32 7 ++ [2, 7, 1, 2] ++ num 2 4096 ++ num 2 9999
        ++ [5, 2, 11, 0, 255, 31, 7, 3, 63, 2, 1] := by
  refine ⟨fun e h => ⟨takes_of _ _ _ ?_, ?_⟩, rfl, rfl, rfl, rfl, rfl, by decide +kernel⟩
  · revert e; decide +kernel
  · revert e; decide +kernel

/-- A waiting job, a running one at a port that does not feed, one that has ended. -/
theorem witness_CancelEndsOrFlagsJob :
    let s (x : Job) := asking 0x11 [byte 4] (feeding (port .draining) x)
    (s { job with state := .stockwait }).Takes 0x11 (request 0x11 [byte 4]) []
      ∧ (s { job with state := .stockwait }).job 4 = some { job with state := .stockwait }
      ∧ (s job).Takes 0x11 (request 0x11 [byte 4]) [] ∧ (s job).job 4 = some job ∧ (s job).notFeeding 4
      ∧ (s { job with state := .done }).Takes 0x11 (request 0x11 [byte 4]) [] ∧ JobState.terminal .done = true :=
  ⟨takes_of _ _ _ (by decide +kernel), rfl, takes_of _ _ _ (by decide +kernel), rfl,
    by unfold State.notFeeding; decide +kernel, takes_of _ _ _ (by decide +kernel), rfl⟩

/-- A job that runs on a FEEDING port, told of its flag: a flag already set, sheets in the path, an empty path, and a flag set
whose port decides. -/
theorem witness_CancelEndsOrFlagsJob_feeding :
    let x : Port := { port .feeding with path := [sheet 16 0 .picked .unmarked], wait := .path }
    let s (k : Byte) (p : Port) (y : Job) := asking k [byte 4] (feeding p y)
    (∀ k ∈ [0x11#8, 0x12, 0x13], ∀ p ∈ [x, port .feeding], ∀ y ∈ [job, { job with cancel := true }, { job with suspend := true }],
      (s k p y).Takes k (request k [byte 4]) [] ∧ (s k p y).job 4 = some y ∧ y.state = .running
      ∧ ((s k p y).port 2).state = .feeding ∧ (s k p y).assigned 2 = some 4
      ∧ (∀ q, (s k p y).assigned q = some 4 → q = 2) ∧ (s k p y).noneReady ∧ y.good ≠ y.sheets * y.copies ∧ y.lossCount ≠ 5)
    ∧ job.cancel = false ∧ job.suspend = false ∧ x.path ≠ [] ∧ (port .feeding).path = [] := by
  refine ⟨fun k hk p hp y hy => ⟨takes_of _ _ _ ?_, rfl, ?_, ?_, ?_, ?_, ?_, ?_, ?_⟩, rfl, rfl, by decide, rfl⟩
  · revert y p k; decide +kernel
  · revert y; decide
  · revert y p k; decide +kernel
  · revert y p k; decide +kernel
  · revert y p k; decide +kernel
  · unfold State.noneReady; revert y p k; decide +kernel
  · revert y; decide
  · revert y; decide

/-- The decision of such a port, by its path and its job's flags. -/
theorem witness_CancelEndsOrFlagsJob_decides :
    let x : Port := { port .feeding with path := [sheet 16 0 .picked .unmarked], wait := .path }
    (∃ t y, State.Decides 2 5 (feeding x { job with cancel := true }) t ∧ t.job 4 = some y)
    ∧ (∃ t y, State.Decides 2 5 (feeding (port .feeding) { job with cancel := true }) t ∧ t.job 4 = some y)
    ∧ (∃ t y, State.Decides 2 5 (feeding (port .feeding) { job with suspend := true }) t ∧ t.job 4 = some y)
    ∧ (∃ t y, State.Decides 2 5 (feeding (port .feeding) job) t ∧ t.job 4 = some y) :=
  ⟨decides_drains _ _ (by decide +kernel), decides_leaves _ _ (by decide +kernel), decides_leaves _ _ (by decide +kernel),
    decides_waits _ _ (by decide +kernel)⟩

/-- A job cancelled at a FEEDING port whose path is empty leaves at once, and the port is READY. -/
theorem test_jobCancel :
    let t := after .jobCancel (asking 0x11 [byte 4] (feeding (port .feeding) job))
    t.jobIs 4 .cancelled = true ∧ (t.port 2).state = .ready ∧ t.assignment 2 = none := by decide +kernel

/-- Suspending a HELD, a running and a DONE job; resuming a PAUSED job of a HELD account, one whose stock is not present, one
whose stock is, a running one with the flag and one without. -/
theorem witness_SuspendAndResume :
    let s (k : Byte) (x : Job) := asking k [byte 4] (feeding { port .draining with trays := [] } x)
    let held := asking 0x13 [byte 4] (leaving (port .draining) { job with state := .paused })
    let stocked := feeding (port .draining) { job with state := .paused }
    (s 0x12 { job with state := .held }).Takes 0x12 (request 0x12 [byte 4]) []
      ∧ (s 0x12 job).Takes 0x12 (request 0x12 [byte 4]) [] ∧ (s 0x12 job).notFeeding 4
      ∧ (s 0x12 { job with state := .done }).Takes 0x12 (request 0x12 [byte 4]) []
      ∧ held.Takes 0x13 (request 0x13 [byte 4]) [] ∧ held.job 4 = some { job with state := .paused }
      ∧ (held.account 2).state.stops = true
      ∧ (s 0x13 { job with state := .paused }).Takes 0x13 (request 0x13 [byte 4]) []
      ∧ ((s 0x13 { job with state := .paused }).account 2).state.stops = false
      ∧ (s 0x13 { job with state := .paused }).stockPresent 5 = false ∧ (s 0x13 { job with state := .paused }).unlisted 4
      ∧ (s 0x13 { job with suspend := true }).Takes 0x13 (request 0x13 [byte 4]) []
      ∧ (s 0x13 { job with suspend := true }).notFeeding 4 ∧ (s 0x13 job).Takes 0x13 (request 0x13 [byte 4]) []
      ∧ job.state ≠ .paused ∧ job.suspend = false
      ∧ (asking 0x13 [byte 4] stocked).Takes 0x13 (request 0x13 [byte 4]) [] ∧ stocked.job 4 = some { job with state := .paused }
      ∧ (stocked.account 2).state.stops = false ∧ stocked.stockPresent 5 = true ∧ stocked.unlisted 4
      ∧ stocked.noPortToChoose :=
  ⟨takes_of _ _ _ (by decide +kernel), takes_of _ _ _ (by decide +kernel), by unfold State.notFeeding; decide +kernel,
    takes_of _ _ _ (by decide +kernel), takes_of _ _ _ (by decide +kernel), rfl, by decide +kernel,
    takes_of _ _ _ (by decide +kernel), by decide +kernel, by decide +kernel, ⟨by decide +kernel, by decide +kernel⟩,
    takes_of _ _ _ (by decide +kernel), by unfold State.notFeeding; decide +kernel, takes_of _ _ _ (by decide +kernel),
    by decide, rfl, takes_of _ _ _ (by decide +kernel), rfl, by decide +kernel, by decide +kernel,
    ⟨by decide +kernel, by decide +kernel⟩, by unfold State.noPortToChoose; decide +kernel⟩

/-- The job of slot 4, its images present, at a level; another job in slot 5, which feeds on port 2 at level 3. -/
def behind (x : Job) : State :=
  let p : Port := { port .feeding with path := [sheet 16 0 .picked .unmarked], wait := .path }
  let s := (((portAt p).setJob 5 (some job)).setAssignment 2 (some { assignment with slot := 5 })).setJob 4 (some x)
  (s.setImages 4 (List.replicate 6 (image 6 7))).setImages 5 (List.replicate 6 (image 8 9))

/-- The job of slot 4, its images present, and a READY port 2 with a setup owner. -/
def offered (x : Job) (owner : Slot) : State :=
  ((portAt { port .ready with owner := some owner }).setJob 4 (some x)).setImages 4 (List.replicate 6 (image 6 7))

/-- A job resumed is assigned to a READY port: its setup owner starts three sheets and waits for the path; another port sends
SETUP. A more urgent job makes a FEEDING port drain; a job of the same level is not signalled. -/
theorem witness_SuspendAndResume_sought :
    let queued (s : State) : State :=
      State.jobTo { s with dispatch := { s.dispatch with ready := s.dispatch.ready.set 3 [4] } } 4 .queued
    let urgent (s : State) : State :=
      State.jobTo { s with dispatch := { s.dispatch with ready := s.dispatch.ready.set 1 [4] } } 4 .queued
    let x : Job := { job with state := .paused }
    (∀ e ∈ [(offered x 4, 3), (offered x 9, 3), (behind { x with level := 1 }, 1), (behind x, 3)],
      (asking 0x13 [byte 4] e.1).Takes 0x13 (request 0x13 [byte 4]) [] ∧ e.1.jobIs 4 .paused = true
      ∧ (e.1.account 2).state.stops = false ∧ e.1.stockPresent 5 = true ∧ e.1.unlisted 4 ∧ e.1.levelOf 4 = e.2)
    ∧ (∃ t y, (queued (offered x 4)).Sought 4 t ∧ t.job 4 = some y)
    ∧ (∃ t y, (queued (offered x 9)).Sought 4 t ∧ t.job 4 = some y)
    ∧ (∃ t y, (urgent (behind { x with level := 1 })).Sought 4 t ∧ t.job 4 = some y)
    ∧ (∃ t y, (queued (behind x)).Sought 4 t ∧ t.job 4 = some y) := by
  refine ⟨fun e h => ⟨takes_of _ _ _ ?_, ?_, ?_, ?_, ?_, ?_⟩, ?_, ?_, ?_, ?_⟩
  · revert e; decide +kernel
  · revert e; decide +kernel
  · revert e; decide +kernel
  · revert e; decide +kernel
  · unfold State.unlisted; revert e; decide +kernel
  · revert e; decide +kernel
  · exact sought_port _ (by decide +kernel) (decides_again 4 _ (by decide +kernel) (decides_again 3 _ (by decide +kernel)
      (decides_again 2 _ (by decide +kernel) (decides_waits 1 _ (by decide +kernel)))))
  · exact sought_port _ (by decide +kernel) (decides_waits 4 _ (by decide +kernel))
  · exact sought_signal _ (by decide +kernel) (decides_drains 4 _ (by decide +kernel))
  · exact ⟨_, _, .inr ⟨by decide +kernel, .inl ⟨by decide +kernel, rfl⟩⟩, rfl⟩

/-- The worked rule of R69: the setup owner takes the job, and its path fills. -/
theorem test_jobResume :
    let t := after .jobResume (asking 0x13 [byte 4] (offered { job with state := .paused } 4))
    t.jobIs 4 .running = true ∧ (t.port 2).state = .feeding ∧ (t.port 2).path.length = 3 ∧ (t.port 2).wait = .path := by
  decide +kernel

/-- R74: a job that enters at a more urgent level makes the FEEDING port drain. -/
theorem test_jobLevel :
    let t := after .jobLevel (asking 0x14 [byte 4, byte 1] (behind { job with state := .queued }))
    t.jobIs 4 .queued = true ∧ (t.port 2).state = .draining ∧ (t.port 2).drain = some .urgent := by decide +kernel

/-- A QUEUED job moved to level 1 before a FEEDING port's job of level 3. -/
theorem witness_JobLevelMovesJob_sought :
    let x : Job := { job with state := .queued }
    let s := asking 0x14 [byte 4, byte 1] (behind x)
    s.Takes 0x14 (request 0x14 [byte 4, byte 1]) [] ∧ s.job 4 = some x ∧ s.stockPresent 5 = true
      ∧ ∃ t, State.Sought (((s.setJob 4 (some { x with level := 1 })).unlist 4).joinReady 4 false) 4 t := by
  refine ⟨takes_of _ _ _ (by decide +kernel), rfl, by decide +kernel, ?_⟩
  exact sought_some _ (sought_signal _ (by decide +kernel) (decides_drains 4 _ (by decide +kernel)))

/-- A running, a STOCKWAIT, a QUEUED and a DONE job, and level 8. -/
theorem witness_JobLevelMovesJob :
    let s (b : Byte) (x : Job) := asking 0x14 [byte 4, b] (feeding (port .setup) x)
    (s (byte 7) job).Takes 0x14 (request 0x14 [byte 4, byte 7]) [] ∧ (s (byte 7) job).job 4 = some job
      ∧ (s (byte 0) { job with state := .stockwait }).Takes 0x14 (request 0x14 [byte 4, byte 0]) []
      ∧ (s (byte 0) { job with state := .queued }).Takes 0x14 (request 0x14 [byte 4, byte 0]) []
      ∧ (s (byte 0) { job with state := .queued }).stockPresent 5 = true
      ∧ (s (byte 0) { job with state := .queued }).noPortToChoose
      ∧ (s (byte 0) { job with state := .done }).Takes 0x14 (request 0x14 [byte 4, byte 0]) []
      ∧ (s 8 job).Takes 0x14 (request 0x14 [byte 4, 8]) [] ∧ 8 ≤ (8#8).toNat :=
  ⟨takes_of _ _ _ (by decide +kernel), rfl, takes_of _ _ _ (by decide +kernel), takes_of _ _ _ (by decide +kernel),
    by decide +kernel, by unfold State.noPortToChoose; decide +kernel, takes_of _ _ _ (by decide +kernel),
    takes_of _ _ _ (by decide +kernel), by decide⟩

theorem witness_ForgetFreesSlot :
    let s (x : Job) := asking 0x16 [byte 4] (jobAt x)
    (s { job with state := .failed }).Takes 0x16 (request 0x16 [byte 4]) []
      ∧ (s { job with state := .failed }).job 4 = some { job with state := .failed } ∧ JobState.terminal .failed = true
      ∧ (s job).Takes 0x16 (request 0x16 [byte 4]) [] ∧ (s job).job 4 = some job ∧ job.state.terminal = false
      ∧ (∀ e ∈ [(Instr.jobCancel, 0x11#8, []), (.jobSuspend, 0x12, []), (.jobResume, 0x13, []), (.jobLevel, 0x14, [7#8]),
          (.jobQuery, 0x15, []), (.jobForget, 0x16, [])], ∀ b ∈ [127#8, 128, 255],
        requestKind e.1 = some e.2.1 ∧ (asking e.2.1 (b :: e.2.2) base).Takes e.2.1 (request e.2.1 (b :: e.2.2)) [])
      ∧ base.job 127 = none ∧ 128 ≤ (128#8).toNat := by
  refine ⟨takes_of _ _ _ (by decide +kernel), rfl, rfl, takes_of _ _ _ (by decide +kernel), rfl, rfl, fun e h b g =>
    ⟨?_, takes_of _ _ _ ?_⟩, rfl, by decide⟩
  · revert e; decide
  · revert b; revert e; decide +kernel

/-! ## Witnesses: spool memory and dispatch -/

/-- The job in slot 4 with its six images, image 5 a record of the test's choosing. -/
def spooled (r : ImageRec) : State := (jobAt job).setImages 4 (List.replicate 5 (image 6 7) ++ [r])

theorem witness_GateCondition :
    (spooled (image 6 7)).job 4 = some job ∧ 2 + job.sheets < job.sheets * job.copies
      ∧ (spooled (image 6 7)).gateMet 4 2 = true ∧ (spooled .fresh).gateMet 4 2 = false := by
  exact ⟨rfl, by decide, by decide +kernel, by decide +kernel⟩

/-- A BAND_PUT of image 5, band 1, the last ones, with the greatest count and three payload bytes. -/
def putBody : List Byte :=
  byte 4 :: num 2 5 ++ [byte 1] ++ planesWire 4 { p0 := 1048575, p1 := 0, p2 := 0, p3 := 1048575 } ++ [1, 2, 3]

/-- A released image, a present band, an empty pool, a free block. -/
theorem witness_BandPutBeginsWrite :
    let empty : State := { spooled .fresh with spool := { (spooled .fresh).spool with pool := [] } }
    (asking 0x20 putBody (spooled .gone)).Takes 0x20 (request 0x20 putBody) [] ∧ (spooled .gone).job 4 = some job
      ∧ job.state.terminal = false ∧ 5 < job.sheets * job.sides ∧ 1 < (spooled .gone).bandsPerSide job.sizeClass
      ∧ (spooled .gone).imageReleased 4 5 = true
      ∧ (asking 0x20 putBody (spooled (image 6 7))).Takes 0x20 (request 0x20 putBody) []
      ∧ (spooled (image 6 7)).imageReleased 4 5 = false ∧ (spooled (image 6 7)).bandPresent 4 5 1 = true
      ∧ (asking 0x20 putBody empty).Takes 0x20 (request 0x20 putBody) [] ∧ empty.bandPresent 4 5 1 = false
      ∧ empty.spool.pool = []
      ∧ (asking 0x20 putBody (spooled .fresh)).Takes 0x20 (request 0x20 putBody) []
      ∧ (spooled .fresh).imageReleased 4 5 = false ∧ (spooled .fresh).bandPresent 4 5 1 = false
      ∧ (spooled .fresh).spool.pool.Pairwise (· < ·) ∧ 3 ∈ (spooled .fresh).spool.pool
      ∧ (∀ b ∈ (spooled .fresh).spool.pool, 3 ≤ b) :=
  ⟨takes_of _ _ _ (by decide +kernel), rfl, rfl, by decide, by decide +kernel, by decide +kernel,
    takes_of _ _ _ (by decide +kernel), by decide +kernel, by decide +kernel, takes_of _ _ _ (by decide +kernel),
    by decide +kernel, rfl, takes_of _ _ _ (by decide +kernel), by decide +kernel, by decide +kernel, by decide,
    by decide, by decide⟩

/-- The write of a band into block 32,767, the last. -/
def lastWrite : BandWrite :=
  { slot := 4, image := 5, band := 1, counts := Planes.zero, payload := [1, 2, 3], block := 32767 }

/-- That write running. -/
def writing (s : State) : State :=
  let t := asking 0x20 putBody s
  { t with link := { t.link with service := some (.write lastWrite) } }

theorem witness_BandPutStoresBand :
    let s := writing (spooled .fresh)
    s.link.requests = request 0x20 putBody :: [] ∧ s.link.service = some (.write lastWrite) ∧ s.link.reset = .none
      ∧ s.agenda = [] ∧ Memory.wf s.spool.dram ∧ lastWrite.payload.length ≤ 16384 ∧ lastWrite.block < 32768
      ∧ (writing base).live 4 = false
      ∧ (writing (spooled .gone)).live 4 = true ∧ (writing (spooled .gone)).image 4 5 = some .gone
      ∧ ImageRec.gone.released = true
      ∧ s.live 4 = true ∧ s.image 4 5 = some .fresh ∧ ImageRec.fresh.released = false ∧ s.portRunning 4 = none
      ∧ s.jobIs 4 .queued = false :=
  ⟨rfl, rfl, rfl, rfl, by decide +kernel, by decide, by decide, by decide +kernel, by decide +kernel, by decide +kernel,
    rfl, by decide +kernel, by decide +kernel, rfl, by decide +kernel, by decide +kernel⟩

/-- The write of image 1, band 1, the last band that the gate of ordinal 0 requires, for the job of slot 4. -/
def gateWrite : BandWrite :=
  { slot := 4, image := 1, band := 1, counts := Planes.zero, payload := [1, 2, 3], block := 5 }

/-- That write running in a state whose job has every other band of its images. -/
def gateWriting (s : State) : State :=
  let half : ImageRec := { image 6 7 with present := 1, bands := [(0, .present 6 2 Planes.zero)] }
  let t := asking 0x20 putBody (s.setImages 4 (image 6 7 :: half :: List.replicate 4 (image 6 7)))
  { t with link := { t.link with service := some (.write gateWrite) } }

/-- The state that its store leaves. -/
def gateStored (s : State) : State := ((gateWriting s).writeBlock 5 [1, 2, 3]).storeBand gateWrite

/-- A job whose gate the write completes: QUEUED with its setup owner READY, QUEUED more urgent than a FEEDING port's job, and
running on a FEEDING port that waits for its gate; a running one whose PICKED sheet 0 waits for this band, its next ordinal 1
not concerned. -/
theorem witness_BandPutStoresBand_gate :
    let waiting (l : Level) : Job := { job with state := .queued, level := l, next := 0 }
    let urgent : State :=
      let s := behind (waiting 1)
      { s with dispatch := { s.dispatch with ready := s.dispatch.ready.set 1 [4] } }
    let running : Job := { job with next := 0 }
    let picky : Port := { port .feeding with
      path := [sheet 16 0 .picked .unmarked], wait := .path
      request := some { tag := 16, back := true, band := 1, timer := { start := 990, length := 40 } } }
    (∀ e ∈ [(offered (waiting 3) 4, waiting 3), (urgent, waiting 1), (feeding (port .feeding) running, running),
        (feeding picky job, job)],
      let s := gateWriting e.1
      s.link.requests = [request 0x20 putBody] ∧ s.link.service = some (.write gateWrite) ∧ s.link.reset = .none
      ∧ s.agenda = [] ∧ s.live 4 = true ∧ (s.image 4 1).any (fun r => !r.released) = true ∧ s.job 4 = some e.2
      ∧ (gateStored e.1).gateMet 4 e.2.next = true
      ∧ gateWrite.band < s.bandsPerSide 1 ∧ e.2.lead = 0
      ∧ (gateWrite.image = (e.2.next % 3) * 2 + 1 ∨ e.2.next = 1))
    ∧ (∃ u, (gateStored (offered (waiting 3) 4)).Sought 4 u)
    ∧ (∃ u, (gateStored urgent).Sought 4 u)
    ∧ (∃ u, State.Decides 2 5 (gateStored (feeding (port .feeding) running)) u)
    ∧ (∀ q, (gateWriting (feeding (port .feeding) running)).assigned q = some 4 → q = 2)
    ∧ (∃ v, (gateStored (feeding picky job)).Serves gateWrite v ∧ (v.port 2).request = none) := by
  refine ⟨?_, ?_, ?_, ?_, by decide +kernel, ?_⟩
  · intro e h
    refine ⟨rfl, rfl, ?_, ?_, ?_, ?_, ?_, ?_, ?_, ?_, ?_⟩ <;> (revert e; decide +kernel)
  · exact sought_some _ (sought_port _ (by decide +kernel) (decides_again 4 _ (by decide +kernel) (decides_again 3 _ (by decide +kernel)
      (decides_again 2 _ (by decide +kernel) (decides_waits 1 _ (by decide +kernel))))))
  · exact sought_some _ (sought_signal _ (by decide +kernel) (decides_drains 4 _ (by decide +kernel)))
  · exact decides_some _ _ (decides_again 4 _ (by decide +kernel) (decides_again 3 _ (by decide +kernel)
      (decides_again 2 _ (by decide +kernel) (decides_waits 1 _ (by decide +kernel)))))
  · refine ⟨_, .inl ⟨2, _, ⟨rfl, rfl, rfl, sheet 16 0 .picked .unmarked, job, rfl, rfl, by decide +kernel⟩, ?_, rfl⟩, ?_⟩
    · decide +kernel
    · simp

/-- R57: the store that completes the gate of a running job starts its sheets; R114: the waiting request is read. -/
theorem test_bandPutWriteComplete :
    let t := after .bandPutWriteComplete (gateWriting (feeding { port .feeding with wait := .gate } { job with next := 0 }))
    (t.port 2).path.length = 3 ∧ (t.port 2).wait = .path := by decide +kernel

/-- A BAND_SUM of image 5, band 1: a present and an absent band; its read running, the band present and gone since. -/
theorem witness_BandSumReadsOrLosesBand :
    let q : SumRead := { slot := 4, image := 5, band := 1, block := 7 }
    let body : List Byte := byte 4 :: num 2 5 ++ [byte 1]
    let s := asking 0x21 body (spooled (image 6 7))
    let reading (t : State) : State := { asking 0x21 body t with link := { (asking 0x21 body t).link with service := some (.sum q) } }
    s.Takes 0x21 (request 0x21 body) [] ∧ s.job 4 = some job ∧ q.image < job.sheets * job.sides
      ∧ q.band < s.bandsPerSide job.sizeClass
      ∧ s.band 4 5 1 = some (.present q.block 2 { p0 := 4, p1 := 3, p2 := 2, p3 := 1 })
      ∧ (asking 0x21 body (spooled .fresh)).Takes 0x21 (request 0x21 body) [] ∧ (spooled .fresh).bandPresent 4 5 1 = false
      ∧ (reading (spooled .fresh)).link.service = some (.sum q) ∧ (reading (spooled .fresh)).bandPresent 4 5 1 = false
      ∧ (reading (spooled (image 6 7))).link.service = some (.sum q)
      ∧ (reading (spooled (image 6 7))).band 4 5 1 = some (.present q.block 2 { p0 := 4, p1 := 3, p2 := 2, p3 := 1 })
      ∧ (reading (spooled (image 6 7))).image 4 5 = some (image 6 7) :=
  ⟨takes_of _ _ _ (by decide +kernel), rfl, by decide, by decide +kernel, by decide +kernel,
    takes_of _ _ _ (by decide +kernel), by decide +kernel, rfl, by decide +kernel, rfl, by decide +kernel,
    by decide +kernel⟩

/-- A read whose sheet is still in the path, its band present; one whose band is lost, its sheet marked; one whose sheet is
gone, its band lost or present. -/
theorem witness_SpoolReadAnswersEngine :
    let q : BandRead :=
      { tag := 18, back := true, band := 1, slot := 4, image := 5, block := 7, live := true, gone := false }
    let x (q : BandRead) : Port := { port .feeding with path := [sheet 18 2 .picked .superseded], reads := [q] }
    let present (live : Bool) := (spooled (image 6 7)).setPort 2 (x { q with live := live })
    let absent (live : Bool) := (spooled .fresh).setPort 2 (x { q with live := live })
    (∀ live, ((present live).port 2).reads[0]? = some { q with live := live }
        ∧ ((absent live).port 2).reads[0]? = some { q with live := live }
        ∧ (present live).agenda = [] ∧ (absent live).agenda = []
        ∧ (present live).job 4 = some job ∧ (present live).image 4 5 = some (image 6 7)
        ∧ (present live).band 4 5 1 = some (.present q.block 2 { p0 := 4, p1 := 3, p2 := 2, p3 := 1 })
        ∧ (absent live).bandPresent 4 5 1 = false
        ∧ sheetOf ((absent live).port 2).path q.tag = some (sheet 18 2 .picked .superseded))
      ∧ q.gone = false ∧ (sheet 18 2 .picked .superseded).mark ≠ .unmarked := by
  decide +kernel

/-- The slice of 600 ms elapsed at 1,000, and not yet elapsed at 999. -/
theorem witness_SliceExpirySetsFlag :
    let s := feeding (port .draining) job
    s.assignment 2 = some assignment ∧ s.job assignment.slot = some job
      ∧ assignment.slice = some { start := 400, length := 600 } ∧ s.agenda = []
      ∧ 600 ≤ elapsed s.partTime 400 ∧ (s.port 2).state ≠ .feeding ∧ elapsed 999 400 < 600 := by
  refine ⟨rfl, rfl, rfl, rfl, ?_, ?_, ?_⟩ <;> decide +kernel

/-- The slice of a job that runs on a FEEDING port, while a job of its level waits. -/
theorem witness_SliceExpirySetsFlag_feeding :
    let s := twoJobs
    let a : Assignment := { slot := 4, since := 1000, slice := some { start := 1000, length := 30000 } }
    s.assignment 2 = some a ∧ s.job 4 = some jobA ∧ s.agenda = [] ∧ 30000 ≤ elapsed s.partTime 1000
      ∧ (s.port 2).state = .feeding
      ∧ ∃ u, State.Decides 2 5 ((s.setAssignment 2 (some { a with slice := none })).setJob 4 (some { jobA with slice := true }))
          u := by
  refine ⟨rfl, rfl, rfl, by decide +kernel, rfl, ?_⟩
  exact decides_some _ _ (decides_drains 4 _ (by decide +kernel))

/-- A job that waits at a more urgent level than a FEEDING port's job, at its level, and behind it. -/
theorem test_signalled :
    let s (l : Level) := behind { job with state := .queued, level := l }
    (s 2).signalled 4 = [2] ∧ (s 3).signalled 4 = [] ∧ (s 4).signalled 4 = [] := by
  refine ⟨?_, ?_, ?_⟩ <;> decide +kernel

/-- Two READY ports and a QUEUED job: the setup owner's port, a port without owner, the lowest-numbered, and none. -/
theorem witness_ChoicesOfPortAndJob :
    let x : Job := { job with state := .queued }
    let s (a b : Option Slot) : State :=
      let t := (((base.setPort 2 { port .ready with owner := a }).setPort 3 { port .ready with owner := b }).setJob 4
        (some x)).setImages 4 (List.replicate 6 (image 6 7))
      { t with dispatch := { t.dispatch with ready := t.dispatch.ready.set 3 [9, 4] } }
    (s (some 8) (some 4)).choosePort 4 = some 3 ∧ (s (some 8) none).choosePort 4 = some 3
      ∧ (s (some 8) (some 9)).choosePort 4 = some 2 ∧ (jobAt x).choosePort 4 = none
      ∧ (s none none).chooseJob 2 = some 4 ∧ (s none none).chooseJob 5 = none := by
  refine ⟨?_, ?_, ?_, ?_, ?_, ?_⟩ <;> decide +kernel

/-- A port that feeds, for each step of its decision: what that step looks at, with the earlier steps passed. -/
theorem witness_DecisionOrder :
    let s := feeding (port .feeding) job
    let t := s.setImages 4 (List.replicate 6 (image 6 7))
    (s.port 2).state = .feeding ∧ s.assigned 2 = some 4 ∧ s.job 4 = some job
      ∧ ((feeding { port .feeding with held := true } job).port 2).held = true ∧ (s.port 2).held = false
      ∧ (feeding (port .feeding) { job with lossCount := 5 }).job 4 = some { job with lossCount := 5 }
      ∧ job.cancel = false ∧ job.suspend = false ∧ job.lossCount ≠ 5
      ∧ ((leaving (port .feeding) job).account 2).state = .held ∧ (s.account 2).state ≠ .held ∧ (s.account 2).state ≠ .closed
      ∧ (feeding (port .feeding) { job with next := 6 }).job 4 = some { job with next := 6 } ∧ 6 = job.sheets * job.copies
      ∧ job.next ≠ job.sheets * job.copies
      ∧ loadedWith [trayItem 0 5 false] job.stock = false ∧ loadedWith (s.port 2).trays job.stock = true
      ∧ (∀ (l : Level) (i : Slot), l < job.level → i ∈ s.readyAt l → s.eligibleIgnoring i 2 = false) ∧ job.slice = false
      ∧ s.meter.policy = .stall ∧ s.meter.log.length + s.meter.reservations < 256
      ∧ s.gateMet 4 job.next = false ∧ t.gateMet 4 job.next = true ∧ (t.port 2).path.length < (t.port 2).depth
      ∧ (s.port 2).depth ≤ (List.replicate 3 (sheet 1 0 .started .unmarked)).length := by
  refine ⟨rfl, rfl, rfl, rfl, rfl, rfl, rfl, rfl, ?_, ?_, ?_, ?_, rfl, rfl, ?_, ?_, ?_, ?_, rfl, rfl, ?_, ?_, ?_, ?_, ?_⟩
    <;> decide +kernel

/-- The more urgent job of the boundary test: job 5 at level 0, with its gate met. -/
theorem witness_DecisionOrder_urgent :
    let s := (((feeding (port .feeding) job).setJob 5 (some { job with state := .queued, level := 0 })).setImages 5
      (List.replicate 6 (image 6 7)))
    let s : State := { s with dispatch := { s.dispatch with ready := s.dispatch.ready.set 0 [5] } }
    ∃ (l : Level) (i : Slot), l < job.level ∧ i ∈ s.readyAt l ∧ s.eligibleIgnoring i 2 = true :=
  ⟨0, 5, by decide, by decide +kernel, by decide +kernel⟩

/-- The SLICE flag set: with job 5 waiting at the same level, and with none waiting. -/
theorem witness_DecisionOrder_slice :
    let s := (((feeding (port .feeding) { job with slice := true }).setJob 5 (some { job with state := .queued })).setImages 5
      (List.replicate 6 (image 6 7)))
    let w : State := { s with dispatch := { s.dispatch with ready := s.dispatch.ready.set 3 [5] } }
    s.assignment 2 = some assignment ∧ s.job 4 = some { job with slice := true }
      ∧ (∀ (l : Level) (i : Slot), l ≤ job.level → i ∈ s.readyAt l → s.eligibleIgnoring i 2 = false)
      ∧ (∀ (l : Level) (i : Slot), l < job.level → i ∈ w.readyAt l → w.eligibleIgnoring i 2 = false)
      ∧ (∃ (l : Level) (i : Slot), l ≤ job.level ∧ i ∈ w.readyAt l ∧ w.eligibleIgnoring i 2 = true) :=
  ⟨rfl, rfl, by decide +kernel, by decide +kernel, 3, 5, by decide, by decide +kernel, by decide +kernel⟩

theorem witness_AssignmentBegins :
    let s (x : Port) := (portAt x).setJob 4 (some { job with state := .queued })
    (s (port .ready)).job 4 = some { job with state := .queued } ∧ ((s (port .ready)).port 2).state = .ready
      ∧ ((s (port .ready)).port 2).owner = some 4
      ∧ ((s { port .ready with owner := some 9 }).port 2).owner ≠ some 4 := by
  refine ⟨rfl, rfl, rfl, ?_⟩; decide +kernel

/-- A job that leaves for each of the states it can enter: its count, its flags, its account and its stock. -/
theorem witness_LeavingGoesByOrder :
    let s (x : Job) := feeding (port .draining) x
    let bare := feeding { port .draining with trays := [] } job
    base.assignment 2 = none ∧ (∀ x, (s x).assignment 2 = some assignment) ∧ (∀ x, (s x).job assignment.slot = some x)
      ∧ ({ job with good := 6 } : Job).good = job.sheets * job.copies ∧ job.good ≠ job.sheets * job.copies
      ∧ ({ job with lossCount := 5 } : Job).lossCount = 5 ∧ job.lossCount ≠ 5 ∧ job.cancel = false ∧ job.suspend = false
      ∧ ((leaving (port .draining) job).account 2).state = .held ∧ ((s job).account 2).state = .opened
      ∧ (s job).stockPresent job.stock = true ∧ bare.stockPresent job.stock = false
      ∧ bare.assignment 2 = some assignment ∧ bare.job assignment.slot = some job ∧ job.state = .running := by
  refine ⟨rfl, fun _ => rfl, fun _ => rfl, ?_⟩; decide +kernel

/-! ## Witnesses: engine ports -/

/-- A part that is STARTING, a port that is READY, an ABSENT and a LOST port, all four sense readings. -/
theorem witness_LineSignalReturns :
    let s (st : PortState) := portAt { port st with signal := false }
    (s .ready).agenda = [] ∧ ((s .ready).port 2).signal = false ∧ ((s .ready).port 2).state ≠ .absent
      ∧ ((s .ready).port 2).state ≠ .lost ∧ State.reset.spool.startUp = .starting ∧ (State.reset.port 2).signal = false
      ∧ (s .lost).spool.startUp ≠ .starting ∧ ((s .lost).port 2).state = .lost ∧ ((s .absent).port 2).state = .absent
      ∧ (((0 : Sense) = 0 ∧ PortClass.sheet = .sheet) ∨ ((0 : Sense) = 1 ∧ PortClass.sheet = .roll))
      ∧ (((1 : Sense) = 0 ∧ PortClass.roll = .sheet) ∨ ((1 : Sense) = 1 ∧ PortClass.roll = .roll)) := by
  refine ⟨rfl, rfl, ?_, ?_, rfl, rfl, ?_, rfl, rfl, ?_, ?_⟩ <;> decide +kernel

/-- Every state that the loss of the line can find, the job of SETUP and STOPPED on a HELD account. -/
theorem witness_LineSignalLost :
    let loop : LoopTest := { count := 5, awaited := 3, returned := 2, timer := { start := 990, length := 20 } }
    (portAt (port .lost)).agenda = [] ∧ ((portAt (port .lost)).port 2).unplugged.state = .lost
      ∧ ((portAt (port .probing)).port 2).unplugged.state = .probing
      ∧ ((portAt { port .loopback with loop := some loop }).port 2).unplugged.state = .loopback
      ∧ ((portAt { port .loopback with loop := some loop }).port 2).unplugged.loop = some loop
      ∧ ((portAt (port .loopback)).port 2).unplugged.state = .loopback
      ∧ ((portAt (port .loopback)).port 2).unplugged.loop = none
      ∧ ((portAt (port .ready)).port 2).unplugged.state = .ready ∧ (portAt (port .ready)).noneReady
      ∧ ((portAt (port .ready)).alert 2).causes.linkLost = false
      ∧ ((leaving (port .setup) job).port 2).unplugged.state = .setup ∧ (leaving (port .setup) job).LeavesHeld 2 assignment job
      ∧ (leaving (port .setup) job).noneReady ∧ ((leaving (port .setup) job).alert 2).causes.linkLost = false
      ∧ ((leaving (port .stopped) job).port 2).unplugged.state = .stopped
      ∧ ((leaving (port .stopped) job).port 2).unplugged.path = []
      ∧ (leaving (port .stopped) job).LeavesHeld 2 assignment job :=
  ⟨rfl, rfl, rfl, rfl, rfl, rfl, rfl, rfl, by unfold State.noneReady; decide +kernel, rfl, rfl,
    leaves_of _ _ (by decide +kernel), by unfold State.noneReady; decide +kernel, rfl, rfl, rfl,
    leaves_of _ _ (by decide +kernel)⟩

/-- A port with sheets in its path, its line lost: what the settling of the sheets leaves. -/
theorem witness_LineSignalLost_sheets :
    ∀ st ∈ [PortState.feeding, .draining, .stopped],
    let s := loaded st
    let x := (s.port 2).unplugged
    let lost : Port := { x.emptied .lost s.partTime with
      request := none, gateTimer := none, wait := .none, owner := none, receiver := .hunting, drain := none
      destination := none
      counters := { x.counters with linkLosses := min (x.counters.linkLosses + 1) 4294967295 } }
    let u := ((s.setPort 2 { lost with drain := x.drain, destination := x.destination }).notifyPort 2 x.state
      (.state (s.assigned 2))).settleSheets 2 (x.path.map (fun z => (z, abandonedOutcome z)))
    s.agenda = [] ∧ x.state = st ∧ s.noneReady ∧ x.path ≠ [] ∧ u.agenda = [] ∧ (∃ a y, u.LeavesHeld 2 a y)
      ∧ (u.alert 2).causes.linkLost = false := by
  intro st h
  refine ⟨rfl, rfl, ?_, ?_, ?_, leaves_some _ _ ?_, ?_⟩
  · unfold State.noneReady; revert st; decide +kernel
  all_goals revert st; decide +kernel

/-- PROBE 0 awaited, its timer at 20 and at 19 ms; a loop test of 0 and of 255 frames; its frame 3 of 5 and 5 of 5. -/
theorem witness_ProbingAndLoopTest :
    let k (awaited : Nat) : LoopTest := { count := 5, awaited := awaited, returned := 2, timer := { start := 980, length := 20 } }
    let probing := portAt { port .probing with probeTimer := some { start := 980, length := 20 } }
    let looping (n : Nat) := portAt { port .loopback with loop := some (k n) }
    (probing.port 2).state = .probing ∧ probing.Hears 2 ∧ (List.replicate 16 (1#8)).length = 16
      ∧ List.replicate 16 (1#8) ≠ probePattern ∧ (probing.port 2).probeTimer = some { start := 980, length := 20 }
      ∧ 20 ≤ elapsed 1000 980 ∧ elapsed 999 980 < 20
      ∧ (asking 0x34 [byte 2, 0] probing).Takes 0x34 (request 0x34 [byte 2, 0]) []
      ∧ (asking 0x34 [byte 2, 255] probing).Takes 0x34 (request 0x34 [byte 2, 255]) []
      ∧ (probing.port 2).state ≠ .loopback
      ∧ (asking 0x34 [byte 2, 255] (portAt (port .loopback))).Takes 0x34 (request 0x34 [byte 2, 255]) []
      ∧ ((portAt (port .loopback)).port 2).state = .loopback ∧ ((portAt (port .loopback)).port 2).loop = none
      ∧ (looping 3).Hears 2 ∧ ((looping 3).port 2).loop = some (k 3) ∧ (k 3).count ≤ 255 ∧ (k 3).awaited < (k 3).count
      ∧ (looping 5).Hears 2 ∧ (k 5).awaited = (k 5).count :=
  ⟨rfl, hears_of _ _ (by decide +kernel), rfl, by decide, rfl, by decide, by decide, takes_of _ _ _ (by decide +kernel),
    takes_of _ _ _ (by decide +kernel), by decide +kernel, takes_of _ _ _ (by decide +kernel), rfl, rfl,
    hears_of _ _ (by decide +kernel), rfl, by decide, by decide, hears_of _ _ (by decide +kernel), rfl⟩

/-- Depths 0 and 5, no tray and 7, tray number 6, number 0 twice, LOADED with stock 0, and one that passes with depth 4. -/
theorem witness_IdentityJudged :
    let s := portAt (port .identifying)
    let c (depth : Byte) (trays : List TrayItem) : EngineIdentity :=
      { colour := true, duplex := false, depth := depth, classes := 0xFFFF, reject := true, trays := trays }
    let good := (c 4 ((List.range 6).map (fun n => trayItem n 5 true)))
    s.Hears 2 ∧ (s.port 2).state = .identifying ∧ s.noneReady ∧ s.dispatch.stockWait = []
      ∧ (c 0 []).depth.toNat < 1 ∧ 4 < (c 5 []).depth.toNat ∧ (c 1 []).trays = []
      ∧ 6 < (c 1 (List.replicate 7 (trayItem 0 5 true))).trays.length ∧ 5 < (trayItem 6 5 true).number.toNat
      ∧ ¬ ([trayItem 0 5 true, trayItem 0 6 true].map (·.number)).Nodup
      ∧ (trayItem 5 0 true).loaded = true ∧ (trayItem 5 0 true).stock = 0
      ∧ ¬ (good.depth.toNat < 1 ∨ 4 < good.depth.toNat) ∧ ¬ (good.trays = [] ∨ 6 < good.trays.length)
      ∧ ¬ ((∃ t ∈ good.trays, 5 < t.number.toNat) ∨ ¬ (good.trays.map (·.number)).Nodup)
      ∧ ¬ (∃ t ∈ good.trays, t.loaded = true ∧ t.stock = 0) :=
  ⟨hears_of _ _ (by decide +kernel), rfl, by unfold State.noneReady; decide +kernel, rfl, by decide, by decide, rfl,
    by decide, by decide, by decide, rfl, rfl, by decide +kernel, by decide +kernel, by decide +kernel, by decide +kernel⟩

theorem witness_SetupDoneFeeds :
    let s := feeding (port .setup) job
    s.Hears 2 ∧ ((portAt (port .ready)).port 2).state ≠ .setup ∧ (portAt (port .ready)).Hears 2
      ∧ (s.port 2).state = .setup ∧ s.assigned 2 = some 4 ∧ s.job 4 = some job ∧ (s.port 2).held = false
      ∧ job.cancel = false ∧ job.suspend = false ∧ job.slice = false ∧ job.lossCount ≠ 5
      ∧ (s.account job.account).state.stops = false ∧ job.next ≠ job.sheets * job.copies
      ∧ loadedWith (s.port 2).trays job.stock = true ∧ s.noneReady
      ∧ s.meter.log.length + s.meter.reservations < 256 ∧ s.gateMet 4 job.next = false ∧ (s.port 2).gateWait ≠ 0
      ∧ (s.port 2).gateTimer = none :=
  ⟨hears_of _ _ (by decide +kernel), by decide +kernel, hears_of _ _ (by decide +kernel), rfl, rfl, rfl, rfl, rfl, rfl, rfl,
    by decide, by decide +kernel, by decide, by decide +kernel, by unfold State.noneReady; decide +kernel,
    by decide +kernel, by decide +kernel, by decide +kernel, rfl⟩

/-- The setup timer at 5,000 ms and at 4,999. -/
theorem witness_SetupFails :
    let x : Port := { port .setup with setupTimer := some { start := 0, length := 5000 } }
    let s : State := { leaving x job with partTime := 5000 }
    (leaving x job).Hears 2 ∧ ((leaving x job).port 2).state = .setup ∧ (leaving x job).LeavesHeld 2 assignment job
      ∧ (leaving x job).noneReady ∧ (portAt (port .ready)).Hears 2 ∧ ((portAt (port .ready)).port 2).state ≠ .setup
      ∧ s.agenda = [] ∧ (s.port 2).setupTimer = some { start := 0, length := 5000 } ∧ 5000 ≤ elapsed s.partTime 0
      ∧ elapsed 4999 0 < 5000 ∧ s.LeavesHeld 2 assignment job ∧ s.noneReady :=
  ⟨hears_of _ _ (by decide +kernel), rfl, leaves_of _ _ (by decide +kernel), by unfold State.noneReady; decide +kernel,
    hears_of _ _ (by decide +kernel), by decide +kernel, rfl, rfl, by decide +kernel, by decide,
    ⟨rfl, rfl, rfl, by decide, by decide, rfl, rfl, by decide +kernel⟩, by unfold State.noneReady; decide +kernel⟩

/-- An ignored TRAY of each kind, a tray emptied in READY, the last tray of the job's stock, a stock that a job waits for. -/
theorem witness_TrayChangesTable :
    let ready := (portAt (port .ready))
    let setup := feeding (port .setup) job
    let waits : State := { ((portAt (port .stopped)).setJob 4 (some { job with state := .stockwait, stock := 6 })) with
      dispatch := { base.dispatch with stockWait := [4] } }
    ready.Hears 2 ∧ PortState.takesTray .identifying = false ∧ (portAt (port .identifying)).Hears 2
      ∧ (trayItem 0 0 true).loaded = true ∧ (trayItem 0 0 true).stock = 0
      ∧ (ready.port 2).trays.find? (fun t => t.number = (trayItem 5 5 true).number) = none
      ∧ (ready.port 2).trays.find? (fun t => t.number = (trayItem 0 5 true).number) = some (trayItem 0 5 true)
      ∧ trayItem 0 5 true ≠ trayItem 0 5 false ∧ ready.noneReady ∧ ready.assigned 2 = none ∧ ready.dispatch.stockWait = []
      ∧ setup.Hears 2 ∧ setup.assigned 2 = some 4 ∧ setup.job 4 = some job ∧ setup.noneReady
      ∧ loadedWith (setup.port 2).trays job.stock = true
      ∧ loadedWith ((setup.port 2).trays.map (fun t => if t.number = (trayItem 0 5 false).number then trayItem 0 5 false else t))
          job.stock = false
      ∧ waits.Hears 2 ∧ waits.assigned 2 = none ∧ waits.dispatch.stockWait = [4] ∧ waits.noneReady
      ∧ (waits.port 2).trays.find? (fun t => t.number = (trayItem 1 6 true).number) = some (trayItem 1 6 false)
      ∧ (trayItem 1 6 true).stock = 6 ∧ waits.noPortToChoose :=
  ⟨hears_of _ _ (by decide +kernel), rfl, hears_of _ _ (by decide +kernel), rfl, rfl, by decide +kernel, by decide +kernel,
    by decide, by unfold State.noneReady; decide +kernel, rfl, rfl, hears_of _ _ (by decide +kernel), rfl, rfl,
    by unfold State.noneReady; decide +kernel, by decide +kernel, by decide +kernel, hears_of _ _ (by decide +kernel), rfl,
    rfl, by unfold State.noneReady; decide +kernel, by decide +kernel, rfl, by unfold State.noPortToChoose; decide +kernel⟩

/-- The last tray of stock 5 emptied at a READY port; stock 9 held by no port, with three of its jobs and one of stock 5 QUEUED
at two levels and one more waiting for stock; stock 9 with one job QUEUED. -/
theorem witness_TrayChangesTable_stockLost :
    let q (l : Level) (stock : Byte) : Job := { job with state := .queued, level := l, stock := stock }
    let jobs := ((((portAt (port .ready)).setJob 4 (some (q 3 9))).setJob 5 (some (q 1 9))).setJob 6 (some (q 3 5))).setJob 7
      (some { q 3 9 with state := .stockwait })
    let s (l3 : List Slot) : State := { (jobs.setJob 8 (some (q 3 9))) with dispatch := { jobs.dispatch with
      ready := (jobs.dispatch.ready.set 1 [5]).set 3 l3, stockWait := [7] } }
    let one : State := { jobs with dispatch := { jobs.dispatch with ready := jobs.dispatch.ready.set 1 [5] } }
    let goes (u : State) (j : Slot) : Bool := (u.job j).any (fun y => y.stock = 9)
    let x := ((s []).port 2).heard (s []).partTime
    (x.trays.find? (fun t => t.number = (trayItem 0 5 false).number) = some (trayItem 0 5 true) ∧ x.state = .ready
        ∧ (s []).assigned 2 = none ∧ (s []).Hears 2)
      ∧ (∀ p : PortNo, ∀ k ∈ ((s []).port p).trays, k.loaded = true → k.stock ≠ 9)
      ∧ (∃ k ∈ ((s []).port 2).trays, k.loaded = true ∧ k.stock = 5)
      ∧ (∀ (l : Level) (j : Slot), j ∈ (s [8, 6, 4]).readyAt l →
        ((s [8, 6, 4]).job j).map (fun y => (y.level, y.state)) = some (l, .queued))
      ∧ (∀ l : Level, ((s [8, 6, 4]).readyAt l).Nodup)
      ∧ (∀ l : Level, ∀ j ∈ (s [8, 6, 4]).readyAt l, j ∉ (s [8, 6, 4]).dispatch.stockWait)
      ∧ (s [8, 6, 4]).dispatch.stockWait.Pairwise (fun i j => (s [8, 6, 4]).levelOf i ≤ (s [8, 6, 4]).levelOf j)
      ∧ (s [8, 6, 4]).readyOrder.filter (goes (s [8, 6, 4])) = [5, 8, 4] ∧ one.readyOrder.filter (goes one) = [5]
      ∧ one.job 5 = some (q 1 9) := by
  refine ⟨⟨?_, rfl, rfl, hears_of _ _ (by decide +kernel)⟩, ?_⟩ <;> decide +kernel

/-- A held port, one that feeds with a sheet in its path, and a READY one that a waiting job can take. -/
theorem witness_HoldAndRelease :
    let s (k : Byte) (x : Port) := asking k [byte 2] (feeding x job)
    let fed : Port := { port .feeding with path := [sheet 1 0 .started .unmarked] }
    let free : State := (((portAt { port .ready with held := true, owner := none }).setJob 4
      (some { job with state := .queued })).setImages 4 (List.replicate 6 (image 6 7)))
    let waits : State := asking 0x31 [byte 2] { free with dispatch := { free.dispatch with ready := free.dispatch.ready.set 3 [4] } }
    (s 0x30 { port .setup with held := true }).Takes 0x30 (request 0x30 [byte 2]) []
      ∧ (s 0x30 (port .setup)).Takes 0x30 (request 0x30 [byte 2]) [] ∧ (s 0x30 fed).Takes 0x30 (request 0x30 [byte 2]) []
      ∧ ((s 0x30 fed).port 2).held = false ∧ ((s 0x30 fed).port 2).state = .feeding ∧ (s 0x30 fed).assigned 2 = some 4
      ∧ (s 0x30 fed).job 4 = some job ∧ ((s 0x30 fed).port 2).path ≠ []
      ∧ (s 0x31 fed).Takes 0x31 (request 0x31 [byte 2]) []
      ∧ (s 0x31 { port .setup with held := true }).Takes 0x31 (request 0x31 [byte 2]) []
      ∧ waits.Takes 0x31 (request 0x31 [byte 2]) [] ∧ (waits.port 2).held = true ∧ (waits.port 2).state = .ready
      ∧ waits.assignment 2 = none
      ∧ ((waits.setPort 2 { waits.port 2 with held := false }).notifyPort 2 .ready .hold).chooseJob 2 = some 4
      ∧ waits.job 4 = some { job with state := .queued } ∧ (waits.port 2).owner ≠ some 4 :=
  ⟨takes_of _ _ _ (by decide +kernel), takes_of _ _ _ (by decide +kernel), takes_of _ _ _ (by decide +kernel), rfl, rfl, rfl,
    rfl, by decide +kernel, takes_of _ _ _ (by decide +kernel), takes_of _ _ _ (by decide +kernel),
    takes_of _ _ _ (by decide +kernel), rfl, rfl, rfl, by decide +kernel, rfl, by decide +kernel⟩

theorem witness_PortResetEmptiesPort :
    let s := asking 0x32 [byte 2] (leaving (port .setup) job)
    (asking 0x32 [byte 2] (portAt (port .ready))).Takes 0x32 (request 0x32 [byte 2]) []
      ∧ (portAt (port .ready)).noneReady ∧ ((portAt (port .ready)).port 2).path = []
      ∧ (portAt (port .ready)).assignment 2 = none
      ∧ s.Takes 0x32 (request 0x32 [byte 2]) [] ∧ s.noneReady ∧ (s.port 2).path = [] ∧ s.LeavesHeld 2 assignment job :=
  ⟨takes_of _ _ _ (by decide +kernel), by unfold State.noneReady; decide +kernel, rfl, rfl,
    takes_of _ _ _ (by decide +kernel), by unfold State.noneReady; decide +kernel, rfl,
    ⟨rfl, rfl, rfl, by decide, by decide, rfl, rfl, by decide +kernel⟩⟩

/-- A port with sheets in its path: what the settling of the sheets leaves. -/
theorem witness_PortResetEmptiesPort_sheets :
    ∀ st ∈ [PortState.feeding, .draining, .stopped],
    let s := asking 0x32 [byte 2] (loaded st)
    let x := s.port 2
    let u := (s.setPort 2 { x with
        loop := none, setupTimer := none, probeTimer := none, gateTimer := none, request := none
        state := .lost }).settleSheets 2 (x.path.map (fun z => (z, abandonedOutcome z)))
    let v := u.setPort 2 { u.port 2 with state := x.state }
    s.Takes 0x32 (request 0x32 [byte 2]) [] ∧ s.noneReady ∧ x.path ≠ [] ∧ u.agenda = [] ∧ (∃ a y, v.LeavesHeld 2 a y)
      ∧ v.noneReady := by
  intro st h
  refine ⟨takes_of _ _ _ ?_, ?_, ?_, ?_, leaves_some _ _ ?_, ?_⟩ <;> try unfold State.noneReady
  all_goals revert st; decide +kernel

/-- A STOP of zone 8 with the greatest list. -/
theorem witness_PressFrameIsReceived :
    let items := List.replicate 255 ({ tag := 255, disposition := .stranded } : StopItem)
    pressMessage (.stop 2 (.jam 8) items) = some (2, .stop (.jam 8) items) ∧ (PressIn.stop (.jam 8) items).fits = true
      ∧ (portAt (port .ready)).Hears 2 := by
  exact ⟨rfl, by decide +kernel, hears_of _ _ (by decide +kernel)⟩

theorem witness_PressReceiver :
    let s := portAt (port .ready)
    let midway (last : Word32) := portAt { port .ready with receiver := { rx := .header [], last := last } }
    let deaf := portAt { port .ready with signal := false }
    let sending (l : List PressOut) := portAt { port .ready with sending := some .hello, outQueue := l }
    s.agenda = [] ∧ s.Hears 2 ∧ 0xC3#8 ∉ [0xA5#8, 0x5A] ∧ (0 < 1 ∨ 16388 < 0) ∧ (16389 < 1 ∨ 16388 < 16389)
      ∧ [0x00#8, 0x00] ≠ word16 (crc (num 2 1 ++ [0x82])) ∧ readPress 0x82 [1] = none ∧ readPress 0x02 [] = some .foreign
      ∧ (midway 949).hears 2 = true ∧ ((midway 949).port 2).receiver.rx.midFrame = true ∧ 50 < elapsed 1000 949
      ∧ elapsed 1000 950 ≤ 50 ∧ deaf.hears 2 = false ∧ ((sending []).port 2).sending = some .hello
      ∧ ((sending []).port 2).outQueue = [] ∧ ((sending [.divert 1]).port 2).outQueue = .divert 1 :: [] := by
  refine ⟨rfl, hears_of _ _ (by decide +kernel), ?_, ?_, ?_, ?_, ?_, ?_, ?_, ?_, ?_, ?_, ?_, rfl, rfl, rfl⟩
    <;> decide +kernel

/-! ## Witnesses: feeding and the paper path -/

/-- The gate wait timer counting, stopped with a setting and stopped with 0; its expiry at 1,000 of 1,000 ms and of 1,001. -/
theorem witness_GateWaitStartsAndExpires :
    let x (n : Nat) : Port := { port .feeding with wait := .gate, gateTimer := some { start := 0, length := n } }
    let s := feeding { x 1000 with path := [sheet 1 0 .started .unmarked] } job
    (s.port 2).gateTimer ≠ none ∧ ((feeding (port .feeding) job).port 2).gateTimer = none
      ∧ ((feeding (port .feeding) job).port 2).gateWait ≠ 0
      ∧ ((feeding { port .feeding with gateWait := 0 } job).port 2).gateWait = 0 ∧ s.agenda = []
      ∧ (base.port 2).state ≠ .feeding ∧ (s.port 2).state = .feeding ∧ (s.port 2).wait = .gate
      ∧ (s.port 2).gateTimer = some { start := 0, length := 1000 } ∧ 1000 ≤ elapsed s.partTime 0 ∧ (s.port 2).path ≠ []
      ∧ ((feeding (x 1001) job).port 2).gateTimer = some { start := 0, length := 1001 } ∧ elapsed base.partTime 0 < 1001
      ∧ ((leaving (x 1000) job).port 2).path = [] ∧ (leaving (x 1000) job).LeavesHeld 2 assignment job
      ∧ (leaving (x 1000) job).noneReady :=
  ⟨by decide +kernel, rfl, by decide +kernel, rfl, rfl, by decide +kernel, rfl, rfl, rfl, by decide +kernel,
    by decide +kernel, rfl, by decide +kernel, rfl, leaves_of _ _ (by decide +kernel),
    by unfold State.noneReady; decide +kernel⟩

/-- Two trays of the stock and an empty one below them. -/
theorem witness_SheetStarts :
    let trays := [trayItem 3 5 true, trayItem 1 5 true, trayItem 0 5 false]
    let s := feeding { port .feeding with trays := trays } job
    trayItem 1 5 true ∈ (s.port 2).trays ∧ (trayItem 1 5 true).loaded = true ∧ (trayItem 1 5 true).stock = job.stock
      ∧ (∀ u ∈ (s.port 2).trays, u.loaded = true → u.stock = job.stock →
        (trayItem 1 5 true).number.toNat ≤ u.number.toNat) := by
  refine ⟨?_, ?_, ?_, ?_⟩ <;> decide +kernel

/-- A queue in the order of R121, with room: tag 14 superseded ahead of tags 15 and 16, which hold ordinals 0 and 1. -/
def ordered : Port :=
  { port .feeding with
    path := [sheet 14 1 .picked .superseded, sheet 15 0 .picked .unmarked, sheet 16 1 .started .unmarked] }

theorem witness_SheetStarts_ordered :
    let x : Job := { job with next := 2 }
    let s := feeding ordered x
    trayItem 0 5 true ∈ (s.port 2).trays ∧ (trayItem 0 5 true).stock = x.stock
      ∧ (∀ u ∈ (s.port 2).trays, u.loaded = true → u.stock = x.stock → (trayItem 0 5 true).number.toNat ≤ u.number.toNat)
      ∧ (s.port 2).InOrder x ∧ (s.port 2).path.length < 4 ∧ x.next < x.sheets * x.copies
      ∧ sheetOf (s.port 2).path 15 = some (sheet 15 0 .picked .unmarked) ∧ s.assigned 2 = some 4 ∧ s.job 4 = some x := by
  refine ⟨?_, ?_, ?_, ⟨?_, ?_, ?_, ?_⟩, ?_⟩ <;> decide +kernel

/-- A port STOPPED with a job of six images: image 0 whole, image 1 with band 0 lost and band 1 not sent. Tag 10 is unmarked,
tag 12 superseded; ordinal 0 prints images 0 and 1. -/
def wanting (x : Port) : State :=
  (feeding { x with path := [sheet 10 0 .picked .unmarked, sheet 12 0 .started .superseded] } job).setImages 4
    (image 6 7 :: { ImageRec.fresh with lost := 1, bands := [(0, .lost)] } :: List.replicate 4 .fresh)

/-- A request that waits for tag 10. -/
def waiting : BandRequest := { tag := 10, back := true, band := 1, timer := { start := 960, length := 40 } }

theorem witness_WantAnswered :
    let s := wanting (port .stopped)
    s.Hears 2 ∧ (s.port 2).state.follows = true ∧ PortState.follows .ready = false ∧ (portAt (port .ready)).Hears 2
      ∧ sheetOf (s.port 2).path 99 = none ∧ s.assigned 2 = some 4 ∧ s.job 4 = some job ∧ job.sides = 2
      ∧ ({ job with sides := 1 } : Job).sides ≠ 2 ∧ s.bandsPerSide job.sizeClass ≤ (2#8).toNat
      ∧ (1#8).toNat < s.bandsPerSide job.sizeClass
      ∧ sheetOf (s.port 2).path 10 = some (sheet 10 0 .picked .unmarked)
      ∧ sheetOf (s.port 2).path 12 = some (sheet 12 0 .started .superseded)
      ∧ (∃ length counts, s.band 4 ((0 % job.sheets) * job.sides + 0) 1 = some (.present 7 length counts))
      ∧ (s.port 2).request = none
      ∧ ((wanting { port .stopped with request := some waiting }).port 2).request = some waiting
      ∧ s.band 4 ((0 % job.sheets) * job.sides + 1) 1 = none ∧ (s.port 2).grace ≠ 0
      ∧ s.bandPresent 4 ((0 % job.sheets) * job.sides + 1) 1 = false ∧ (sheet 12 0 .started .superseded).mark ≠ .unmarked
      ∧ s.band 4 ((0 % job.sheets) * job.sides + 1) 0 = some .lost
      ∧ ((wanting { port .stopped with grace := 0 }).port 2).grace = 0 :=
  ⟨hears_of _ _ (by decide +kernel), rfl, rfl, hears_of _ _ (by decide +kernel), by decide +kernel, rfl, rfl, rfl,
    by decide, by decide +kernel, by decide +kernel, by decide +kernel, by decide +kernel, ⟨_, _, rfl⟩, rfl, rfl,
    by decide +kernel, by decide +kernel, by decide +kernel, by decide, by decide +kernel, rfl⟩

/-- An unmarked and a marked sheet; the grace of 40 ms elapsed at 1,000, and not yet at 999. -/
theorem witness_SpoilMarksAndRewinds :
    let s := wanting { port .draining with drain := some .endOfJob, destination := some .head, request := some waiting }
    sheetOf (s.port 2).path 10 = some (sheet 10 0 .picked .unmarked)
      ∧ sheetOf (s.port 2).path 12 = some (sheet 12 0 .started .superseded)
      ∧ (sheet 12 0 .started .superseded).mark ≠ .unmarked ∧ (sheet 10 0 .picked .unmarked).mark = .unmarked
      ∧ s.assigned 2 = some 4 ∧ s.job 4 = some job ∧ s.agenda = [] ∧ (base.port 2).request = none
      ∧ (s.port 2).request = some waiting ∧ waiting.timer.length ≤ elapsed s.partTime waiting.timer.start
      ∧ elapsed 999 waiting.timer.start < waiting.timer.length :=
  ⟨by decide +kernel, by decide +kernel, by decide, rfl, rfl, rfl, rfl, rfl, rfl, by decide +kernel, by decide⟩

/-- Sheets settled by one event: none lost, and two lost with the lower ordinal second. -/
theorem witness_SpoilMarksAndRewinds_settled :
    let s := wanting (port .draining)
    let marked := [(sheet 12 0 .started .superseded, Outcome1.withdrawn), (sheet 10 0 .picked .unmarked, .good)]
    let both := [(sheet 12 4 .picked .unmarked, Outcome1.waste .unknown), (sheet 10 2 .started .unmarked, .withdrawn)]
    let lost (l : List (Sheet × Outcome1)) := l.filter (fun e => e.1.mark = .unmarked ∧ e.2 ≠ .good)
    let u := both.foldl (fun t e => t.takeOutcome 2 e.1 e.2) s
    lost marked = [] ∧ (sheet 10 2 .started .unmarked, .withdrawn) ∈ lost both ∧ (∀ f ∈ lost both, 2 ≤ f.1.ordinal)
      ∧ u.assigned 2 = some 4 ∧ (u.job 4).isSome = true := by
  decide +kernel

theorem witness_PickedMarksSheet :
    let s := wanting (port .feeding)
    s.Hears 2 ∧ (s.port 2).state = .feeding ∧ sheetOf (s.port 2).path 99 = none ∧ (portAt (port .ready)).Hears 2
      ∧ ((portAt (port .ready)).port 2).state = .ready
      ∧ (∀ i ∈ [({ tag := 99, disposition := .finish } : StopItem)], i.tag ≠ (sheet 10 0 .picked .unmarked).tag)
      ∧ (sheet 10 0 .picked .unmarked).state = .picked ∧ (sheet 12 0 .started .superseded).state = .started :=
  ⟨hears_of _ _ (by decide +kernel), rfl, by decide +kernel, hears_of _ _ (by decide +kernel), rfl, by decide, rfl, rfl⟩

theorem witness_DeliveredGoodIsCharged :
    let s := wanting (port .draining)
    let charge := s.chargeOf 4 job 0
    let a := s.account 2
    let paid : Account := { a with
      balance := max (-2147483648) (a.balance - charge)
      charged := min (a.charged + charge) 18446744073709551615
      goodSheets := min (a.goodSheets + 1) 4294967295 }
    s.Hears 2 ∧ (s.port 2).state.follows = true ∧ sheetOf (s.port 2).path 99 = none ∧ (portAt (port .ready)).Hears 2
      ∧ PortState.follows .ready = false
      ∧ (s.port 2).path = sheet 10 0 .picked .unmarked :: [sheet 12 0 .started .superseded]
      ∧ (sheet 10 0 .picked .unmarked).mark = .unmarked ∧ (s.port 2).state ≠ .feeding
      ∧ (∀ z ∈ [sheet 12 0 .started .superseded], z.tag ≠ 10) ∧ s.assigned 2 = some 4 ∧ s.job 4 = some job
      ∧ job.good < (job.copies - 1) * job.sheets ∧ a.balance ≤ 2147483647 ∧ paid.watchedTo = paid ∧ 0 < charge
      ∧ s.meter.log.length < 256 ∧ s.meter.log.length ≠ 191 ∧ (s.alert 2).causes.underrun = false :=
  ⟨hears_of _ _ (by decide +kernel), rfl, by decide +kernel, hears_of _ _ (by decide +kernel), rfl, rfl, rfl,
    by decide +kernel, by decide, rfl, rfl, by decide, by decide +kernel, by decide +kernel, by decide +kernel,
    by decide +kernel, by decide +kernel, by decide +kernel⟩

/-- The last sheet of a draining port, GOOD and spoiled: what its outcome leaves. -/
theorem witness_DeliveredGoodIsCharged_drained :
    ∀ e ∈ [(Mark.unmarked, Outcome1.good), (.spoiled .underrun, .waste .underrun), (.spoiled .parity, .waste .parity),
      (.superseded, .waste .superseded)],
    let s := keeping (leaving { port .draining with path := [sheet 10 0 .picked e.1] } job)
    let y := sheet 10 0 .picked e.1
    let u := (s.setPort 2 ((s.port 2).heard s.partTime)).takeOutcome 2 y e.2
    s.Hears 2 ∧ (s.port 2).state.follows = true ∧ (s.port 2).path = [y] ∧ y.tag = 10 ∧ u.agenda = []
      ∧ (u.port 2).state = .draining ∧ (u.port 2).path = [] ∧ (∃ a b, u.LeavesHeld 2 a b) ∧ u.noneReady := by
  intro e h
  refine ⟨hears_of _ _ ?_, rfl, rfl, rfl, ?_, ?_, ?_, leaves_some _ _ ?_, ?_⟩ <;> try unfold State.noneReady
  all_goals revert e; decide +kernel

/-- A delivery of the second sheet that passes the first; job's last copy and an earlier one; a debit that takes an OPEN account
to LOW and to HELD. -/
theorem witness_DeliveredGoodIsCharged_last :
    let s := wanting (port .draining)
    let x := (s.port 2).heard s.partTime
    let u := (s.setPort 2 x).settleSheets 2
      ((x.path.takeWhile (fun z => z.tag ≠ byte 12)).map (fun z => (z, abandonedOutcome z)))
    let told (balance low : Int) : Account :=
      let a : Account := { account with balance := balance, low := low }
      let charge := (s.setAccount 2 a).chargeOf 4 job 0
      Account.watchedTo { a with
        balance := max (-2147483648) (a.balance - charge)
        charged := min (a.charged + charge) 18446744073709551615
        goodSheets := min (a.goodSheets + 1) 4294967295 }
    let last := wanting (port .draining) |>.setJob 4 (some { job with good := 3 })
    x.state.follows = true ∧ sheetOf x.path 12 = some (sheet 12 0 .started .superseded)
      ∧ sheetOf (u.port 2).path 12 = some (sheet 12 0 .started .superseded)
      ∧ s.assigned 2 = some 4 ∧ s.job 4 = some job ∧ job.good < (job.copies - 1) * job.sheets
      ∧ last.assigned 2 = some 4 ∧ last.job 4 = some { job with good := 3 } ∧ (job.copies - 1) * job.sheets ≤ 3
      ∧ last.image 4 ((3 % job.sheets) * job.sides) = some (image 6 7)
      ∧ (s.account 2).state = .opened ∧ (s.account 2).balance ≤ 2147483647 ∧ job.state = .running
      ∧ (told 5000 100).state = .opened ∧ (told 250 100).state = .low ∧ (told 150 100).state = .held := by
  decide +kernel

/-- Run counts 1 and 2, a port that feeds and one that drains, policies STALL and KEEP. -/
theorem witness_WasteAndWithdrawnReported :
    let s (st : PortState) (n : Nat) := wanting { port st with underruns := n }
    (s .draining 1).assigned 2 = some 4 ∧ (s .draining 1).job 4 = some job ∧ (s .draining 1).meter.log.length < 256
      ∧ (s .draining 1).meter.log.length ≠ 191 ∧ ((s .draining 1).port 2).underruns < 2
      ∧ 2 ≤ ((s .draining 2).port 2).underruns ∧ ((s .draining 2).port 2).state ≠ .feeding
      ∧ ((s .feeding 2).port 2).state = .feeding ∧ (s .draining 1).meter.policy = .stall ∧ LogPolicy.keep ≠ .stall := by
  refine ⟨rfl, rfl, ?_, ?_, ?_, ?_, ?_, rfl, rfl, ?_⟩ <;> decide +kernel

/-- A jam in zones 1 and 8, a fault of code 255, at ports in each state that the statement tells apart. -/
theorem witness_StopAndCleared :
    let ready := portAt (port .ready)
    let fed := feeding { port .feeding with path := [sheet 10 0 .picked .unmarked] } job
    let finish := portAt { port .stopped with path := [sheet 10 0 .finish .unmarked] }
    let jam (z : Byte) (k : CauseSet) : CauseSet := if k.jam = none then { k with jam := some z } else k
    let fault (c : Byte) (k : CauseSet) : CauseSet := if k.fault = none then { k with fault := some c } else k
    (∃ zone : Byte, StopReason.jam 8 = .jam zone ∧ 1 ≤ zone.toNat ∧ zone.toNat ≤ 8
        ∧ ∀ k, jam 8 k = if k.jam = none then { k with jam := some zone } else k)
      ∧ (∃ code : Byte, StopReason.fault 255 = .fault code ∧ code ≠ 0
        ∧ ∀ k, fault 255 k = if k.fault = none then { k with fault := some code } else k)
      ∧ (List.replicate 255 ({ tag := 0, disposition := .finish } : StopItem)).length ≤ 255
      ∧ (portAt (port .lost)).Hears 2 ∧ ((portAt (port .lost)).port 2).state = .lost
      ∧ ready.Hears 2 ∧ (ready.port 2).state = .ready ∧ ready.assignment 2 = none
      ∧ (leaving (port .setup) job).Hears 2 ∧ ((leaving (port .setup) job).port 2).path = []
      ∧ (leaving (port .setup) job).LeavesHeld 2 assignment job ∧ (leaving (port .setup) job).noneReady
      ∧ fed.Hears 2 ∧ fed.assignment 2 = some assignment ∧ (fed.port 2).path ≠ []
      ∧ (∀ y ∈ (fed.port 2).path,
        ({ tag := y.tag, disposition := .finish } : StopItem) ∈ [({ tag := 10, disposition := .finish } : StopItem)]
          ∧ ({ tag := y.tag, disposition := .stranded } : StopItem) ∉ [({ tag := 10, disposition := .finish } : StopItem)])
      ∧ (leaving (port .feeding) job).Hears 2 ∧ (leaving (port .feeding) job).LeavesHeld 2 assignment job
      ∧ (leaving (port .feeding) job).noneReady
      ∧ finish.Hears 2 ∧ (finish.port 2).state = .stopped
      ∧ (∀ y ∈ (finish.port 2).path, y.state = .finish
        ∧ ({ tag := y.tag, disposition := .stranded } : StopItem) ∉ [({ tag := 10, disposition := .finish } : StopItem)])
      ∧ (portAt (port .stopped)).Hears 2 ∧ ((portAt (port .stopped)).port 2).path = []
      ∧ (portAt (port .stopped)).assignment 2 = none ∧ (portAt (port .stopped)).noneReady :=
  ⟨⟨8, rfl, by decide, by decide, fun _ => rfl⟩, ⟨255, rfl, by decide, fun _ => rfl⟩, by decide +kernel,
    hears_of _ _ (by decide +kernel), rfl, hears_of _ _ (by decide +kernel), rfl, rfl, hears_of _ _ (by decide +kernel), rfl,
    leaves_of _ _ (by decide +kernel), by unfold State.noneReady; decide +kernel, hears_of _ _ (by decide +kernel), rfl,
    by decide +kernel, by decide +kernel, hears_of _ _ (by decide +kernel), leaves_of _ _ (by decide +kernel),
    by unfold State.noneReady; decide +kernel, hears_of _ _ (by decide +kernel), rfl, by decide +kernel,
    hears_of _ _ (by decide +kernel), rfl, rfl, by unfold State.noneReady; decide +kernel⟩

/-- A jam that leaves a sheet in the path, and one that empties it; CLEARED with a sheet that was to finish. -/
theorem witness_StopAndCleared_sheets :
    (∀ st ∈ [PortState.feeding, .draining, .stopped],
      let s := loaded st
      let x := (s.port 2).heard s.partTime
      let add (k : CauseSet) : CauseSet := if k.jam = none then { k with jam := some 3 } else k
      let kept (items : List StopItem) : Port := { x with
        request := none, state := .stopped, stateTime := s.partTime
        counters := { x.counters with stops := min (x.counters.stops + 1) 4294967295 }
        path := x.path.map (fun z => if stopOutcome items z = none then { z with state := .finish } else z) }
      let v (items : List StopItem) : State :=
        if x.state = .stopped then (s.setPort 2 { kept items with stateTime := x.stateTime }).changeCauses 2 add
        else (((s.setPort 2 { kept items with
          gateTimer := none, wait := .none, drain := none, destination := some .head }).notifyPort 2 x.state
            (.state (some 4))).setAssignment 2 (some { assignment with slice := none })).changeCauses 2 add
      let u (items : List StopItem) : State :=
        (v items).settleSheets 2 (x.path.filterMap (fun z => (stopOutcome items z).map (fun o => (z, o))))
      let finish : List StopItem := [{ tag := 10, disposition := .finish }]
      s.Hears 2 ∧ x.state = st ∧ s.assignment 2 = some assignment ∧ (u finish).agenda = [] ∧ ((u finish).port 2).path ≠ []
        ∧ (u []).agenda = [] ∧ ((u []).port 2).path = [] ∧ (∃ c b, (u []).LeavesHeld 2 c b))
      ∧ (let s := loaded .stopped
        let x := (s.port 2).heard s.partTime
        let u := (s.setPort 2 { x with request := none }).settleSheets 2 (x.path.map (fun z => (z, clearedOutcome z)))
        x.state = .stopped ∧ x.path ≠ [] ∧ u.agenda = [] ∧ (∃ a b, u.LeavesHeld 2 a b) ∧ u.noneReady) := by
  refine ⟨fun st h => ⟨hears_of _ _ ?_, rfl, rfl, ?_, ?_, ?_, ?_, leaves_some _ _ ?_⟩, rfl, ?_, ?_, leaves_some _ _ ?_, ?_⟩
    <;> try unfold State.noneReady
  all_goals first | (revert st; decide +kernel) | decide +kernel

/-! ## Witnesses: the meter unit and the alert relay -/

/-- SIZE_SET at both ends of every range, one step outside each, class 16 and a class in use; TIER_SET at its ends. -/
theorem witness_TablesSet :
    let size (n f sh w b : Nat) : List Byte := byte n :: num 4 f ++ [byte sh, byte w, byte b]
    let tier (n al : Nat) : List Byte :=
      byte n :: num 2 65535 ++ num 2 0 ++ num 2 65535 ++ num 2 1 ++ num 2 65535 ++ num 2 al
    (∀ body ∈ [size 16 1 16 1 1, size 15 1 16 1 1, size 15 1048575 40 255 255, size 15 0 16 1 1, size 15 1048576 16 1 1,
        size 15 1 15 1 1, size 15 1 41 1 1, size 15 1 16 0 1, size 15 1 16 1 0],
      (asking 0x40 body base).Takes 0x40 (request 0x40 body) [])
      ∧ (∀ j x, base.job j = some x → x.state.terminal = true ∨ x.sizeClass ≠ 15)
      ∧ (jobAt job).job 4 = some job ∧ job.state.terminal = false ∧ job.sizeClass = 1
      ∧ (asking 0x40 (size 1 1 16 1 1) (jobAt job)).Takes 0x40 (request 0x40 (size 1 1 16 1 1)) []
      ∧ (∀ body ∈ [tier 4 0, tier 3 1025, tier 3 1024, tier 0 0],
        (asking 0x41 body base).Takes 0x41 (request 0x41 body) []) := by
  refine ⟨fun body h => takes_of _ _ _ ?_, fun j x h => ?_, rfl, rfl, rfl, takes_of _ _ _ (by decide +kernel),
    fun body h => takes_of _ _ _ ?_⟩
  · revert body; decide +kernel
  · have key : ∀ j : Slot, base.job j = none := by decide +kernel
    exact absurd ((key j).symm.trans h) (by simp)
  · revert body; decide +kernel

theorem witness_ChargeStages :
    ({ factor := 1048575, shift := 16, weight := 255, bands := 255 } : SizeClass).Sound
      ∧ ({ base := 65535, rates := { p0 := 65535, p1 := 65535, p2 := 65535, p3 := 65535 }, allowance := 1024 } : Tier).Sound :=
  ⟨⟨by decide, by decide, by decide, by decide⟩, ⟨by decide, by decide, by decide⟩⟩

/-- An account in each state, the ends of the balance's range, an unset tier, a floor at and above the low threshold. -/
theorem witness_AccountRequestsAndWatch :
    let s (st : AccountState) := base.setAccount 2 { account with state := st }
    let set (v l f : Int) (t : Nat) : List Byte := byte 2 :: int32 v ++ int32 l ++ int32 f ++ [byte t]
    let limits (l f : Int) (t : Nat) : List Byte := byte 2 :: int32 l ++ int32 f ++ [byte t]
    (∀ st j x, (s st).job j = some x → x.account ≠ 2)
      ∧ inRange (-2147483648) ∧ inRange 2147483647 ∧ ¬ inRange 2147483648
      ∧ base.meter.tiers[(3 : TierNo)] = none ∧ base.meter.tiers[(1 : TierNo)] ≠ none
      ∧ (∀ st ∈ [AccountState.unset, .opened, .low, .held, .closed],
        (∀ body ∈ [set 5 5 5 3, set 5 4 5 1, set 2147483647 5 5 1, set (-2147483648) 5 5 1],
          (asking 0x50 body (s st)).Takes 0x50 (request 0x50 body) [])
        ∧ (∀ body ∈ [limits 5 5 3, limits 4 5 1, limits 5 5 1], (asking 0x51 body (s st)).Takes 0x51 (request 0x51 body) [])
        ∧ (∀ body ∈ [byte 2 :: int32 (-2147483648), byte 2 :: int32 2147483647],
          (asking 0x52 body (s st)).Takes 0x52 (request 0x52 body) [])
        ∧ (asking 0x53 [byte 2] (s st)).Takes 0x53 (request 0x53 [byte 2]) []
        ∧ ((s st).account 2).state = st) := by
  refine ⟨fun st j x h => ?_, by decide, by decide, by decide, by decide +kernel, by decide +kernel, fun st h =>
    ⟨fun body g => takes_of _ _ _ ?_, fun body g => takes_of _ _ _ ?_, fun body g => takes_of _ _ _ ?_,
      takes_of _ _ _ ?_, ?_⟩⟩
  · have key : ∀ j : Slot, base.job j = none := by decide +kernel
    exact absurd ((key j).symm.trans h) (by simp)
  · revert body; revert st; decide +kernel
  · revert body; revert st; decide +kernel
  · revert body; revert st; decide +kernel
  · revert st; decide +kernel
  · revert st; decide +kernel

/-- An account with a QUEUED job that is taken below its floor, or closed, and one HELD or CLOSED with HELD jobs that is taken
back to OPEN; the HELD job with its stock present and not. -/
theorem witness_AccountRequestsAndWatch_jobs :
    let waits (st : AccountState) (x : Job) : State :=
      let s := (base.setPort 2 (port .draining)).setJob 4 (some { x with state := .queued })
      let s := (s.setJob 5 (some { x with state := .held })).setAccount 2 { account with state := st }
      { s with dispatch := { s.dispatch with ready := s.dispatch.ready.set 3 [4] } }
    let limits (l f : Int) : List Byte := byte 2 :: int32 l ++ int32 f ++ [byte 1]
    let credit (v : Int) : List Byte := byte 2 :: int32 v
    let opens : List Byte := byte 2 :: int32 5000 ++ int32 100 ++ int32 0 ++ [byte 1]
    let limited (l f : Int) : Account := Account.watchedTo { account with low := l, floor := f, tier := some 1 }
    let credited (v : Int) : Account :=
      Account.watchedTo { account with balance := max (-2147483648) (min 2147483647 (account.balance + v)) }
    (∀ st x p b, (waits st x).assignedJob p = some b → b.account = 2 → ((waits st x).port p).state ≠ .feeding)
      ∧ (∀ st x, (waits st x).noPortToChoose ∧ (waits st x).meter.tiers[(1 : TierNo)] ≠ none)
      ∧ inRange 6001 ∧ inRange 6000 ∧ inRange (-5001) ∧ inRange 10
      ∧ (∀ st ∈ [AccountState.opened, .low, .held, .closed],
        (∀ body ∈ [limits 6001 6000, limits 100 0],
          (asking 0x51 body (waits st job)).Takes 0x51 (request 0x51 body) [])
        ∧ (∀ body ∈ [credit (-5001), credit 10], (asking 0x52 body (waits st job)).Takes 0x52 (request 0x52 body) [])
        ∧ (asking 0x53 [byte 2] (waits st job)).Takes 0x53 (request 0x53 [byte 2]) []
        ∧ (asking 0x50 opens (waits st job)).Takes 0x50 (request 0x50 opens) []
        ∧ ((waits st job).account 2).state = st)
      ∧ (limited 6001 6000).state = .held ∧ (limited 100 0).state = .opened ∧ (limited 6001 0).state = .low
      ∧ (credited (-5001)).state = .held ∧ (credited 10).state = .opened
      ∧ (waits .held job).job 5 = some { job with state := .held } ∧ (waits .held job).stockPresent job.stock = true
      ∧ (waits .held { job with stock := 9 }).stockPresent 9 = false := by
  refine ⟨fun st x p b h => ?_, fun st x => ⟨?_, ?_⟩, by decide, by decide, by decide, by decide, fun st h =>
    ⟨fun body g => takes_of _ _ _ ?_, fun body g => takes_of _ _ _ ?_, takes_of _ _ _ ?_, takes_of _ _ _ ?_, ?_⟩, ?_⟩
  · have key : ∀ p : PortNo, base.assigned p = none := by decide +kernel
    have h' : (base.assigned p).bind _ = some b := h
    rw [key p] at h'
    cases h'
  · have key : (base.setPort 2 (port .draining)).noPortToChoose := by unfold State.noPortToChoose; decide +kernel
    exact key
  · have key : base.meter.tiers[(1 : TierNo)] ≠ none := by decide +kernel
    exact key
  · revert body; revert st; decide +kernel
  · revert body; revert st; decide +kernel
  · revert st; decide +kernel
  · revert st; decide +kernel
  · revert st; decide +kernel
  · decide +kernel

/-- A log of this length under a policy. -/
def logged (policy : LogPolicy) (n : Nat) (high : Bool) : State :=
  let r : MeterRecord :=
    { waste := none, slot := 0, label := 0, account := 0, ordinal := 0, port := 0, sides := 1, coverage := Planes.zero
      charge := 0, time := 0 }
  { base with meter := { base.meter with policy := policy, log := List.replicate n r, highMark := high } }

/-- Policy code 3; STALL asked with 256 and 257 places taken; counts 0, 1, 8 and 9; records 191, 255 and 256. -/
theorem witness_MeterLogKept :
    let flying (n : Nat) := (logged .keep n false).setPort 2
      { port .draining with path := [sheet 10 0 .picked .unmarked, sheet 12 0 .started .superseded] }
    (∀ p, ((flying 254).port p).state ≠ .feeding)
      ∧ (asking 0x55 [3] (logged .keep 5 false)).Takes 0x55 (request 0x55 [3]) [] ∧ (∀ k : LogPolicy, k.code ≠ 3)
      ∧ (∀ policy ∈ [LogPolicy.keep, .wrap, .stall], (asking 0x55 [policy.code] (logged .keep 5 false)).Takes 0x55
          (request 0x55 [policy.code]) [] ∧ (asking 0x55 [policy.code] (logged .stall 5 false)).Takes 0x55
          (request 0x55 [policy.code]) [])
      ∧ (logged .keep 5 false).meter.policy ≠ .stall ∧ (logged .stall 5 false).meter.policy = .stall
      ∧ (asking 0x55 [LogPolicy.stall.code] (flying 254)).Takes 0x55 (request 0x55 [LogPolicy.stall.code]) []
      ∧ ((List.finRange 12).map (fun p => ((flying 254).port p).path.length)).sum = 2
      ∧ (flying 254).meter.log.length + 2 ≤ 256 ∧ 256 < (flying 255).meter.log.length + 2
      ∧ (∀ n ∈ [0, 1, 8, 9], (asking 0x56 [byte n] (logged .keep 5 false)).Takes 0x56 (request 0x56 [byte n]) [])
      ∧ (logged .stall 255 false).meter.log.length < 256 ∧ (logged .stall 191 true).meter.highMark = true
      ∧ (logged .stall 191 false).meter.log.length = 191 ∧ (logged .stall 191 false).meter.highMark = false
      ∧ (logged .keep 256 false).meter.log.length = 256 ∧ (logged .wrap 256 false).meter.policy = .wrap := by
  refine ⟨by decide +kernel, takes_of _ _ _ (by decide +kernel), fun k => by cases k <;> decide, fun policy h =>
    ⟨takes_of _ _ _ ?_, takes_of _ _ _ ?_⟩, by decide, rfl, takes_of _ _ _ (by decide +kernel), by decide +kernel,
    by decide +kernel, by decide +kernel, fun n h => takes_of _ _ _ ?_, by decide +kernel, rfl, by decide +kernel, rfl,
    by decide +kernel, rfl⟩
  · revert policy; decide +kernel
  · revert policy; decide +kernel
  · revert n; decide +kernel

/-- One FEEDING port with the log full and its records read: a decision that waits for its gate, and one that starts a sheet
and then waits for its path. Two FEEDING ports. -/
theorem witness_MeterLogKept_reported :
    let s (images : List ImageRec) : State :=
      let f := (feeding { port .feeding with path := [sheet 10 0 .picked .unmarked, sheet 11 0 .picked .unmarked] } job).setImages
        4 images
      asking 0x56 [byte 8] { f with meter := { f.meter with log := (logged .stall 254 true).meter.log, reservations := 2 } }
    let u (images : List ImageRec) : State := { s images with meter := { (s images).meter with
      log := (s images).meter.log.drop 8, dropped := 0, highMark := true } }
    let d (images : List ImageRec) := (u images).runDecision 2
    let sent := List.replicate 6 (image 6 7)
    let unsent := List.replicate 6 ImageRec.fresh
    (∀ images ∈ [sent, unsent], (s images).Takes 0x56 (request 0x56 [byte 8]) [] ∧ (s images).meter.policy = .stall
        ∧ ((s images).port 2).state = .feeding ∧ (∀ q, q ≠ 2 → ((s images).port q).state ≠ .feeding)
        ∧ (s images).meter.log ≠ [])
      ∧ (d unsent).agenda = [] ∧ (d sent).agenda = [.decide 2]
      ∧ (State.runDecision { d sent with agenda := [] } 2).agenda = [] ∧ LogPolicy.wrap ≠ .stall
      ∧ (asking 0x55 [LogPolicy.wrap.code] (s sent)).Takes 0x55 (request 0x55 [LogPolicy.wrap.code]) []
      ∧ ([1, 2, 3].filter (fun p : PortNo => ((s sent).port p).state = .feeding)) = [2]
      ∧ ([1, 2, 3].filter (fun p : PortNo => ((twoJobs.setPort 3 (port .feeding)).port p).state = .feeding)).length = 2 := by
  refine ⟨fun images h => ⟨takes_of _ _ _ ?_, rfl, rfl, ?_, ?_⟩, ?_, ?_, ?_, ?_, takes_of _ _ _ ?_, ?_, ?_⟩
  all_goals first | (revert images; decide +kernel) | decide +kernel

/-- The same set; opened, raised, lowered, told only and closed, with neighbouring ranks. -/
theorem witness_CauseChangesJudged :
    let tray : CauseSet := { CauseSet.empty with trayEmpty := true }
    let setup : CauseSet := { CauseSet.empty with setupTimeout := true }
    let both : CauseSet := { setup with trayEmpty := true }
    (base.alert 2).causes = .empty ∧ CauseSet.empty.displayed = none ∧ tray.displayed = some .trayEmpty
      ∧ both.displayed = some .setupTimeout ∧ both ≠ tray ∧ Cause.rank .setupTimeout < Cause.rank .trayEmpty
      ∧ setup.displayed = some .setupTimeout ∧ setup ≠ both := by decide

/-- Closed, acknowledged, at level 3, at levels 1 and 2 with the timer at 1,000 of 1,000 ms and of 1,001; ports 11 and 12; the
panel queue empty and not. -/
theorem witness_EscalationAckAndPanel :
    let a (level : Nat) (ack : Bool) (length : Nat) : Alert :=
      { causes := { CauseSet.empty with jam := some 3 }, level := some level, acknowledged := ack
        timer := some { start := 0, length := length }, raised := some 0 }
    let s (x : Alert) : State := base.setAlert 11 x
    base.agenda = [] ∧ (base.alert 11).level = none ∧ ((s (a 1 true 1000)).alert 11).acknowledged = true
      ∧ ((s (a 1 false 1001)).alert 11).timer = some { start := 0, length := 1001 } ∧ elapsed base.partTime 0 < 1001
      ∧ ((s (a 3 false 1000)).alert 11).level = some 3
      ∧ ((s (a 1 false 1000)).alert 11).level = some 1 ∧ ((s (a 2 false 1000)).alert 11).level = some 2
      ∧ ((s (a 2 false 1000)).alert 11).acknowledged = false ∧ 1000 ≤ elapsed base.partTime 0
      ∧ (asking 0x60 [byte 11] base).Takes 0x60 (request 0x60 [byte 11]) []
      ∧ (asking 0x60 [byte 11] (s (a 2 false 1000))).Takes 0x60 (request 0x60 [byte 11]) []
      ∧ (asking 0x60 [byte 11] (s (a 2 true 1000))).Takes 0x60 (request 0x60 [byte 11]) []
      ∧ (asking 0x60 [12] base).Takes 0x60 (request 0x60 [12]) [] ∧ 12 ≤ (12#8).toNat
      ∧ base.panel.queue = []
      ∧ ({ base with panel := { queue := [(2, ['P', '\n'])], sending := none } } : State).panel.queue = (2, ['P', '\n']) :: [] :=
  ⟨rfl, rfl, rfl, rfl, by decide +kernel, rfl, rfl, rfl, rfl, by decide +kernel, takes_of _ _ _ (by decide +kernel),
    takes_of _ _ _ (by decide +kernel), takes_of _ _ _ (by decide +kernel), takes_of _ _ _ (by decide +kernel), by decide, rfl,
    rfl⟩

end Sys2Proof.Tests
end

section
/-! The control link (chapter 1), first part: every step keeps a sound state sound. For each request, what its owner's
answer keeps; then one case for each command. -/

namespace Sys2Proof.Machine

section
variable {s : State} (h : s.Sound)
include h

/-! ## Part-wide requests -/

theorem answerIdentify_keeps (body : List Byte) : (answerIdentify s body).Keeps s := keeps_kept h (Kept.refl s) _

theorem answerStatus_keeps (body : List Byte) : (answerStatus s body).Keeps s :=
  link_keeps h _ _ (fun ⟨h1, h2, h3, h4, h5⟩ => ⟨h1, h2, h3, h4, h5⟩) rfl rfl

/-- A reset that pends finds no request in service: the RESET was taken while none was (R4, R12). -/
theorem answerReset_keeps (body : List Byte) (c : s.canServe = true) : (answerReset s body).Keeps s := by
  have idle : s.link.service = none := by simp [State.canServe] at c; exact c.1.1
  unfold answerReset
  split
  · trivial
  · split
    · trivial
    · exact link_keeps h _ _ (fun ⟨h1, h2, h3, h4, _⟩ => ⟨h1, h2, h3, h4, fun _ => idle⟩) rfl rfl

theorem answerNoticeMask_keeps (body : List Byte) : (answerNoticeMask s body).Keeps s :=
  link_keeps h _ _ (fun ⟨h1, h2, h3, h4, h5⟩ => ⟨h1, h2, h3, h4, h5⟩) rfl rfl

theorem answerLevelSet_keeps (body : List Byte) : (answerLevelSet s body).Keeps s := by
  unfold answerLevelSet
  split
  · trivial
  · exact ⟨setLevel_sound h _ _ (Nat.min_le_right _ _), rfl, Nat.le_refl _⟩

theorem answerPortSet_keeps (body : List Byte) : (answerPortSet s body).Keeps s :=
  withPort_keeps body _ fun p => ⟨modPort_sound h p _
    ⟨Nat.min_le_right _ _, Nat.min_le_right _ _, by dsimp only; omega, (h.ports p).bounded⟩, rfl, Nat.le_refl _⟩

/-! ## Job requests -/

theorem answerJobOpen_keeps (body : List Byte) : (answerJobOpen s body).Keeps s := by
  unfold answerJobOpen
  split
  · trivial
  · rename_i j x e
    obtain ⟨sound, free⟩ := judgeOpen_sound e
    exact openJob_keeps h j x sound free _

omit h in
/-- The cancel and suspend flags of a RUNNING job change, and its port is told (R24). -/
theorem flagJob_kept (j : Slot) (x : Job) (hx : s.job j = some x) (cancel suspend : Bool) :
    Kept s ((s.setJob j (some { x with cancel := cancel, suspend := suspend })).tellPort j) :=
  (setJob_kept s j _ (by rw [hx]; exact .unbilled rfl rfl rfl id) (by rw [hx]; rfl)).trans (tellPort_kept _ _)

theorem answerJobCancel_keeps (body : List Byte) : (answerJobCancel s body).Keeps s := by
  refine withJob_keeps body _ fun j x hx => ?_
  have ends : x.state ≠ .running → Kept s ((s.unlist j).endJob j .cancelled) := fun n =>
    cancelWaiting_kept s j fun y hy => by rw [hx] at hy; cases hy; exact n
  split
  case h_5 =>
    split
    · exact keeps_kept h (Kept.refl s) _
    · exact keeps_kept h (flagJob_kept j x hx true x.suspend) _
  case h_6 | h_7 | h_8 => trivial
  all_goals
    rename_i e
    exact keeps_kept h (ends (by rw [e]; decide)) _

theorem answerJobSuspend_keeps (body : List Byte) : (answerJobSuspend s body).Keeps s := by
  refine withJob_keeps body _ fun j x hx => ?_
  have aside : x.state ≠ .running → Kept s ((s.unlist j).jobTo j .paused) := fun n =>
    standAside_kept s j .paused ⟨x, hx, n⟩ (by decide) rfl
  split
  case h_5 =>
    split
    · exact keeps_kept h (Kept.refl s) _
    · exact keeps_kept h (flagJob_kept j x hx x.cancel true) _
  case h_6 | h_7 | h_8 => trivial
  all_goals
    rename_i e
    exact keeps_kept h (aside (by rw [e]; decide)) _

theorem answerJobResume_keeps (body : List Byte) : (answerJobResume s body).Keeps s := by
  refine withJob_keeps body _ fun j x hx => ?_
  split
  · rename_i e
    split
    · exact keeps_kept h (pausedHeld_kept s j x hx e) _
    · exact keeps_kept h (place_calm s j false (by simp [State.jobIs, hx, e])).kept _
  · split
    · exact keeps_kept h (flagJob_kept j x hx x.cancel false) _
    · trivial
  all_goals trivial

theorem answerJobLevel_keeps (body : List Byte) : (answerJobLevel s body).Keeps s := by
  refine withJob_keeps body _ fun j x hx => ?_
  split
  · trivial
  · split
    · trivial
    · exact keeps_kept h (relevel_kept s j x _ hx) _

theorem answerJobQuery_keeps (body : List Byte) : (answerJobQuery s body).Keeps s :=
  withJob_keeps body _ fun _ _ _ => keeps_kept h (Kept.refl s) _

theorem answerJobForget_keeps (body : List Byte) : (answerJobForget s body).Keeps s := by
  refine withJob_keeps body _ fun j x hx => ?_
  split
  · rename_i t
    exact ⟨forgetJob_sound h j x hx t, rfl, Nat.le_refl _⟩
  · trivial

/-! ## Bands -/

omit h in
/-- A write begins for a block of the pool and a band not present (R43, R47). -/
theorem judgePut_waits {body : List Byte} {w : BandWrite} (e : s.judgePut body = .ok w) :
    w.block ∈ s.spool.pool ∧ s.bandPresent w.slot w.image w.band = false := by
  unfold State.judgePut at e
  split at e
  · cases e
  · split at e
    · cases e
    · split at e
      · cases e
      · split at e
        · cases e
        · rename_i absent
          split at e
          · cases e
          · rename_i block rest pool
            cases e
            exact ⟨by rw [pool]; exact List.mem_cons_self, by simpa using absent⟩

theorem answerBandPut_keeps (body : List Byte) (c : s.canServe = true) (n : s.link.requests ≠ []) :
    (answerBandPut s body).Keeps s := by
  unfold answerBandPut
  split
  · trivial
  · rename_i w e
    exact serving_keeps h _ c n fun v hv => by cases hv; exact judgePut_waits e

theorem answerBandSum_keeps (body : List Byte) (c : s.canServe = true) (n : s.link.requests ≠ []) :
    (answerBandSum s body).Keeps s := by
  unfold answerBandSum
  split
  · trivial
  · exact serving_keeps h _ c n fun v hv => by cases hv

/-- The end of a BAND_PUT's write: the payload stands in its block, and the request is concluded (R48). -/
theorem writeEnds_sound (w : BandWrite) (hw : s.link.service = some (.write w)) : SoundSoFar (s.writeEnds w) := by
  have written : SoundSoFar (s.writeBlock w.block w.payload) := writeBlock_sound (.of h) _ _
  have served : (s.writeBlock w.block w.payload).link.service = some (.write w) := hw
  have room : s.link.replies.length < 8 := by
    have := h.link.replies
    simp only [hw, Option.isSome_some, if_true] at this
    omega
  unfold State.writeEnds
  dsimp only
  generalize hu : s.writeBlock w.block w.payload = u at written served ⊢
  have refused : ∀ st, SoundSoFar (u.conclude u.servedTag (.refuse st)) := fun st =>
    conclude_sound written _ _ trivial fun e => by rw [served] at e; cases e
  unfold finishPut
  split
  · exact refused _
  · split
    · exact refused _
    · have stored : (u.storeBand w).link = s.link := by
        rw [← hu]; unfold State.storeBand; split <;> rfl
      exact concludeServed_sound (storeBand_sound written w served) u.servedTag _ (storeAndTell_kept u w)
        (fun _ => bandPutBody (u.storeBand w) w) (by rw [stored]; exact room)

/-- The end of a BAND_SUM's read concludes the request (R52). -/
theorem concludeSum_sound (r : SumRead) (parityError : Bool) (hr : s.link.service = some (.sum r)) :
    SoundSoFar (s.concludeSum r parityError) := by
  have k : Kept s (s.endRead r.slot r.image r.band r.block parityError none).1 := endRead_kept _ _ _ _ _ _ _
  unfold State.concludeSum
  generalize s.endRead r.slot r.image r.band r.block parityError none = e at k ⊢
  obtain ⟨u, result⟩ := e
  have sound : SoundSoFar u := k.soundSoFar (.of h)
  have served : u.link.service = some (.sum r) := k.service.trans hr
  have room : u.link.service = none → u.link.replies.length < 8 := fun n => by rw [served] at n; cases n
  cases result with
  | payload bytes => exact conclude_sound sound _ _ ⟨sound, rfl, Nat.le_refl _⟩ room
  | lost => exact conclude_sound sound _ _ trivial room

omit h in
theorem portReadEnd_kept (s : State) (p : PortNo) (index : Nat) (parityError : Bool) :
    Kept s (s.portReadEnd p index parityError) := by
  unfold State.portReadEnd
  split
  · have ended : Kept s (s.modPort p (fun q => { q with reads := q.reads.eraseIdx index })) :=
      modPort_kept s p _ (by exact fun _ => ⟨rfl, rfl, rfl, id⟩)
    refine ended.trans (Kept.trans ?_ (answerRead_kept _ _ _ _))
    split
    · exact Kept.refl _
    · exact endRead_kept _ _ _ _ _ _ _
  · exact Kept.refl s

/-! ## Port requests -/

omit h in
theorem setHeld_kept (s : State) (p : PortNo) (b : Bool) : Kept s (s.setHeld p b) :=
  (modPort_kept s p _ (by exact fun _ => ⟨rfl, rfl, rfl, id⟩)).trans (notifyPort_kept _ _ _ _)

theorem answerPortHold_keeps (body : List Byte) : (answerPortHold s body).Keeps s := by
  refine withPort_keeps body _ fun p => ?_
  split
  · exact keeps_kept h (Kept.refl s) _
  · exact keeps_kept h ((setHeld_kept s p true).trans (post_kept _ _)) _

theorem answerPortRelease_keeps (body : List Byte) : (answerPortRelease s body).Keeps s := by
  refine withPort_keeps body _ fun p => ?_
  split
  · exact keeps_kept h (((setHeld_kept s p false).trans (post_kept _ _)).trans (post_kept _ _)) _
  · exact keeps_kept h (Kept.refl s) _

theorem answerPortReset_keeps (sense : Sense) (body : List Byte) : (answerPortReset sense s body).Keeps s :=
  withPort_keeps body _ fun p => keeps_kept h (resetPort_kept s p sense) _

theorem answerPortQuery_keeps (body : List Byte) : (answerPortQuery s body).Keeps s :=
  withPort_keeps body _ fun _ => keeps_kept h (Kept.refl s) _

theorem answerPortLooptest_keeps (body : List Byte) : (answerPortLooptest s body).Keeps s := by
  refine withPort_keeps body _ fun p => ?_
  dsimp only
  split
  · trivial
  · split
    · trivial
    · exact keeps_kept h ((modPort_kept s p _ (by exact fun _ => ⟨rfl, rfl, rfl, id⟩)).trans (send_kept _ _ _)) _

/-! ## The meter unit -/

omit h in
/-- The values that pass R142's tests lie in the ranges of a set size class (R141). -/
theorem sizeOf_sound (body : List Byte) (v : sizeValuesValid body = true) : (sizeOf body).Sound := by
  have b6 : (byteAt body 6).toNat < 256 := (byteAt body 6).isLt
  have b7 : (byteAt body 7).toNat < 256 := (byteAt body 7).isLt
  simp only [sizeValuesValid, Bool.and_eq_true, decide_eq_true_eq] at v
  obtain ⟨⟨⟨⟨⟨f1, f2⟩, s1⟩, s2⟩, w⟩, b⟩ := v
  exact ⟨⟨f1, f2⟩, ⟨s1, s2⟩, ⟨w, by dsimp only [sizeOf]; omega⟩, ⟨b, by dsimp only [sizeOf]; omega⟩⟩

theorem answerSizeSet_keeps (body : List Byte) : (answerSizeSet s body).Keeps s := by
  unfold answerSizeSet
  split
  · trivial
  · rename_i c _
    split
    · trivial
    · split
      · trivial
      · rename_i v
        have sound := sizeOf_sound body (by simpa using v)
        refine ⟨meter_sound h _ (fun k x e => ?_) h.tiers (fun _ => id) (fun k e => ?_) rfl h.log h.room, rfl, Nat.le_refl _⟩
        · simp only [Fin.getElem_fin, Vector.getElem_set] at e
          split at e
          · cases e; exact sound
          · exact h.sizes k x e
        · simp only [Fin.getElem_fin, Vector.getElem_set]
          split
          · rfl
          · exact e

omit h in
/-- A TIER_SET body's numbers fill two bytes each (R143, R144). -/
theorem tierOf_sound (body : List Byte) (a : ¬ 1024 < (tierOf body).allowance) : (tierOf body).Sound := by
  have two : ∀ o, field body o 2 ≤ 65535 := fun o => by have := field_lt body o 2; omega
  exact ⟨two 1, ⟨two 3, two 5, two 7, two 9⟩, Nat.le_of_not_lt a⟩

theorem answerTierSet_keeps (body : List Byte) : (answerTierSet s body).Keeps s := by
  unfold answerTierSet
  split
  · trivial
  · split
    · trivial
    · rename_i a
      refine ⟨meter_sound h _ h.sizes (fun k x e => ?_) (fun k e => ?_) (fun _ => id) rfl h.log h.room, rfl, Nat.le_refl _⟩
      · simp only [Fin.getElem_fin, Vector.getElem_set] at e
        split at e
        · cases e; exact tierOf_sound body a
        · exact h.tiers k x e
      · simp only [Fin.getElem_fin, Vector.getElem_set]
        split
        · rfl
        · exact e

omit h in
theorem setTier?_isSome {b : Byte} {t : TierNo} (e : s.setTier? b = some t) : (s.meter.tiers[t]).isSome := by
  unfold State.setTier? at e
  split at e
  · split at e
    · cases e; assumption
    · cases e
  · cases e

theorem answerAccountSet_keeps (body : List Byte) : (answerAccountSet s body).Keeps s := by
  refine withAccount_keeps body _ fun a => ?_
  split
  · trivial
  · rename_i t ht
    split
    · trivial
    · rename_i order
      have set : (accountSetTo (intField body 1) (intField body 5) (intField body 9) t).Sound s.meter.tiers :=
        ⟨Int.not_lt.mp order, intField_range body 1, fun _ => ⟨t, rfl, setTier?_isSome ht⟩⟩
      split
      · exact account_keeps h a _ _ _ set (watchState_set _ _ _)
      · exact account_keeps h a _ _ _ set (watchState_set _ _ _)
      · trivial

/-- The watch of a set account leaves it set (R162). -/
theorem watched_keeps (a : AccountNo) (x : Account) (c : AccountCause) (b : State → List Byte)
    (hx : x.Sound s.meter.tiers) (hu : x.state ≠ .unset) : (Answer.done (s.accountTo a x.watched c) b).Keeps s :=
  account_keeps h a _ c b (watched_sound x _ hx) fun e => hu ((watched_kept x).unset.mp e)

theorem answerAccountLimits_keeps (body : List Byte) : (answerAccountLimits s body).Keeps s := by
  refine withAccount_keeps body _ fun a => ?_
  split
  · trivial
  · rename_i t ht
    split
    · trivial
    · rename_i order
      split
      · trivial
      · rename_i set
        exact watched_keeps h a _ _ _
          ⟨Int.not_lt.mp order, (h.accounts a).balance, fun _ => ⟨t, rfl, setTier?_isSome ht⟩⟩ set

theorem answerAccountCredit_keeps (body : List Byte) : (answerAccountCredit s body).Keeps s := by
  refine withAccount_keeps body _ fun a => ?_
  split
  · trivial
  · rename_i set
    exact watched_keeps h a _ _ _
      ⟨(h.accounts a).limits, saturate32_inRange _, (h.accounts a).tier⟩ set

theorem answerAccountClose_keeps (body : List Byte) : (answerAccountClose s body).Keeps s := by
  refine withAccount_keeps body _ fun a => ?_
  split
  · trivial
  · exact keeps_kept h (Kept.refl s) _
  · rename_i set _
    exact account_keeps h a _ _ _
      ⟨(h.accounts a).limits, (h.accounts a).balance, fun _ => (h.accounts a).tier set⟩ (by simp)

theorem answerAccountQuery_keeps (body : List Byte) : (answerAccountQuery s body).Keeps s :=
  withAccount_keeps body _ fun _ => keeps_kept h (Kept.refl s) _

/-- A change of the meter unit's policy and reservations within the log's room (R167, R168). -/
theorem setPolicy_sound (policy : LogPolicy) (n : Nat)
    (room : Meter.Room { s.meter with policy := policy, reservations := n }) : SoundSoFar (s.setPolicy policy n) :=
  meter_sound h _ h.sizes h.tiers (fun _ => id) (fun _ => id) rfl h.log room

theorem answerMeterPolicy_keeps (body : List Byte) : (answerMeterPolicy s body).Keeps s := by
  unfold answerMeterPolicy
  split
  · trivial
  · rename_i asked _
    dsimp only
    split
    · exact keeps_kept h (Kept.refl s) _
    · rename_i other
      split
      · rename_i stall
        have left : asked ≠ .stall := fun e => other (stall.trans e.symm)
        exact ⟨(post_kept _ _).soundSoFar (setPolicy_sound h asked 0 ⟨fun e => absurd e left, fun _ => rfl⟩), rfl,
          Nat.le_refl _⟩
      · rename_i notStall
        split
        · split
          · rename_i fits
            exact ⟨setPolicy_sound h .stall _ ⟨fun _ => fits, fun n => absurd rfl n⟩, rfl, Nat.le_refl _⟩
          · trivial
        · rename_i askedOther
          exact ⟨setPolicy_sound h asked _ ⟨fun e => absurd e askedOther, fun _ => h.room.2 notStall⟩, rfl, Nat.le_refl _⟩

/-- Records that leave the front of the log leave it no longer than it was (R169). -/
theorem readLog_keeps (n : Nat) (b : State → List Byte) : (Answer.done (s.readLog n) b).Keeps s := by
  have shorter : (s.meter.log.drop n).length ≤ s.meter.log.length := by simp
  have sound := meter_sound h
    { s.meter with
      log := s.meter.log.drop n
      dropped := 0
      highMark := if (s.meter.log.drop n).length < s.meter.log.length && (s.meter.log.drop n).length < 128 then false
        else s.meter.highMark }
    h.sizes h.tiers (fun _ => id) (fun _ => id) rfl (Nat.le_trans shorter h.log)
    ⟨fun e => Nat.le_trans (Nat.add_le_add_right shorter _) (h.room.1 e), h.room.2⟩
  unfold State.readLog
  dsimp only
  split
  · exact ⟨(post_kept _ _).soundSoFar sound, rfl, Nat.le_refl _⟩
  · exact ⟨sound, rfl, Nat.le_refl _⟩

theorem answerMeterRead_keeps (body : List Byte) : (answerMeterRead s body).Keeps s := by
  unfold answerMeterRead
  dsimp only
  split
  · trivial
  · exact readLog_keeps h _ _

/-! ## Alerts -/

theorem answerAlertAck_keeps (body : List Byte) : (answerAlertAck s body).Keeps s := by
  refine withPort_keeps body _ fun p => ?_
  split
  · trivial
  · exact keeps_kept h (acknowledge_kept s p) _

theorem answerAlertQuery_keeps (body : List Byte) : (answerAlertQuery s body).Keeps s := keeps_kept h (Kept.refl s) _

/-! ## The link's events -/

theorem serveUnknown_sound : SoundSoFar s.serveUnknown := by
  unfold State.serveUnknown
  split
  · split
    · rename_i c
      refine placeReply_sound (.of h) _ fun _ => ?_
      simp only [State.canServe, Bool.and_eq_true, decide_eq_true_eq] at c
      exact c.2.1.2
    · exact .of h
  · exact .of h

/-- A reset that falls due was pending, with no request in service (R12). -/
theorem endOutbound_sound : SoundSoFar s.endOutbound := by
  unfold State.endOutbound
  split
  · refine link_sound (.of h) _ (.inl rfl) fun ⟨h1, h2, h3, h4, h5⟩ => ⟨h1, h2, h3, h4, fun n => h5 fun e => n ?_⟩
    rw [e]
    split <;> simp_all
  · exact link_sound (.of h) _ (.inl rfl) fun ⟨h1, h2, h3, h4, h5⟩ => ⟨h1, h2, h3, h4, h5⟩
  · exact .of h

omit h in
theorem lineSent_kept (s : State) : Kept s s.lineSent :=
  Kept.trans (t := { s with panel := { s.panel with sending := none } }) { Kept.refl s with } (pumpPanel_calm _).kept

omit h in
theorem frameSent_kept (s : State) (p : PortNo) : Kept s (s.modPort p Port.frameSent) :=
  modPort_kept s p _ fun x => by
    unfold Port.frameSent
    split
    · exact SettingsKept.refl x
    · exact ⟨rfl, rfl, rfl, id⟩
    · exact ⟨rfl, rfl, rfl, id⟩

/-! ## One command, one step -/

/-- The service of a request ends in a sound state where its owner's answers keep one. -/
theorem served_sound (kind : Byte) (owner : State → List Byte → Answer)
    (g : ∀ body, s.canServe = true → s.link.requests ≠ [] → (owner s body).Keeps s) : (s.serve kind owner).finish.Sound :=
  finish_sound (serve_sound h kind owner g)

theorem message_sound (p : PortNo) (m : PressIn) : (s.message p m).finish.Sound := kept_finish h (message_kept s p m)

theorem idle_sound : s.finish.Sound := finish_sound (.of h)

end

/-- Every next state that an outcome answers is sound. -/
def AnswersSound (o : Host.Outcome State Fault Refusal) : Prop := ∀ t, o = .next t → t.Sound

theorem AnswersSound.next {t : State} (h : t.Sound) : AnswersSound (.next t) := fun u e => by cases e; exact h

/-- Every command answers a sound state from a sound one. -/
theorem exec_sound (i : Instr) {s : State} (h : s.Sound) : AnswersSound (exec i s) := by
  cases i with
  | receivedFrame kind tag body => exact .next (finish_sound (controlFrame_sound (.of h) _))
  | frameError bytes => exact .next (finish_sound (controlBytes_sound (.of h) _))
  | frameGapExpiry => exact .next (finish_sound (controlGap_sound (.of h)))
  | unknownRequest => exact .next (finish_sound (serveUnknown_sound h))
  | outboundFrameEnd => exact .next (finish_sound (endOutbound_sound h))
  | identify => exact .next (served_sound h _ _ fun b _ _ => answerIdentify_keeps h b)
  | status => exact .next (served_sound h _ _ fun b _ _ => answerStatus_keeps h b)
  | reset => exact .next (served_sound h _ _ fun b c _ => answerReset_keeps h b c)
  | resetTakesEffect senses =>
    show AnswersSound (execResetTakesEffect senses s)
    unfold execResetTakesEffect
    split
    · exact .next (finish_sound (takeReset_sound h _ senses))
    · exact .next (idle_sound h)
  | powerOn signals => exact .next (finish_sound (.of (powerOn_sound signals s.choices s.pending)))
  | noticeMask => exact .next (served_sound h _ _ fun b _ _ => answerNoticeMask_keeps h b)
  | levelSet => exact .next (served_sound h _ _ fun b _ _ => answerLevelSet_keeps h b)
  | portSet => exact .next (served_sound h _ _ fun b _ _ => answerPortSet_keeps h b)
  | selfTestAttemptEnd passed senses => exact .next (finish_sound (attemptEnd_sound (.of h) passed senses))
  | jobOpen => exact .next (served_sound h _ _ fun b _ _ => answerJobOpen_keeps h b)
  | jobCancel => exact .next (served_sound h _ _ fun b _ _ => answerJobCancel_keeps h b)
  | jobSuspend => exact .next (served_sound h _ _ fun b _ _ => answerJobSuspend_keeps h b)
  | jobResume => exact .next (served_sound h _ _ fun b _ _ => answerJobResume_keeps h b)
  | jobLevel => exact .next (served_sound h _ _ fun b _ _ => answerJobLevel_keeps h b)
  | jobQuery => exact .next (served_sound h _ _ fun b _ _ => answerJobQuery_keeps h b)
  | jobForget => exact .next (served_sound h _ _ fun b _ _ => answerJobForget_keeps h b)
  | bandPut => exact .next (served_sound h _ _ fun b c n => answerBandPut_keeps h b c n)
  | bandPutWriteComplete =>
    show AnswersSound (execBandPutWriteComplete s)
    unfold execBandPutWriteComplete
    split
    · rename_i w hw
      exact .next (finish_sound (writeEnds_sound h w hw))
    · exact .next (idle_sound h)
  | bandSum => exact .next (served_sound h _ _ fun b c n => answerBandSum_keeps h b c n)
  | bandSumReadEnd parityError =>
    show AnswersSound (execBandSumReadEnd parityError s)
    unfold execBandSumReadEnd
    split
    · rename_i r hr
      exact .next (finish_sound (concludeSum_sound h r parityError hr))
    · exact .next (idle_sound h)
  | spoolReadEnd p index parityError => exact .next (kept_finish h (portReadEnd_kept s p index parityError))
  | sliceExpiry p => exact .next (kept_finish h (sliceExpired_kept s p))
  | sizeSet => exact .next (served_sound h _ _ fun b _ _ => answerSizeSet_keeps h b)
  | tierSet => exact .next (served_sound h _ _ fun b _ _ => answerTierSet_keeps h b)
  | lineSignalReturns p sense => exact .next (kept_finish h (signalReturns_kept s p sense))
  | lineSignalLost p => exact .next (kept_finish h (signalLost_kept s p))
  | probeEcho p sequence pattern => exact .next (message_sound h p _)
  | probeTimeout p => exact .next (kept_finish h (probeExpired_kept s p))
  | portLooptest => exact .next (served_sound h _ _ fun b _ _ => answerPortLooptest_keeps h b)
  | loopFrameExpiry p => exact .next (kept_finish h (loopExpired_kept s p))
  | identity p contents => exact .next (message_sound h p _)
  | setupDone p => exact .next (message_sound h p _)
  | setupRefused p code => exact .next (message_sound h p _)
  | setupTimerExpiry p => exact .next (kept_finish h (setupExpired_kept s p))
  | tray p item => exact .next (message_sound h p _)
  | portHold => exact .next (served_sound h _ _ fun b _ _ => answerPortHold_keeps h b)
  | portRelease => exact .next (served_sound h _ _ fun b _ _ => answerPortRelease_keeps h b)
  | portReset sense => exact .next (served_sound h _ _ fun b _ _ => answerPortReset_keeps h sense b)
  | portQuery => exact .next (served_sound h _ _ fun b _ _ => answerPortQuery_keeps h b)
  | pressFrameCheckFail p bytes => exact .next (kept_finish h (pressBytes_kept s p bytes))
  | pressFrameGapExpiry p =>
    show AnswersSound (execPressFrameGapExpiry p s)
    unfold execPressFrameGapExpiry
    split
    · exact .next (kept_finish h (pressGap_kept s p))
    · exact .next (idle_sound h)
  | pressMessageIgnored p bytes => exact .next (kept_finish h (pressBytes_kept s p bytes))
  | gateWaitExpiry p => exact .next (kept_finish h (gateExpired_kept s p))
  | want p tag back band => exact .next (message_sound h p _)
  | bandGraceExpiry p => exact .next (kept_finish h (graceExpired_kept s p))
  | picked p tag => exact .next (message_sound h p _)
  | delivered p tag => exact .next (message_sound h p _)
  | stop p reason items => exact .next (message_sound h p _)
  | cleared p => exact .next (message_sound h p _)
  | accountSet => exact .next (served_sound h _ _ fun b _ _ => answerAccountSet_keeps h b)
  | accountLimits => exact .next (served_sound h _ _ fun b _ _ => answerAccountLimits_keeps h b)
  | accountCredit => exact .next (served_sound h _ _ fun b _ _ => answerAccountCredit_keeps h b)
  | accountClose => exact .next (served_sound h _ _ fun b _ _ => answerAccountClose_keeps h b)
  | accountQuery => exact .next (served_sound h _ _ fun b _ _ => answerAccountQuery_keeps h b)
  | meterPolicy => exact .next (served_sound h _ _ fun b _ _ => answerMeterPolicy_keeps h b)
  | meterRead => exact .next (served_sound h _ _ fun b _ _ => answerMeterRead_keeps h b)
  | escalationExpiry p => exact .next (kept_finish h (escalate_kept s p))
  | alertAck => exact .next (served_sound h _ _ fun b _ _ => answerAlertAck_keeps h b)
  | alertQuery => exact .next (served_sound h _ _ fun b _ _ => answerAlertQuery_keeps h b)
  | panelLineSent => exact .next (kept_finish h (lineSent_kept s))
  | markerPairSeen bytes => exact .next (finish_sound (controlBytes_sound (.of h) _))
  | pressMarkerSeen p bytes => exact .next (kept_finish h (pressBytes_kept s p bytes))
  | pressFrameSent p => exact .next (kept_finish h (frameSent_kept s p))

/-- The clock and the queue of waiting commands have no part in soundness. -/
theorem clock_pending_sound {s : State} (h : s.Sound) (now : Word32) (waiting : List Instr) :
    State.Sound { s with partTime := now, pending := waiting } :=
  { h with }

/-- Settles O6: a tick changes the clock alone, and every command keeps a sound state sound. -/
theorem soundKept : Obligations.SoundKept := by
  intro s t h e
  unfold step at e
  split at e
  · exact exec_sound _ (clock_pending_sound h s.partTime _) t e
  · cases e
    exact clock_pending_sound h _ s.pending

/-- Settles O5: POWER_ON's state with no line signal, no choice made and no command waiting. -/
theorem soundAtReset : Obligations.SoundAtReset :=
  reset_sound Spool.afterPowerOn (by decide) (afterPowerOn_sound []) (fun j => by simp [Spool.afterPowerOn])
    State.reset.ports (fun p => by simp only [State.reset, Fin.getElem_fin, Vector.getElem_replicate]
                                   exact afterReset_sound _ ⟨rfl, rfl, rfl, rfl, rfl⟩)
    State.reset.panel 0 []

end Sys2Proof.Machine
end

section
/-! The control link (chapter 1), second part: the frame receivers of the control link and of the press links. What a
receiver in the search makes of bytes, and what the last byte of a frame brings; then what each of their commands comes to. -/

namespace Sys2Proof.Machine

variable (s : State)

/-! ## The search for the marker (R1, R193) -/

/-- A byte that completes no marker pair leaves the search going on, armed if it is the first marker (R1). -/
theorem rxControl_hunt (armed : Bool) (b : Byte) (h : b = 0x5A#8 → armed = false) :
    rxControl (.hunt armed) b = (.hunt (b = 0xA5#8), none) := by
  refine if_neg ?_
  simp only [Bool.and_eq_true, decide_eq_true_eq, not_and]
  intro ha hb
  rw [h hb] at ha
  cases ha

/-- Bytes without a marker pair leave the receiver searching, armed if the last of them is the first marker (R1). -/
theorem control_search (junk : List Byte) (h : ∀ a b, junk ≠ a ++ 0xA5#8 :: 0x5A#8 :: b) :
    quietRun rxControl (.hunt false) junk = some (.hunt (junk.getLast? = some 0xA5#8)) := by
  induction junk using List.reverseRecOn with
  | nil => rfl
  | append_singleton junk b ih =>
    have unpaired : ∀ x y, junk ≠ x ++ 0xA5#8 :: 0x5A#8 :: y := fun x y e => h x (y ++ [b]) (by rw [e]; simp)
    have lone : b = 0x5A#8 → decide (junk.getLast? = some 0xA5#8) = false := fun hb => by
      rw [decide_eq_false_iff_not, List.getLast?_eq_some_iff]
      rintro ⟨x, hx⟩
      exact h x [] (by rw [hx, hb]; simp)
    rw [quietRun_append, ih unpaired]
    simp only [Option.bind_some, quietRun, rxControl_hunt _ b lone, List.getLast?_append, List.getLast?_singleton,
      Option.some_or, Option.some.injEq]

/-- First markers one after another leave the receiver armed (R1). -/
theorem control_firstMarkers (n : Nat) : ∀ armed,
    quietRun rxControl (.hunt armed) (List.replicate (n + 1) 0xA5#8) = some (.hunt true) := by
  induction n with
  | zero => intro armed; cases armed <;> rfl
  | succ n ih =>
    intro armed
    rw [List.replicate_succ, quietRun, rxControl_hunt armed 0xA5#8 fun e => absurd e (by decide)]
    exact ih _

/-- A press-link receiver searches through bytes without the marker (R193). -/
theorem press_search (junk : List Byte) (h : 0xC3#8 ∉ junk) :
    quietRun rxPress (.hunt false) (junk ++ [0xC3#8]) = some (.header []) := by
  induction junk with
  | nil => rfl
  | cons b junk ih =>
    obtain ⟨hb, hj⟩ := not_or.mp (fun e => h (List.mem_cons.mpr e))
    have step : rxPress (.hunt false) b = (.hunt false, none) := if_neg (Ne.symm hb)
    rw [List.cons_append, quietRun, step]
    exact ih hj

/-- A receiver between frames hunts, with no first marker before it. -/
theorem hunts_of_between {r : RxState} (h : r.midFrame = false) : r = .hunt false := by
  cases r with
  | hunt armed => cases h; rfl
  | header | body | check => cases h

/-! ## The last byte of a frame (R2, R193, R196) -/

/-- What the last byte of a frame's CRC brings: the counted bytes where the CRC agrees. -/
def frameEnd (counted : List Byte) (c1 c0 : Byte) : RxEvent :=
  if [c1, c0] = word16 (crc (num 2 counted.length ++ counted)) then .frame counted else .badCrc

theorem rxInFrame_check (lo hi : Nat) (counted : List Byte) (c1 c0 : Byte) :
    rxInFrame lo hi (.check counted.length counted.reverse [c1]) c0 = (.hunt false, some (frameEnd counted c1 c0)) := by
  simp only [rxInFrame, frameEnd, List.reverse_reverse, eq_comm (a := word16 _)]
  split <;> rfl

/-- A length out of range ends the frame at its header (R2, R193). -/
theorem rxInFrame_badLength (lo hi n : Nat) (hn : n < 65536) (h : n < lo ∨ hi < n) (b1 b0 : Byte) (e : num 2 n = [b1, b0]) :
    rxInFrame lo hi (.header [b1]) b0 = (.hunt false, some .badLength) := by
  have length : natOf [b1, b0] = n := by rw [← e]; exact natOf_num_of_lt hn
  simp only [rxInFrame, length]
  rw [if_pos (by simpa using h)]

/-- A 16-bit word stands in two bytes. -/
theorem num_two (n : Nat) : ∃ b1 b0, num 2 n = [b1, b0] := ⟨_, _, rfl⟩

theorem natOf_word16 (w : Word16) : BitVec.ofNat 16 (natOf (word16 w)) = w := by
  rw [word16, natOf_num_of_lt w.isLt, BitVec.ofNat_toNat, BitVec.setWidth_eq]

/-! ## Frames on the control link -/

theorem controlByte_event (b : Byte) (e : RxEvent) (h : rxControl s.link.receiver.rx b = (.hunt false, some e)) :
    s.controlByte b = (s.modLink (fun l => l.huntAgain s.partTime)).controlEvent e := by
  unfold State.controlByte
  rw [h]
  rfl

/-- Bytes within which no frame ends, and one more that ends a frame, taken by a searching receiver. -/
theorem control_frame_ends (l : List Byte) (b : Byte) (st : RxState) (e : RxEvent) (hs : s.link.receiver.rx = .hunt false)
    (hl : l ≠ []) (run : quietRun rxControl (.hunt false) l = some st) (last : rxControl st b = (.hunt false, some e)) :
    (l ++ [b]).foldl State.controlByte s = (s.modLink (fun x => x.huntAgain s.partTime)).controlEvent e := by
  rw [List.foldl_append, controlRun l s st hl (by rw [hs]; exact run)]
  exact controlByte_event _ b e last

/-- The bytes of a frame with a length in range. -/
theorem control_frame_whole (counted : List Byte) (c1 c0 : Byte) (hs : s.link.receiver.rx = .hunt false)
    (h1 : 3 ≤ counted.length) (h2 : counted.length ≤ 16448) :
    (0xA5#8 :: 0x5A#8 :: num 2 counted.length ++ counted ++ [c1, c0]).foldl State.controlByte s =
      (s.modLink (fun l => l.huntAgain s.partTime)).controlEvent (frameEnd counted c1 c0) := by
  have bytes : 0xA5#8 :: 0x5A#8 :: num 2 counted.length ++ counted ++ [c1, c0]
      = (0xA5#8 :: 0x5A#8 :: num 2 counted.length ++ counted ++ [c1]) ++ [c0] := by simp
  rw [bytes]
  exact control_frame_ends s _ c0 _ _ hs (by simp) (control_run counted c1 h1 h2) (rxInFrame_check 3 16448 counted c1 c0)

/-- The marker pair and a length out of range. -/
theorem control_frame_badLength (n : Nat) (hs : s.link.receiver.rx = .hunt false) (hn : n < 65536)
    (h : n < 3 ∨ 16448 < n) :
    (0xA5#8 :: 0x5A#8 :: num 2 n).foldl State.controlByte s =
      (s.modLink (fun l => l.huntAgain s.partTime)).controlEvent .badLength := by
  obtain ⟨b1, b0, e⟩ := num_two n
  rw [e]
  exact control_frame_ends s [0xA5#8, 0x5A#8, b1] b0 (.header [b1]) _ hs (by simp) rfl
    (rxInFrame_badLength 3 16448 n hn h b1 b0 e)

/-- A received frame whose body a length field can carry is handed to the input request queue (R3). -/
theorem controlFrame_taken (r : Request) (hr : ∀ k, s.link.reset ≠ .due k) (hb : r.body.length ≤ 16445) :
    s.controlFrame r = (s.modLink (fun l => l.huntAgain s.partTime)).takeFrame r := by
  unfold State.controlFrame
  split
  · rename_i k e; exact absurd e (hr k)
  · exact if_pos (by omega)

/-- While a reset is due no byte and no frame is taken (R1). -/
theorem control_due (k : ResetKind) (e : s.link.reset = .due k) (bytes : List Byte) (r : Request) :
    s.controlBytes bytes = s ∧ s.controlFrame r = s := by
  unfold State.controlBytes State.controlFrame
  rw [e]
  exact ⟨rfl, rfl⟩

/-- The bytes of a frame bring the request they carry (R185). -/
theorem controlBytes_frameBytes (kind : Byte) (tag : Word16) (body : List Byte) (hs : s.link.receiver.rx = .hunt false)
    (hr : ∀ k, s.link.reset ≠ .due k) (hb : body.length ≤ 16445) :
    s.controlBytes (frameBytes kind tag body) =
      (s.modLink (fun l => l.huntAgain s.partTime)).takeFrame { kind := kind, tag := tag, body := body } := by
  obtain ⟨t1, t0, ht⟩ := num_two tag.toNat
  have length : (kind :: t1 :: t0 :: body).length = body.length + 3 := rfl
  have covered : frameCovered kind tag body
      = num 2 (kind :: t1 :: t0 :: body).length ++ (kind :: t1 :: t0 :: body) := by
    simp [frameCovered, word16, ht]
  obtain ⟨c1, c0, hc⟩ := num_two (crc (frameCovered kind tag body)).toNat
  have good : frameEnd (kind :: t1 :: t0 :: body) c1 c0 = .frame (kind :: t1 :: t0 :: body) := by
    unfold frameEnd
    rw [← covered, word16, hc, if_pos rfl]
  have bytes : frameBytes kind tag body = 0xA5#8 :: 0x5A#8 :: num 2 (kind :: t1 :: t0 :: body).length
      ++ (kind :: t1 :: t0 :: body) ++ [c1, c0] := by
    unfold frameBytes
    rw [word16, hc, covered]
    simp
  have htag : BitVec.ofNat 16 (natOf [t1, t0]) = tag := by rw [← ht]; exact natOf_word16 tag
  rw [controlBytes_between s _ (by rw [hs]; rfl) hr, bytes, control_frame_whole s _ _ _ hs (by simp) (by rw [length]; omega),
    good]
  simp only [State.controlEvent, htag]

/-- Settles O8: both rows hand the same request to the input request queue, or, while a reset is due, neither does. -/
theorem controlFrameIsReceived : Obligations.ControlFrameIsReceived := by
  intro s kind tag body hb hs
  have same : s.controlBytes (frameBytes kind tag body) = s.controlFrame { kind := kind, tag := tag, body := body } := by
    by_cases hr : ∀ k, s.link.reset ≠ .due k
    · rw [controlBytes_frameBytes s kind tag body hs hr hb, controlFrame_taken s _ hr hb]
    · obtain ⟨k, e⟩ := not_forall.mp hr
      obtain ⟨h1, h2⟩ := control_due s k (not_not.mp e) (frameBytes kind tag body) { kind := kind, tag := tag, body := body }
      rw [h1, h2]
  exact congrArg (fun t : State => Host.Outcome.next t.finish) same

/-- Settles O9: the frame finds one of four places, or the BUSY reply arises. -/
theorem receivedFrameAdmittedOrBusy : Obligations.ReceivedFrameAdmittedOrBusy := by
  intro s kind tag body hb hr ha
  have taken : exec (.receivedFrame kind tag body) s =
      .next ((s.modLink (fun l => l.huntAgain s.partTime)).takeFrame { kind := kind, tag := tag, body := body }).finish := by
    rw [← controlFrame_taken s _ hr hb]
    rfl
  rw [taken]
  refine ⟨fun room => congrArg Host.Outcome.next ?_, fun full => congrArg Host.Outcome.next ?_⟩
  · rw [State.takeFrame, if_pos (by exact room)]
    exact finish_of_idle (by exact ha)
  · rw [State.takeFrame, if_neg (by exact Nat.not_lt.mpr full)]
    exact placeError_finish _ _ _ (by exact ha)

/-- A frame that fails its length or its CRC is answered FRAME_ERROR with tag 0 (R2, R6). -/
theorem badFrame_answered (e : RxEvent) (h : e = .badLength ∨ e = .badCrc) (ha : s.agenda = []) :
    ((s.modLink (fun l => l.huntAgain s.partTime)).controlEvent e).finish =
      State.pump { s with link := (s.link.huntAgain s.partTime).errorArisen 0 .frameError } := by
  rcases h with rfl | rfl <;> exact placeError_finish _ _ _ ha

/-- A run of bytes within which no frame ends only moves the receiver. -/
theorem controlBytes_quiet (l : List Byte) (st : RxState) (hs : s.link.receiver.rx = .hunt false)
    (hr : ∀ k, s.link.reset ≠ .due k) (ha : s.agenda = []) (hl : l ≠ [])
    (run : quietRun rxControl (.hunt false) l = some st) :
    (s.controlBytes l).finish =
      State.pump { s with link := { s.link with receiver := { rx := st, last := s.partTime } } } := by
  rw [controlBytes_between s l (by rw [hs]; rfl) hr, controlRun l s st hl (by rw [hs]; exact run)]
  exact finish_of_idle (by exact ha)

/-- The gap's expiry, once more than 50 ms have passed within a frame, and before (R2). -/
theorem controlGap_finish (hm : s.link.receiver.rx.midFrame = true) (ha : s.agenda = []) :
    s.controlGap.finish =
      if 50 < elapsed s.partTime s.link.receiver.last then
        State.pump { s with link := (s.link.huntAgain s.partTime).errorArisen 0 .frameError }
      else s.pump := by
  unfold State.controlGap Receiver.gap
  simp only [hm, Bool.true_and, decide_eq_true_eq]
  split
  · exact placeError_finish _ _ _ ha
  · exact finish_of_idle ha

/-- Settles O10: clause by clause, the run of bytes and what its last byte brings. -/
theorem receiverFindsAndDropsFrames : Obligations.ReceiverFindsAndDropsFrames := by
  intro s ha
  refine ⟨fun hs hr => ⟨fun junk n unpaired => ⟨?_, fun b lone => ?_⟩, fun n hn range => ?_,
    fun counted c1 c0 h1 h2 differs => ?_⟩, fun hm => ⟨fun late => ?_, fun early => ?_⟩⟩
  · refine congrArg Host.Outcome.next (controlBytes_quiet s _ _ hs hr ha (by simp) ?_)
    rw [quietRun_append, quietRun_append, control_search junk unpaired, Option.bind_some, control_firstMarkers]
    rfl
  · refine congrArg Host.Outcome.next (controlBytes_quiet s _ _ hs hr ha (by simp) ?_)
    have step := rxControl_hunt (decide (junk.getLast? = some 0xA5#8)) b fun hb => decide_eq_false (lone hb)
    rw [quietRun_append, control_search junk unpaired]
    simp only [Option.bind_some, quietRun, step]
  · refine congrArg Host.Outcome.next ?_
    rw [controlBytes_between s _ (by rw [hs]; rfl) hr, control_frame_badLength s n hs hn range]
    exact badFrame_answered s _ (.inl rfl) ha
  · refine congrArg Host.Outcome.next ?_
    rw [controlBytes_between s _ (by rw [hs]; rfl) hr, control_frame_whole s counted c1 c0 hs h1 h2]
    exact badFrame_answered s _ (.inr (if_neg differs)) ha
  · exact congrArg Host.Outcome.next ((controlGap_finish s hm ha).trans (if_pos late))
  · exact congrArg Host.Outcome.next ((controlGap_finish s hm ha).trans (if_neg (Nat.not_lt.mpr early)))

/-! ## Frames on a press link -/

section
variable (p : PortNo)

theorem pressByte_event (b : Byte) (e : RxEvent) (h : rxPress (s.port p).receiver.rx b = (.hunt false, some e)) :
    s.pressByte p b = (s.setPort p ((s.port p).heard s.partTime)).pressEvent p e := by
  unfold State.pressByte
  rw [h]
  rfl

/-- Bytes within which no frame ends, and one more that ends a frame, taken by a port that hears its engine. -/
theorem press_frame_ends (l : List Byte) (b : Byte) (st : RxState) (e : RxEvent) (h : s.Hears p) (hl : l ≠ [])
    (run : quietRun rxPress (.hunt false) l = some st) (last : rxPress st b = (.hunt false, some e)) :
    s.pressBytes p (l ++ [b]) = ((s.setPort p ((s.port p).heard s.partTime)).pressEvent p e).settle := by
  have hunting := hunts_of_between h.between
  rw [pressBytes_between s p _ h.between h.hears, List.foldl_append,
    pressRun p l s st h.agenda hl (by rw [hunting]; exact run), List.foldl_cons, List.foldl_nil,
    pressByte_event _ p b e (by rw [State.modPort_port, if_pos rfl]; exact last)]
  simp only [State.modPort_port, if_true, State.modPort_partTime]
  unfold State.modPort
  rw [State.setPort_setPort]
  rfl

/-- The bytes of a frame with a length in range. -/
theorem press_frame_whole (counted : List Byte) (c1 c0 : Byte) (h : s.Hears p) (h1 : 1 ≤ counted.length)
    (h2 : counted.length ≤ 16388) :
    s.pressBytes p (0xC3#8 :: num 2 counted.length ++ counted ++ [c1, c0]) =
      ((s.setPort p ((s.port p).heard s.partTime)).pressEvent p (frameEnd counted c1 c0)).settle := by
  have bytes : 0xC3#8 :: num 2 counted.length ++ counted ++ [c1, c0]
      = (0xC3#8 :: num 2 counted.length ++ counted ++ [c1]) ++ [c0] := by simp
  rw [bytes]
  exact press_frame_ends s p _ c0 _ _ h (by simp) (press_run counted c1 h1 h2) (rxInFrame_check 1 16388 counted c1 c0)

/-- The marker and a length out of range. -/
theorem press_frame_badLength (n : Nat) (h : s.Hears p) (hn : n < 65536) (range : n < 1 ∨ 16388 < n) :
    s.pressBytes p (0xC3#8 :: num 2 n) =
      ((s.setPort p ((s.port p).heard s.partTime)).pressEvent p .badLength).settle := by
  obtain ⟨b1, b0, e⟩ := num_two n
  rw [e]
  exact press_frame_ends s p [0xC3#8, b1] b0 (.header [b1]) _ h (by simp) rfl
    (rxInFrame_badLength 1 16388 n hn range b1 b0 e)

/-- The bytes of a frame whose CRC agrees (R193). -/
theorem pressBytes_pressFrame (kind : Byte) (body : List Byte) (h : s.Hears p) (hb : body.length ≤ 16387) :
    s.pressBytes p (pressFrame (kind :: body)) =
      ((s.setPort p ((s.port p).heard s.partTime)).pressEvent p (.frame (kind :: body))).settle := by
  obtain ⟨c1, c0, hc⟩ := num_two (crc (num 2 (kind :: body).length ++ (kind :: body))).toNat
  have good : frameEnd (kind :: body) c1 c0 = .frame (kind :: body) := by
    unfold frameEnd
    rw [word16, hc, if_pos rfl]
  have bytes : pressFrame (kind :: body) = 0xC3#8 :: num 2 (kind :: body).length ++ (kind :: body) ++ [c1, c0] := by
    unfold pressFrame
    dsimp only
    rw [word16, hc]
    simp
  rw [bytes, press_frame_whole s p _ _ _ h (by simp) (by simp only [List.length_cons]; omega), good]

/-- The state after a frame is discarded and counted at a port, its receiver in the hunt (R99). -/
def State.frameDropped (s : State) (p : PortNo) : State :=
  s.setPort p { (s.port p).heard s.partTime with
    counters := { (s.port p).counters with
      framesDiscarded := min ((s.port p).counters.framesDiscarded + 1) 4294967295 } }

theorem frameDiscarded_heard :
    (s.setPort p ((s.port p).heard s.partTime)).frameDiscarded p = s.frameDropped p := by
  unfold State.frameDiscarded State.modPort State.frameDropped
  rw [State.setPort_port, if_pos rfl, State.setPort_setPort]
  rfl

/-- What ends a frame without a message discards it (R99). -/
theorem pressEvent_dropped (e : RxEvent)
    (h : e = .badLength ∨ e = .badCrc ∨ ∃ kind body, e = .frame (kind :: body) ∧ readPress kind body = none)
    (ha : s.agenda = []) :
    ((s.setPort p ((s.port p).heard s.partTime)).pressEvent p e).settle.finish = (s.frameDropped p).pump := by
  have dropped : (s.setPort p ((s.port p).heard s.partTime)).pressEvent p e = s.frameDropped p := by
    rw [← frameDiscarded_heard]
    rcases h with rfl | rfl | ⟨kind, body, rfl, unread⟩
    · rfl
    · rfl
    · simp only [State.pressEvent, unread]
  have idle : (s.frameDropped p).agenda = [] := ha
  rw [dropped, settle_of_idle _ idle, finish_of_idle idle]

/-- The gap's expiry at a port, once more than 50 ms have passed within a frame, and before (R193). -/
theorem pressGap_finish (hm : (s.port p).receiver.rx.midFrame = true) (ha : s.agenda = []) :
    (s.pressGap p).finish =
      if 50 < elapsed s.partTime (s.port p).receiver.last then (s.frameDropped p).pump else s.pump := by
  have dropped : (s.huntAgain p).frameDiscarded p = s.frameDropped p := frameDiscarded_heard s p
  unfold State.pressGap Receiver.gap
  simp only [hm, Bool.true_and, decide_eq_true_eq]
  split
  · rw [dropped]
    exact finish_of_idle (by exact ha)
  · exact finish_of_idle ha

/-- A port that does not hear takes no bytes and no gap's expiry (R81, R82). -/
theorem unheard (h : s.hears p = false) (ha : s.agenda = []) (bytes : List Byte) :
    (s.pressBytes p bytes).finish = s.pump ∧ exec (.pressFrameGapExpiry p) s = .next s.pump := by
  have idle : s.finish = s.pump := finish_of_idle ha
  refine ⟨?_, ?_⟩
  · unfold State.pressBytes
    rw [h]
    exact idle
  · show execPressFrameGapExpiry p s = _
    unfold execPressFrameGapExpiry
    rw [h]
    exact congrArg Host.Outcome.next idle

theorem pressFrameGapExpiry_heard (h : s.hears p = true) :
    exec (.pressFrameGapExpiry p) s = .next (s.pressGap p).finish := by
  show execPressFrameGapExpiry p s = _
  unfold execPressFrameGapExpiry
  rw [if_pos h]

/-- The line of a port falls idle after the last frame that waits, and else takes the next one (R193). -/
theorem frameSent_idle {x : Port} {m : PressOut} (h : x.sending = some m) (e : x.outQueue = []) :
    x.frameSent = { x with sending := none } := by
  unfold Port.frameSent
  rw [h, e]

theorem frameSent_next {x : Port} {m n : PressOut} {rest : List PressOut} (h : x.sending = some m)
    (e : x.outQueue = n :: rest) : x.frameSent = { x with sending := some n, outQueue := rest } := by
  unfold Port.frameSent
  rw [h, e]

theorem pressFrameSent_finish (ha : s.agenda = []) :
    exec (.pressFrameSent p) s = .next (s.setPort p (s.port p).frameSent).pump :=
  congrArg Host.Outcome.next (finish_of_idle (by exact ha))

end

/-- Settles O46: clause by clause, the run of bytes and what its last byte brings; then the gap, the port that does not hear,
and the sender. -/
theorem pressReceiver : Obligations.PressReceiver := by
  intro s p ha x discarded
  refine ⟨fun h => ⟨fun junk absent => ?_, fun n hn range => ?_, fun counted c1 c0 h1 h2 differs => ?_,
    fun kind body hb => ⟨fun unread => ?_, fun foreign => ?_⟩⟩,
    fun hears hm => ⟨fun late => ?_, fun early => ?_⟩, fun deaf bytes => ?_,
    fun m hs => ⟨fun empty => ?_, fun n rest hq => ?_⟩⟩
  · refine congrArg Host.Outcome.next ?_
    rw [pressBytes_between s p _ h.between h.hears, pressRun p _ s (.header []) ha (by simp)
      (by rw [hunts_of_between h.between]; exact press_search junk absent)]
    exact finish_of_idle (by exact ha)
  · refine congrArg Host.Outcome.next ?_
    rw [press_frame_badLength s p n h hn range]
    exact pressEvent_dropped s p _ (.inl rfl) ha
  · refine congrArg Host.Outcome.next ?_
    rw [press_frame_whole s p counted c1 c0 h h1 h2]
    exact pressEvent_dropped s p _ (.inr (.inl (if_neg differs))) ha
  · refine congrArg Host.Outcome.next ?_
    rw [pressBytes_pressFrame s p kind body h hb]
    exact pressEvent_dropped s p _ (.inr (.inr ⟨kind, body, rfl, unread⟩)) ha
  · refine congrArg Host.Outcome.next ?_
    have idle : (s.setPort p (x.heard s.partTime)).agenda = [] := ha
    have ignored : (s.setPort p (x.heard s.partTime)).pressEvent p (.frame (kind :: body))
        = s.setPort p (x.heard s.partTime) := by
      simp only [State.pressEvent, foreign, State.takeMessage]
    rw [pressBytes_pressFrame s p kind body h hb, ignored, settle_of_idle _ idle, finish_of_idle idle]
  · rw [pressFrameGapExpiry_heard s p hears, pressGap_finish s p hm ha, if_pos late]
    rfl
  · rw [pressFrameGapExpiry_heard s p hears, pressGap_finish s p hm ha, if_neg (Nat.not_lt.mpr early)]
  · obtain ⟨taken, expiry⟩ := unheard s p deaf ha bytes
    have none : Host.Outcome.next (s.pressBytes p bytes).finish = (.next s.pump : Host.Outcome State Fault Refusal) :=
      congrArg Host.Outcome.next taken
    exact ⟨none, none, none, expiry⟩
  · rw [pressFrameSent_finish s p ha, frameSent_idle hs empty]
  · rw [pressFrameSent_finish s p ha, frameSent_next hs hq]

end Sys2Proof.Machine
end

section
/-! The control link (chapter 1), third part: the outbound line, the tests of a request, and the part-wide requests. -/

namespace Sys2Proof.Machine

/-- Settles O2: an empty queue is a tick. -/
theorem idleStepIsOneMillisecond : Obligations.IdleStepIsOneMillisecond := by
  intro s h
  unfold step
  split
  · rename_i e
    rw [h] at e
    cases e
  · rfl

/-- Settles O4: block by block, and by index where a block is a table. -/
theorem resetValues : Obligations.ResetValues := by
  refine ⟨⟨rfl, rfl, rfl, rfl, rfl, rfl, rfl⟩, rfl, fun j => ?_, rfl, rfl, fun l => ?_, rfl, fun p => ?_, fun c => ?_,
    fun t => ?_, fun a => ?_, rfl, rfl, rfl, rfl, rfl, fun p => ?_, rfl⟩
  all_goals
    simp [State.reset, State.job, State.imagesOf, State.readyAt, State.assignment, State.port, State.account, State.alert,
      Spool.afterPowerOn, Dispatcher.afterReset, Meter.afterReset, Port.afterReset]

section
variable {s : State} {r : Request} {rest : List Request}

/-! ## The outbound line (R7, R12) -/

/-- The end of a frame that is no RESET's reply leaves the line idle and the reset where it stood. -/
theorem endOutbound_idle {f : OutFrame} (h : s.link.outbound = some f) (n : ∀ r, f = .reply r → r.ofReset = false) :
    s.endOutbound = s.modLink (fun l => { l with outbound := none }) := by
  unfold State.endOutbound
  rw [h]
  cases f with
  | reply r =>
    simp only [n r rfl]
  | notice m => rfl

/-- The end of a RESET's reply makes the reset due. -/
theorem endOutbound_reset {x : Reply} {k : ResetKind} (h : s.link.outbound = some (.reply x)) (hx : x.ofReset = true)
    (hk : s.link.reset = .pending k) :
    s.endOutbound = s.modLink (fun l => { l with outbound := none, reset := .due k }) := by
  unfold State.endOutbound State.modLink
  rw [h]
  simp only [hx, hk]

/-- Settles O11: the line, idle at the end of its frame, chooses anew unless a reset has fallen due. -/
theorem outboundLineGoesOn : Obligations.OutboundLineGoesOn := by
  intro s f h ha hd
  refine ⟨fun n => ?_, fun x k hf hx hk => ?_⟩
  · have ends : exec .outboundFrameEnd s = .next (s.modLink (fun l => { l with outbound := none })).pump := by
      rw [← endOutbound_idle h n]
      exact congrArg Host.Outcome.next (finish_of_idle (by rw [endOutbound_idle h n]; exact ha))
    refine ⟨fun x l hr => ?_, fun m l hr hn => ?_, fun hr hn => ?_⟩
    · exact ends.trans (congrArg Host.Outcome.next (pump_reply x l rfl (by exact hd) (by exact hr)))
    · exact ends.trans (congrArg Host.Outcome.next (pump_notice m l rfl (by exact hd) (by exact hr) (by exact hn)))
    · exact ends.trans (congrArg Host.Outcome.next (pump_nothing (by exact hr) (by exact hn)))
  · subst hf
    have ends : exec .outboundFrameEnd s = .next (s.modLink (fun l => { l with outbound := none, reset := .due k })).pump := by
      rw [← endOutbound_reset h hx hk]
      exact congrArg Host.Outcome.next (finish_of_idle (by rw [endOutbound_reset h hx hk]; exact ha))
    exact ends.trans (congrArg Host.Outcome.next (pump_due k rfl))

/-! ## The tests of a request (R4, R5) -/

/-- A reply placed to the oldest request, with nothing left to bring about, is the request answered. -/
theorem State.Oldest.placed (h : s.Oldest r rest) (st : Status) (body : List Byte) :
    (s.placeReply { tag := r.tag, status := st, body := body, ofReset := false }).finish = s.answered r st body :=
  finish_of_idle (by exact h.agenda)

/-- The oldest request, of the kind that its row serves, is judged. -/
theorem State.Oldest.judged (h : s.Oldest r rest) (owner : State → List Byte → Answer) :
    s.serve r.kind owner = s.judgeRequest r owner := by
  unfold State.serve
  rw [h.requests]
  exact if_pos (by simp [h.canServe])

theorem State.Oldest.misfit (h : s.Oldest r rest) (owner : State → List Byte → Answer) (hl : lengthFits r = false) :
    (s.serve r.kind owner).finish = s.answered r .badField [] := by
  rw [h.judged, State.judgeRequest, hl]
  exact h.placed _ _

theorem State.Oldest.notReady (h : s.Oldest r rest) (owner : State → List Byte → Answer) (hl : lengthFits r = true)
    (hr : s.spool.startUp.refuses = true) (hk : servedAlways r.kind = false) :
    (s.serve r.kind owner).finish = s.answered r .notReady [] := by
  rw [h.judged, State.judgeRequest, hl, hr, hk]
  exact h.placed _ _

theorem State.Oldest.unknown (h : s.Oldest r rest) (hk : requestLength r.kind = none) :
    s.serveUnknown.finish = s.answered r .badField [] := by
  unfold State.serveUnknown
  rw [h.requests]
  dsimp only
  rw [if_pos (by simp [h.canServe, hk])]
  exact h.placed _ _

/-- Every row that serves a request kind is the service of that kind by its owner (R4). -/
theorem exec_serves {i : Instr} {kind : Byte} (h : requestKind i = some kind) :
    ∃ owner, ∀ s, exec i s = .next (s.serve kind owner).finish := by
  cases i <;> cases h <;> exact ⟨_, fun _ => rfl⟩

/-- Settles O13: each row is the service of its kind, and the service judges in this order. -/
theorem requestTestsInOrder : Obligations.RequestTestsInOrder := by
  intro s r rest h
  refine ⟨fun hk => congrArg Host.Outcome.next (h.unknown hk), fun i kind hi hk => ?_⟩
  subst hk
  obtain ⟨owner, serves⟩ := exec_serves hi
  rw [serves]
  exact ⟨fun hl => congrArg Host.Outcome.next (h.misfit owner hl),
    fun hl hr hk => congrArg Host.Outcome.next (h.notReady owner hl hr hk)⟩

/-! ## IDENTIFY, RESET and the settings (R9, R10, R12, R16, R17) -/

/-- A request of a kind served in every start-up state passes the tests of R4 once its length fits. -/
theorem State.Oldest.takesAlways {kind : Byte} (h : s.Oldest r rest) (hk : r.kind = kind) (hl : lengthFits r = true)
    (ha : servedAlways kind = true) : s.Takes kind r rest :=
  { h with isKind := hk, fits := hl, served := fun _ => ha }

/-- Settles O14: IDENTIFY is carried out in every start-up state, and its owner leaves the state as it is. -/
theorem identifyAnswered : Obligations.IdentifyAnswered := by
  intro s r rest h hk hb
  have takes : s.Takes 0x01 r rest :=
    h.takesAlways hk (by simp [lengthFits, requestLength, unusedBitsClear, hk, hb]) rfl
  exact congrArg Host.Outcome.next (takes.done answerIdentify s _ rfl h.agenda h.reset)

/-- An accepted RESET is answered OK and pends (R12). -/
theorem State.Takes.resetAccepted (h : s.Takes 0x03 r rest) (k : ResetKind)
    (e : answerReset s r.body = .done (s.modLink (fun l => { l with reset := .pending k })) (fun _ => [])) :
    (s.serve 0x03 answerReset).finish =
      State.pump { s with link := { s.link with
        requests := rest
        service := none
        reset := .pending k
        replies := s.link.replies ++ [{ tag := r.tag, status := .ok, body := [], ofReset := true }] } } := by
  have idle : (s.modLink (fun l => { l with reset := .pending k })).settle
      = s.modLink (fun l => { l with reset := .pending k }) := settle_of_idle _ h.agenda
  have left : s.link.requests.drop 1 = rest := by rw [h.requests]; rfl
  rw [h.serve, e]
  unfold State.conclude
  dsimp only
  rw [idle]
  unfold State.replyOk State.placeReply
  rw [finish_of_idle (by exact h.agenda)]
  simp only [State.modLink, left]
  rfl

/-- Settles O16: by the kind byte of the body. -/
theorem resetRequestPends : Obligations.ResetRequestPends := by
  intro s r rest b h hk hb
  have takes : s.Takes 0x03 r rest :=
    h.takesAlways hk (by simp [lengthFits, requestLength, unusedBitsClear, hk, hb]) rfl
  refine ⟨fun k c => ?_, fun hb1 starting => ?_, fun large => ?_⟩
  · refine congrArg Host.Outcome.next (takes.resetAccepted k ?_)
    rw [hb]
    rcases c with ⟨rfl, rfl⟩ | ⟨rfl, rfl, n⟩
    · rfl
    · exact if_neg (by simpa using n)
  · refine congrArg Host.Outcome.next (takes.refused answerReset .badState ?_)
    rw [hb, hb1]
    exact if_pos (by simpa using starting)
  · refine congrArg Host.Outcome.next (takes.refused answerReset .badField ?_)
    have unknown : ResetKind.ofCode? b = none := by
      unfold ResetKind.ofCode?
      rw [if_neg (by rintro rfl; simp at large), if_neg (by rintro rfl; simp at large)]
    unfold answerReset
    rw [hb, show byteAt [b] 0 = b from rfl, unknown]

/-- Settles O18: each number is read where the body carries it. -/
theorem settingsTaken : Obligations.SettingsTaken := by
  intro s r rest
  refine ⟨fun b h hb => ?_, fun l v hv h hb => ?_, fun p g w i hg hw hi h hb => ?_⟩
  · exact congrArg Host.Outcome.next (h.done answerNoticeMask (s.modLink (fun l => { l with enable := b })) (fun _ => [b])
      (by rw [hb]; rfl) h.agenda h.reset)
  · have slice : field (byte l.val :: num 4 v) 1 4 = v := by
      simpa using field_num [byte l.val] [] (n := 4) hv
    refine congrArg Host.Outcome.next (h.done answerLevelSet _ (fun _ => byte l.val :: num 4 (min v 600000)) ?_ h.agenda h.reset)
    unfold answerLevelSet
    rw [hb, show byteAt (byte l.val :: num 4 v) 0 = byte l.val from rfl, level_byte, slice]
  · have fg : field r.body 1 2 = g := by
      rw [hb]; simpa using field_num [byte p.val] (num 2 w ++ num 2 i) (n := 2) hg
    have fw : field r.body 3 2 = w := by
      rw [hb]; simpa [num_length] using field_num (byte p.val :: num 2 g) (num 2 i) (n := 2) hw
    have fi : field r.body 5 2 = i := by
      rw [hb]; simpa [num_length] using field_num (byte p.val :: num 2 g ++ num 2 w) [] (n := 2) hi
    refine congrArg Host.Outcome.next (h.done answerPortSet
      (s.setPort p { s.port p with grace := min g 250, gateWait := min w 60000, interval := max 10 (min i 600) })
      (fun _ => byte p.val :: byte (min g 250) :: num 2 (min w 60000) ++ num 2 (max 10 (min i 600))) ?_ h.agenda h.reset)
    unfold answerPortSet withPort
    rw [fg, fw, fi, hb, show byteAt (byte p.val :: num 2 g ++ num 2 w ++ num 2 i) 0 = byte p.val from rfl, port_byte]
    rfl

end

end Sys2Proof.Machine
end

section
/-! The control link (chapter 1), fourth part: the bodies of notices and of query replies, as the numbers they carry (R184,
R186 to R191). -/

namespace Sys2Proof.Machine

/-! ## Notices -/

theorem jobNoticeBody_spelled (j : Slot) (before : JobState) (x : Job) :
    jobNoticeBody j before x = spelled
      [(1, j.val), (4, x.label.toNat), (1, before.code.toNat), (1, x.state.code.toNat), (4, x.next), (4, x.good),
       (4, x.waste), (8, x.charge), (1, portOr x.lastPort)] := by
  simp [jobNoticeBody, spelled_cons, num_one, byte_toNat, byte_portOr, word32]

theorem bandLostBody_spelled (j : Slot) (label : Word32) (image index : Nat) (counts : Planes) (block : Nat)
    (reader : Option PortNo) (present lost : Nat) :
    bandLostBody j label image index counts block reader present lost = spelled
      [(1, j.val), (4, label.toNat), (2, image), (1, index), (4, counts.p0), (4, counts.p1), (4, counts.p2),
       (4, counts.p3), (2, block), (1, portOr reader), (1, present), (1, lost)] := by
  simp [bandLostBody, spelled_cons, num_one, byte_portOr, word32, planesWire]

/-- The numbers of a PORT notice's reason (R87, R192). -/
def PortReason.numbers : PortReason → List (Nat × Nat)
  | .state job => (1, 0) :: maybe 1 (job.map (·.val))
  | .hold => [(1, 1)]
  | .identityRejected case => [(1, 2), (1, case)]
  | .setupRefused slot code => [(1, 3), (1, slot.val), (1, code.toNat)]
  | .looptest count sent returned early => [(1, 4), (1, count), (1, sent), (1, returned), (1, one early)]

theorem PortReason.wire_spelled (reason : PortReason) : reason.wire = spelled reason.numbers := by
  cases reason with
  | state job => simp [PortReason.wire, PortReason.numbers, spelled_cons, num_one, spelled_maybe]; rfl
  | hold => rfl
  | identityRejected case => simp [PortReason.wire, PortReason.numbers, spelled_cons, num_one]; rfl
  | setupRefused slot code => simp [PortReason.wire, PortReason.numbers, spelled_cons, num_one, byte_toNat]; rfl
  | looptest count sent returned early =>
    simp [PortReason.wire, PortReason.numbers, spelled_cons, num_one, byte_one]; rfl

theorem portNoticeBody_spelled (p : PortNo) (before : PortState) (x : Port) (reason : PortReason) :
    portNoticeBody p before x reason = spelled
      ([(1, p.val), (1, before.code.toNat), (1, x.state.code.toNat), (1, one x.held), (1, (PortClass.code x.cls).toNat)]
        ++ reason.numbers) := by
  simp [portNoticeBody, PortReason.wire_spelled, spelled_cons, num_one, byte_toNat, byte_one]

theorem stockBody_spelled (j : Slot) (x : Job) (waiting : Nat) :
    stockBody j x waiting = spelled
      [(1, j.val), (4, x.label.toNat), (1, x.stock.toNat), (1, x.level.val), (1, waiting)] := by
  simp [stockBody, spelled_cons, num_one, byte_toNat, word32]

/-- Settles O12: the three branches of a raised notice, and the bodies one by one. -/
theorem noticeQueuedOrDropped : Obligations.NoticeQueuedOrDropped := by
  intro s k body
  refine ⟨fun off => ?_, fun on room => ?_, fun on full => ?_, jobNoticeBody_spelled, bandLostBody_spelled,
    fun p before x reason => ?_, stockBody_spelled⟩
  · simp only [State.notify, off, Bool.not_false, if_true]
  · simp only [State.notify, on, room, Bool.not_true, Bool.false_eq_true, if_false, if_true]
    rfl
  · simp only [State.notify, on, Nat.not_lt.mpr full, Bool.not_true, Bool.false_eq_true, if_false]
    rfl
  · rw [portNoticeBody_spelled]
    cases reason <;> rfl

/-! ## Query replies -/

/-- JOB_QUERY's reply (R33). -/
theorem jobBody_spelled (j : Slot) (x : Job) : jobBody j x = spelled (x.numbers j) := by
  have setup : spelled ([x.setup.bin, x.setup.finishing, x.setup.profile, x.setup.quality, x.setup.offset].flatMap
      (fun o => maybe 1 (o.map BitVec.toNat))) = setupRecordWire x.setup :=
    spelled_flatMap _ _ _ fun _ => spelled_maybe 1 _
  have refused : portSetWire x.refusedBy = num 2 (bits x.refusedBy.toList) := by rw [portSetWire, bits_eq]
  simp only [Job.numbers, spelled_append, setup]
  simp [jobBody, spelled_cons, num_one, byte_toNat, byte_one, byte_portOr, byte_bits, spelled_maybe, word32, refused,
    Job.total]

/-- The capabilities of a PORT_QUERY reply (R86, R98). -/
theorem capsWire_spelled (c : Option Capabilities) : capsWire c = spelled (capsNumbers c) := by
  cases c with
  | none => rfl
  | some c =>
    have low : byte (c.classes.toNat % 256) = BitVec.ofNat 8 c.classes.toNat :=
      BitVec.eq_of_toNat_eq (by simp [byte])
    simp only [capsWire, capsNumbers, spelled_cons, spelled_nil, num_one, byte_one, low, List.cons_append, List.nil_append]
    rfl

/-- PORT_QUERY's reply (R98, R101). -/
theorem portBody_spelled (x : Port) (job : Option Slot) : portBody x job = spelled (x.numbers job) := by
  have trays : spelled (x.trays.flatMap (fun t => [(1, t.number.toNat), (1, t.stock.toNat), (1, one t.loaded)]))
      = x.trays.flatMap trayWire :=
    spelled_flatMap _ _ _ fun t => by simp [spelled_cons, num_one, byte_toNat, byte_one, trayWire]
  have sheets : spelled (x.path.flatMap
      (fun z => [(1, z.tag.toNat), (4, z.ordinal), (1, z.state.code.toNat), (1, z.mark.code.toNat)]))
      = x.path.flatMap sheetWire :=
    spelled_flatMap _ _ _ fun z => by simp [spelled_cons, num_one, byte_toNat, sheetWire]
  have reads : spelled (x.reads.flatMap (fun q => [(1, q.tag.toNat), (1, one q.back), (1, q.band)]))
      = x.reads.flatMap (fun r => [r.tag, flag r.back, byte r.band]) :=
    spelled_flatMap _ _ _ fun q => by simp [spelled_cons, num_one, byte_toNat, byte_one]
  have absent : byte 0 = 0 := rfl
  have present : byte 1 = 1 := rfl
  unfold portBody Port.numbers
  cases x.request <;> rcases x.refusal with _ | ⟨slot, code⟩ <;>
    simp [requestNumbers, refusalNumbers, spelled_append, spelled_cons, trays, sheets, reads, num_one, byte_toNat, byte_one,
      spelled_maybe, ← capsWire_spelled, word32, timerWire, absent, present]

theorem twos_int32 (v : Int) : num 4 (twos v) = int32 v := rfl

/-- An account record's part of a reply (R154, R156). -/
theorem accountBody_spelled (a : AccountNo) (x : Account) : accountBody a x = spelled (x.numbers a) := by
  simp [accountBody, Account.numbers, spelled_append, spelled_cons, num_one, byte_toNat, spelled_maybe, twos_int32]

theorem jobsOf_count (s : State) (a : AccountNo) (st : JobState) :
    s.jobsOf a st
      = ((List.finRange 128).filter (fun j => (s.job j).map (fun x => (x.account, x.state)) = some (a, st))).length := by
  unfold State.jobsOf allSlots
  congr 1
  refine List.filter_congr fun j _ => ?_
  cases s.job j <;> simp

theorem jobsIn_count (s : State) (st : JobState) :
    s.jobsIn st = ((List.finRange 128).filter (fun j => (s.job j).map (·.state) = some st)).length := by
  unfold State.jobsIn allSlots State.jobIs
  congr 1
  refine List.filter_congr fun j _ => ?_
  cases s.job j <;> simp

/-- ACCOUNT_QUERY's reply (R160). -/
theorem accountQueryBody_spelled (s : State) (a : AccountNo) : accountQueryBody s a = spelled (s.accountNumbers a) := by
  unfold accountQueryBody State.accountNumbers
  rw [spelled_append, ← accountBody_spelled, spelled_map]
  simp only [jobsOf_count]
  rfl

theorem causeSetWire_spelled (c : CauseSet) : causeSetWire c = spelled c.numbers := by
  simp [causeSetWire, CauseSet.numbers, spelled_append, spelled_cons, num_one, byte_bits, spelled_maybe, CauseSet.flags]

/-- ALERT_QUERY's reply (R179). -/
theorem alertQueryBody_spelled (s : State) : alertQueryBody s = spelled s.alertNumbers := by
  unfold alertQueryBody State.alertNumbers
  rw [spelled_append]
  congr 1
  · refine (spelled_flatMap _ _ _ fun p => ?_).symm
    simp only [spelled_append, spelled_cons, spelled_nil, ← causeSetWire_spelled, num_one, byte_one, spelled_maybe,
      shownRank_eq, alertQueryWire, List.append_nil]
  · simp [spelled_cons, num_one, byte_portOr]

/-- STATUS's reply (R11, R189). -/
theorem statusBody_spelled (s : State) : statusBody s = spelled s.statusNumbers := by
  have used : s.usedBlocks = ((List.finRange 128).map (fun j => (imageBlocks (s.imagesOf j)).length)).sum := rfl
  have free : (allSlots.filter (fun j => (s.job j).isNone)) = (List.finRange 128).filter (fun j => s.job j = none) := by
    unfold allSlots
    refine List.filter_congr fun j _ => ?_
    cases s.job j <;> simp
  unfold statusBody State.statusNumbers
  simp only [spelled_append, spelled_map, byte_toNat, free, used, jobsIn_count]
  simp [spelled_cons, num_one, byte_toNat, byte_one, word32, jobStates, allPorts]

/-- Settles O15: the owner of each query answers with the body, and the body spells the numbers. -/
theorem queriesReportAsItStands : Obligations.QueriesReportAsItStands := by
  intro s r rest
  refine ⟨fun j x h hb hx => ?_, fun p h hb => ?_, fun a h hb => ?_, fun h => ?_, fun h => ?_⟩
  · refine congrArg Host.Outcome.next (h.done answerJobQuery s (fun _ => spelled (x.numbers j)) ?_ h.agenda h.reset)
    unfold answerJobQuery withJob
    rw [hb, show byteAt [byte j.val] 0 = byte j.val from rfl, slot_byte]
    simp only [hx, jobBody_spelled]
  · refine congrArg Host.Outcome.next
      (h.done answerPortQuery s (fun _ => spelled ((s.port p).numbers (s.assigned p))) ?_ h.agenda h.reset)
    unfold answerPortQuery withPort
    rw [hb, show byteAt [byte p.val] 0 = byte p.val from rfl, port_byte]
    simp only [portBody_spelled]
  · refine congrArg Host.Outcome.next (h.done answerAccountQuery s (fun _ => spelled (s.accountNumbers a)) ?_ h.agenda h.reset)
    unfold answerAccountQuery withAccount
    rw [hb, show byteAt [byte a.val] 0 = byte a.val from rfl, account_byte]
    simp only [accountQueryBody_spelled]
  · refine congrArg Host.Outcome.next (h.done answerAlertQuery s (fun _ => spelled s.alertNumbers) ?_ h.agenda h.reset)
    rw [answerAlertQuery, alertQueryBody_spelled]
  · refine congrArg Host.Outcome.next (h.done answerStatus (s.modLink (fun l => { l with overflow := false }))
      (fun _ => spelled s.statusNumbers) ?_ h.agenda h.reset)
    rw [answerStatus, statusBody_spelled]

end Sys2Proof.Machine
end

section
/-! The control link (chapter 1), last part: the resets of the part, and the readings of the sense lines that follow a START
notice (R13, R14, R42, R81). -/

namespace Sys2Proof.Machine

/-! ## The readings of the sense lines (R81) -/

/-- The state that a reading of the line signal and the sense lines gives a port (R81). -/
def sensedState (signal : Bool) (sense : Sense) : PortState :=
  if signal = false then .absent
  else if sense = 0 ∨ sense = 1 then .identifying
  else if sense = 2 then .absent
  else .probing

/-- A state that differs from another in the link interface and the ports alone. -/
def State.BesidePorts (s t : State) : Prop := t = { s with link := t.link, ports := t.ports }

/-- A port has come to a state, and the step there has touched the link interface and that port alone. -/
structure State.PortCame (s t : State) (p : PortNo) (st : PortState) : Prop where
  rest : s.BesidePorts t
  entered : (t.port p).state = st
  others : ∀ q, q ≠ p → t.port q = s.port q

section
variable {s t u : State} {p : PortNo} {st st' : PortState}

theorem State.BesidePorts.refl (s : State) : s.BesidePorts s := rfl

theorem State.BesidePorts.trans (h : s.BesidePorts t) (k : t.BesidePorts u) : s.BesidePorts u := by
  unfold State.BesidePorts at *
  rw [k, h]

theorem State.PortCame.refl (h : (s.port p).state = st) : s.PortCame s p st := ⟨.refl s, h, fun _ _ => rfl⟩

theorem State.PortCame.trans (h : s.PortCame t p st) (k : t.PortCame u p st') : s.PortCame u p st' :=
  ⟨h.rest.trans k.rest, k.entered, fun q n => (k.others q n).trans (h.others q n)⟩

/-- A change of other fields of the port leaves it where it came. -/
theorem State.PortCame.modPort (h : s.PortCame t p st) (f : Port → Port) (hf : ∀ x, (f x).state = x.state) :
    s.PortCame (t.modPort p f) p st :=
  h.trans ⟨rfl, by rw [State.modPort_port, if_pos rfl, hf]; exact h.entered,
    fun q n => by rw [State.modPort_port, if_neg (Ne.symm n)]⟩

theorem State.PortCame.send (h : s.PortCame t p st) (m : PressOut) : s.PortCame (t.send p m) p st :=
  h.modPort _ fun x => by unfold Port.queueOut; split <;> rfl

theorem enter_state (x : Port) (st : PortState) (now : Word32) : (x.enter st now).state = st := by
  unfold Port.enter
  dsimp only
  split <;> split <;> rfl

/-- An ABSENT port counts no stock: its change of state is its record and a PORT notice (R80). -/
theorem portTo_came (h : (s.port p).state = .absent) (st : PortState) : s.PortCame (s.portTo p st) p st := by
  by_cases e : (s.port p).state = st
  · rw [← e, portTo_same]
    exact .refl rfl
  · rw [portTo_kept_stock s p st e (.inl (by rw [h]; rfl)), State.notifyPort]
    refine ⟨?_, ?_, fun q n => ?_⟩
    · unfold State.BesidePorts
      rw [notify_eq]
      rfl
    · rw [notify_port, State.setPort_port, if_pos rfl, enter_state]
    · rw [notify_port, State.setPort_port, if_neg (Ne.symm n)]

/-- An ABSENT port reads its sense lines. -/
theorem readSenseAfresh_came (h : (s.port p).state = .absent) (sense : Sense) :
    s.PortCame (s.readSenseAfresh p sense) p (sensedState (s.port p).signal sense) := by
  have sensed : s.PortCame (s.modPort p (fun x => { x with cls := senseClass x.signal sense, receiver := .hunting })) p .absent :=
    (State.PortCame.refl h).modPort _ (by exact fun _ => rfl)
  have signal : ((s.modPort p (fun x => { x with cls := senseClass x.signal sense, receiver := .hunting })).port p).signal
      = (s.port p).signal := by rw [State.modPort_port, if_pos rfl]
  unfold State.readSenseAfresh
  refine State.PortCame.modPort ?_ _ (by exact fun _ => rfl)
  unfold State.readSense
  dsimp only
  rw [signal]
  revert sensed
  generalize s.modPort p (fun x => { x with cls := senseClass x.signal sense, receiver := .hunting }) = u
  intro sensed
  have goes : ∀ st, s.PortCame (u.portTo p st) p st := fun st => sensed.trans (portTo_came sensed.entered st)
  cases hs : (s.port p).signal with
  | false => exact goes .absent
  | true =>
    simp only [Bool.not_true, Bool.false_eq_true, if_false, Bool.or_eq_true, decide_eq_true_eq, sensedState,
      Bool.true_eq_false]
    split
    · exact ((goes .identifying).modPort _ (by exact fun _ => rfl)).send _
    · split
      · exact goes .absent
      · exact ((goes .probing).modPort _ (by exact fun _ => rfl)).send _

/-- Ports that are ABSENT read their sense lines one after another. -/
theorem foldl_readSenseAfresh (senses : Vector Sense 12) (l : List PortNo) (nodup : l.Nodup) :
    ∀ s : State, (∀ p ∈ l, (s.port p).state = .absent) →
      s.BesidePorts (l.foldl (fun s p => s.readSenseAfresh p senses[p]) s)
      ∧ ∀ p, ((l.foldl (fun s p => s.readSenseAfresh p senses[p]) s).port p).state =
          if p ∈ l then sensedState (s.port p).signal senses[p] else (s.port p).state := by
  induction l with
  | nil => exact fun s _ => ⟨.refl s, fun p => by simp⟩
  | cons q l ih =>
    intro s absent
    obtain ⟨new, nodup⟩ := List.nodup_cons.mp nodup
    have came := readSenseAfresh_came (absent q (by simp)) senses[q]
    have others : ∀ p ∈ l, (s.readSenseAfresh q senses[q]).port p = s.port p := fun p hp =>
      came.others p fun e => new (e ▸ hp)
    obtain ⟨rest, states⟩ := ih nodup (s.readSenseAfresh q senses[q]) fun p hp => by
      rw [others p hp]; exact absent p (List.mem_cons_of_mem q hp)
    refine ⟨came.rest.trans rest, fun p => ?_⟩
    rw [List.foldl_cons, states p]
    by_cases hp : p ∈ l
    · rw [if_pos hp, if_pos (List.mem_cons_of_mem q hp), others p hp]
    · rw [if_neg hp]
      by_cases e : p = q
      · subst e
        rw [if_pos List.mem_cons_self, came.entered]
      · rw [if_neg (by simp [hp, e]), came.others p e]

/-- Where every port is ABSENT, the readings touch the link interface and the ports, and give each port its state (R81). -/
theorem readAllSenses_absent (senses : Vector Sense 12) (absent : ∀ p, (s.port p).state = .absent) :
    s.BesidePorts (s.readAllSenses senses)
    ∧ ∀ p, ((s.readAllSenses senses).port p).state = sensedState (s.port p).signal senses[p] := by
  obtain ⟨rest, states⟩ := foldl_readSenseAfresh senses allPorts (List.nodup_finRange 12) s fun p _ => absent p
  exact ⟨rest, fun p => (states p).trans (if_pos (List.mem_finRange p))⟩

end

/-! ## The resets (R13, R14, R42) -/

theorem mem_blocksBut (retired : List Nat) (b : Nat) : b ∈ blocksBut retired ↔ b < 32768 ∧ b ∉ retired := by
  simp [blocksBut]

theorem quick_pool (x : Spool) : x.quick.pool = blocksBut x.retired := by simp only [Spool.quick]

/-- Every block at its reset values, and the spool manager as a QUICK reset leaves it (R13, R42). -/
def State.quickReset (s : State) : State := { s.blocksReset with spool := s.spool.quick }

/-- The START notice of a QUICK reset (R41, R42). -/
def State.quickStart (s : State) : Notice := { kind := .start, time := 0, body := startBody s.quickReset }

/-- The reset's state with the START notice waiting. -/
def State.quickTold (s : State) : State := s.quickReset.modLink (fun l => { l with notices := [s.quickStart] })

theorem quickTold_port (s : State) (p : PortNo) : s.quickTold.port p = (s.port p).afterPartReset := by
  simp [State.quickTold, State.quickReset, State.blocksReset, State.port]

theorem quickReset_notify (s : State) : s.quickReset.notify .start (startBody s.quickReset) = s.quickTold := by
  have enabled : s.quickReset.link.enable.getLsbD NoticeKind.start.bit = true := (by decide : (0xFF#8).getLsbD 0 = true)
  have room : s.quickReset.link.notices.length < 64 := (by decide : 0 < 64)
  unfold State.notify
  simp only [enabled, room, Bool.not_true, Bool.false_eq_true, if_false, if_true]
  rfl

/-- What QUICK leaves: the reset's state with the START notice sent and every port's sense lines read. -/
theorem takeReset_quick (s : State) (senses : Vector Sense 12) :
    let t := (s.takeReset .quick senses).finish
    s.quickReset.BesidePorts t
    ∧ (∃ waiting overflow, t.link =
        { Link.afterReset with notices := waiting, overflow := overflow, outbound := some (.notice s.quickStart) })
    ∧ ∀ p, (t.port p).state = sensedState (s.port p).signal senses[p] := by
  obtain ⟨rest, states⟩ := readAllSenses_absent (s := s.quickTold) senses fun p => by rw [quickTold_port]; rfl
  have calm := readAllSenses_calm s.quickTold senses
  have taken : s.takeReset .quick senses = s.quickTold.readAllSenses senses := by
    rw [← quickReset_notify]
    rfl
  rw [taken]
  generalize s.quickTold.readAllSenses senses = u at *
  obtain ⟨waiting, notices⟩ := calm.notices
  have link : u.link = { Link.afterReset with notices := s.quickStart :: waiting, overflow := u.link.overflow } := by
    rw [calm.link, ← notices]
    rfl
  have idle : u.agenda = [] := by rw [rest]; rfl
  have sent : u.finish = u.modLink (fun k => { k with outbound := some (.notice s.quickStart), notices := waiting }) := by
    rw [finish_of_idle idle]
    exact pump_notice _ _ (by rw [link]; rfl) (fun k => by rw [link]; exact ResetPhase.noConfusion) (by rw [link]; rfl)
      (by rw [link])
  have base : s.quickReset.BesidePorts u := State.BesidePorts.trans (t := s.quickTold) rfl rest
  intro t
  have ht : t = u.modLink (fun k => { k with outbound := some (.notice s.quickStart), notices := waiting }) := sent
  refine ⟨?_, ⟨waiting, u.link.overflow, ?_⟩, fun p => ?_⟩
  · rw [ht]
    exact base.trans rfl
  · rw [ht, State.modLink_link, link]
  · rw [ht, State.modLink_port, states p, quickTold_port]
    rfl

/-- Settles O17: FULL and power-on find nothing to send or to bring about; QUICK is `takeReset_quick`. -/
theorem resetsAndPowerOn : Obligations.ResetsAndPowerOn := by
  intro s
  have due : ∀ (senses : Vector Sense 12) k, s.link.reset = .due k →
      exec (.resetTakesEffect senses) s = .next (s.takeReset k senses).finish := fun senses k e => by
    show execResetTakesEffect senses s = _
    unfold execResetTakesEffect
    rw [e]
  have quiet : ∀ t : State, t.agenda = [] → t.link = .afterReset → t.finish = t := fun t ha hl => by
    rw [finish_of_idle ha]
    exact pump_nothing (by rw [hl]; rfl) (by rw [hl]; rfl)
  refine ⟨fun senses e => ?_, fun signals => ?_, fun senses e => ?_⟩
  · rw [due senses .full e]
    exact congrArg Host.Outcome.next (quiet s.blocksReset rfl rfl)
  · exact congrArg Host.Outcome.next (quiet _ rfl rfl)
  · obtain ⟨rest, ⟨waiting, overflow, link⟩, states⟩ := takeReset_quick s senses
    rw [due senses .quick e]
    generalize (s.takeReset .quick senses).finish = t at *
    have spool : t.spool = s.spool.quick := by rw [rest]; rfl
    refine ⟨t, rfl, by rw [rest]; rfl, fun j => ?_, by rw [rest]; rfl, fun p => ?_, by rw [link]; rfl, by rw [link]; rfl,
      by rw [link]; rfl, by rw [link]; rfl, by rw [spool]; rfl, by rw [spool]; rfl, fun b => ?_, by rw [spool]; rfl, ?_, states⟩
    · rw [rest]
      simp [State.quickReset, State.blocksReset, State.reset, State.job]
    · rw [rest]
      simp [State.quickReset, State.blocksReset, State.reset, State.alert]
    · rw [spool, quick_pool]
      exact mem_blocksBut s.spool.retired b
    · rw [link, spool]
      rfl

end Sys2Proof.Machine
end

section
/-! Job records (chapter 2), first part: as long as a slot holds its job, the job keeps its description and is billed with
its good sheets only. Most commands change records as `JobKept` says; those that fill or free a slot touch no other. -/

namespace Sys2Proof.Machine

/-- If a slot holds a job before and after, the job keeps its description and its bill follows its good sheets (R19, R22,
R152, R153). Unlike `JobKept`, this says nothing of a slot that is filled or freed. -/
def JobStays (o o' : Option Job) : Prop :=
  ∀ x y, o = some x → o' = some y →
    y.described = x.described ∧ x.good ≤ y.good ∧ x.charge ≤ y.charge ∧ (y.good = x.good → y.charge = x.charge)

/-- Every job that is there before and after stays as `JobStays` says. -/
def JobsStay (s t : State) : Prop := ∀ j, JobStays (s.job j) (t.job j)

theorem JobKept.stays {o o' : Option Job} (h : JobKept o o') : JobStays o o' := by
  rintro x y rfl rfl
  obtain ⟨described, good, charge, bill, _⟩ := h
  exact ⟨described, good, charge, bill⟩

theorem JobStays.of_free (o' : Option Job) : JobStays none o' := by rintro x y ⟨⟩

theorem JobStays.freed (o : Option Job) : JobStays o none := by rintro x y _ ⟨⟩

theorem JobStays.trans_kept {a b c : Option Job} (h : JobStays a b) (k : JobKept b c) : JobStays a c := by
  rintro x z rfl rfl
  cases b with
  | none => exact k.elim
  | some y =>
    obtain ⟨d1, g1, c1, b1⟩ := h x y rfl rfl
    obtain ⟨d2, g2, c2, b2⟩ := k.stays y z rfl rfl
    exact ⟨d2.trans d1, g1.trans g2, c1.trans c2, fun e => (b2 (by omega)).trans (b1 (by omega))⟩

variable {s t u : State}

theorem Kept.jobsStay (h : Kept s t) : JobsStay s t := fun j => (h.jobs j).stays

theorem JobsStay.of_jobs (h : t.jobs = s.jobs) : JobsStay s t := fun j => by
  have : t.job j = s.job j := by unfold State.job; rw [h]
  rw [this]
  exact (JobKept.refl _).stays

theorem JobsStay.then_kept (h : JobsStay s t) (k : Kept t u) : JobsStay s u := fun j => (h j).trans_kept (k.jobs j)

/-- What only moves the link interface on changes no job. -/
theorem JobsStay.then_jobs (h : JobsStay s t) (e : u.jobs = t.jobs) : JobsStay s u := fun j => by
  have : u.job j = t.job j := by unfold State.job; rw [e]
  rw [this]
  exact h j

theorem pump_jobs (s : State) : s.pump.jobs = s.jobs := by
  unfold State.pump
  split
  · rfl
  · rfl
  · split
    · rfl
    · split <;> rfl

theorem JobsStay.finish (h : JobsStay s t) : JobsStay s t.finish :=
  (h.then_kept (settle_kept t)).then_jobs (pump_jobs _)

/-! ## Requests -/

/-- What an owner's answer does to the jobs. -/
def Answer.JobsStay (s : State) : Answer → Prop
  | .refuse _ => True
  | .done t _ => Machine.JobsStay s t
  | .serving t => Machine.JobsStay s t

theorem conclude_jobsStay (tag : Word16) (a : Answer) (h : a.JobsStay s) : JobsStay s (s.conclude tag a) := by
  cases a with
  | refuse st => exact .of_jobs rfl
  | done t body => exact (JobsStay.then_kept h (settle_kept t)).then_jobs rfl
  | serving t => exact h

theorem serve_jobsStay (kind : Byte) (owner : State → List Byte → Answer) (h : ∀ body, (owner s body).JobsStay s) :
    JobsStay s (s.serve kind owner) := by
  unfold State.serve
  split
  · split
    · unfold State.judgeRequest
      split
      · exact .of_jobs rfl
      · split
        · exact .of_jobs rfl
        · exact conclude_jobsStay _ _ (h _)
    · exact .of_jobs rfl
  · exact .of_jobs rfl

theorem withPort_jobsStay (body : List Byte) (f : PortNo → Answer) (h : ∀ p, (f p).JobsStay s) :
    (withPort body f).JobsStay s := by
  unfold withPort
  split
  · exact h _
  · trivial

theorem withAccount_jobsStay (body : List Byte) (f : AccountNo → Answer) (h : ∀ a, (f a).JobsStay s) :
    (withAccount body f).JobsStay s := by
  unfold withAccount
  split
  · exact h _
  · trivial

theorem withJob_jobsStay (body : List Byte) (f : Slot → Job → Answer) (h : ∀ j x, s.job j = some x → (f j x).JobsStay s) :
    (withJob s body f).JobsStay s := by
  unfold withJob
  split
  · trivial
  · split
    · exact h _ _ (by assumption)
    · trivial

/-- JOB_OPEN fills a FREE slot, and what its placement does keeps every job (R27, R28). -/
theorem answerJobOpen_jobsStay (body : List Byte) : (answerJobOpen s body).JobsStay s := by
  unfold answerJobOpen
  split
  · trivial
  · rename_i j x e
    obtain ⟨_, free⟩ := judgeOpen_sound e
    have filled : ∀ st, JobsStay s (s.opened j x st) := fun st i => by
      have : (s.opened j x st).job i = if j = i then some { x with state := st } else s.job i := State.setJob_job s j _ i
      rw [this]
      split
      · rename_i same
        rw [← same, free]
        exact .of_free _
      · exact (JobKept.refl _).stays
    have placed : ∀ st, JobsStay s ((s.opened j x st).place j false) := fun st i =>
      (filled st i).trans_kept ((place_near (s.opened j x st) j false).jobs i).kept
    show JobsStay s (s.openJob j x)
    unfold State.openJob
    dsimp only
    split
    · exact filled _
    · split
      · exact placed _
      · exact placed _

theorem answerJobCancel_jobsStay (body : List Byte) : (answerJobCancel s body).JobsStay s := by
  refine withJob_jobsStay body _ fun j x hx => ?_
  have ends : x.state ≠ .running → JobsStay s ((s.unlist j).endJob j .cancelled) := fun n =>
    (cancelWaiting_kept s j fun y hy => by rw [hx] at hy; cases hy; exact n).jobsStay
  split
  case h_5 =>
    split
    · exact .of_jobs rfl
    · exact (flagJob_kept j x hx true x.suspend).jobsStay
  case h_6 | h_7 | h_8 => trivial
  all_goals
    rename_i e
    exact ends (by rw [e]; decide)

theorem answerJobSuspend_jobsStay (body : List Byte) : (answerJobSuspend s body).JobsStay s := by
  refine withJob_jobsStay body _ fun j x hx => ?_
  have aside : x.state ≠ .running → JobsStay s ((s.unlist j).jobTo j .paused) := fun n =>
    (standAside_kept s j .paused ⟨x, hx, n⟩ (by decide) rfl).jobsStay
  split
  case h_5 =>
    split
    · exact .of_jobs rfl
    · exact (flagJob_kept j x hx x.cancel true).jobsStay
  case h_6 | h_7 | h_8 => trivial
  all_goals
    rename_i e
    exact aside (by rw [e]; decide)

theorem answerJobResume_jobsStay (body : List Byte) : (answerJobResume s body).JobsStay s := by
  refine withJob_jobsStay body _ fun j x hx => ?_
  split
  · rename_i e
    split
    · exact (pausedHeld_kept s j x hx e).jobsStay
    · exact (place_calm s j false (by simp [State.jobIs, hx, e])).kept.jobsStay
  · split
    · exact (flagJob_kept j x hx x.cancel false).jobsStay
    · trivial
  all_goals trivial

theorem answerJobLevel_jobsStay (body : List Byte) : (answerJobLevel s body).JobsStay s := by
  refine withJob_jobsStay body _ fun j x hx => ?_
  split
  · trivial
  · split
    · trivial
    · exact (relevel_kept s j x _ hx).jobsStay

/-- JOB_FORGET frees a slot and leaves the others (R34). -/
theorem answerJobForget_jobsStay (body : List Byte) : (answerJobForget s body).JobsStay s := by
  refine withJob_jobsStay body _ fun j x _ => ?_
  split
  · intro i
    have : (s.forgetJob j).job i = if j = i then none else s.job i := State.setJob_job s j none i
    rw [this]
    split
    · exact .freed _
    · exact (JobKept.refl _).stays
  · trivial

theorem answerReset_jobsStay (body : List Byte) : (answerReset s body).JobsStay s := by
  unfold answerReset
  split
  · trivial
  · split
    · trivial
    · exact .of_jobs rfl

theorem answerLevelSet_jobsStay (body : List Byte) : (answerLevelSet s body).JobsStay s := by
  unfold answerLevelSet
  split
  · trivial
  · exact .of_jobs rfl

theorem answerBandPut_jobsStay (body : List Byte) : (answerBandPut s body).JobsStay s := by
  unfold answerBandPut
  split
  · trivial
  · exact .of_jobs rfl

theorem answerBandSum_jobsStay (body : List Byte) : (answerBandSum s body).JobsStay s := by
  unfold answerBandSum
  split
  · trivial
  · exact .of_jobs rfl

theorem answerPortHold_jobsStay (body : List Byte) : (answerPortHold s body).JobsStay s := by
  refine withPort_jobsStay body _ fun p => ?_
  split
  · exact .of_jobs rfl
  · exact ((setHeld_kept s p true).trans (post_kept _ _)).jobsStay

theorem answerPortRelease_jobsStay (body : List Byte) : (answerPortRelease s body).JobsStay s := by
  refine withPort_jobsStay body _ fun p => ?_
  split
  · exact (((setHeld_kept s p false).trans (post_kept _ _)).trans (post_kept _ _)).jobsStay
  · exact .of_jobs rfl

theorem answerPortLooptest_jobsStay (body : List Byte) : (answerPortLooptest s body).JobsStay s := by
  refine withPort_jobsStay body _ fun p => ?_
  dsimp only
  split
  · trivial
  · split
    · trivial
    · exact .of_jobs rfl

theorem answerSizeSet_jobsStay (body : List Byte) : (answerSizeSet s body).JobsStay s := by
  unfold answerSizeSet
  split
  · trivial
  · split
    · trivial
    · split
      · trivial
      · exact .of_jobs rfl

theorem answerTierSet_jobsStay (body : List Byte) : (answerTierSet s body).JobsStay s := by
  unfold answerTierSet
  split
  · trivial
  · split
    · trivial
    · exact .of_jobs rfl

/-- An account's change of state moves its waiting jobs, and leaves their descriptions and bills (R163, R164). -/
theorem accountTo_jobsStay (a : AccountNo) (x : Account) (c : AccountCause) : JobsStay s (s.accountTo a x c) := fun j =>
  (accountTo_calm s a x c j).kept.stays

theorem answerAccountSet_jobsStay (body : List Byte) : (answerAccountSet s body).JobsStay s := by
  refine withAccount_jobsStay body _ fun a => ?_
  split
  · trivial
  · split
    · trivial
    · split
      · exact accountTo_jobsStay _ _ _
      · exact accountTo_jobsStay _ _ _
      · trivial

theorem answerAccountLimits_jobsStay (body : List Byte) : (answerAccountLimits s body).JobsStay s := by
  refine withAccount_jobsStay body _ fun a => ?_
  split
  · trivial
  · split
    · trivial
    · split
      · trivial
      · exact accountTo_jobsStay _ _ _

theorem answerAccountCredit_jobsStay (body : List Byte) : (answerAccountCredit s body).JobsStay s := by
  refine withAccount_jobsStay body _ fun a => ?_
  split
  · trivial
  · exact accountTo_jobsStay _ _ _

theorem answerAccountClose_jobsStay (body : List Byte) : (answerAccountClose s body).JobsStay s := by
  refine withAccount_jobsStay body _ fun a => ?_
  split
  · trivial
  · exact .of_jobs rfl
  · exact accountTo_jobsStay _ _ _

theorem answerMeterPolicy_jobsStay (body : List Byte) : (answerMeterPolicy s body).JobsStay s := by
  unfold answerMeterPolicy
  split
  · trivial
  · dsimp only
    split
    · exact .of_jobs rfl
    · split
      · exact .of_jobs rfl
      · split
        · split
          · exact .of_jobs rfl
          · trivial
        · exact .of_jobs rfl

theorem answerMeterRead_jobsStay (body : List Byte) : (answerMeterRead s body).JobsStay s := by
  unfold answerMeterRead
  dsimp only
  split
  · trivial
  · show JobsStay s (s.readLog _)
    unfold State.readLog
    dsimp only
    split
    · exact .of_jobs rfl
    · exact .of_jobs rfl

theorem answerAlertAck_jobsStay (body : List Byte) : (answerAlertAck s body).JobsStay s := by
  refine withPort_jobsStay body _ fun p => ?_
  split
  · trivial
  · exact (acknowledge_kept s p).jobsStay

/-! ## The link's events, the ends of writes and reads, the resets -/

theorem placeError_jobs (s : State) (tag : Word16) (st : Status) : (s.placeError tag st).jobs = s.jobs := by
  unfold State.placeError
  split <;> rfl

theorem takeFrame_jobs (s : State) (r : Request) : (s.takeFrame r).jobs = s.jobs := by
  unfold State.takeFrame
  split
  · rfl
  · exact placeError_jobs _ _ _

theorem controlGap_jobs (s : State) : s.controlGap.jobs = s.jobs := by
  unfold State.controlGap
  split
  · exact placeError_jobs _ _ _
  · rfl

theorem controlByte_jobs (s : State) (b : Byte) : (s.controlByte b).jobs = s.jobs := by
  have event : ∀ (u : State) (e : RxEvent), (u.controlEvent e).jobs = u.jobs := fun u e => by
    unfold State.controlEvent
    split
    · exact placeError_jobs _ _ _
    · exact placeError_jobs _ _ _
    · exact takeFrame_jobs _ _
    · rfl
  unfold State.controlByte
  dsimp only
  split
  · exact event _ _
  · rfl

theorem controlBytes_jobs (s : State) (bytes : List Byte) : (s.controlBytes bytes).jobs = s.jobs := by
  have run : ∀ (l : List Byte) (u : State), (l.foldl State.controlByte u).jobs = u.jobs := fun l => by
    induction l with
    | nil => exact fun _ => rfl
    | cons b l ih => exact fun u => (ih _).trans (controlByte_jobs u b)
  unfold State.controlBytes
  split
  · rfl
  · exact (run _ _).trans (controlGap_jobs s)

theorem controlFrame_jobs (s : State) (r : Request) : (s.controlFrame r).jobs = s.jobs := by
  unfold State.controlFrame
  split
  · rfl
  · dsimp only
    split
    · exact takeFrame_jobs _ _
    · exact placeError_jobs _ _ _

theorem serveUnknown_jobs (s : State) : s.serveUnknown.jobs = s.jobs := by
  unfold State.serveUnknown
  split
  · split <;> rfl
  · rfl

theorem endOutbound_jobs (s : State) : s.endOutbound.jobs = s.jobs := by
  unfold State.endOutbound
  split <;> rfl

theorem storeBand_jobs (s : State) (w : BandWrite) : (s.storeBand w).jobs = s.jobs := by
  unfold State.storeBand
  split <;> rfl

/-- The end of a BAND_PUT's write fills a block and may set a port going (R48). -/
theorem writeEnds_jobsStay (s : State) (w : BandWrite) : JobsStay s (s.writeEnds w) := by
  have written : JobsStay s (s.writeBlock w.block w.payload) := .of_jobs rfl
  unfold State.writeEnds
  dsimp only
  generalize s.writeBlock w.block w.payload = u at written ⊢
  unfold finishPut
  split
  · exact written.then_jobs rfl
  · split
    · exact written.then_jobs rfl
    · exact (((written.then_jobs (storeBand_jobs u w)).then_kept (storeAndTell_kept u w)).then_kept
        (settle_kept _)).then_jobs rfl

theorem concludeSum_jobsStay (s : State) (r : SumRead) (parityError : Bool) : JobsStay s (s.concludeSum r parityError) := by
  have k : Kept s (s.endRead r.slot r.image r.band r.block parityError none).1 := endRead_kept _ _ _ _ _ _ _
  unfold State.concludeSum
  generalize s.endRead r.slot r.image r.band r.block parityError none = e at k ⊢
  obtain ⟨u, result⟩ := e
  cases result with
  | payload bytes => exact (k.jobsStay.then_kept (settle_kept u)).then_jobs rfl
  | lost => exact k.jobsStay.then_jobs rfl

/-- The reset values of the job table keep no job at all (R13, R14). -/
theorem JobsStay.of_reset (h : t.jobs = State.reset.jobs) : JobsStay s t := fun j => by
  have : t.job j = none := by simp [State.job, h, State.reset]
  rw [this]
  exact .freed _

theorem takeReset_jobsStay (s : State) (k : ResetKind) (senses : Vector Sense 12) : JobsStay s (s.takeReset k senses) := by
  cases k with
  | full => exact .of_reset rfl
  | quick => exact JobsStay.then_kept (t := { s.blocksReset with spool := s.spool.quick }) (.of_reset rfl) (startUp_kept _ _)

theorem attemptEnd_jobsStay (s : State) (passed : Bool) (senses : Vector Sense 12) :
    JobsStay s (s.attemptEnd passed senses) := by
  have next : ∀ u : State, u.jobs = s.jobs → JobsStay s (u.nextBlock senses) := fun u e => by
    unfold State.nextBlock
    split
    · refine JobsStay.then_kept ?_ (startUp_kept _ _)
      exact .of_jobs e
    · exact .of_jobs e
  unfold State.attemptEnd
  split
  · exact .of_jobs rfl
  · dsimp only
    split
    · exact next _ rfl
    · split
      · exact next _ rfl
      · exact .of_jobs rfl

/-! ## One command, one step -/

/-- Every next state that an outcome answers keeps the jobs as `JobsStay` says. -/
def AnswersJobsStay (s : State) (o : Host.Outcome State Fault Refusal) : Prop := ∀ t, o = .next t → JobsStay s t

theorem JobsStay.answers (h : JobsStay s t) : AnswersJobsStay s (.next t.finish) := fun u e => by cases e; exact h.finish

theorem Kept.answers (h : Kept s t) : AnswersJobsStay s (.next t.finish) := h.jobsStay.answers

theorem serve_answers (kind : Byte) (owner : State → List Byte → Answer) (h : ∀ body, (owner s body).JobsStay s) :
    AnswersJobsStay s (.next (s.serve kind owner).finish) := (serve_jobsStay kind owner h).answers

theorem exec_jobsStay (i : Instr) (s : State) : AnswersJobsStay s (exec i s) := by
  cases i with
  | receivedFrame kind tag body => exact (JobsStay.of_jobs (controlFrame_jobs s _)).answers
  | frameError bytes => exact (JobsStay.of_jobs (controlBytes_jobs s _)).answers
  | frameGapExpiry => exact (JobsStay.of_jobs (controlGap_jobs s)).answers
  | unknownRequest => exact (JobsStay.of_jobs (serveUnknown_jobs s)).answers
  | outboundFrameEnd => exact (JobsStay.of_jobs (endOutbound_jobs s)).answers
  | identify => exact serve_answers _ _ fun _ => .of_jobs rfl
  | status => exact serve_answers _ _ fun _ => .of_jobs rfl
  | reset => exact serve_answers _ _ answerReset_jobsStay
  | resetTakesEffect senses =>
    show AnswersJobsStay s (execResetTakesEffect senses s)
    unfold execResetTakesEffect
    split
    · exact (takeReset_jobsStay s _ senses).answers
    · exact (Kept.refl s).answers
  | powerOn signals =>
    exact JobsStay.answers (t := { State.reset with
      ports := signals.map (fun b => { Port.afterReset with signal := b }), choices := s.choices, pending := s.pending })
      (.of_reset rfl)
  | noticeMask => exact serve_answers _ _ fun _ => .of_jobs rfl
  | levelSet => exact serve_answers _ _ answerLevelSet_jobsStay
  | portSet => exact serve_answers _ _ fun body => withPort_jobsStay body _ fun _ => .of_jobs rfl
  | selfTestAttemptEnd passed senses => exact (attemptEnd_jobsStay s passed senses).answers
  | jobOpen => exact serve_answers _ _ answerJobOpen_jobsStay
  | jobCancel => exact serve_answers _ _ answerJobCancel_jobsStay
  | jobSuspend => exact serve_answers _ _ answerJobSuspend_jobsStay
  | jobResume => exact serve_answers _ _ answerJobResume_jobsStay
  | jobLevel => exact serve_answers _ _ answerJobLevel_jobsStay
  | jobQuery => exact serve_answers _ _ fun body => withJob_jobsStay body _ fun _ _ _ => .of_jobs rfl
  | jobForget => exact serve_answers _ _ answerJobForget_jobsStay
  | bandPut => exact serve_answers _ _ answerBandPut_jobsStay
  | bandPutWriteComplete =>
    show AnswersJobsStay s (execBandPutWriteComplete s)
    unfold execBandPutWriteComplete
    split
    · exact (writeEnds_jobsStay s _).answers
    · exact (Kept.refl s).answers
  | bandSum => exact serve_answers _ _ answerBandSum_jobsStay
  | bandSumReadEnd parityError =>
    show AnswersJobsStay s (execBandSumReadEnd parityError s)
    unfold execBandSumReadEnd
    split
    · exact (concludeSum_jobsStay s _ parityError).answers
    · exact (Kept.refl s).answers
  | spoolReadEnd p index parityError => exact (portReadEnd_kept s p index parityError).answers
  | sliceExpiry p => exact (sliceExpired_kept s p).answers
  | sizeSet => exact serve_answers _ _ answerSizeSet_jobsStay
  | tierSet => exact serve_answers _ _ answerTierSet_jobsStay
  | lineSignalReturns p sense => exact (signalReturns_kept s p sense).answers
  | lineSignalLost p => exact (signalLost_kept s p).answers
  | probeEcho p sequence pattern => exact (message_kept s p _).answers
  | probeTimeout p => exact (probeExpired_kept s p).answers
  | portLooptest => exact serve_answers _ _ answerPortLooptest_jobsStay
  | loopFrameExpiry p => exact (loopExpired_kept s p).answers
  | identity p contents => exact (message_kept s p _).answers
  | setupDone p => exact (message_kept s p _).answers
  | setupRefused p code => exact (message_kept s p _).answers
  | setupTimerExpiry p => exact (setupExpired_kept s p).answers
  | tray p item => exact (message_kept s p _).answers
  | portHold => exact serve_answers _ _ answerPortHold_jobsStay
  | portRelease => exact serve_answers _ _ answerPortRelease_jobsStay
  | portReset sense =>
    exact serve_answers _ _ fun body => withPort_jobsStay body _ fun p => (resetPort_kept s p sense).jobsStay
  | portQuery => exact serve_answers _ _ fun body => withPort_jobsStay body _ fun _ => .of_jobs rfl
  | pressFrameCheckFail p bytes => exact (pressBytes_kept s p bytes).answers
  | pressFrameGapExpiry p =>
    show AnswersJobsStay s (execPressFrameGapExpiry p s)
    unfold execPressFrameGapExpiry
    split
    · exact (pressGap_kept s p).answers
    · exact (Kept.refl s).answers
  | pressMessageIgnored p bytes => exact (pressBytes_kept s p bytes).answers
  | gateWaitExpiry p => exact (gateExpired_kept s p).answers
  | want p tag back band => exact (message_kept s p _).answers
  | bandGraceExpiry p => exact (graceExpired_kept s p).answers
  | picked p tag => exact (message_kept s p _).answers
  | delivered p tag => exact (message_kept s p _).answers
  | stop p reason items => exact (message_kept s p _).answers
  | cleared p => exact (message_kept s p _).answers
  | accountSet => exact serve_answers _ _ answerAccountSet_jobsStay
  | accountLimits => exact serve_answers _ _ answerAccountLimits_jobsStay
  | accountCredit => exact serve_answers _ _ answerAccountCredit_jobsStay
  | accountClose => exact serve_answers _ _ answerAccountClose_jobsStay
  | accountQuery => exact serve_answers _ _ fun body => withAccount_jobsStay body _ fun _ => .of_jobs rfl
  | meterPolicy => exact serve_answers _ _ answerMeterPolicy_jobsStay
  | meterRead => exact serve_answers _ _ answerMeterRead_jobsStay
  | escalationExpiry p => exact (escalate_kept s p).answers
  | alertAck => exact serve_answers _ _ answerAlertAck_jobsStay
  | alertQuery => exact serve_answers _ _ fun _ => .of_jobs rfl
  | panelLineSent => exact (lineSent_kept s).answers
  | markerPairSeen bytes => exact (JobsStay.of_jobs (controlBytes_jobs s _)).answers
  | pressMarkerSeen p bytes => exact (pressBytes_kept s p bytes).answers
  | pressFrameSent p => exact (frameSent_kept s p).answers

/-- Settles O7: a tick leaves the jobs alone, and every command keeps description and bill of each job that stays. -/
theorem jobKeepsDescriptionAndBill : Obligations.JobKeepsDescriptionAndBill := by
  intro s t j x y e hx hy
  unfold step at e
  split at e
  · exact exec_jobsStay _ _ t e j x y hx hy
  · cases e
    exact JobsStay.of_jobs (s := s) (t := s.tick) rfl j x y hx hy

end Sys2Proof.Machine
end

section
/-! Job records (chapter 2), second part: what the shared operations on jobs, lists and ports do, said once, and how a work
list that begins with a decision or with the choice of port is brought to its end. -/

namespace Sys2Proof.Machine

section
variable (s : State)

/-! ## Assigned jobs -/

@[simp] theorem setPort_assigned (p : PortNo) (x : Port) (k : PortNo) : (s.setPort p x).assigned k = s.assigned k := rfl
@[simp] theorem modPort_assigned (p : PortNo) (f : Port → Port) (k : PortNo) : (s.modPort p f).assigned k = s.assigned k := rfl
@[simp] theorem setJob_assigned (j : Slot) (x : Option Job) (k : PortNo) : (s.setJob j x).assigned k = s.assigned k := rfl
@[simp] theorem modJob_assigned (j : Slot) (f : Job → Job) (k : PortNo) : (s.modJob j f).assigned k = s.assigned k := rfl
@[simp] theorem setLists_assigned (r : Vector (List Slot) 8) (w : List Slot) (k : PortNo) :
    (s.setLists r w).assigned k = s.assigned k := rfl
@[simp] theorem post_assigned (t : Task) (k : PortNo) : (s.post t).assigned k = s.assigned k := rfl

theorem assigned_of_assignment {p : PortNo} {a : Assignment} (h : s.assignment p = some a) : s.assigned p = some a.slot := by
  unfold State.assigned; rw [h]; rfl

theorem assigned_of_portRunning {p : PortNo} {j : Slot} (h : s.portRunning j = some p) : s.assigned p = some j := by
  simpa using List.find?_some h

theorem portRunning_of_assigned {p : PortNo} {j : Slot} (h : s.assigned p = some j)
    (alone : ∀ q, s.assigned q = some j → q = p) : s.portRunning j = some p := by
  cases e : s.portRunning j with
  | some q => rw [alone q (assigned_of_portRunning s e)]
  | none =>
    have : p ∈ allPorts := List.mem_finRange p
    have none_runs : ∀ q ∈ allPorts, ¬ s.assigned q = some j := by simpa [State.portRunning] using e
    exact absurd h (none_runs p this)

/-! ## A record written as it was -/

theorem setJob_same {j : Slot} {x : Job} (h : s.job j = some x) : s.setJob j (some x) = s := by
  have : s.jobs.set j (some x) = s.jobs := by
    rw [← show s.jobs[j] = some x from h]
    simp
  unfold State.setJob
  rw [this]

/-! ## A job's change of state (R25) -/

theorem jobTo_eq (j : Slot) (st : JobState) :
    s.jobTo j st = { s with link := (s.jobTo j st).link, jobs := (s.jobTo j st).jobs } := by
  unfold State.jobTo
  split
  · split
    · rfl
    · rw [notify_eq]; rfl
  · rfl

@[simp] theorem jobTo_partTime (j : Slot) (st : JobState) : (s.jobTo j st).partTime = s.partTime := by rw [jobTo_eq]
@[simp] theorem jobTo_ports (j : Slot) (st : JobState) : (s.jobTo j st).ports = s.ports := by rw [jobTo_eq]
@[simp] theorem jobTo_meter (j : Slot) (st : JobState) : (s.jobTo j st).meter = s.meter := by rw [jobTo_eq]
@[simp] theorem jobTo_alerts (j : Slot) (st : JobState) : (s.jobTo j st).alerts = s.alerts := by rw [jobTo_eq]
@[simp] theorem jobTo_panel (j : Slot) (st : JobState) : (s.jobTo j st).panel = s.panel := by rw [jobTo_eq]
@[simp] theorem jobTo_choices (j : Slot) (st : JobState) : (s.jobTo j st).choices = s.choices := by rw [jobTo_eq]
@[simp] theorem jobTo_agenda (j : Slot) (st : JobState) : (s.jobTo j st).agenda = s.agenda := by rw [jobTo_eq]
@[simp] theorem jobTo_pending (j : Slot) (st : JobState) : (s.jobTo j st).pending = s.pending := by rw [jobTo_eq]
@[simp] theorem jobTo_port (j : Slot) (st : JobState) (p : PortNo) : (s.jobTo j st).port p = s.port p := by rw [jobTo_eq]; rfl
@[simp] theorem jobTo_account (j : Slot) (st : JobState) (a : AccountNo) : (s.jobTo j st).account a = s.account a := by
  rw [jobTo_eq]; rfl
@[simp] theorem jobTo_alert (j : Slot) (st : JobState) (p : PortNo) : (s.jobTo j st).alert p = s.alert p := by
  rw [jobTo_eq]; rfl
@[simp] theorem jobTo_assignment (j : Slot) (st : JobState) (p : PortNo) : (s.jobTo j st).assignment p = s.assignment p := by
  rw [jobTo_eq]; rfl
@[simp] theorem jobTo_assigned (j : Slot) (st : JobState) (p : PortNo) : (s.jobTo j st).assigned p = s.assigned p := by
  rw [jobTo_eq]; rfl
@[simp] theorem jobTo_readyAt (j : Slot) (st : JobState) (l : Level) : (s.jobTo j st).readyAt l = s.readyAt l := by
  rw [jobTo_eq]; rfl
@[simp] theorem jobTo_imagesOf (j : Slot) (st : JobState) (k : Slot) : (s.jobTo j st).imagesOf k = s.imagesOf k := by
  rw [jobTo_eq]; rfl

@[simp] theorem jobTo_reset (j : Slot) (st : JobState) : (s.jobTo j st).link.reset = s.link.reset := by
  unfold State.jobTo
  split
  · split
    · rfl
    · exact notify_reset _ _ _
  · rfl

theorem jobTo_link {j : Slot} {x : Job} {st : JobState} (h : s.job j = some x) (hs : x.state ≠ st) :
    (s.jobTo j st).link = (s.notify .job (jobNoticeBody j x.state { x with state := st })).link := by
  rw [jobTo_other s j x st h hs]
  exact notify_link_congr _ _ rfl rfl

/-- A job without a change of state keeps its record. -/
theorem jobTo_of_state {j : Slot} {x : Job} {st : JobState} (h : s.job j = some x) (hs : x.state = st) : s.jobTo j st = s := by
  rw [← hs]; exact jobTo_same s j x h

/-! ## The dispatcher's lists (R58, R60) -/

@[simp] theorem unlist_readyAt (j : Slot) (l : Level) : (s.unlist j).readyAt l = (s.readyAt l).filter (fun i => i ≠ j) := by
  simp [State.unlist, State.readyAt]

@[simp] theorem unlist_stockWait (j : Slot) :
    (s.unlist j).dispatch.stockWait = s.dispatch.stockWait.filter (fun i => i ≠ j) := rfl

@[simp] theorem unlist_job (j k : Slot) : (s.unlist j).job k = s.job k := rfl
@[simp] theorem unlist_port (j : Slot) (p : PortNo) : (s.unlist j).port p = s.port p := rfl
@[simp] theorem unlist_agenda (j : Slot) : (s.unlist j).agenda = s.agenda := rfl
@[simp] theorem unlist_link (j : Slot) : (s.unlist j).link = s.link := rfl
@[simp] theorem unlist_stockPresent (j : Slot) (b : Byte) : (s.unlist j).stockPresent b = s.stockPresent b := rfl

/-- A slot in no list leaves the lists as they are. -/
theorem unlist_of_unlisted {j : Slot} (h : s.unlisted j) : s.unlist j = s := by
  obtain ⟨ready, waiting⟩ := h
  have lists : s.dispatch.ready.map (fun l => l.filter (fun i => i ≠ j)) = s.dispatch.ready := by
    ext1 l hl
    have absent : j ∉ s.dispatch.ready[l] := ready ⟨l, hl⟩
    rw [Vector.getElem_map, List.filter_eq_self]
    intro i hi
    simpa using fun e : i = j => absent (e ▸ hi)
  have wait : s.dispatch.stockWait.filter (fun i => i ≠ j) = s.dispatch.stockWait := by
    rw [List.filter_eq_self]
    intro i hi
    simpa using fun e : i = j => waiting (e ▸ hi)
  unfold State.unlist
  rw [lists, wait]
  rfl

theorem joinReady_eq {j : Slot} {x : Job} (h : s.job j = some x) (atHead : Bool) :
    s.joinReady j atHead = { s with dispatch := { s.dispatch with
      ready := s.dispatch.ready.set x.level
        (if atHead then j :: s.readyAt x.level else s.readyAt x.level ++ [j]) } } := by
  unfold State.joinReady
  rw [h]
  rfl

/-- R61: a job whose stock is present joins its level, and the choice of port and the signal to feeding ports follow. -/
theorem place_ready {j : Slot} {x : Job} (h : s.job j = some x) (b : Bool) (p : s.stockPresent x.stock = true) :
    s.place j b = (((s.unlist j).joinReady j b).jobTo j .queued).seekPort j := by
  unfold State.place
  simp only [h, unlist_stockPresent, p, if_true]

/-- R61: a job whose stock is not present joins the stock wait list. -/
theorem place_waits {j : Slot} {x : Job} (h : s.job j = some x) (b : Bool) (p : s.stockPresent x.stock = false) :
    s.place j b = (((s.unlist j).joinWait j).jobTo j .stockwait).notifyStock j := by
  unfold State.place
  simp only [h, unlist_stockPresent, p, Bool.false_eq_true, if_false]

theorem notifyStock_eq {j : Slot} {x : Job} (h : s.job j = some x) :
    s.notifyStock j = s.notify .stock (stockBody j x s.dispatch.stockWait.length) := by
  unfold State.notifyStock
  rw [h]

@[simp] theorem notifyStock_job (j k : Slot) : (s.notifyStock j).job k = s.job k := by
  unfold State.notifyStock
  split
  · exact notify_job _ _ _ _
  · rfl

@[simp] theorem notifyStock_agenda (j : Slot) : (s.notifyStock j).agenda = s.agenda := by
  unfold State.notifyStock
  split
  · exact notify_agenda _ _ _
  · rfl

@[simp] theorem notifyStock_reset (j : Slot) : (s.notifyStock j).link.reset = s.link.reset := by
  unfold State.notifyStock
  split
  · exact notify_reset _ _ _
  · rfl

/-! ## Stopping to feed (R104) -/

/-- The record of a port that stops feeding now for a cause (R104). -/
def Port.stopped (x : Port) (c : DrainCause) (now : Word32) : Port :=
  { x with
    drain := some c, destination := some c.destination, gateTimer := none, wait := .none, state := .draining
    stateTime := now }

/-- The state of a port that stops feeding, before what follows from its empty path. -/
def State.drains (s : State) (p : PortNo) (c : DrainCause) : State :=
  (s.setPort p ((s.port p).stopped c s.partTime)).notifyPort p .feeding (.state (s.assigned p))

theorem stopFeeding_eq {p : PortNo} (c : DrainCause) (h : (s.port p).state = .feeding) :
    s.stopFeeding p c = (s.drains p c).post (.afterRemoval p) := by
  have told := portTo_kept_stock (s.modPort p (fun x => { x with
    drain := some c, destination := some c.destination, gateTimer := none, wait := .none })) p .draining
    (by rw [State.modPort_port, if_pos rfl]; rw [h]; decide) (.inr rfl)
  unfold State.stopFeeding
  rw [told]
  simp only [State.modPort_port, if_true, h]
  show State.post ((State.setPort (State.setPort s p _) p _).notifyPort p _ _) _ = _
  rw [State.setPort_setPort]
  rfl

@[simp] theorem drains_agenda (p : PortNo) (c : DrainCause) : (s.drains p c).agenda = s.agenda := by
  simp [State.drains, State.notifyPort]

@[simp] theorem drains_job (p : PortNo) (c : DrainCause) (j : Slot) : (s.drains p c).job j = s.job j := by
  simp [State.drains, State.notifyPort]

theorem drains_port (p : PortNo) (c : DrainCause) (q : PortNo) :
    (s.drains p c).port q = if p = q then (s.port p).stopped c s.partTime else s.port q := by
  simp [State.drains, State.notifyPort]

end

/-! ## Work lists -/

variable {s t u : State}

/-- `n` tasks bring a state's work list to its end, and the state to `t`. -/
def Runs : Nat → State → State → Prop
  | 0, s, t => s.agenda = [] ∧ t = s
  | n + 1, s, t => ∃ k rest, s.agenda = k :: rest
      ∧ Runs n { doTask k { s with agenda := [] } with agenda := (doTask k { s with agenda := [] }).agenda ++ rest } t

theorem Runs.idle (h : s.agenda = []) : Runs 0 s s := ⟨h, rfl⟩

theorem Runs.agenda : ∀ {n : Nat} {s t : State}, Runs n s t → t.agenda = []
  | 0, _, _, ⟨h, e⟩ => e ▸ h
  | _ + 1, _, _, ⟨_, _, _, h⟩ => Runs.agenda h

/-- A work list that ends is brought to its end by any fuel that suffices. -/
theorem Runs.settleWith : ∀ {n : Nat} {s t : State}, Runs n s t → ∀ k, Machine.settleWith (n + k) s = t
  | 0, s, _, ⟨h, e⟩, k => by rw [e]; exact settleWith_idle _ h
  | n + 1, s, t, ⟨u, rest, h, g⟩, k => by
    rw [Nat.add_right_comm, settleWith_cons s (n + k) u rest h]
    exact g.settleWith k

theorem Runs.settle {n : Nat} (h : Runs n s t) (fuel : n ≤ 65536) : s.settle = t := by
  obtain ⟨k, e⟩ := Nat.exists_eq_add_of_le fuel
  unfold State.settle
  rw [e]
  exact h.settleWith k

/-- Tasks that stand behind are done once those before them, and all that these bring about, are done. -/
theorem Runs.append : ∀ {n m : Nat} {s t u : State} {rest : List Task}, Runs n s t → Runs m { t with agenda := rest } u →
    Runs (n + m) { s with agenda := s.agenda ++ rest } u
  | 0, m, s, t, u, rest, ⟨h, e⟩, g => by
    rw [Nat.zero_add, h]
    rw [e] at g
    exact g
  | n + 1, m, s, t, u, rest, ⟨k, others, h, g⟩, g' => by
    rw [Nat.add_right_comm]
    refine ⟨k, others ++ rest, by rw [h]; rfl, ?_⟩
    have := Runs.append g g'
    rw [List.append_assoc] at this
    exact this

/-- The only task of a work list is done, and then what it brings about. -/
theorem Runs.post {n : Nat} {k : Task} (h : s.agenda = []) (g : Runs n (doTask k s) t) : Runs (n + 1) (s.post k) t := by
  have e : ({ s.post k with agenda := [] } : State) = s := by cases s; simp_all [State.post]
  refine ⟨k, [], by simp [State.post, h], ?_⟩
  rw [e, List.append_nil]
  exact g

/-- The first of two tasks is done whole before the second. -/
theorem Runs.post_post {n m : Nat} {k l : Task} (h : s.agenda = []) (g : Runs n (doTask k s) t) (g' : Runs m (t.post l) u) :
    Runs (n + 1 + m) ((s.post k).post l) u := by
  have idle : t.agenda = [] := g.agenda
  refine Runs.append (Runs.post h g) (rest := [l]) ?_
  have e : ({ t with agenda := [l] } : State) = t.post l := by unfold State.post; rw [idle]; rfl
  rw [e]
  exact g'

theorem Runs.noop {k : Task} (h : s.agenda = []) (g : doTask k s = s) : Runs 1 (s.post k) s :=
  Runs.post h (by rw [g]; exact Runs.idle h)

/-- An emptied work list with the one task that stood in it. -/
theorem post_of_agenda {k : Task} (h : s.agenda = [k]) : s = State.post { s with agenda := [] } k := by
  cases s; simp_all [State.post]

/-- A port that drains and whose path still holds sheets waits for them (R104). -/
theorem afterRemoval_waits {p : PortNo} (h : (s.port p).state = .draining) (hp : (s.port p).path ≠ []) :
    doTask (.afterRemoval p) s = s := by
  show s.afterRemovalNow p = s
  unfold State.afterRemovalNow
  rw [h]
  simp [hp]

/-- A port that drains and whose path is empty lets its job leave and goes back to READY (R111). -/
theorem afterRemoval_leaves {p : PortNo} (h : (s.port p).state = .draining) (hp : (s.port p).path = []) :
    doTask (.afterRemoval p) s
      = (s.post (.leave p ((s.port p).destination.getD .head))).post (.backToReady p) := by
  show s.afterRemovalNow p = _
  unfold State.afterRemovalNow
  rw [h]
  simp only [hp, if_true]
  rfl

/-- The port whose job has left, back in READY, before the choice of job (R92, R111). -/
def State.readied (s : State) (p : PortNo) : State := (s.clearAfterLeaving p).portTo p .ready

theorem portTo_agenda (s : State) (p : PortNo) (st : PortState) : (s.portTo p st).agenda = s.agenda := by
  have moved : ∀ (l : List Slot) (u : State), (l.foldl State.toStockWait u).agenda = u.agenda := fun l => by
    induction l with
    | nil => exact fun _ => rfl
    | cons j l ih =>
      intro u
      rw [List.foldl_cons, ih]
      simp [State.toStockWait, State.joinWait]
  have judged : ∀ (l : List Byte) (u : State), (u.judgeStocks l).agenda = u.agenda := fun l => by
    induction l with
    | nil => exact fun _ => rfl
    | cons b l ih =>
      intro u
      refine (ih (u.judgeStock b)).trans ?_
      unfold State.judgeStock
      split
      · rfl
      · exact moved _ _
  unfold State.portTo
  dsimp only
  split
  · rfl
  · split
    · rw [judged]; simp [State.notifyPort]
    · simp [State.notifyPort]

@[simp] theorem readied_agenda (p : PortNo) : (s.readied p).agenda = s.agenda := by
  unfold State.readied
  rw [portTo_agenda]
  simp [State.clearAfterLeaving]

/-- The leaving of a port's job and what follows from it, where nothing else is left to bring about and no job is chosen for the
port (R111). -/
theorem runs_leaving {p : PortNo} {d : Destination} (ha : s.agenda = []) (left : (s.leaveNow p d).agenda = [])
    (none : ((s.leaveNow p d).readied p).chooseJob p = none) :
    Runs 3 ((s.post (.leave p d)).post (.backToReady p)) ((s.leaveNow p d).readied p) := by
  have idle : ((s.leaveNow p d).readied p).agenda = [] := (readied_agenda p).trans left
  refine Runs.post_post (n := 0) (m := 2) ha (Runs.idle left) (Runs.post left ?_)
  exact Runs.noop idle (chooseJob_none p none)

/-- A decision carried to its end is what the work list makes of it. -/
theorem runs_decides {p : PortNo} : ∀ (n : Nat) (s t : State), State.Decides p n s t → s.agenda = [] →
    ∃ m ≤ n + 4, Runs m (s.post (.decide p)) t := by
  intro n
  induction n with
  | zero => exact fun _ _ h => h.elim
  | succ n ih =>
    intro s t h ha
    rcases h with ⟨none, rfl⟩ | ⟨again, goes⟩ | ⟨stops, draining, ends⟩
    · exact ⟨1, by omega, Runs.post ha (Runs.idle none)⟩
    · obtain ⟨m, hm, run⟩ := ih _ t goes rfl
      refine ⟨m + 1, by omega, Runs.post ha ?_⟩
      rw [post_of_agenda (s := doTask (.decide p) s) again]
      exact run
    · have e : doTask (.decide p) s = State.post { s.runDecision p with agenda := [] } (.afterRemoval p) :=
        post_of_agenda stops
      rcases ends with ⟨path, rfl⟩ | ⟨path, left, rfl, none⟩
      · refine ⟨2, by omega, Runs.post ha ?_⟩
        rw [e]
        exact Runs.noop rfl (afterRemoval_waits draining path)
      · refine ⟨5, by omega, Runs.post ha ?_⟩
        rw [e]
        refine Runs.post rfl ?_
        rw [afterRemoval_leaves (s := { s.runDecision p with agenda := [] }) draining path]
        exact runs_leaving rfl left none

end Sys2Proof.Machine
end

section
/-! Job records (chapter 2), third part: the leaving of a job from its port (R26, R35, R78). -/

namespace Sys2Proof.Machine

theorem AccountState.stops_iff (a : AccountState) : a.stops = true ↔ a = .held ∨ a = .closed := by
  cases a <;> simp [AccountState.stops]

theorem AccountState.good_iff (a : AccountState) : a.good = true ↔ a = .opened ∨ a = .low := by
  cases a <;> simp [AccountState.good]

theorem Job.failing_iff (x : Job) : x.failing = true ↔ x.lossCount = 5 := by simp [Job.failing]

/-- A job's record with its flags cleared and the time of an assignment counted, still in its old state (R24, R78). -/
def Job.freed (x : Job) (time : Nat) : Job :=
  { x with cancel := false, suspend := false, slice := false, pressTime := min (x.pressTime + time) 4294967295 }

/-- The state in which the assignment of a port's job has ended and its new state is not yet decided (R78). -/
def State.released (s : State) (p : PortNo) (a : Assignment) (x : Job) : State :=
  ((s.setAssignment p none).setJob a.slot (some (x.freed (elapsed s.partTime a.since)))).setAccount x.account
    { s.account x.account with
      pressTime := min ((s.account x.account).pressTime + elapsed s.partTime a.since) 18446744073709551615 }

/-- Where a leaving job goes: the first of R26 that holds, else the place its stock gives it (R61). -/
def State.leftState (s : State) (x : Job) (d : Destination) : JobState :=
  if x.good = x.sheets * x.copies then .done
  else if x.lossCount = 5 then .failed
  else if x.cancel = true then .cancelled
  else if x.suspend = true then .paused
  else if (s.account x.account).state = .held ∨ (s.account x.account).state = .closed ∨ d = .held then .held
  else if s.stockPresent x.stock = true then .queued
  else .stockwait

/-- The new state as the port's report judges it: none where the job is placed (R26). -/
theorem leavingState_eq (s : State) (x : Job) (d : Destination) :
    s.leavingState x d =
      if s.leftState x d = .queued ∨ s.leftState x d = .stockwait then none else some (s.leftState x d) := by
  have stops : ((s.account x.account).state.stops || decide (d = .held)) = true
      ↔ (s.account x.account).state = .held ∨ (s.account x.account).state = .closed ∨ d = .held := by
    simp [AccountState.stops_iff, or_assoc]
  have total : x.good = x.total ↔ x.good = x.sheets * x.copies := Iff.rfl
  unfold State.leavingState State.leftState
  simp only [total, Job.failing_iff, stops]
  by_cases done : x.good = x.sheets * x.copies
  · simp [done]
  by_cases failed : x.lossCount = 5
  · simp [done, failed]
  by_cases cancelled : x.cancel = true
  · simp [done, failed, cancelled]
  by_cases paused : x.suspend = true
  · simp [done, failed, cancelled, paused]
  by_cases held : (s.account x.account).state = .held ∨ (s.account x.account).state = .closed ∨ d = .held
  · simp [done, failed, cancelled, paused, held]
  by_cases present : s.stockPresent x.stock = true
  · simp [done, failed, cancelled, paused, held, present]
  · simp [done, failed, cancelled, paused, held, present]

theorem stock_of_leftState {s : State} {x : Job} {d : Destination} :
    (s.leftState x d = .queued → s.stockPresent x.stock = true)
    ∧ (s.leftState x d = .stockwait → s.stockPresent x.stock = false) := by
  unfold State.leftState
  split_ifs <;> simp_all

section
variable {s : State} {p : PortNo} {a : Assignment} {x : Job}

theorem released_job (k : Slot) : (s.released p a x).job k =
    if a.slot = k then some (x.freed (elapsed s.partTime a.since)) else s.job k := by simp [State.released]

@[simp] theorem released_job_same :
    (s.released p a x).job a.slot = some (x.freed (elapsed s.partTime a.since)) := by simp [State.released]

@[simp] theorem released_accountState (b : AccountNo) : ((s.released p a x).account b).state = (s.account b).state := by
  simp only [State.released, State.setAccount_account]
  split
  · rename_i e; rw [← e]
  · rfl

theorem released_leftState (d : Destination) (y : Job) : (s.released p a x).leftState y d = s.leftState y d := by
  unfold State.leftState
  rw [released_accountState]
  rfl

/-- R78, R24: the assignment ends, its time is counted and the flags are cleared. -/
theorem leftPort_eq (hx : s.job a.slot = some x) :
    (s.endAssignment p a x).modJob a.slot Job.clearFlags = s.released p a x := by
  have counted : s.modJob a.slot (fun z => { z with
      pressTime := raiseTo max32 z.pressTime (elapsed s.partTime a.since) }) =
      s.setJob a.slot (some { x with pressTime := min (x.pressTime + elapsed s.partTime a.since) 4294967295 }) := by
    unfold State.modJob; rw [hx]; rfl
  have cleared : ∀ (v : State) (z : Job), v.job a.slot = some z →
      v.modJob a.slot Job.clearFlags = v.setJob a.slot (some z.clearFlags) := fun v z hz => by
    unfold State.modJob; rw [hz]; rfl
  unfold State.endAssignment
  dsimp only
  rw [counted, cleared _ { x with pressTime := min (x.pressTime + elapsed s.partTime a.since) 4294967295 } (by simp)]
  show State.setAccount ((State.setJob (State.setJob (s.setAssignment p none) _ _)) _ _) _ _ = _
  rw [State.setJob_setJob]
  rfl

theorem released_levelOf (hx : s.job a.slot = some x) (k : Slot) : (s.released p a x).levelOf k = s.levelOf k := by
  unfold State.levelOf
  rw [released_job]
  by_cases e : a.slot = k
  · rw [if_pos e, ← e, hx]; rfl
  · rw [if_neg e]

/-- The stock wait list split at a level holds one entry more (R60). -/
theorem waitListWith_length (u : State) (j : Slot) : (u.waitListWith j).length = u.dispatch.stockWait.length + 1 := by
  have split := List.length_eq_length_filter_add (l := u.dispatch.stockWait) (fun i => decide (u.levelOf i ≤ u.levelOf j))
  have above : (fun i => decide (u.levelOf j < u.levelOf i)) = fun i => !decide (u.levelOf i ≤ u.levelOf j) := by
    funext i
    rw [← decide_not]
    exact decide_eq_decide.mpr Nat.not_le.symm
  unfold State.waitListWith
  rw [above, List.length_append, List.length_cons]
  omega

theorem leaveNow_unassigned (d : Destination) (h : s.assignment p = none) : s.leaveNow p d = s := by
  unfold State.leaveNow
  rw [h]

/-- Where the job `x` in slot `j` goes once its assignment has ended: the state R26 gives it, or its place (R61, R164). -/
def State.arrives (u : State) (j : Slot) (x : Job) (d : Destination) : Option JobState → State
  | some .done => u.endJob j .done
  | some .failed => u.endJob j .failed
  | some .cancelled => u.endJob j .cancelled
  | some .held =>
    if ((u.jobTo j .held).account x.account).state.good then (u.jobTo j .held).post (.releaseHeld j) else u.jobTo j .held
  | some st => u.jobTo j st
  | none => u.place j (d = .head)

variable (ha : s.assignment p = some a) (hx : s.job a.slot = some x)
include ha hx

/-- A job that has left is placed, or enters the state that R26 gives it. -/
theorem leaveNow_eq (d : Destination) :
    s.leaveNow p d = (s.released p a x).arrives a.slot x d ((s.released p a x).leavingState x d) := by
  have job : s.assignedJob p = some x := (assignedJob_of s p a.slot (assigned_of_assignment s ha)).trans hx
  unfold State.leaveNow
  simp only [ha, job, leftPort_eq hx]
  rfl

theorem leaveNow_ends {d : Destination} (h : s.leftState x d = .done ∨ s.leftState x d = .failed ∨ s.leftState x d = .cancelled) :
    s.leaveNow p d = (s.released p a x).endJob a.slot (s.leftState x d) := by
  rw [leaveNow_eq ha hx, leavingState_eq, released_leftState]
  rcases h with h | h | h <;> rw [h] <;> rfl

theorem leaveNow_paused {d : Destination} (h : s.leftState x d = .paused) :
    s.leaveNow p d = (s.released p a x).jobTo a.slot .paused := by
  rw [leaveNow_eq ha hx, leavingState_eq, released_leftState, h]
  rfl

theorem leaveNow_heldJob {d : Destination} (h : s.leftState x d = .held) :
    s.leaveNow p d =
      if (s.account x.account).state = .opened ∨ (s.account x.account).state = .low then
        ((s.released p a x).jobTo a.slot .held).post (.releaseHeld a.slot)
      else (s.released p a x).jobTo a.slot .held := by
  rw [leaveNow_eq ha hx, leavingState_eq, released_leftState, h]
  simp [State.arrives, AccountState.good_iff]

theorem leaveNow_queued {d : Destination} (h : s.leftState x d = .queued) :
    s.leaveNow p d = (((s.released p a x).setLists
      ((s.dispatch.ready.map (fun l => l.filter (fun i => i ≠ a.slot))).set x.level
        (if d = .head then a.slot :: (s.readyAt x.level).filter (fun i => i ≠ a.slot)
         else (s.readyAt x.level).filter (fun i => i ≠ a.slot) ++ [a.slot]))
      (s.dispatch.stockWait.filter (fun i => i ≠ a.slot))).jobTo a.slot .queued).seekPort a.slot := by
  have present : s.stockPresent x.stock = true := stock_of_leftState.1 h
  have listed : ((s.released p a x).unlist a.slot).readyAt x.level = (s.readyAt x.level).filter (fun i => i ≠ a.slot) :=
    unlist_readyAt _ _ _
  have job : ((s.released p a x).unlist a.slot).job a.slot = some (x.freed (elapsed s.partTime a.since)) := released_job_same
  have placed : s.leaveNow p d = (s.released p a x).place a.slot (d = .head) := by
    rw [leaveNow_eq ha hx, leavingState_eq, released_leftState, h]
    rfl
  rw [placed, place_ready _ released_job_same _ present, joinReady_eq _ job]
  show State.seekPort (State.jobTo (State.setLists _ (Vector.set _ _ (ite _ (_ :: State.readyAt _ x.level)
    (State.readyAt _ x.level ++ _))) _) _ _) _ = _
  rw [listed]
  simp only [decide_eq_true_eq]
  rfl

theorem leaveNow_waits {d : Destination} (h : s.leftState x d = .stockwait) :
    s.leaveNow p d = (((s.released p a x).setLists (s.dispatch.ready.map (fun l => l.filter (fun i => i ≠ a.slot)))
      ((s.dispatch.stockWait.filter (fun i => i ≠ a.slot)).filter (fun i => s.levelOf i ≤ x.level.val)
        ++ a.slot :: (s.dispatch.stockWait.filter (fun i => i ≠ a.slot)).filter
          (fun i => x.level.val < s.levelOf i))).jobTo a.slot .stockwait).notify .stock
      (stockBody a.slot { x.freed (elapsed s.partTime a.since) with state := .stockwait }
        ((s.dispatch.stockWait.filter (fun i => i ≠ a.slot)).length + 1)) := by
  have absent : s.stockPresent x.stock = false := stock_of_leftState.2 h
  have level : s.levelOf a.slot = x.level.val := by unfold State.levelOf; rw [hx]
  have levels : ∀ k, ((s.released p a x).unlist a.slot).levelOf k = s.levelOf k := released_levelOf hx
  have waits : ((s.released p a x).unlist a.slot).waitListWith a.slot =
      (s.dispatch.stockWait.filter (fun i => i ≠ a.slot)).filter (fun i => s.levelOf i ≤ x.level.val)
        ++ a.slot :: (s.dispatch.stockWait.filter (fun i => i ≠ a.slot)).filter (fun i => x.level.val < s.levelOf i) := by
    unfold State.waitListWith
    simp only [levels, level]
    rfl
  have job : ((((s.released p a x).unlist a.slot).joinWait a.slot).jobTo a.slot .stockwait).job a.slot =
      some { x.freed (elapsed s.partTime a.since) with state := .stockwait } := by
    rw [jobTo_same_slot]
    show Option.map _ ((s.released p a x).job a.slot) = _
    rw [released_job_same]
    rfl
  have length := waitListWith_length ((s.released p a x).unlist a.slot) a.slot
  have placed : s.leaveNow p d = (s.released p a x).place a.slot (d = .head) := by
    rw [leaveNow_eq ha hx, leavingState_eq, released_leftState, h]
    rfl
  rw [placed, place_waits _ released_job_same _ absent, notifyStock_eq _ job, jobTo_dispatch]
  unfold State.joinWait
  rw [State.setLists_dispatch]
  dsimp only
  rw [length, waits]
  rfl

end

/-! ## The job's record, its place and its spool after it has left -/

/-- What every leaving does alike to a state `u` whose job in slot `j` enters the state `st`: its record takes the state, and
nothing changes but the lists, the spool manager, the reads of the ports and the notices. -/
structure State.Parted (u t : State) (j : Slot) (st : JobState) : Prop where
  job : t.job j = (u.job j).map (fun x => { x with state := st })
  jobs : ∀ k, k ≠ j → t.job k = u.job k
  assignments : t.dispatch.assignments = u.dispatch.assignments
  slices : t.dispatch.slices = u.dispatch.slices
  meter : t.meter = u.meter
  alerts : t.alerts = u.alerts
  panel : t.panel = u.panel
  time : t.partTime = u.partTime
  pending : t.pending = u.pending

theorem parted_jobTo (u : State) (j : Slot) (st : JobState) : u.Parted (u.jobTo j st) j st where
  job := jobTo_same_slot st
  jobs _ h := jobTo_elsewhere st h
  assignments := by rw [jobTo_dispatch]
  slices := by rw [jobTo_dispatch]
  meter := jobTo_meter u j st
  alerts := jobTo_alerts u j st
  panel := jobTo_panel u j st
  time := jobTo_partTime u j st
  pending := jobTo_pending u j st

/-- What touches neither a job nor an assignment, before or after, leaves the parting as it is. -/
theorem State.Parted.discarded {u t : State} {j : Slot} {st : JobState} (h : u.Parted t j st) : u.Parted (t.discardJob j) j st :=
  ⟨h.job, h.jobs, h.assignments, h.slices, h.meter, h.alerts, h.panel, h.time, h.pending⟩

theorem State.Parted.posted {u t : State} {j : Slot} {st : JobState} (h : u.Parted t j st) (k : Task) :
    u.Parted (t.post k) j st :=
  ⟨h.job, h.jobs, h.assignments, h.slices, h.meter, h.alerts, h.panel, h.time, h.pending⟩

theorem State.Parted.relisted {u t : State} {j : Slot} {st : JobState} {r : Vector (List Slot) 8} {w : List Slot}
    (h : State.Parted (u.setLists r w) t j st) : u.Parted t j st :=
  ⟨h.job, h.jobs, h.assignments, h.slices, h.meter, h.alerts, h.panel, h.time, h.pending⟩

theorem State.Parted.told {u t : State} {j : Slot} {st : JobState} (h : u.Parted t j st) (k : NoticeKind) (b : List Byte) :
    u.Parted (t.notify k b) j st := by
  rw [notify_eq]
  exact ⟨h.job, h.jobs, h.assignments, h.slices, h.meter, h.alerts, h.panel, h.time, h.pending⟩

/-! ## The spool of a job that has ended (R55) -/

section
variable (s : State) (j : Slot)

@[simp] theorem discardJob_job (k : Slot) : (s.discardJob j).job k = s.job k := rfl
@[simp] theorem discardJob_link : (s.discardJob j).link = s.link := rfl
@[simp] theorem discardJob_dispatch : (s.discardJob j).dispatch = s.dispatch := rfl
@[simp] theorem discardJob_readyAt (l : Level) : (s.discardJob j).readyAt l = s.readyAt l := rfl
@[simp] theorem discardJob_agenda : (s.discardJob j).agenda = s.agenda := rfl
@[simp] theorem discardJob_meter : (s.discardJob j).meter = s.meter := rfl
@[simp] theorem discardJob_alerts : (s.discardJob j).alerts = s.alerts := rfl
@[simp] theorem discardJob_assignment (p : PortNo) : (s.discardJob j).assignment p = s.assignment p := rfl
@[simp] theorem discardJob_dram : (s.discardJob j).spool.dram = s.spool.dram := rfl
@[simp] theorem discardJob_retired : (s.discardJob j).spool.retired = s.spool.retired := rfl

theorem discardJob_imagesOf (k : Slot) : (s.discardJob j).imagesOf k = if j = k then [] else s.imagesOf k :=
  State.setImages_imagesOf s j [] k

theorem discardJob_pool (b : Nat) :
    b ∈ (s.discardJob j).spool.pool ↔ b ∈ s.spool.pool ∨ b ∈ imageBlocks (s.imagesOf j) := Blocks.mem_addAll _ _ _

theorem discardJob_port (p : PortNo) : (s.discardJob j).port p = (s.port p).dropReads j := by
  simp [State.discardJob, State.port]

end

end Sys2Proof.Machine
end

section
/-! Job records (chapter 2), third part, continued: where a leaving job goes, its notices and its tasks (R25, R26, R60, R61,
R164). -/

namespace Sys2Proof.Machine

section
variable {s : State} {p : PortNo} {a : Assignment} {x : Job}

variable (ha : s.assignment p = some a) (hx : s.job a.slot = some x) (d : Destination)
include ha hx

/-- One leaving, whatever state it ends in, changes this of the jobs, the assignments and the tables (R26, R78). -/
theorem leaveNow_parted : (s.released p a x).Parted (s.leaveNow p d) a.slot (s.leftState x d) := by
  have u := parted_jobTo (s.released p a x) a.slot
  cases e : s.leftState x d with
  | done => rw [leaveNow_ends ha hx (by simp [e]), e]; exact (u _).discarded
  | failed => rw [leaveNow_ends ha hx (by simp [e]), e]; exact (u _).discarded
  | cancelled => rw [leaveNow_ends ha hx (by simp [e]), e]; exact (u _).discarded
  | paused => rw [leaveNow_paused ha hx e]; exact u _
  | held =>
    rw [leaveNow_heldJob ha hx e]
    split
    · exact (u _).posted _
    · exact u _
  | queued =>
    rw [leaveNow_queued ha hx e]
    exact ((parted_jobTo (State.setLists _ _ _) _ _).relisted.posted _).posted _
  | stockwait =>
    rw [leaveNow_waits ha hx e]
    exact (parted_jobTo (State.setLists _ _ _) _ _).relisted.told _ _
  | running => simp only [State.leftState] at e; split_ifs at e

/-- A job that has ended gives its blocks to the pool (R35, R55). -/
theorem leaveNow_discards (h : s.leftState x d = .done ∨ s.leftState x d = .failed ∨ s.leftState x d = .cancelled) :
    (s.leaveNow p d).imagesOf a.slot = []
    ∧ (∀ j, j ≠ a.slot → (s.leaveNow p d).imagesOf j = s.imagesOf j)
    ∧ (∀ b, b ∈ (s.leaveNow p d).spool.pool ↔ b ∈ s.spool.pool ∨ b ∈ imageBlocks (s.imagesOf a.slot))
    ∧ (s.leaveNow p d).spool.retired = s.spool.retired ∧ (s.leaveNow p d).spool.dram = s.spool.dram
    ∧ ∀ q, (s.leaveNow p d).port q = (s.port q).dropReads a.slot := by
  rw [leaveNow_ends ha hx h]
  unfold State.endJob
  refine ⟨by simp [discardJob_imagesOf], fun j n => ?_, fun b => ?_, ?_, ?_, fun q => ?_⟩
  · rw [discardJob_imagesOf, if_neg n.symm, jobTo_imagesOf]; rfl
  · rw [discardJob_pool, jobTo_spool, jobTo_imagesOf]; rfl
  · rw [discardJob_retired, jobTo_spool]; rfl
  · rw [discardJob_dram, jobTo_spool]; rfl
  · rw [discardJob_port, jobTo_port]; rfl

/-- A job that goes on keeps its spool, and the ports their records. -/
theorem leaveNow_keeps_spool (h1 : s.leftState x d ≠ .done) (h2 : s.leftState x d ≠ .failed)
    (h3 : s.leftState x d ≠ .cancelled) : (s.leaveNow p d).spool = s.spool ∧ (s.leaveNow p d).ports = s.ports := by
  cases e : s.leftState x d with
  | done => exact absurd e h1
  | failed => exact absurd e h2
  | cancelled => exact absurd e h3
  | paused => rw [leaveNow_paused ha hx e, jobTo_spool, jobTo_ports]; exact ⟨rfl, rfl⟩
  | held =>
    rw [leaveNow_heldJob ha hx e]
    split
    · rw [State.post_spool, State.post_ports, jobTo_spool, jobTo_ports]; exact ⟨rfl, rfl⟩
    · rw [jobTo_spool, jobTo_ports]; exact ⟨rfl, rfl⟩
  | queued =>
    rw [leaveNow_queued ha hx e]
    unfold State.seekPort
    simp only [State.post_spool, State.post_ports, jobTo_spool, jobTo_ports]
    exact ⟨rfl, rfl⟩
  | stockwait =>
    rw [leaveNow_waits ha hx e]
    simp only [notify_spool, notify_ports, jobTo_spool, jobTo_ports]
    exact ⟨rfl, rfl⟩
  | running => simp only [State.leftState] at e; split_ifs at e

/-- Only a job that is placed changes the lists (R58, R60). -/
theorem leaveNow_keeps_lists (h1 : s.leftState x d ≠ .queued) (h2 : s.leftState x d ≠ .stockwait) :
    (s.leaveNow p d).dispatch.ready = s.dispatch.ready ∧ (s.leaveNow p d).dispatch.stockWait = s.dispatch.stockWait := by
  have ended (h : s.leftState x d = .done ∨ s.leftState x d = .failed ∨ s.leftState x d = .cancelled) :
      (s.leaveNow p d).dispatch.ready = s.dispatch.ready
        ∧ (s.leaveNow p d).dispatch.stockWait = s.dispatch.stockWait := by
    rw [leaveNow_ends ha hx h]
    unfold State.endJob
    rw [discardJob_dispatch, jobTo_dispatch]
    exact ⟨rfl, rfl⟩
  cases e : s.leftState x d with
  | queued => exact absurd e h1
  | stockwait => exact absurd e h2
  | done | failed | cancelled => exact ended (by simp [e])
  | paused => rw [leaveNow_paused ha hx e, jobTo_dispatch]; exact ⟨rfl, rfl⟩
  | held =>
    rw [leaveNow_heldJob ha hx e]
    split
    · rw [State.post_dispatch, jobTo_dispatch]; exact ⟨rfl, rfl⟩
    · rw [jobTo_dispatch]; exact ⟨rfl, rfl⟩
  | running => simp only [State.leftState] at e; split_ifs at e

/-- R58, R61: a job whose stock is present joins its level, at the end that the port names. -/
theorem leaveNow_joins (h : s.leftState x d = .queued) :
    (s.leaveNow p d).dispatch.stockWait = s.dispatch.stockWait.filter (fun i => i ≠ a.slot)
    ∧ (∀ l, l ≠ x.level → (s.leaveNow p d).readyAt l = (s.readyAt l).filter (fun i => i ≠ a.slot))
    ∧ (s.leaveNow p d).readyAt x.level =
      if d = .head then a.slot :: (s.readyAt x.level).filter (fun i => i ≠ a.slot)
      else (s.readyAt x.level).filter (fun i => i ≠ a.slot) ++ [a.slot] := by
  rw [leaveNow_queued ha hx h]
  unfold State.seekPort
  simp only [State.post_dispatch, State.post_readyAt, jobTo_dispatch, jobTo_readyAt, State.setLists_dispatch,
    State.setLists_readyAt]
  refine ⟨trivial, fun l n => ?_, ?_⟩
  · have other : x.level.val ≠ l.val := fun e => n (Fin.ext e.symm)
    exact (Vector.getElem_set_ne x.level.isLt l.isLt other).trans (Vector.getElem_map _ l.isLt)
  · exact Vector.getElem_set_self x.level.isLt

/-- R60: a job whose stock is not present waits behind the last of its level. -/
theorem leaveNow_joins_wait (h : s.leftState x d = .stockwait) :
    (∀ l, (s.leaveNow p d).readyAt l = (s.readyAt l).filter (fun i => i ≠ a.slot))
    ∧ (s.leaveNow p d).dispatch.stockWait =
      (s.dispatch.stockWait.filter (fun i => i ≠ a.slot)).filter (fun i => s.levelOf i ≤ x.level.val)
        ++ a.slot :: (s.dispatch.stockWait.filter (fun i => i ≠ a.slot)).filter (fun i => x.level.val < s.levelOf i) := by
  rw [leaveNow_waits ha hx h]
  simp only [notify_readyAt, notify_dispatch, jobTo_readyAt, jobTo_dispatch, State.setLists_dispatch,
    State.setLists_readyAt]
  exact ⟨fun l => Vector.getElem_map _ l.isLt, trivial⟩

/-- What follows a leaving: the search for a port for a job that is placed (R61), the release of a HELD one (R164). -/
theorem leaveNow_agenda : (s.leaveNow p d).agenda = s.agenda ++
    (if s.leftState x d = .queued then [.choosePort a.slot, .signalPorts a.slot]
     else if s.leftState x d = .held ∧ ((s.account x.account).state = .opened ∨ (s.account x.account).state = .low) then
       [.releaseHeld a.slot]
     else []) := by
  have same : (s.released p a x).agenda = s.agenda := rfl
  have ended (h : s.leftState x d = .done ∨ s.leftState x d = .failed ∨ s.leftState x d = .cancelled) :
      (s.leaveNow p d).agenda = s.agenda := by
    rw [leaveNow_ends ha hx h]
    unfold State.endJob
    rw [discardJob_agenda, jobTo_agenda, same]
  cases e : s.leftState x d with
  | done | failed | cancelled => rw [ended (by simp [e])]; simp
  | paused => rw [leaveNow_paused ha hx e, jobTo_agenda, same]; simp
  | held =>
    rw [leaveNow_heldJob ha hx e]
    split
    · rename_i good; rw [State.post_agenda, jobTo_agenda, same]; simp [good]
    · rename_i bad; rw [jobTo_agenda, same]; simp [bad]
  | queued =>
    rw [leaveNow_queued ha hx e]
    unfold State.seekPort
    rw [State.post_agenda, State.post_agenda, jobTo_agenda, List.append_assoc]
    rfl
  | stockwait =>
    rw [leaveNow_waits ha hx e, notify_agenda, jobTo_agenda]
    show s.agenda = _
    simp
  | running => simp only [State.leftState] at e; split_ifs at e

/-- The JOB notice of a leaving, and the STOCK notice of a job that then waits for stock (R25, R60). -/
theorem leaveNow_link (n : x.state ≠ s.leftState x d) :
    (s.leaveNow p d).link =
      let left : Job := { x.freed (elapsed s.partTime a.since) with state := s.leftState x d }
      let told := s.notify .job (jobNoticeBody a.slot x.state left)
      (if s.leftState x d = .stockwait then
        told.notify .stock (stockBody a.slot left ((s.dispatch.stockWait.filter (fun i => i ≠ a.slot)).length + 1))
       else told).link := by
  have told : ∀ (u : State) (st : JobState), u.link = s.link → u.partTime = s.partTime →
      u.job a.slot = some (x.freed (elapsed s.partTime a.since)) → x.state ≠ st → (u.jobTo a.slot st).link =
        (s.notify .job (jobNoticeBody a.slot x.state { x.freed (elapsed s.partTime a.since) with state := st })).link :=
    fun u st l t job ne => (jobTo_link u job ne).trans (notify_link_congr _ _ l t)
  have ended (h : s.leftState x d = .done ∨ s.leftState x d = .failed ∨ s.leftState x d = .cancelled) :
      (s.leaveNow p d).link = (s.notify .job (jobNoticeBody a.slot x.state
        { x.freed (elapsed s.partTime a.since) with state := s.leftState x d })).link := by
    rw [leaveNow_ends ha hx h]
    unfold State.endJob
    rw [discardJob_link]
    exact told _ _ rfl rfl released_job_same n
  cases e : s.leftState x d with
  | done | failed | cancelled =>
    rw [ended (by simp [e]), e]; rfl
  | paused =>
    rw [leaveNow_paused ha hx e]
    exact told _ _ rfl rfl released_job_same (e ▸ n)
  | held =>
    rw [leaveNow_heldJob ha hx e]
    split
    · exact told _ _ rfl rfl released_job_same (e ▸ n)
    · exact told _ _ rfl rfl released_job_same (e ▸ n)
  | queued =>
    rw [leaveNow_queued ha hx e]
    exact told _ _ rfl rfl released_job_same (e ▸ n)
  | stockwait =>
    rw [leaveNow_waits ha hx e]
    refine notify_link_congr _ _ ?_ ?_
    · exact told _ _ rfl rfl released_job_same (e ▸ n)
    · rw [jobTo_partTime, notify_partTime]; rfl
  | running => simp only [State.leftState] at e; split_ifs at e

end

/-- Settles O35: the leaving by its final state, field by field. -/
theorem leavingGoesByOrder : Obligations.LeavingGoesByOrder := by
  intro s p d
  refine ⟨leaveNow_unassigned d, fun a x ha hx => ?_⟩
  obtain ⟨job, jobs, assignments, slices, meter, alerts, panel, time, pending⟩ := leaveNow_parted ha hx d
  have accounts : ∀ b, (s.leaveNow p d).account b = (s.released p a x).account b := fun b => by
    unfold State.account; rw [meter]
  have assigned : ∀ q, (s.leaveNow p d).assignment q = (s.setAssignment p none).assignment q := fun q => by
    unfold State.assignment; rw [assignments]; rfl
  refine ⟨?_, fun j n => ?_, ?_, fun q n => ?_, ?_, fun b n => ?_, leaveNow_discards ha hx d, leaveNow_keeps_spool ha hx d,
    leaveNow_joins ha hx d, leaveNow_joins_wait ha hx d, leaveNow_keeps_lists ha hx d, leaveNow_agenda ha hx d,
    leaveNow_link ha hx d, slices, alerts, panel, time, pending, by rw [meter]; rfl, by rw [meter]; rfl⟩
  · rw [job, released_job_same]; rfl
  · rw [jobs j n, released_job, if_neg n.symm]
  · rw [assigned, State.setAssignment_assignment, if_pos rfl]
  · rw [assigned, State.setAssignment_assignment, if_neg n.symm]
  · rw [accounts]; simp [State.released]
  · rw [accounts]; simp [State.released, n.symm]

end Sys2Proof.Machine
end

section
/-! Job records (chapter 2), fourth part: an assignment begins (R67, R90). -/

namespace Sys2Proof.Machine

theorem queueOut_notice (p : PortNo) (before : PortState) (x : Port) (m : PressOut) (r : PortReason) :
    portNoticeBody p before (x.queueOut m) r = portNoticeBody p before x r := by
  unfold Port.queueOut
  split <;> rfl

theorem queueOut_state (x : Port) (m : PressOut) : (x.queueOut m).state = x.state := by
  unfold Port.queueOut
  split <;> rfl

/-- A timer set before or after a message joins the outbound side. -/
theorem queueOut_setupTimer (x : Port) (m : PressOut) (t : Option Timer) :
    { x.queueOut m with setupTimer := t } = Port.queueOut { x with setupTimer := t } m := by
  unfold Port.queueOut
  split <;> rename_i e <;> simp [e]

section
variable (s : State) (p : PortNo) (j : Slot) (x : Job)

/-- A RUNNING job's record, told and assigned to its port, before the port is told of it (R67). -/
def State.assigning : State :=
  (((s.unlist j).setJob j (some { x with state := .running, lastPort := some p })).notify .job
    (jobNoticeBody j x.state { x with state := .running, lastPort := some p })).setAssignment p
      (some { slot := j, since := s.partTime, slice := s.sliceTimer x.level })

variable {s p j x}

theorem assign_eq (hx : s.job j = some x) (hs : x.state ≠ .running) :
    s.assign p j = (s.assigning p j x).takeJob p j { x with state := .running, lastPort := some p } := by
  have last : (s.unlist j).modJob j (fun y => { y with lastPort := some p })
      = (s.unlist j).setJob j (some { x with lastPort := some p }) := by
    unfold State.modJob
    rw [unlist_job, hx]
    rfl
  have running : ((s.unlist j).setJob j (some { x with lastPort := some p })).jobTo j .running =
      ((s.unlist j).setJob j (some { x with state := .running, lastPort := some p })).notify .job
        (jobNoticeBody j x.state { x with state := .running, lastPort := some p }) := by
    rw [jobTo_other _ j { x with lastPort := some p } .running (by simp) hs, State.setJob_setJob]
  have job : (((s.unlist j).setJob j (some { x with state := .running, lastPort := some p })).notify .job
      (jobNoticeBody j x.state { x with state := .running, lastPort := some p })).job j =
        some { x with state := .running, lastPort := some p } := by simp
  unfold State.assign
  dsimp only
  rw [last, running, job]
  dsimp only
  unfold State.assigning State.sliceTimer
  rw [notify_dispatch, notify_partTime]
  rfl

@[simp] theorem assigning_port (q : PortNo) : (s.assigning p j x).port q = s.port q := by simp [State.assigning]
@[simp] theorem assigning_partTime : (s.assigning p j x).partTime = s.partTime := by
  simp [State.assigning, State.unlist]
@[simp] theorem assigning_agenda : (s.assigning p j x).agenda = s.agenda := by simp [State.assigning]
@[simp] theorem assigning_assigned : (s.assigning p j x).assigned p = some j := by
  simp [State.assigning, State.assigned]

/-- The setup owner feeds at once and decides (R90). -/
theorem assign_owner (hx : s.job j = some x) (hs : x.state ≠ .running) (hp : (s.port p).state = .ready)
    (ho : (s.port p).owner = some j) :
    s.assign p j = (((s.assigning p j x).setPort p { s.port p with state := .feeding, stateTime := s.partTime }).notifyPort p
      .ready (.state (some j))).post (.decide p) := by
  rw [assign_eq hx hs]
  unfold State.takeJob
  rw [assigning_port, if_pos ho, portTo_kept_stock _ p .feeding (by rw [assigning_port, hp]; decide) (.inr rfl),
    assigning_port, hp, assigning_assigned, assigning_partTime]
  rfl

/-- Any other port sends SETUP and waits for its answer (R90). -/
theorem assign_setup (hx : s.job j = some x) (hs : x.state ≠ .running) (hp : (s.port p).state = .ready)
    (ho : (s.port p).owner ≠ some j) :
    s.assign p j = ((s.assigning p j x).setPort p (Port.queueOut
      { s.port p with
        state := .setup, stateTime := s.partTime
        setupTimer := some { start := s.partTime, length := 5000 } } (.setup x.setup))).notifyPort p
      .ready (.state (some j)) := by
  have told := portTo_kept_stock (s.assigning p j x) p .setup (by rw [assigning_port, hp]; decide) (.inr rfl)
  rw [assigning_port, hp, assigning_assigned, assigning_partTime] at told
  rw [assign_eq hx hs]
  unfold State.takeJob
  rw [assigning_port, if_neg ho, told]
  unfold State.send State.modPort State.notifyPort
  simp only [State.setPort_port, if_true, notify_port, notify_setPort, State.setPort_setPort, queueOut_setupTimer,
    queueOut_notice, assigning_partTime]
  rfl

end

/-- What an assignment changes, whatever record `z` its port takes, with its notices (R25, R67, R87). -/
theorem assigning_told (s : State) (p : PortNo) (j : Slot) (x : Job) (z : Port) :
    let t := ((s.assigning p j x).setPort p z).notifyPort p .ready (.state (some j))
    t.job j = some { x with state := .running, lastPort := some p }
    ∧ (∀ i, i ≠ j → t.job i = s.job i)
    ∧ (∀ l, t.readyAt l = (s.readyAt l).filter (fun i => i ≠ j))
    ∧ t.dispatch.stockWait = s.dispatch.stockWait.filter (fun i => i ≠ j)
    ∧ t.assignment p = some { slot := j, since := s.partTime, slice := s.sliceTimer x.level }
    ∧ (∀ q, q ≠ p → t.assignment q = s.assignment q ∧ t.port q = s.port q)
    ∧ t.port p = z
    ∧ t.link = ((s.notify .job (jobNoticeBody j x.state { x with state := .running, lastPort := some p })).notify .port
        (portNoticeBody p .ready (t.port p) (.state (some j)))).link
    ∧ t.spool = s.spool ∧ t.meter = s.meter ∧ t.alerts = s.alerts ∧ t.dispatch.slices = s.dispatch.slices
    ∧ t.panel = s.panel ∧ t.partTime = s.partTime ∧ t.choices = s.choices ∧ t.pending = s.pending := by
  unfold State.notifyPort
  simp only [State.setPort_port, if_true, notify_port]
  refine ⟨by simp [State.assigning], fun i n => by simp [State.assigning, n.symm], fun l => by simp [State.assigning],
    by simp [State.assigning], by simp [State.assigning], fun q n => by simp [State.assigning, n.symm, State.unlist], trivial,
    ?_, by simp [State.assigning, State.unlist], by simp [State.assigning, State.unlist],
    by simp [State.assigning, State.unlist], by simp [State.assigning, State.unlist], by simp [State.assigning, State.unlist],
    by simp [State.assigning, State.unlist], by simp [State.assigning, State.unlist], by simp [State.assigning, State.unlist]⟩
  refine notify_link_congr _ _ ?_ ?_
  · exact notify_link_congr _ _ rfl rfl
  · simp [State.assigning, State.unlist]

/-- Settles O34: the assignment record and the job's record are written, then the port feeds or sends SETUP. -/
theorem assignmentBegins : Obligations.AssignmentBegins := by
  intro s p j x hx hs hp
  have idle : x.state ≠ .running := by rw [hs]; decide
  dsimp only
  by_cases ho : (s.port p).owner = some j
  · rw [assign_owner hx idle hp ho]
    obtain ⟨job, jobs, ready, wait, mine, others, port, link, rest⟩ :=
      assigning_told s p j x { s.port p with state := .feeding, stateTime := s.partTime }
    refine ⟨job, jobs, ready, wait, mine, others, fun _ => ⟨port, ?_⟩, fun n => absurd ho n, ?_, rest⟩
    · simp [State.notifyPort]
    · rw [hs] at link; exact link
  · rw [assign_setup hx idle hp ho]
    obtain ⟨job, jobs, ready, wait, mine, others, port, link, rest⟩ :=
      assigning_told s p j x (Port.queueOut
        { s.port p with
          state := .setup, stateTime := s.partTime
          setupTimer := some { start := s.partTime, length := 5000 } } (.setup x.setup))
    refine ⟨job, jobs, ready, wait, mine, others, fun o => absurd o ho, fun _ => ⟨port, ?_⟩, ?_, rest⟩
    · simp [State.notifyPort]
    · rw [hs] at link; exact link

end Sys2Proof.Machine
end

section
/-! Job records (chapter 2), fifth part: what a decision keeps of the jobs, the port back in READY, and the search for a port
carried to its end (R69, R74, R102, R111). -/

namespace Sys2Proof.Machine

variable {s t : State}

/-! ## A decision keeps assignments and job states -/

/-- Every job is in the state it was in, on the port it was on. -/
structure State.SameRuns (s t : State) : Prop where
  states : ∀ j, (t.job j).map (·.state) = (s.job j).map (·.state)
  assigned : ∀ p, t.assigned p = s.assigned p

theorem State.SameRuns.refl (s : State) : s.SameRuns s := ⟨fun _ => rfl, fun _ => rfl⟩

theorem State.SameRuns.trans {u : State} (h : s.SameRuns t) (k : t.SameRuns u) : s.SameRuns u :=
  ⟨fun j => (k.states j).trans (h.states j), fun p => (k.assigned p).trans (h.assigned p)⟩

theorem State.SameRuns.jobIs (h : s.SameRuns t) (j : Slot) (st : JobState) : t.jobIs j st = s.jobIs j st := by
  have e := h.states j
  unfold State.jobIs
  cases hs : s.job j <;> cases ht : t.job j <;> simp_all

theorem setJob_sameRuns {j : Slot} {x y : Job} (hx : s.job j = some x) (e : y.state = x.state) :
    s.SameRuns (s.setJob j (some y)) where
  states k := by
    rw [State.setJob_job]
    split
    · rename_i same; rw [← same, hx]; simp [e]
    · rfl
  assigned _ := rfl

theorem stopFeeding_sameRuns (p : PortNo) (c : DrainCause) (h : (s.port p).state = .feeding) :
    s.SameRuns (s.stopFeeding p c) := by
  rw [stopFeeding_eq s c h]
  exact ⟨fun j => by rw [State.post_job, drains_job], fun q => by simp [State.drains, State.notifyPort]⟩

theorem restartSlice_sameRuns {p : PortNo} {j : Slot} {x : Job} (hx : s.job j = some x) : s.SameRuns (s.restartSlice p j x) := by
  unfold State.restartSlice
  split
  · have unflagged : s.SameRuns (s.setJob j (some { x with slice := false })) := setJob_sameRuns hx rfl
    dsimp only
    split
    · rename_i a ha
      refine unflagged.trans ⟨fun _ => rfl, fun q => ?_⟩
      unfold State.assigned
      rw [State.setAssignment_assignment]
      split
      · rename_i same; rw [← same, ha]; rfl
      · rfl
    · exact unflagged
  · exact .refl s

theorem waitOrStart_sameRuns {p : PortNo} (j : Slot) (h : (s.port p).state = .feeding) : s.SameRuns (s.waitOrStart p j) := by
  unfold State.waitOrStart
  split
  · rename_i x hx
    split
    · exact ⟨fun _ => rfl, fun _ => rfl⟩
    · split
      · unfold State.waitForGate
        split
        · exact ⟨fun _ => rfl, fun _ => rfl⟩
        · split
          · exact stopFeeding_sameRuns p _ h
          · exact ⟨fun _ => rfl, fun _ => rfl⟩
      · split
        · exact ⟨fun _ => rfl, fun _ => rfl⟩
        · unfold State.startSheet
          dsimp only
          split
          · exact (setJob_sameRuns hx rfl : s.SameRuns (s.setJob j (some { x with next := x.next + 1 }))).trans
              ⟨fun _ => rfl, fun _ => rfl⟩
          · exact (setJob_sameRuns hx rfl : s.SameRuns (s.setJob j (some { x with next := x.next + 1 }))).trans
              ⟨fun _ => rfl, fun _ => rfl⟩
  · exact .refl s

@[simp] theorem restartSlice_port (p : PortNo) (j : Slot) (x : Job) (q : PortNo) :
    (s.restartSlice p j x).port q = s.port q := by
  unfold State.restartSlice
  split
  · dsimp only
    split <;> rfl
  · rfl

theorem runDecision_sameRuns (p : PortNo) : s.SameRuns (s.runDecision p) := by
  unfold State.runDecision
  split
  · exact .refl s
  · rename_i feeding
    have feeds : (s.port p).state = .feeding := not_not.mp feeding
    split
    · rename_i j x hj hx
      have job : s.job j = some x := (assignedJob_of s p j hj).symm.trans hx
      split
      · exact stopFeeding_sameRuns p _ feeds
      · split
        · exact stopFeeding_sameRuns p _ feeds
        · exact (setJob_sameRuns (y := { x with slice := false }) job rfl).trans (stopFeeding_sameRuns p _ feeds)
        · exact (restartSlice_sameRuns job).trans (waitOrStart_sameRuns j (by rw [restartSlice_port]; exact feeds))
    · exact .refl s

/-! ## A port back in READY (R89, R111) -/

@[simp] theorem clearAfterLeaving_job (p : PortNo) (j : Slot) : (s.clearAfterLeaving p).job j = s.job j := by
  simp [State.clearAfterLeaving]

theorem clearAfterLeaving_port (p q : PortNo) :
    (s.clearAfterLeaving p).port q = if p = q then (s.port p).clearFeeding else s.port q := by
  simp [State.clearAfterLeaving]

theorem clearAfterLeaving_causes (p : PortNo) :
    ((s.clearAfterLeaving p).alert p).causes = { (s.alert p).causes with trayEmpty := false } := by
  unfold State.clearAfterLeaving
  rw [changeCauses_causes]
  rfl

theorem clearAfterLeaving_alert_other {p q : PortNo} (h : q ≠ p) : (s.clearAfterLeaving p).alert q = s.alert q := by
  unfold State.clearAfterLeaving
  rw [changeCauses_other _ _ _ _ h]
  rfl

section
variable {p : PortNo} (n : (s.port p).state ≠ .ready)
include n

/-- The port's record and the notices are all that going back to READY changes beside the alert: READY counts stock. -/
theorem readied_eq : s.readied p = ((s.clearAfterLeaving p).setPort p
    { (s.port p).clearFeeding with state := .ready, stateTime := s.partTime }).notifyPort p (s.port p).state
      (.state (s.assigned p)) := by
  have port : (s.clearAfterLeaving p).port p = (s.port p).clearFeeding := by rw [clearAfterLeaving_port, if_pos rfl]
  have time : (s.clearAfterLeaving p).partTime = s.partTime := by simp [State.clearAfterLeaving]
  have assigned : (s.clearAfterLeaving p).assigned p = s.assigned p := by simp [State.clearAfterLeaving]
  unfold State.readied
  rw [portTo_kept_stock _ p .ready (by rw [port]; exact n) (.inr rfl), port, time, assigned]
  rfl

theorem readied_port (q : PortNo) : (s.readied p).port q =
    if p = q then { (s.port p).clearFeeding with state := .ready, stateTime := s.partTime } else s.port q := by
  rw [readied_eq n]
  simp only [State.notifyPort, notify_port, State.setPort_port, clearAfterLeaving_port]
  split <;> rfl

theorem readied_causes : ((s.readied p).alert p).causes = { (s.alert p).causes with trayEmpty := false } := by
  rw [readied_eq n]
  simp only [State.notifyPort, notify_alert, State.setPort_alert]
  exact clearAfterLeaving_causes p

theorem readied_jobs : (s.readied p).jobs = s.jobs := by
  rw [readied_eq n]; simp [State.notifyPort, State.clearAfterLeaving]
theorem readied_dispatch : (s.readied p).dispatch = s.dispatch := by
  rw [readied_eq n]; simp [State.notifyPort, State.clearAfterLeaving]
theorem readied_spool : (s.readied p).spool = s.spool := by
  rw [readied_eq n]; simp [State.notifyPort, State.clearAfterLeaving]
theorem readied_meter : (s.readied p).meter = s.meter := by
  rw [readied_eq n]; simp [State.notifyPort, State.clearAfterLeaving]

theorem readied_noneReady (h : s.noneReady) : (s.readied p).noneReady := fun l => by
  unfold State.readyAt
  rw [readied_dispatch n]
  exact h l

end

/-- Going back to READY leaves every job as it was. -/
theorem readied_job (p : PortNo) (j : Slot) : (s.readied p).job j = s.job j := by
  by_cases e : (s.port p).state = .ready
  · have port : ((s.clearAfterLeaving p).port p).state = .ready := by rw [clearAfterLeaving_port, if_pos rfl]; exact e
    have same := portTo_same (s.clearAfterLeaving p) p
    rw [port] at same
    unfold State.readied
    rw [same, clearAfterLeaving_job]
  · unfold State.job
    rw [readied_jobs e]

/-! ## The search for a port (R61, R69, R74) -/

/-- A job whose leaving leaves nothing to bring about is not placed in the ready queue (R61). -/
theorem leaving_not_queued {p : PortNo} {j : Slot} {d : Destination} (ha : s.assigned p = some j)
    (hj : s.jobIs j .queued = false) (left : (s.leaveNow p d).agenda = []) :
    (((s.leaveNow p d).clearAfterLeaving p).portTo p .ready).jobIs j .queued = false := by
  obtain ⟨a, as, rfl⟩ : ∃ a, s.assignment p = some a ∧ a.slot = j := by simpa [State.assigned] using ha
  have gone : (s.leaveNow p d).jobIs a.slot .queued = false := by
    cases hx : s.job a.slot with
    | none =>
      have job : s.assignedJob p = none := (assignedJob_of s p a.slot ha).trans hx
      have : s.leaveNow p d = s := by unfold State.leaveNow; rw [as, job]
      rw [this]
      exact hj
    | some x =>
      have final : s.leftState x d ≠ .queued := fun e => by
        have := leaveNow_agenda as hx d
        rw [left, e] at this
        simp at this
      unfold State.jobIs
      rw [(leaveNow_parted as hx d).job, released_job_same]
      simpa using final
  unfold State.jobIs at gone ⊢
  rw [show (((s.leaveNow p d).clearAfterLeaving p).portTo p .ready).job a.slot = _ from readied_job p a.slot]
  exact gone

/-- A job that no decision finds QUEUED is not QUEUED once the decision of its port is carried to its end. -/
theorem decides_not_queued {p : PortNo} {j : Slot} : ∀ (n : Nat) (s t : State), State.Decides p n s t → s.assigned p = some j →
    s.jobIs j .queued = false → t.jobIs j .queued = false := by
  intro n
  induction n with
  | zero => exact fun _ _ h => h.elim
  | succ n ih =>
    intro s t h ha hj
    have kept : s.SameRuns (s.runDecision p) := runDecision_sameRuns p
    have notYet : (s.runDecision p).jobIs j .queued = false := (kept.jobIs j .queued).trans hj
    have stillRuns : (s.runDecision p).assigned p = some j := (kept.assigned p).trans ha
    rcases h with ⟨_, rfl⟩ | ⟨_, goes⟩ | ⟨_, _, ends⟩
    · exact notYet
    · exact ih _ t goes stillRuns notYet
    · rcases ends with ⟨_, rfl⟩ | ⟨_, left, rfl, _⟩
      · exact notYet
      · have runs : State.assigned { s.runDecision p with agenda := [] } p = some j := stillRuns
        have waits : State.jobIs { s.runDecision p with agenda := [] } j .queued = false := notYet
        generalize ({ s.runDecision p with agenda := [] } : State) = e at runs waits left ⊢
        exact leaving_not_queued runs waits left

/-- A QUEUED job's assignment, with its port's first decision, runs to its end, and leaves the job in another state. -/
theorem runs_assign {p : PortNo} {j : Slot} {x : Job} (ha : s.agenda = []) (hx : s.job j = some x) (hs : x.state = .queued)
    (hp : (s.port p).state = .ready) (h : State.Decides p 5 { s.assign p j with agenda := [] } t) :
    ∃ m ≤ 9, Runs m (s.assign p j) t ∧ t.jobIs j .queued = false := by
  have idle : x.state ≠ .running := by rw [hs]; decide
  have told := assigning_told s p j x
  by_cases ho : (s.port p).owner = some j
  · rw [assign_owner hx idle hp ho] at h ⊢
    obtain ⟨job, _, _, _, mine, _⟩ := told { s.port p with state := .feeding, stateTime := s.partTime }
    generalize hw : ((s.assigning p j x).setPort p { s.port p with state := .feeding, stateTime := s.partTime }).notifyPort p
      .ready (.state (some j)) = w at h job mine
    have none : w.agenda = [] := by rw [← hw]; simp [State.notifyPort, ha]
    have same : ({ w.post (.decide p) with agenda := [] } : State) = w := by cases w; simp_all [State.post]
    rw [same] at h
    obtain ⟨m, fuel, run⟩ := runs_decides 5 w t h none
    refine ⟨m, fuel, run, decides_not_queued 5 w t h ?_ ?_⟩
    · unfold State.assigned; rw [mine]; rfl
    · simp [State.jobIs, job]
  · rw [assign_setup hx idle hp ho] at h ⊢
    obtain ⟨job, _, _, _, _, _, port, _⟩ := told (Port.queueOut
      { s.port p with
        state := .setup, stateTime := s.partTime
        setupTimer := some { start := s.partTime, length := 5000 } } (.setup x.setup))
    generalize hw : ((s.assigning p j x).setPort p (Port.queueOut
      { s.port p with
        state := .setup, stateTime := s.partTime
        setupTimer := some { start := s.partTime, length := 5000 } } (.setup x.setup))).notifyPort p
      .ready (.state (some j)) = w at h job port
    have none : w.agenda = [] := by rw [← hw]; simp [State.notifyPort, ha]
    have same : ({ w with agenda := [] } : State) = w := by cases w; simp_all
    have setup : (w.port p).state ≠ .feeding := by
      rw [port, queueOut_state]
      exact PortState.noConfusion
    have waits : w.runDecision p = w := decide_noop p setup
    rw [same] at h
    have ends : t = w := by
      rcases h with ⟨_, e⟩ | ⟨again, _⟩ | ⟨again, _⟩
      · exact e.trans waits
      · rw [waits, none] at again; cases again
      · rw [waits, none] at again; cases again
    rw [ends]
    exact ⟨0, by omega, Runs.idle none, by simp [State.jobIs, job]⟩

theorem signalPorts_noop {j : Slot} (h : s.jobIs j .queued = false) : doTask (.signalPorts j) s = s := by
  show s.signalNow j = s
  unfold State.signalNow
  rw [h]
  rfl

theorem signalPorts_posts {j : Slot} (h : s.jobIs j .queued = true) :
    doTask (.signalPorts j) s = s.post (.decideEach (s.signalled j)) := by
  show s.signalNow j = _
  unfold State.signalNow
  rw [if_pos h]

/-- What the search for a port for a QUEUED job comes to is what the work list makes of it (R61, R69, R74). -/
theorem runs_sought {j : Slot} (h : s.Sought j t) (ha : s.agenda = []) (hj : s.jobIs j .queued = true) :
    ∃ m ≤ 16, Runs m (s.seekPort j) t := by
  obtain ⟨x, hx, hs⟩ : ∃ x, s.job j = some x ∧ x.state = .queued := by
    unfold State.jobIs at hj
    split at hj
    · exact ⟨_, by assumption, by simpa using hj⟩
    · cases hj
  unfold State.seekPort
  rcases h with ⟨p, chosen, goes⟩ | ⟨nobody, signalled⟩
  · have ready : (s.port p).state = .ready := by
      have := choosePort_free s j p chosen
      simp only [State.free, Bool.and_eq_true, decide_eq_true_eq] at this
      exact this.1.1
    have task : doTask (.choosePort j) s = s.assign p j := by
      show s.seekPortNow j = _
      unfold State.seekPortNow
      rw [if_pos hj, chosen]
    obtain ⟨m, fuel, run, left⟩ := runs_assign ha hx hs ready goes
    exact ⟨m + 1 + 1, by omega, Runs.post_post ha (by rw [task]; exact run) (Runs.noop run.agenda (signalPorts_noop left))⟩
  · have none := choosePort_noop j nobody
    have signal : ∀ {m : Nat}, Runs m (doTask (.decideEach (s.signalled j)) s) t →
        Runs (0 + 1 + (m + 1 + 1)) ((s.post (.choosePort j)).post (.signalPorts j)) t := fun run =>
      Runs.post_post ha (by rw [none]; exact Runs.idle ha)
        (Runs.post ha (by rw [signalPorts_posts hj]; exact Runs.post ha run))
    rcases signalled with ⟨empty, rfl⟩ | ⟨q, one, goes⟩
    · refine ⟨_, ?_, signal (m := 0) ?_⟩
      · omega
      · rw [empty]; exact Runs.idle ha
    · obtain ⟨m, fuel, run⟩ := runs_decides 5 s t goes ha
      have feeds : (s.port q).state = .feeding := by
        have : q ∈ s.signalled j := by rw [one]; exact List.mem_singleton_self q
        simp only [State.signalled, List.mem_filter, Bool.and_eq_true, decide_eq_true_eq] at this
        exact this.2.1.1
      have task : doTask (.decideEach [q]) s = s.post (.decide q) := by
        show s.decideEachNow [q] = _
        unfold State.decideEachNow State.feedingAmong
        simp [feeds]
      refine ⟨_, ?_, signal (m := m) ?_⟩
      · omega
      · rw [one, task]; exact run

end Sys2Proof.Machine
end

section
/-! Job records (chapter 2), sixth part: the requests on a job (R18, R29 to R34). -/

namespace Sys2Proof.Machine

variable {s t : State} {r : Request} {rest : List Request} {body : List Byte} {j : Slot} {x : Job}

/-! ## The slot that a request names (R18) -/

theorem byteAt_zero {b : Byte} (h : body.head? = some b) : byteAt body 0 = b := by
  cases body with
  | nil => cases h
  | cons c l => cases h; rfl

theorem withJob_of (hb : body.head? = some (byte j.val)) (hj : s.job j = some x) (f : Slot → Job → Answer) :
    withJob s body f = f j x := by
  unfold withJob
  rw [byteAt_zero hb, slot_byte]
  dsimp only
  rw [hj]

theorem withJob_free (hb : body.head? = some (byte j.val)) (hj : s.job j = none) (f : Slot → Job → Answer) :
    withJob s body f = .refuse .noSuch := by
  unfold withJob
  rw [byteAt_zero hb, slot_byte]
  dsimp only
  rw [hj]

theorem withJob_outOfRange {b : Byte} (hb : body.head? = some b) (h : 128 ≤ b.toNat) (f : Slot → Job → Answer) :
    withJob s body f = .refuse .badField := by
  have none : slot? b = none := dif_neg (by omega)
  unfold withJob
  rw [byteAt_zero hb, none]

theorem jobCode_of (h : t.job j = some x) : t.jobCode j = x.state.code := by
  unfold State.jobCode
  rw [h]

/-! ## Answers that reply with the state of the job -/

/-- A request that leaves nothing to bring about replies with the state its job is in. -/
theorem State.Takes.jobDone {kind : Byte} (h : s.Takes kind r rest) (owner : State → List Byte → Answer)
    (e : owner s r.body = jobState t j) (hx : t.job j = some x) (ha : t.agenda = []) (hr : t.link.reset = .none) :
    (s.serve kind owner).finish = t.answered r .ok [x.state.code] := by
  rw [h.done owner t _ e ha hr, jobCode_of hx]

/-- A request whose effects run to their end replies with the state its job is in then. -/
theorem State.Takes.jobSettled {kind : Byte} {u : State} {n : Nat} (h : s.Takes kind r rest)
    (owner : State → List Byte → Answer) (e : owner s r.body = jobState u j) (hr : u.link.reset = .none) (run : Runs n u t)
    (fuel : n ≤ 65536) (hx : t.job j = some x) : (s.serve kind owner).finish = t.answered r .ok [x.state.code] := by
  rw [h.settled owner u _ e hr, run.settle fuel, jobCode_of hx]

/-! ## Telling the port of a changed flag (R24) -/

theorem runs_tellPort_idle (h : s.notFeeding j) (ha : s.agenda = []) : ∃ n ≤ 1, Runs n (s.tellPort j) s := by
  unfold State.tellPort
  split
  · rename_i p hp
    exact ⟨1, Nat.le_refl 1, Runs.noop ha (decide_noop p (h p (assigned_of_portRunning s hp)))⟩
  · exact ⟨0, Nat.zero_le 1, Runs.idle ha⟩

theorem tellPort_posts {p : PortNo} (h : s.assigned p = some j) (alone : ∀ q, s.assigned q = some j → q = p) :
    s.tellPort j = s.post (.decide p) := by
  unfold State.tellPort
  rw [portRunning_of_assigned s h alone]

@[simp] theorem tellPort_reset (s : State) (j : Slot) : (s.tellPort j).link.reset = s.link.reset := by
  unfold State.tellPort
  split <;> rfl

/-- The cause for which a port stops feeding a job with a pending flag (R103, R104). -/
def State.flagCause (s : State) (p : PortNo) : DrainCause := if (s.port p).held = true then .hold else .flags

theorem flagCause_destination (p : PortNo) : (s.flagCause p).destination = .head := by
  unfold State.flagCause
  split <;> rfl

/-- R103, R104: a pending flag of its job makes a feeding port stop. -/
theorem runDecision_flagged {p : PortNo} (hp : (s.port p).state = .feeding) (ha : s.assigned p = some j)
    (hx : s.job j = some x) (flag : x.cancel = true ∨ x.suspend = true) :
    s.runDecision p = (s.drains p (s.flagCause p)).post (.afterRemoval p) := by
  have cause : s.stopCause p x = some (s.flagCause p) := by
    unfold State.stopCause State.flagCause
    by_cases held : (s.port p).held = true
    · simp [held]
    · rcases flag with flag | flag <;> simp [held, flag]
  have job : s.assignedJob p = some x := (assignedJob_of s p j ha).trans hx
  unfold State.runDecision
  rw [if_neg (by simp [hp]), ha, job]
  dsimp only
  rw [cause]
  exact stopFeeding_eq s _ hp

/-- The port whose job has a pending flag drains, and waits for the sheets of its path (R104). -/
theorem runs_flagged {p : PortNo} (hp : (s.port p).state = .feeding) (ha : s.assigned p = some j) (hx : s.job j = some x)
    (flag : x.cancel = true ∨ x.suspend = true) (none : s.agenda = []) (path : (s.port p).path ≠ []) :
    Runs 2 (s.post (.decide p)) (s.drains p (s.flagCause p)) := by
  have port : (s.drains p (s.flagCause p)).port p = (s.port p).stopped (s.flagCause p) s.partTime := by
    rw [drains_port, if_pos rfl]
  refine Runs.post none ?_
  show Runs 1 (s.runDecision p) _
  rw [runDecision_flagged hp ha hx flag]
  exact Runs.noop ((drains_agenda s p _).trans none) (afterRemoval_waits (by rw [port]; rfl) (by rw [port]; exact path))

/-- What `drains` writes, with the destination of a pending flag spelled out. -/
theorem drains_flagged {p : PortNo} (ha : s.assigned p = some j) :
    s.drains p (s.flagCause p) = (s.setPort p { s.port p with
      drain := some (s.flagCause p), destination := some .head, gateTimer := none, wait := .none, state := .draining
      stateTime := s.partTime }).notifyPort p .feeding (.state (some j)) := by
  unfold State.drains Port.stopped
  rw [flagCause_destination, ha]

/-! ## JOB_CANCEL -/

theorem cancel_waiting (hb : body.head? = some (byte j.val)) (hx : s.job j = some x)
    (h : x.state = .queued ∨ x.state = .stockwait ∨ x.state = .paused ∨ x.state = .held) :
    answerJobCancel s body = jobState ((s.unlist j).endJob j .cancelled) j := by
  unfold answerJobCancel
  rw [withJob_of hb hx]
  rcases h with h | h | h | h <;> simp only [h]

theorem cancel_running (hb : body.head? = some (byte j.val)) (hx : s.job j = some x) (h : x.state = .running)
    (n : x.cancel = false) :
    answerJobCancel s body = jobState ((s.setJob j (some { x with cancel := true })).tellPort j) j := by
  unfold answerJobCancel
  rw [withJob_of hb hx]
  simp only [h, n, Bool.false_eq_true, if_false]

theorem cancel_flagged (hb : body.head? = some (byte j.val)) (hx : s.job j = some x) (h : x.state = .running)
    (n : x.cancel = true) : answerJobCancel s body = jobState s j := by
  unfold answerJobCancel
  rw [withJob_of hb hx]
  simp only [h, n, if_true]

theorem cancel_ended (hb : body.head? = some (byte j.val)) (hx : s.job j = some x) (h : x.state.terminal = true) :
    answerJobCancel s body = .refuse .badState := by
  unfold answerJobCancel
  rw [withJob_of hb hx]
  cases e : x.state <;> simp_all [JobState.terminal]

/-! ## JOB_SUSPEND and JOB_RESUME -/

theorem suspend_waiting (hb : body.head? = some (byte j.val)) (hx : s.job j = some x)
    (h : x.state = .queued ∨ x.state = .stockwait ∨ x.state = .held ∨ x.state = .paused) :
    answerJobSuspend s body = jobState ((s.unlist j).jobTo j .paused) j := by
  unfold answerJobSuspend
  rw [withJob_of hb hx]
  rcases h with h | h | h | h <;> simp only [h]

theorem suspend_running (hb : body.head? = some (byte j.val)) (hx : s.job j = some x) (h : x.state = .running)
    (n : x.suspend = false) :
    answerJobSuspend s body = jobState ((s.setJob j (some { x with suspend := true })).tellPort j) j := by
  unfold answerJobSuspend
  rw [withJob_of hb hx]
  simp only [h, n, Bool.false_eq_true, if_false]

theorem suspend_flagged (hb : body.head? = some (byte j.val)) (hx : s.job j = some x) (h : x.state = .running)
    (n : x.suspend = true) : answerJobSuspend s body = jobState s j := by
  unfold answerJobSuspend
  rw [withJob_of hb hx]
  simp only [h, n, if_true]

theorem suspend_ended (hb : body.head? = some (byte j.val)) (hx : s.job j = some x) (h : x.state.terminal = true) :
    answerJobSuspend s body = .refuse .badState := by
  unfold answerJobSuspend
  rw [withJob_of hb hx]
  cases e : x.state <;> simp_all [JobState.terminal]

theorem resume_stopped (hb : body.head? = some (byte j.val)) (hx : s.job j = some x) (h : x.state = .paused)
    (stops : (s.account x.account).state.stops = true) : answerJobResume s body = jobState (s.jobTo j .held) j := by
  unfold answerJobResume
  rw [withJob_of hb hx]
  simp only [h, stops, if_true]

theorem resume_placed (hb : body.head? = some (byte j.val)) (hx : s.job j = some x) (h : x.state = .paused)
    (stops : (s.account x.account).state.stops = false) : answerJobResume s body = jobState (s.place j false) j := by
  unfold answerJobResume
  rw [withJob_of hb hx]
  simp only [h, stops, Bool.false_eq_true, if_false]

theorem resume_running (hb : body.head? = some (byte j.val)) (hx : s.job j = some x) (h : x.state = .running)
    (n : x.suspend = true) :
    answerJobResume s body = jobState ((s.setJob j (some { x with suspend := false })).tellPort j) j := by
  unfold answerJobResume
  rw [withJob_of hb hx]
  simp only [h, n, if_true]

theorem resume_refused (hb : body.head? = some (byte j.val)) (hx : s.job j = some x) (h : x.state ≠ .paused)
    (n : x.state = .running → x.suspend = false) : answerJobResume s body = .refuse .badState := by
  unfold answerJobResume
  rw [withJob_of hb hx]
  cases e : x.state <;> simp_all

/-! ## JOB_FORGET, and slots that hold no job -/

/-- Each request on a job looks the slot up first (R18). -/
theorem jobRequest_serves {i : Instr} {kind : Byte}
    (hi : i ∈ [.jobCancel, .jobSuspend, .jobResume, .jobLevel, .jobQuery, .jobForget]) (hk : requestKind i = some kind) :
    ∃ f : State → List Byte → Slot → Job → Answer,
      ∀ s, exec i s = .next (s.serve kind (fun u body => withJob u body (f u body))).finish := by
  simp only [List.mem_cons, List.not_mem_nil, or_false] at hi
  rcases hi with rfl | rfl | rfl | rfl | rfl | rfl <;> cases hk <;> exact ⟨_, fun _ => rfl⟩

/-- Settles O25: the owner of JOB_FORGET frees the slot or refuses; every job request looks its slot up first. -/
theorem forgetFreesSlot : Obligations.ForgetFreesSlot := by
  intro s r rest j
  refine ⟨fun x h hb hx => ?_, fun i kind b hi hk h hb => ?_⟩
  · have judged : answerJobForget s r.body =
        if x.state.terminal then .done (s.forgetJob j) (fun _ => []) else .refuse .badState := by
      unfold answerJobForget
      rw [withJob_of (by rw [hb]; rfl) hx]
    refine ⟨fun ended => congrArg Host.Outcome.next ?_, fun going => congrArg Host.Outcome.next ?_⟩
    · rw [if_pos ended] at judged
      exact h.done answerJobForget _ _ judged h.agenda h.reset
    · rw [if_neg (by simp [going])] at judged
      exact h.refused answerJobForget _ judged
  · obtain ⟨f, serves⟩ := jobRequest_serves hi hk
    rw [serves]
    refine ⟨fun e free => congrArg Host.Outcome.next ?_, fun out => congrArg Host.Outcome.next ?_⟩
    · exact h.refused _ _ (withJob_free (e ▸ hb) free _)
    · exact h.refused _ _ (withJob_outOfRange hb out _)

end Sys2Proof.Machine
end

section
/-! Job records (chapter 2), seventh part: JOB_CANCEL (R24, R26, R29, R55, R104, R111). -/

namespace Sys2Proof.Machine

variable {s t : State} {r : Request} {rest : List Request} {j : Slot} {x : Job} {p : PortNo}

/-- A job's port is told of its changed record (R24, R105). -/
theorem tellPort_setJob (h : s.assigned p = some j) (alone : ∀ q, s.assigned q = some j → q = p) (y : Option Job) :
    (s.setJob j y).tellPort j = (s.setJob j y).post (.decide p) := tellPort_posts (s := s.setJob j y) h alone

/-- R103, R104, R111: a feeding port with an empty path, whose job has a pending flag, lets it leave for the head of its level
and, with no eligible job, is READY again. -/
theorem runs_flagged_leaves (hp : (s.port p).state = .feeding) (ha : s.assigned p = some j) (hx : s.job j = some x)
    (flag : x.cancel = true ∨ x.suspend = true) (none : s.agenda = []) (path : (s.port p).path = [])
    (left : ((s.drains p (s.flagCause p)).leaveNow p .head).agenda = [])
    (nobody : (((s.drains p (s.flagCause p)).leaveNow p .head).readied p).chooseJob p = Option.none) :
    Runs 5 (s.post (.decide p)) (((s.drains p (s.flagCause p)).leaveNow p .head).readied p) := by
  have port : (s.drains p (s.flagCause p)).port p = (s.port p).stopped (s.flagCause p) s.partTime := by
    rw [drains_port, if_pos rfl]
  have idle : (s.drains p (s.flagCause p)).agenda = [] := (drains_agenda s p _).trans none
  have head : (((s.drains p (s.flagCause p)).port p).destination.getD .head) = .head := by
    rw [port]
    simp [Port.stopped, flagCause_destination]
  refine Runs.post none ?_
  show Runs 4 (s.runDecision p) _
  rw [runDecision_flagged hp ha hx flag]
  refine Runs.post idle ?_
  rw [afterRemoval_leaves (by rw [port]; rfl) (by rw [port]; exact path), head]
  exact runs_leaving idle left nobody

/-- What the cancelled job of a feeding port with an empty path leaves behind (R26, R55, R111). -/
structure State.CancelledAt (s t : State) (p : PortNo) (a : Assignment) (x : Job) : Prop where
  job : t.job a.slot = some { x with
    cancel := false, suspend := false, slice := false, state := .cancelled
    pressTime := min (x.pressTime + elapsed s.partTime a.since) 4294967295 }
  assignment : t.assignment p = none
  images : t.imagesOf a.slot = []
  pool : ∀ b, b ∈ t.spool.pool ↔ b ∈ s.spool.pool ∨ b ∈ imageBlocks (s.imagesOf a.slot)
  others : ∀ i, i ≠ a.slot → t.job i = s.job i ∧ t.imagesOf i = s.imagesOf i
  state : (t.port p).state = .ready
  path : (t.port p).path = []
  drain : (t.port p).drain = none
  wait : (t.port p).wait = .none
  causes : (t.alert p).causes = { (s.alert p).causes with trayEmpty := false }

@[simp] theorem drains_assignment (s : State) (p q : PortNo) (c : DrainCause) :
    (s.drains p c).assignment q = s.assignment q := by
  simp [State.drains, State.notifyPort]
@[simp] theorem drains_imagesOf (s : State) (p : PortNo) (c : DrainCause) (i : Slot) :
    (s.drains p c).imagesOf i = s.imagesOf i := by
  simp [State.drains, State.notifyPort]
@[simp] theorem drains_readyAt (s : State) (p : PortNo) (c : DrainCause) (l : Level) :
    (s.drains p c).readyAt l = s.readyAt l := by
  simp [State.drains, State.notifyPort]
@[simp] theorem drains_spool (s : State) (p : PortNo) (c : DrainCause) : (s.drains p c).spool = s.spool := by
  simp [State.drains, State.notifyPort]
@[simp] theorem drains_alert (s : State) (p q : PortNo) (c : DrainCause) : (s.drains p c).alert q = s.alert q := by
  simp [State.drains, State.notifyPort]
@[simp] theorem drains_partTime (s : State) (p : PortNo) (c : DrainCause) : (s.drains p c).partTime = s.partTime := by
  simp [State.drains, State.notifyPort]

/-- A flagged job that is neither done nor failing leaves CANCELLED, and its port is READY (R26, R29, R111). -/
theorem cancelled_leaves {a : Assignment} {c : DrainCause} (ha : s.assignment p = some a) (hx : s.job a.slot = some x)
    (flag : x.cancel = true) (unfinished : x.good ≠ x.sheets * x.copies) (sound : x.lossCount ≠ 5)
    (path : (s.port p).path = []) (idle : s.agenda = []) (none : s.noneReady) :
    ((s.drains p c).leaveNow p .head).agenda = []
    ∧ (((s.drains p c).leaveNow p .head).readied p).chooseJob p = Option.none
    ∧ s.CancelledAt (((s.drains p c).leaveNow p .head).readied p) p a x := by
  have assigned : (s.drains p c).assignment p = some a := by rw [drains_assignment, ha]
  have job : (s.drains p c).job a.slot = some x := by rw [drains_job, hx]
  have final : (s.drains p c).leftState x .head = .cancelled := by
    unfold State.leftState
    rw [if_neg unfinished, if_neg sound, if_pos flag]
  obtain ⟨newJob, jobs, assignments, _, _, alerts, _, _, _⟩ := leaveNow_parted assigned job .head
  obtain ⟨images, others, pool, _, _, ports⟩ := leaveNow_discards assigned job .head (by simp [final])
  obtain ⟨ready, _⟩ := leaveNow_keeps_lists assigned job .head (by simp [final]) (by simp [final])
  have agenda := leaveNow_agenda assigned job .head
  have port := ports p
  rw [drains_port, if_pos rfl] at port
  have away : (((s.drains p c).leaveNow p .head).port p).state ≠ .ready := by
    rw [port]; exact PortState.noConfusion
  have spool := readied_spool away
  have nobody : ((s.drains p c).leaveNow p .head).noneReady := fun l => by
    unfold State.readyAt
    rw [ready]
    exact (drains_readyAt s p c l).trans (none l)
  have record := readied_port away p
  rw [if_pos rfl, port] at record
  have imagesOf : ∀ i, (((s.drains p c).leaveNow p .head).readied p).imagesOf i
      = ((s.drains p c).leaveNow p .head).imagesOf i := fun i => by
    unfold State.imagesOf; rw [spool]
  refine ⟨?_, chooseJob_noneReady (readied_noneReady away nobody), ?_⟩
  · rw [agenda, final]
    simp [idle]
  · refine ⟨?_, ?_, ?_, fun b => ?_, fun i n => ⟨?_, ?_⟩, ?_, ?_, ?_, ?_, ?_⟩
    · rw [readied_job, newJob, released_job_same, final, drains_partTime]
      rfl
    · unfold State.assignment
      rw [readied_dispatch away, assignments]
      exact (State.setAssignment_assignment _ _ _ _).trans (if_pos rfl)
    · rw [imagesOf, images]
    · rw [spool, pool, drains_spool, drains_imagesOf]
    · rw [readied_job, jobs i n, released_job, if_neg n.symm, drains_job]
    · rw [imagesOf, others i n, drains_imagesOf]
    · rw [record]
    · rw [record]; exact path
    · rw [record]; rfl
    · rw [record]; rfl
    · rw [readied_causes away]
      unfold State.alert
      rw [alerts]
      show { (State.alert (s.drains p c) p).causes with trayEmpty := false } = _
      rw [drains_alert]
      rfl

/-- The flag itself is no part of what a cancelled job leaves behind. -/
theorem State.CancelledAt.of_flag {a : Assignment}
    (h : (s.setJob a.slot (some { x with cancel := true })).CancelledAt t p a { x with cancel := true }) :
    s.CancelledAt t p a x where
  job := h.job
  assignment := h.assignment
  images := h.images
  pool := h.pool
  others i n := ⟨(h.others i n).1.trans ((State.setJob_job _ _ _ _).trans (if_neg n.symm)), (h.others i n).2⟩
  state := h.state
  path := h.path
  drain := h.drain
  wait := h.wait
  causes := h.causes

/-- R29, R105: the decision that JOB_CANCEL brings to a feeding port with an empty path, carried to its end. -/
theorem runs_cancelled {a : Assignment} (ha : s.assignment p = some a) (hp : (s.port p).state = .feeding)
    (idle : s.agenda = []) (path : (s.port p).path = []) (none : s.noneReady) (unfinished : x.good ≠ x.sheets * x.copies)
    (sound : x.lossCount ≠ 5) :
    ∃ t, Runs 5 ((s.setJob a.slot (some { x with cancel := true })).post (.decide p)) t ∧ s.CancelledAt t p a x := by
  have flag (w : State) (assigned : w.assignment p = some a) (feeds : (w.port p).state = .feeding) (idle : w.agenda = [])
      (path : (w.port p).path = []) (none : w.noneReady) (job : w.job a.slot = some { x with cancel := true }) :
      ∃ t, Runs 5 (w.post (.decide p)) t ∧ w.CancelledAt t p a { x with cancel := true } := by
    obtain ⟨left, nobody, leaves⟩ := cancelled_leaves (c := w.flagCause p) assigned job rfl unfinished sound path idle none
    exact ⟨_, runs_flagged_leaves feeds (assigned_of_assignment w assigned) job (.inl rfl) idle path left nobody, leaves⟩
  obtain ⟨t, run, leaves⟩ := flag (s.setJob a.slot (some { x with cancel := true })) ha hp idle path none (by simp)
  exact ⟨t, run, leaves.of_flag⟩

/-- Settles O22: the owner of JOB_CANCEL by the job's state; for a running job, the decision of the port it runs on. -/
theorem cancelEndsOrFlagsJob : Obligations.CancelEndsOrFlagsJob := by
  intro s r rest j x h hb hx
  have head : r.body.head? = some (byte j.val) := by rw [hb]; rfl
  refine ⟨fun waits => ?_, fun running idle => ?_, fun running flagged => congrArg Host.Outcome.next ?_,
    fun p running unflagged feeds runs alone => ⟨fun path => congrArg Host.Outcome.next ?_,
      fun path none unfinished sound => ?_, fun t y goes hy => congrArg Host.Outcome.next ?_⟩,
    fun ended => congrArg Host.Outcome.next ?_⟩
  · have judged := cancel_waiting head hx waits
    have moved : x.state ≠ .cancelled := by rcases waits with e | e | e | e <;> rw [e] <;> decide
    have job : ((s.unlist j).endJob j .cancelled).job j = some { x with state := .cancelled } := by
      unfold State.endJob
      rw [discardJob_job, jobTo_same_slot, unlist_job, hx]
      rfl
    refine ⟨(s.unlist j).endJob j .cancelled, congrArg Host.Outcome.next ?_, job, ?_, fun l => ?_, ?_, fun b => ?_, ?_,
      fun i n => ⟨?_, ?_⟩, ?_, ?_, ?_, ?_, ?_, ?_, fun p => ?_⟩
    · refine h.jobDone answerJobCancel judged job ?_ ?_
      · unfold State.endJob; rw [discardJob_agenda, jobTo_agenda]; exact h.agenda
      · unfold State.endJob; rw [discardJob_link, jobTo_reset]; exact h.reset
    all_goals unfold State.endJob
    · rw [discardJob_imagesOf, if_pos rfl]
    · rw [discardJob_readyAt, jobTo_readyAt, unlist_readyAt]
    · rw [discardJob_dispatch, jobTo_dispatch, unlist_stockWait]
    · rw [discardJob_pool, jobTo_spool, jobTo_imagesOf]
      rfl
    · rw [discardJob_link, jobTo_link (s.unlist j) ((unlist_job s j j).trans hx) moved]
      exact notify_link_congr _ _ rfl rfl
    · rw [discardJob_job, jobTo_elsewhere _ n, unlist_job]
    · rw [discardJob_imagesOf, if_neg n.symm, jobTo_imagesOf]
      rfl
    · rw [discardJob_meter, jobTo_meter]; rfl
    · rw [discardJob_alerts, jobTo_alerts]; rfl
    · rw [discardJob_dram, jobTo_spool]; rfl
    · rw [discardJob_retired, jobTo_spool]; rfl
    · rw [discardJob_dispatch, jobTo_dispatch]; rfl
    · rw [discardJob_dispatch, jobTo_dispatch]; rfl
    · rw [discardJob_port, jobTo_port, unlist_port]; rfl
  · refine congrArg Host.Outcome.next ?_
    cases flag : x.cancel with
    | true =>
      have same : s.setJob j (some { x with cancel := true }) = s := by
        rw [← flag]; exact setJob_same s hx
      rw [same, ← running]
      exact h.jobDone answerJobCancel (cancel_flagged head hx running flag) hx h.agenda h.reset
    | false =>
      obtain ⟨n, fuel, run⟩ := runs_tellPort_idle (s := s.setJob j (some { x with cancel := true })) idle h.agenda
      rw [← running]
      exact h.jobSettled answerJobCancel (cancel_running head hx running flag) ((tellPort_reset _ _).trans h.reset) run
        (by omega) (x := { x with cancel := true }) (by simp)
  · rw [← running]
    exact h.jobDone answerJobCancel (cancel_flagged head hx running flagged) hx h.agenda h.reset
  · have judged := cancel_running head hx running unflagged
    rw [tellPort_setJob runs alone] at judged
    have run := runs_flagged (s := s.setJob j (some { x with cancel := true })) (x := { x with cancel := true }) feeds runs
      (by simp) (.inl rfl) h.agenda path
    rw [drains_flagged (s := s.setJob j (some { x with cancel := true })) runs] at run
    rw [← running]
    exact h.jobSettled answerJobCancel judged h.reset run (by omega) (x := { x with cancel := true })
      (by simp [State.notifyPort])
  · obtain ⟨a, assigned, rfl⟩ : ∃ a, s.assignment p = some a ∧ a.slot = j := by simpa [State.assigned] using runs
    have judged := cancel_running head hx running unflagged
    rw [tellPort_setJob runs alone] at judged
    obtain ⟨t, run, leaves⟩ := runs_cancelled assigned feeds h.agenda path none unfinished sound
    refine ⟨t, congrArg Host.Outcome.next (h.jobSettled answerJobCancel judged h.reset run (by omega) leaves.job),
      fun b hb => ?_, leaves.assignment, leaves.images, leaves.pool, leaves.others, leaves.state, leaves.path, leaves.drain,
      leaves.wait, leaves.causes⟩
    obtain rfl : b = a := by rw [assigned] at hb; exact (Option.some.inj hb).symm
    exact leaves.job
  · have judged := cancel_running head hx running unflagged
    rw [tellPort_setJob runs alone] at judged
    obtain ⟨n, fuel, run⟩ := runs_decides 5 _ t goes h.agenda
    exact h.jobSettled answerJobCancel judged h.reset run (by omega) hy
  · exact h.refused answerJobCancel _ (cancel_ended head hx ended)

end Sys2Proof.Machine
end

section
/-! Job records (chapter 2), eighth part: JOB_SUSPEND, JOB_RESUME and JOB_LEVEL, and the search for a port that finds none
(R30 to R32, R61, R69, R74). -/

namespace Sys2Proof.Machine

variable {s t : State} {r : Request} {rest : List Request} {body : List Byte} {j : Slot} {x : Job} {p : PortNo}

/-! ## No port for a job -/

/-- R69: no port is chosen for a job that is eligible for none. -/
theorem choosePort_of_ineligible (h : ∀ p, s.eligible j p = false) : s.choosePort j = none := by
  have able : allPorts.filter (fun p => s.eligible j p) = [] := by
    rw [List.filter_eq_nil_iff]
    intro p _
    rw [h p]
    exact Bool.false_ne_true
  unfold State.choosePort
  dsimp only
  rw [able]
  rfl

/-- R74: the signal reaches no port where no feeding one could take the job. -/
theorem signalled_of_ineligible (h : ∀ p, (s.port p).state = .feeding → s.eligibleIgnoring j p = false) :
    s.signalled j = [] := by
  unfold State.signalled
  rw [List.filter_eq_nil_iff]
  intro p _ able
  simp only [Bool.and_eq_true, decide_eq_true_eq] at able
  obtain ⟨⟨feeds, _⟩, eligible⟩ := able
  rw [h p feeds] at eligible
  cases eligible

/-- A job that no port could take finds none. -/
theorem sought_of_ineligible (h : ∀ p, s.eligibleIgnoring j p = false) : s.Sought j s := by
  refine .inr ⟨choosePort_of_ineligible fun p => ?_, .inl ⟨signalled_of_ineligible fun p _ => h p, rfl⟩⟩
  unfold State.eligible
  rw [h p, Bool.and_false]

/-- With no port free or feeding, a job finds none (R69, R74). -/
theorem sought_of_noPort (h : s.noPortToChoose) : s.Sought j s := by
  refine .inr ⟨choosePort_of_ineligible fun p => ?_, .inl ⟨signalled_of_ineligible fun p feeds => ?_, rfl⟩⟩
  · unfold State.eligible State.free
    rw [decide_eq_false (h p).1]
    rfl
  · exact absurd feeds (h p).2

theorem jobIs_of {st : JobState} (hx : s.job j = some x) (h : x.state = st) : s.jobIs j st = true := by
  unfold State.jobIs
  rw [hx]
  exact decide_eq_true h

@[simp] theorem joinReady_job (s : State) (j k : Slot) (b : Bool) : (s.joinReady j b).job k = s.job k := by
  unfold State.joinReady
  split <;> rfl

/-! ## A request that places a job -/

/-- The state in which a job has joined the tail of its level and is QUEUED, before the search for a port (R61). -/
def State.queuedAt (s : State) (j : Slot) (x : Job) : State :=
  State.jobTo { s with dispatch := { s.dispatch with
    ready := s.dispatch.ready.set x.level (s.readyAt x.level ++ [j]) } } j .queued

theorem place_queuedAt (hx : s.job j = some x) (present : s.stockPresent x.stock = true) (u : s.unlisted j) :
    s.place j false = (s.queuedAt j x).seekPort j := by
  rw [place_ready s hx false present, unlist_of_unlisted s u, joinReady_eq s hx]
  rfl

theorem place_waitsAt (hx : s.job j = some x) (absent : s.stockPresent x.stock = false) (u : s.unlisted j) :
    s.place j false = ((s.joinWait j).jobTo j .stockwait).notifyStock j := by
  rw [place_waits s hx false absent, unlist_of_unlisted s u]

theorem queuedAt_job (hx : s.job j = some x) : (s.queuedAt j x).job j = some { x with state := .queued } := by
  unfold State.queuedAt
  rw [jobTo_same_slot]
  show Option.map _ (s.job j) = _
  rw [hx]
  rfl

@[simp] theorem queuedAt_agenda : (s.queuedAt j x).agenda = s.agenda := jobTo_agenda _ _ _
@[simp] theorem queuedAt_reset : (s.queuedAt j x).link.reset = s.link.reset := jobTo_reset _ _ _
@[simp] theorem queuedAt_port (q : PortNo) : (s.queuedAt j x).port q = s.port q := jobTo_port _ _ _ _

/-! ## Pending flags (R24, R30) -/

/-- A request that leaves the job's record as it stands, or writes it and tells its port, which does not feed, changes the record
and nothing else (R24). -/
theorem State.Takes.recordTold {kind : Byte} {y : Job} (h : s.Takes kind r rest) (owner : State → List Byte → Answer)
    (e : owner s r.body = jobState ((s.setJob j (some y)).tellPort j) j) (idle : s.notFeeding j) :
    (s.serve kind owner).finish = (s.setJob j (some y)).answered r .ok [y.state.code] := by
  obtain ⟨n, fuel, run⟩ := runs_tellPort_idle (s := s.setJob j (some y)) idle h.agenda
  exact h.jobSettled owner e ((tellPort_reset _ _).trans h.reset) run (by omega) (by simp)

/-- Settles O23: the owners of JOB_SUSPEND and JOB_RESUME by the job's state, and what the report to its port, or the search
for one, comes to. -/
theorem suspendAndResume : Obligations.SuspendAndResume := by
  intro s r rest j x hb hx
  have head : r.body.head? = some (byte j.val) := by rw [hb]; rfl
  refine ⟨fun h => ⟨fun waits => congrArg Host.Outcome.next ?_, fun running idle => congrArg Host.Outcome.next ?_,
    fun running flagged => congrArg Host.Outcome.next ?_, fun p running unflagged feeds runs alone =>
      ⟨fun path => congrArg Host.Outcome.next ?_, fun t y goes hy => congrArg Host.Outcome.next ?_⟩,
    fun ended => congrArg Host.Outcome.next ?_⟩,
    fun h => ⟨fun paused stops => congrArg Host.Outcome.next ?_,
      fun paused going absent unlisted => congrArg Host.Outcome.next ?_,
      fun paused going present unlisted nobody => congrArg Host.Outcome.next ?_,
      fun paused going present unlisted t y sought hy => congrArg Host.Outcome.next ?_,
      fun running flagged idle => congrArg Host.Outcome.next ?_,
      fun p t y running flagged runs alone goes hy => congrArg Host.Outcome.next ?_,
      fun other unflagged => congrArg Host.Outcome.next ?_⟩⟩
  · refine h.jobDone answerJobSuspend (suspend_waiting head hx waits) (x := { x with state := .paused }) ?_ ?_ ?_
    · rw [jobTo_same_slot, unlist_job, hx]; rfl
    · rw [jobTo_agenda, unlist_agenda]; exact h.agenda
    · rw [jobTo_reset, unlist_link]; exact h.reset
  · rw [← running]
    cases flag : x.suspend with
    | true =>
      have same : s.setJob j (some { x with suspend := true }) = s := by rw [← flag]; exact setJob_same s hx
      rw [same]
      exact h.jobDone answerJobSuspend (suspend_flagged head hx running flag) hx h.agenda h.reset
    | false => exact h.recordTold answerJobSuspend (suspend_running head hx running flag) idle
  · rw [← running]
    exact h.jobDone answerJobSuspend (suspend_flagged head hx running flagged) hx h.agenda h.reset
  · have judged := suspend_running head hx running unflagged
    rw [tellPort_setJob runs alone] at judged
    have run := runs_flagged (s := s.setJob j (some { x with suspend := true })) (x := { x with suspend := true }) feeds runs
      (by simp) (.inr rfl) h.agenda path
    rw [drains_flagged (s := s.setJob j (some { x with suspend := true })) runs] at run
    rw [← running]
    exact h.jobSettled answerJobSuspend judged h.reset run (by omega) (x := { x with suspend := true })
      (by simp [State.notifyPort])
  · have judged := suspend_running head hx running unflagged
    rw [tellPort_setJob runs alone] at judged
    obtain ⟨n, fuel, run⟩ := runs_decides 5 _ t goes h.agenda
    exact h.jobSettled answerJobSuspend judged h.reset run (by omega) hy
  · exact h.refused answerJobSuspend _ (suspend_ended head hx ended)
  · refine h.jobDone answerJobResume (resume_stopped head hx paused stops) (x := { x with state := .held }) ?_ ?_ ?_
    · rw [jobTo_same_slot, hx]; rfl
    · rw [jobTo_agenda]; exact h.agenda
    · rw [jobTo_reset]; exact h.reset
  · have judged := resume_placed head hx paused going
    rw [place_waitsAt hx absent unlisted] at judged
    refine h.jobDone answerJobResume judged (x := { x with state := .stockwait }) ?_ ?_ ?_
    · rw [notifyStock_job, jobTo_same_slot]
      show Option.map _ (s.job j) = _
      rw [hx]; rfl
    · rw [notifyStock_agenda, jobTo_agenda]; exact h.agenda
    · rw [notifyStock_reset, jobTo_reset]; exact h.reset
  · have judged := resume_placed head hx paused going
    rw [place_queuedAt hx present unlisted] at judged
    have nowhere : (s.queuedAt j x).noPortToChoose := fun p => by rw [queuedAt_port]; exact nobody p
    obtain ⟨m, fuel, run⟩ := runs_sought (sought_of_noPort nowhere) (queuedAt_agenda.trans h.agenda) (jobIs_of (queuedAt_job hx) rfl)
    exact h.jobSettled answerJobResume judged (queuedAt_reset.trans h.reset) run (by omega) (queuedAt_job hx)
  · have judged := resume_placed head hx paused going
    rw [place_queuedAt hx present unlisted] at judged
    obtain ⟨m, fuel, run⟩ := runs_sought (s := s.queuedAt j x) sought (queuedAt_agenda.trans h.agenda) (jobIs_of (queuedAt_job hx) rfl)
    exact h.jobSettled answerJobResume judged (queuedAt_reset.trans h.reset) run (by omega) hy
  · rw [← running]
    exact h.recordTold answerJobResume (resume_running head hx running flagged) idle
  · have judged := resume_running head hx running flagged
    rw [tellPort_setJob runs alone] at judged
    obtain ⟨n, fuel, run⟩ := runs_decides 5 _ t goes h.agenda
    exact h.jobSettled answerJobResume judged h.reset run (by omega) hy
  · exact h.refused answerJobResume _ (resume_refused head hx other unflagged)

/-! ## JOB_LEVEL -/

theorem level_outOfRange {b : Byte} (h : 8 ≤ b.toNat) : level? b = none := dif_neg (by omega)

theorem answerJobLevel_eq {l : Level} (hb : body = [byte j.val, byte l.val]) (hx : s.job j = some x) :
    answerJobLevel s body =
      if x.state.terminal then .refuse .badState else .done (s.relevel j x l) (fun _ => [byte l.val]) := by
  have second : level? (byteAt body 1) = some l := by rw [hb]; exact level_byte l
  unfold answerJobLevel
  rw [withJob_of (by rw [hb]; rfl) hx, second]

theorem relevel_elsewhere {l : Level} (h : x.state = .paused ∨ x.state = .held ∨ x.state = .running) :
    s.relevel j x l = s.setJob j (some { x with level := l }) := by
  unfold State.relevel
  rcases h with h | h | h <;> simp only [h]

theorem relevel_waits {l : Level} (h : x.state = .stockwait) :
    s.relevel j x l = ((s.setJob j (some { x with level := l })).unlist j).joinWait j := by
  unfold State.relevel
  simp only [h]

/-- R32, R61: a QUEUED job goes to the tail of its new level; it stays QUEUED, so no notice is raised. -/
theorem relevel_queued {l : Level} (h : x.state = .queued) (present : s.stockPresent x.stock = true) :
    s.relevel j x l = (((s.setJob j (some { x with level := l })).unlist j).joinReady j false).seekPort j := by
  have job : (s.setJob j (some { x with level := l })).job j = some { x with level := l } := by simp
  have still : (((s.setJob j (some { x with level := l })).unlist j).joinReady j false).job j = some { x with level := l } := by
    simp
  have placed : s.relevel j x l = (s.setJob j (some { x with level := l })).place j false := by
    unfold State.relevel
    simp only [h]
  rw [placed, place_ready _ job false present, jobTo_of_state _ still h]

/-- Settles O24: the owner of JOB_LEVEL by the job's state; for a QUEUED job, what the search for a port comes to. -/
theorem jobLevelMovesJob : Obligations.JobLevelMovesJob := by
  intro s r rest j x l h hx
  have job : ((s.setJob j (some { x with level := l })).unlist j).job j = some { x with level := l } := by simp
  have queued (t : State) (hb : r.body = [byte j.val, byte l.val]) (waits : x.state = .queued)
      (present : s.stockPresent x.stock = true)
      (sought : State.Sought (((s.setJob j (some { x with level := l })).unlist j).joinReady j false) j t) :
      (s.serve 0x14 answerJobLevel).finish = t.answered r .ok [byte l.val] := by
    have judged := answerJobLevel_eq hb hx
    rw [if_neg (by simp [waits, JobState.terminal]), relevel_queued waits present] at judged
    rw [joinReady_eq _ job] at judged sought
    obtain ⟨m, fuel, run⟩ := runs_sought sought h.agenda (jobIs_of (x := { x with level := l }) job waits)
    have settled := h.settled answerJobLevel _ _ judged h.reset
    rw [run.settle (by omega)] at settled
    exact settled
  refine ⟨fun hb => ⟨fun kept => congrArg Host.Outcome.next ?_, fun waits => congrArg Host.Outcome.next ?_,
    fun waits present nobody => congrArg Host.Outcome.next ?_, fun waits present t sought => congrArg Host.Outcome.next ?_,
    fun ended => congrArg Host.Outcome.next ?_⟩, fun b out hb => congrArg Host.Outcome.next ?_⟩
  · have judged := answerJobLevel_eq hb hx
    rw [if_neg (by rcases kept with e | e | e <;> simp [e, JobState.terminal]), relevel_elsewhere kept] at judged
    exact h.done answerJobLevel _ _ judged h.agenda h.reset
  · have judged := answerJobLevel_eq hb hx
    rw [if_neg (by simp [waits, JobState.terminal]), relevel_waits waits] at judged
    exact h.done answerJobLevel _ _ judged h.agenda h.reset
  · refine queued _ hb waits present (sought_of_noPort ?_)
    rw [joinReady_eq _ job]
    exact nobody
  · exact queued t hb waits present sought
  · have judged := answerJobLevel_eq hb hx
    rw [if_pos ended] at judged
    exact h.refused answerJobLevel _ judged
  · refine h.refused answerJobLevel _ ?_
    have second : level? (byteAt r.body 1) = none := by rw [hb]; exact level_outOfRange out
    unfold answerJobLevel
    rw [withJob_of (by rw [hb]; rfl) hx, second]

end Sys2Proof.Machine
end

section
/-! Job records (chapter 2), ninth part: JOB_OPEN (R20, R27, R28, R187). -/

namespace Sys2Proof.Machine

variable {s t : State} {r : Request} {rest : List Request} {j : Slot} {x : Job}

/-! ## The body of a JOB_OPEN (R187) -/

/-- The fields of a JOB_OPEN body (R187). -/
structure OpenFields where
  label : Word32
  account : Byte
  level : Byte
  cls : Byte
  sides : Byte
  sheets : Nat
  copies : Nat
  stock : Byte
  flags : Byte
  pinned : Byte
  barred : Byte
  lead : Byte
  present : Byte
  bin : Byte
  finishing : Byte
  profile : Byte
  quality : Byte
  offset : Byte

/-- The body that carries the fields (R187). -/
def OpenFields.bytes (f : OpenFields) : List Byte :=
  word32 f.label ++ [f.account, f.level, f.cls, f.sides] ++ num 2 f.sheets ++ num 2 f.copies
    ++ [f.stock, f.flags, f.pinned, f.barred, f.lead, f.present, f.bin, f.finishing, f.profile, f.quality, f.offset]

/-- The setup record that the fields carry: those whose presence bit is set (R187). -/
def OpenFields.setup (f : OpenFields) : Setup where
  bin := if f.present.getLsbD 0 then some f.bin else none
  finishing := if f.present.getLsbD 1 then some f.finishing else none
  profile := if f.present.getLsbD 2 then some f.profile else none
  quality := if f.present.getLsbD 3 then some f.quality else none
  offset := if f.present.getLsbD 4 then some f.offset else none

/-- The fields of the JOB_OPEN that describes a job. -/
def Job.openFields (x : Job) : OpenFields where
  label := x.label
  account := byte x.account.val
  level := byte x.level.val
  cls := byte x.sizeClass.val
  sides := byte x.sides
  sheets := x.sheets
  copies := x.copies
  stock := x.stock
  flags := Machine.flags [x.colour, x.onSheet, x.onRoll]
  pinned := optPort x.pinned
  barred := optPort x.barred
  lead := byte x.lead
  present := Machine.flags [x.setup.bin.isSome, x.setup.finishing.isSome, x.setup.profile.isSome, x.setup.quality.isSome,
    x.setup.offset.isSome]
  bin := x.setup.bin.getD 0
  finishing := x.setup.finishing.getD 0
  profile := x.setup.profile.getD 0
  quality := x.setup.quality.getD 0
  offset := x.setup.offset.getD 0

theorem openBody_eq (x : Job) : x.openBody = x.openFields.bytes := rfl

section
variable (f : OpenFields)

theorem bytes_account : byteAt f.bytes 4 = f.account := rfl
theorem bytes_level : byteAt f.bytes 5 = f.level := rfl
theorem bytes_cls : byteAt f.bytes 6 = f.cls := rfl
theorem bytes_sides : byteAt f.bytes 7 = f.sides := rfl
theorem bytes_stock : byteAt f.bytes 12 = f.stock := rfl
theorem bytes_flags : byteAt f.bytes 13 = f.flags := rfl
theorem bytes_pinned : byteAt f.bytes 14 = f.pinned := rfl
theorem bytes_barred : byteAt f.bytes 15 = f.barred := rfl
theorem bytes_lead : byteAt f.bytes 16 = f.lead := rfl
theorem bytes_setup : setupOf f.bytes = f.setup := rfl

theorem bytes_label : BitVec.ofNat 32 (field f.bytes 0 4) = f.label := by
  have e : field f.bytes 0 4 = natOf (num 4 f.label.toNat) := rfl
  rw [e, natOf_num_of_lt (by have := f.label.isLt; omega)]
  simp

theorem bytes_sheets (h : f.sheets < 65536) : field f.bytes 8 2 = f.sheets := by
  have e : field f.bytes 8 2 = natOf (num 2 f.sheets) := rfl
  rw [e, natOf_num_of_lt (by omega)]

theorem bytes_copies (h : f.copies < 65536) : field f.bytes 10 2 = f.copies := by
  have e : field f.bytes 10 2 = natOf (num 2 f.copies) := rfl
  rw [e, natOf_num_of_lt (by omega)]

end

/-- Every field that JOB_OPEN judges alone lies in its range (R20, R27). -/
structure OpenFields.Valid (s : State) (f : OpenFields) : Prop where
  level : f.level.toNat < 8
  cls : (s.setClass? f.cls).isSome = true
  sides : f.sides.toNat = 1 ∨ f.sides.toNat = 2
  sheets : 1 ≤ f.sheets ∧ f.sheets ≤ 4096
  copies : 1 ≤ f.copies ∧ f.copies ≤ 9999
  images : f.sheets * f.sides.toNat ≤ 8192
  stock : f.stock ≠ 0
  mask : f.flags.getLsbD 1 = true ∨ f.flags.getLsbD 2 = true
  ports : portChoicesValid f.pinned f.barred = true
  setup : f.setup.valid = true

theorem openFieldsValid_iff (f : OpenFields) (hs : f.sheets < 65536) (hc : f.copies < 65536) :
    openFieldsValid s f.bytes = true ↔ f.Valid s := by
  have level : (level? f.level).isSome = true ↔ f.level.toNat < 8 := by simp [level?]
  unfold openFieldsValid
  simp only [bytes_level, bytes_cls, bytes_sides, bytes_stock, bytes_flags, bytes_pinned, bytes_barred, bytes_setup,
    bytes_sheets f hs, bytes_copies f hc, Bool.and_eq_true, Bool.or_eq_true, decide_eq_true_eq, level]
  constructor
  · rintro ⟨⟨⟨⟨⟨⟨⟨⟨h1, h2⟩, h3⟩, ⟨⟨h4, h5⟩, h6⟩, h7⟩, h8⟩, h9⟩, h10⟩, h11⟩, h12⟩
    exact ⟨h1, h2, h3.imp of_decide_eq_true of_decide_eq_true, ⟨h4, h5⟩, ⟨h6, h7⟩, h8, of_decide_eq_true h9, h10, h11, h12⟩
  · rintro ⟨h1, h2, h3, ⟨h4, h5⟩, ⟨h6, h7⟩, h8, h9, h10, h11, h12⟩
    exact ⟨⟨⟨⟨⟨⟨⟨⟨h1, h2⟩, h3.imp decide_eq_true decide_eq_true⟩, ⟨⟨h4, h5⟩, h6⟩, h7⟩, h8⟩, decide_eq_true h9⟩, h10⟩, h11⟩, h12⟩

/-! ## What JOB_OPEN comes to (R27) -/

/-- R27: a body is BAD_FIELD where a field is out of range, or its account names no set account with a set tier. -/
theorem judgeOpen_badField {body : List Byte}
    (h : openFieldsValid s body = true → ∀ a, account? (byteAt body 4) = some a → s.accountUsable a = false) :
    s.judgeOpen body = .error .badField := by
  unfold State.judgeOpen
  cases valid : openFieldsValid s body with
  | false => rfl
  | true =>
    simp only [Bool.not_true, Bool.false_eq_true, if_false]
    split
    · rename_i a _ _ ha _ _
      rw [h valid a ha]
      rfl
    · rfl

section
variable {body : List Byte} {a : AccountNo} {l : Level} {c : ClassNo} (valid : openFieldsValid s body = true)
  (ha : account? (byteAt body 4) = some a) (hl : level? (byteAt body 5) = some l) (hc : s.setClass? (byteAt body 6) = some c)
  (usable : s.accountUsable a = true)
include valid ha hl hc usable

theorem judgeOpen_closed (closed : (s.account a).state = .closed) : s.judgeOpen body = .error .badState := by
  unfold State.judgeOpen
  simp only [valid, ha, hl, hc, usable, closed, Bool.not_true, Bool.false_eq_true, if_false, if_true]

theorem judgeOpen_full (going : (s.account a).state ≠ .closed) (full : s.freeSlot = none) :
    s.judgeOpen body = .error .noRoom := by
  unfold State.judgeOpen
  simp only [valid, ha, hl, hc, usable, going, full, Bool.not_true, Bool.false_eq_true, if_false]

theorem judgeOpen_free (going : (s.account a).state ≠ .closed) (free : s.freeSlot = some j) :
    s.judgeOpen body = .ok (j, jobOf body a l c) := by
  unfold State.judgeOpen
  simp only [valid, ha, hl, hc, usable, going, free, Bool.not_true, Bool.false_eq_true, if_false]

end

theorem freeSlot_none (h : ∀ i : Slot, (s.job i).isSome = true) : s.freeSlot = none := by
  unfold State.freeSlot
  rw [List.find?_eq_none]
  intro i _
  have := h i
  cases e : s.job i <;> simp_all

/-- R18: the free slot is the lowest-numbered one. -/
theorem freeSlot_lowest (free : s.job j = none) (h : ∀ i : Slot, i < j → (s.job i).isSome = true) :
    s.freeSlot = some j := by
  unfold State.freeSlot
  rw [List.find?_eq_some_iff_getElem]
  refine ⟨by rw [free]; rfl, j.val, by simp [allSlots], by simp [allSlots], fun i hi => ?_⟩
  have taken := h ⟨i, by omega⟩ hi
  simp only [allSlots, List.getElem_finRange, Fin.cast_mk]
  cases e : s.job ⟨i, by omega⟩ <;> simp_all

/-! ## A job read back from the body that describes it (R27, R187) -/

theorem toNat_byte {n : Nat} (h : n < 256) : (byte n).toNat = n := by
  unfold byte
  rw [BitVec.toNat_ofNat]
  omega

theorem port_optPort (p : Option PortNo) : port? (optPort p) = p := by
  cases p with
  | none => rfl
  | some p => exact port_byte p

theorem optPort_inj {p q : Option PortNo} (h : optPort p = optPort q) : p = q := by
  rw [← port_optPort p, h, port_optPort]

theorem portChoiceValid_optPort (p : Option PortNo) : portChoiceValid (optPort p) = true := by
  unfold portChoiceValid
  rw [port_optPort]
  cases p with
  | none => rfl
  | some p => simp

theorem portChoices_optPort {p q : Option PortNo} (h : p = none ∨ p ≠ q) :
    portChoicesValid (optPort p) (optPort q) = true := by
  unfold portChoicesValid
  rw [portChoiceValid_optPort, portChoiceValid_optPort]
  rcases h with h | h
  · rw [h]; simp [optPort]
  · have apart : optPort p ≠ optPort q := fun e => h (optPort_inj e)
    simp [apart]

theorem setup_openFields (x : Job) : x.openFields.setup = x.setup := by
  have bits : ∀ b f p q o : Bool, (flags [b, f, p, q, o]).getLsbD 0 = b ∧ (flags [b, f, p, q, o]).getLsbD 1 = f
      ∧ (flags [b, f, p, q, o]).getLsbD 2 = p ∧ (flags [b, f, p, q, o]).getLsbD 3 = q
      ∧ (flags [b, f, p, q, o]).getLsbD 4 = o := by decide
  have pick : ∀ o : Option Byte, (if o.isSome = true then some (o.getD 0) else none) = o := fun o => by cases o <;> rfl
  obtain ⟨b, f, p, q, o⟩ := bits x.setup.bin.isSome x.setup.finishing.isSome x.setup.profile.isSome x.setup.quality.isSome
    x.setup.offset.isSome
  unfold OpenFields.setup Job.openFields
  dsimp only
  rw [b, f, p, q, o]
  simp only [pick]

theorem setClass_of {c : ClassNo} (h : (s.meter.sizes[c]).isSome = true) : s.setClass? (byte c.val) = some c := by
  unfold State.setClass?
  rw [class_byte]
  exact if_pos h

theorem flags_three (a b c : Bool) : (flags [a, b, c]).getLsbD 0 = a ∧ (flags [a, b, c]).getLsbD 1 = b
    ∧ (flags [a, b, c]).getLsbD 2 = c := by
  revert a b c
  decide

section
variable (fresh : x.Fresh s.meter)
include fresh

theorem openFields_valid : x.openFields.Valid s := by
  have sides : (byte x.sides).toNat = x.sides := toNat_byte (by have := fresh.sides; omega)
  obtain ⟨_, sheet, roll⟩ := flags_three x.colour x.onSheet x.onRoll
  refine ⟨?_, ?_, ?_, fresh.sheets, fresh.copies, ?_, fresh.stock, ?_, portChoices_optPort fresh.ports, ?_⟩
  · show (byte x.level.val).toNat < 8
    rw [toNat_byte (by omega)]
    exact x.level.isLt
  · show (s.setClass? (byte x.sizeClass.val)).isSome = true
    rw [setClass_of fresh.cls]
    rfl
  · show (byte x.sides).toNat = 1 ∨ (byte x.sides).toNat = 2
    rw [sides]
    exact fresh.sides
  · show x.sheets * (byte x.sides).toNat ≤ 8192
    rw [sides]
    exact fresh.images
  · show (flags [x.colour, x.onSheet, x.onRoll]).getLsbD 1 = true ∨ (flags [x.colour, x.onSheet, x.onRoll]).getLsbD 2 = true
    rw [sheet, roll]
    exact fresh.mask
  · rw [setup_openFields]
    exact fresh.setup

theorem openBody_valid : openFieldsValid s x.openBody = true := by
  rw [openBody_eq]
  exact (openFieldsValid_iff x.openFields (by have := fresh.sheets; show x.sheets < _; omega)
    (by have := fresh.copies; show x.copies < _; omega)).mpr (openFields_valid fresh)

/-- R19, R187: the record that a body describes is the one that was encoded in it. -/
theorem jobOf_openBody : jobOf x.openBody x.account x.level x.sizeClass = x := by
  have sides : (byte x.sides).toNat = x.sides := toNat_byte (by have := fresh.sides; omega)
  have lead : (byte x.lead).toNat = x.lead := toNat_byte (by have := fresh.lead; omega)
  have sheets := bytes_sheets x.openFields (by have := fresh.sheets; show x.sheets < _; omega)
  have copies := bytes_copies x.openFields (by have := fresh.copies; show x.copies < _; omega)
  obtain ⟨colour, sheet, roll⟩ := flags_three x.colour x.onSheet x.onRoll
  calc jobOf x.openBody x.account x.level x.sizeClass
      = { x.described with level := x.level } := by
        rw [openBody_eq]
        unfold jobOf
        rw [bytes_label, bytes_sides, sheets, copies, bytes_stock, bytes_flags, bytes_pinned, bytes_barred, bytes_lead,
          bytes_setup, setup_openFields]
        show Job.mk x.label .queued x.account x.level x.sizeClass (byte x.sides).toNat x.sheets x.copies x.stock
          ((flags [x.colour, x.onSheet, x.onRoll]).getLsbD 0) ((flags [x.colour, x.onSheet, x.onRoll]).getLsbD 1)
          ((flags [x.colour, x.onSheet, x.onRoll]).getLsbD 2) (port? (optPort x.pinned)) (port? (optPort x.barred))
          (byte x.lead).toNat .. = _
        rw [sides, lead, colour, sheet, roll, port_optPort, port_optPort]
        rfl
    _ = x := fresh.opened.symm

variable {t : TierNo} (tier : (s.account x.account).tier = some t) (set : (s.meter.tiers[t]).isSome = true)
include tier set

theorem accountUsable_of : s.accountUsable x.account = true := by
  have account : (s.account x.account).state ≠ .unset := fresh.account
  unfold State.accountUsable
  rw [tier]
  simpa [account] using set

theorem judgeOpen_openBody_closed (closed : (s.account x.account).state = .closed) :
    s.judgeOpen x.openBody = .error .badState :=
  judgeOpen_closed (openBody_valid fresh) (account_byte x.account) (level_byte x.level) (setClass_of fresh.cls)
    (accountUsable_of fresh tier set) closed

theorem judgeOpen_openBody_full (going : (s.account x.account).state ≠ .closed) (full : s.freeSlot = none) :
    s.judgeOpen x.openBody = .error .noRoom :=
  judgeOpen_full (openBody_valid fresh) (account_byte x.account) (level_byte x.level) (setClass_of fresh.cls)
    (accountUsable_of fresh tier set) going full

theorem judgeOpen_openBody_free (going : (s.account x.account).state ≠ .closed) (free : s.freeSlot = some j) :
    s.judgeOpen x.openBody = .ok (j, x) := by
  have e := judgeOpen_free (j := j) (openBody_valid fresh) (account_byte x.account) (level_byte x.level)
    (setClass_of fresh.cls) (accountUsable_of fresh tier set) going free
  rw [jobOf_openBody fresh] at e
  exact e

end

/-- Settles O20: each field of the body is read back as the description gives it. -/
theorem jobOpenReadsDescription : Obligations.JobOpenReadsDescription :=
  fun _ _ _ _ fresh going tier set free below =>
    judgeOpen_openBody_free fresh tier set going (freeSlot_lowest free below)

end Sys2Proof.Machine
end

section
/-! Job records (chapter 2), ninth part, continued: the slot that JOB_OPEN fills, and its refusals (R27, R28, R56). -/

namespace Sys2Proof.Machine

variable {s t : State} {r : Request} {rest : List Request} {j : Slot} {x : Job}

/-! ## A field out of its range (R20, R27) -/

theorem setClass_isSome {b : Byte} (h : (s.setClass? b).isSome = true) :
    ∃ c : ClassNo, b = byte c.val ∧ (s.meter.sizes[c]).isSome = true := by
  unfold State.setClass? class? at h
  by_cases low : b.toNat < 16
  · refine ⟨⟨b.toNat, low⟩, (byte_toNat b).symm, ?_⟩
    rw [dif_pos low] at h
    simpa using h
  · rw [dif_neg low] at h
    cases h

theorem byte_inj_class {c d : ClassNo} (h : byte c.val = byte d.val) : c = d :=
  Option.some.inj ((class_byte c).symm.trans ((congrArg class? h).trans (class_byte d)))

theorem byte_inj_account {a b : AccountNo} (h : byte a.val = byte b.val) : a = b :=
  Option.some.inj ((account_byte a).symm.trans ((congrArg account? h).trans (account_byte b)))

theorem account_some {b : Byte} {a : AccountNo} (h : account? b = some a) : b = byte a.val := by
  unfold account? at h
  split at h
  · cases h
    exact (byte_toNat b).symm
  · cases h

theorem portChoiceValid_iff (b : Byte) : portChoiceValid b = true ↔ b = 0xFF ∨ b.toNat < 12 := by
  unfold portChoiceValid port?
  by_cases low : b.toNat < 12 <;> simp [low]

theorem within_iff (present : Bool) (b : Byte) (last : Nat) :
    within (if present then some b else none) last = true ↔ (present = true → b.toNat ≤ last) := by
  cases present <;> simp [within]

theorem setupValid_iff (f : OpenFields) : f.setup.valid = true ↔
    (f.present.getLsbD 0 = true → f.bin.toNat ≤ 7) ∧ (f.present.getLsbD 1 = true → f.finishing.toNat ≤ 3)
    ∧ (f.present.getLsbD 2 = true → f.profile.toNat ≤ 63) ∧ (f.present.getLsbD 3 = true → f.quality.toNat ≤ 2)
    ∧ (f.present.getLsbD 4 = true → f.offset.toNat ≤ 1) := by
  unfold Setup.valid OpenFields.setup
  simp only [Bool.and_eq_true, within_iff, and_assoc]

/-- A field of a JOB_OPEN body that R20 or R27 refuses. -/
inductive OpenFields.Bad (s : State) (f : OpenFields) : Prop
  | level (h : 8 ≤ f.level.toNat)
  | cls (h : 16 ≤ f.cls.toNat)
  | unsetCls (c : ClassNo) (e : f.cls = byte c.val) (h : s.meter.sizes[c] = none)
  | sides (h : f.sides ≠ 1 ∧ f.sides ≠ 2)
  | counts (h : f.sheets < 1 ∨ 4096 < f.sheets ∨ f.copies < 1 ∨ 9999 < f.copies)
  | images (h : 8192 < f.sheets * f.sides.toNat)
  | stock (h : f.stock = 0)
  | mask (h : f.flags.getLsbD 1 = false ∧ f.flags.getLsbD 2 = false)
  | pinned (h : f.pinned ≠ 0xFF ∧ 12 ≤ f.pinned.toNat)
  | barred (h : f.barred ≠ 0xFF ∧ 12 ≤ f.barred.toNat)
  | samePort (h : f.pinned = f.barred ∧ f.pinned ≠ 0xFF)
  | bin (h : f.present.getLsbD 0 = true ∧ 7 < f.bin.toNat)
  | finishing (h : f.present.getLsbD 1 = true ∧ 3 < f.finishing.toNat)
  | profile (h : f.present.getLsbD 2 = true ∧ 63 < f.profile.toNat)
  | quality (h : f.present.getLsbD 3 = true ∧ 2 < f.quality.toNat)
  | offset (h : f.present.getLsbD 4 = true ∧ 1 < f.offset.toNat)

theorem OpenFields.Valid.not_bad {f : OpenFields} (v : f.Valid s) : ¬ f.Bad s := by
  obtain ⟨bin, finishing, profile, quality, offset⟩ := (setupValid_iff f).mp v.setup
  have ports := v.ports
  simp only [portChoicesValid, Bool.and_eq_true, portChoiceValid_iff, Bool.not_eq_true'] at ports
  obtain ⟨⟨pinned, barred⟩, apart⟩ := ports
  intro bad
  cases bad with
  | level h => exact absurd v.level (by omega)
  | cls h =>
    obtain ⟨c, e, _⟩ := setClass_isSome v.cls
    have := c.isLt
    rw [e, toNat_byte (by omega)] at h
    omega
  | unsetCls c e h =>
    obtain ⟨d, e', set⟩ := setClass_isSome v.cls
    rw [e] at e'
    rw [← byte_inj_class e', h] at set
    cases set
  | sides h =>
    rcases v.sides with e | e
    · exact h.1 (BitVec.eq_of_toNat_eq e)
    · exact h.2 (BitVec.eq_of_toNat_eq e)
  | counts h => have := v.sheets; have := v.copies; omega
  | images h => have := v.images; omega
  | stock h => exact v.stock h
  | mask h =>
    rcases v.mask with e | e
    · rw [h.1] at e; cases e
    · rw [h.2] at e; cases e
  | pinned h => exact pinned.elim h.1 (fun low => by omega)
  | barred h => exact barred.elim h.1 (fun low => by omega)
  | samePort h =>
    rw [decide_eq_true h.1, decide_eq_true h.2] at apart
    cases apart
  | bin h => have := bin h.1; omega
  | finishing h => have := finishing h.1; omega
  | profile h => have := profile h.1; omega
  | quality h => have := quality h.1; omega
  | offset h => have := offset h.1; omega

theorem judgeOpen_bad {f : OpenFields} (hs : f.sheets < 65536) (hc : f.copies < 65536) (bad : f.Bad s) :
    s.judgeOpen f.bytes = .error .badField :=
  judgeOpen_badField fun valid => absurd bad ((openFieldsValid_iff f hs hc).mp valid).not_bad

theorem accountUsable_false {a : AccountNo}
    (h : (s.account a).state = .unset ∨ ∀ t, (s.account a).tier = some t → s.meter.tiers[t] = none) :
    s.accountUsable a = false := by
  unfold State.accountUsable
  rcases h with h | h
  · simp [h]
  · cases e : (s.account a).tier with
    | none => simp
    | some t =>
      have unset := h t e
      simp_all

/-! ## The slot filled (R28, R56) -/

theorem filled_job (st : JobState) : (s.filled j { x with state := st }).job j = some { x with state := st } := by
  simp [State.filled, State.job]

/-- R56: none of a new job's bands has come. -/
theorem filled_bandPresent (y : Job) (i b : Nat) : (s.filled j y).bandPresent j i b = false := by
  have images : (s.filled j y).imagesOf j = List.replicate (y.sheets * y.sides) ImageRec.fresh := by
    simp [State.filled, State.imagesOf, ImageRec.fresh]
  unfold State.bandPresent State.band State.image
  rw [images, List.getElem?_replicate]
  by_cases low : i < y.sheets * y.sides
  · simp [low, ImageRec.fresh, Bands.find]
  · simp [low]

theorem gateMet_of_fresh {u : State} {y : Job} {o : Nat} (hy : u.job j = some y) (bands : 1 ≤ u.gateBands y)
    (absent : ∀ i b, u.bandPresent j i b = false) : u.gateMet j o = false := by
  have some_image : ∃ i, i ∈ y.imagesOfOrdinal o := by
    unfold Job.imagesOfOrdinal
    dsimp only
    split
    · exact ⟨_, List.mem_cons_self ..⟩
    · exact ⟨_, List.mem_cons_self ..⟩
  obtain ⟨i, hi⟩ := some_image
  have unmet : (y.imagesOfOrdinal o).all (fun i => (List.range (u.gateBands y)).all (fun b => u.bandPresent j i b)) = false := by
    rw [List.all_eq_false]
    refine ⟨i, hi, ?_⟩
    rw [Bool.not_eq_true, List.all_eq_false]
    exact ⟨0, List.mem_range.mpr (by omega), by rw [absent]; exact Bool.false_ne_true⟩
  unfold State.gateMet
  rw [hy]
  dsimp only
  rw [unmet, Bool.and_false]

theorem gateBands_pos {y : Job} (h : 1 ≤ s.bandsPerSide y.sizeClass) : 1 ≤ s.gateBands y := by
  unfold State.gateBands
  dsimp only
  split
  · exact h
  · rename_i partGate
    have : y.lead ≠ 0 := fun e => partGate (by simp [e])
    omega

theorem eligibleIgnoring_of_unmet {u : State} {y : Job} (hy : u.job j = some y) (unmet : u.gateMet j y.next = false) (p : PortNo) :
    u.eligibleIgnoring j p = false := by
  unfold State.eligibleIgnoring
  rw [hy]
  split
  · rename_i e _
    cases e
    rw [unmet, Bool.and_false]
  · rfl

/-- R28: the three places of a new job. -/
theorem openJob_held (h : (s.account x.account).state = .held) : s.openJob j x = s.filled j { x with state := .held } := by
  unfold State.openJob
  rw [if_pos h]
  rfl

theorem openJob_waits (h : (s.account x.account).state ≠ .held) (absent : s.stockPresent x.stock = false)
    (u : s.unlisted j) : s.openJob j x = ((s.filled j { x with state := .stockwait }).joinWait j).notifyStock j := by
  have job := filled_job (s := s) (j := j) (x := x) .stockwait
  have moved : ∀ v : State, v.job j = some { x with state := .stockwait } → v.jobTo j .stockwait = v := fun v hv =>
    jobTo_of_state v hv rfl
  have placed : s.openJob j x = (s.filled j { x with state := .stockwait }).place j false := by
    unfold State.openJob
    rw [if_neg h, absent]
    rfl
  rw [placed, place_waitsAt job absent u]
  exact congrArg (fun v : State => v.notifyStock j) (moved _ job)

/-- A new job at the tail of its level, QUEUED, before the search for a port. -/
def State.queuedNew (s : State) (j : Slot) (x : Job) : State :=
  { s.filled j { x with state := .queued } with dispatch := { s.dispatch with
    ready := s.dispatch.ready.set x.level (s.readyAt x.level ++ [j]) } }

theorem openJob_queued (h : (s.account x.account).state ≠ .held) (present : s.stockPresent x.stock = true)
    (u : s.unlisted j) : s.openJob j x = (s.queuedNew j x).seekPort j := by
  have job := filled_job (s := s) (j := j) (x := x) .queued
  have placed : s.openJob j x = (s.filled j { x with state := .queued }).place j false := by
    unfold State.openJob
    rw [if_neg h, present]
    rfl
  have stays : (s.filled j { x with state := .queued }).queuedAt j { x with state := .queued } = s.queuedNew j x :=
    jobTo_of_state (s.queuedNew j x) job rfl
  rw [placed, place_queuedAt job present u, stays]

theorem queuedNew_job : (s.queuedNew j x).job j = some { x with state := .queued } := filled_job .queued

/-- A new job finds no port: its gate is unmet, or there is none to choose (R56, R64, R69, R74). -/
theorem queuedNew_sought (h : 1 ≤ s.bandsPerSide x.sizeClass ∨ s.noPortToChoose) :
    (s.queuedNew j x).Sought j (s.queuedNew j x) := by
  rcases h with bands | nobody
  · refine sought_of_ineligible (eligibleIgnoring_of_unmet queuedNew_job (gateMet_of_fresh queuedNew_job ?_ fun i b => ?_))
    · exact gateBands_pos bands
    · exact filled_bandPresent _ i b
  · exact sought_of_noPort nobody

theorem answerJobOpen_ok {body : List Byte} (h : s.judgeOpen body = .ok (j, x)) :
    answerJobOpen s body = .done (s.openJob j x) (fun t => [byte j.val, t.jobCode j]) := by
  unfold answerJobOpen
  rw [h]

theorem answerJobOpen_error {body : List Byte} {st : Status} (h : s.judgeOpen body = .error st) :
    answerJobOpen s body = .refuse st := by
  unfold answerJobOpen
  rw [h]

/-- Settles O21: the judgement of the body, then the place of the new job. -/
theorem jobOpenFillsSlot : Obligations.JobOpenFillsSlot := by
  intro s r rest j x h
  refine ⟨fun ok => ⟨fun held => congrArg Host.Outcome.next ?_, fun going absent unlisted => congrArg Host.Outcome.next ?_,
    fun going present unlisted alone => congrArg Host.Outcome.next ?_⟩, ?_, fun y t hb fresh tier set =>
      ⟨fun closed => congrArg Host.Outcome.next ?_, fun going full => congrArg Host.Outcome.next ?_⟩⟩
  · have judged := answerJobOpen_ok ok
    rw [openJob_held held] at judged
    have e := h.done answerJobOpen _ _ judged h.agenda h.reset
    rw [jobCode_of (filled_job .held)] at e
    exact e
  · have judged := answerJobOpen_ok ok
    rw [openJob_waits going absent unlisted] at judged
    have e := h.done answerJobOpen _ _ judged ((notifyStock_agenda _ _).trans h.agenda)
      ((notifyStock_reset _ _).trans h.reset)
    have job : (((s.filled j { x with state := .stockwait }).joinWait j).notifyStock j).job j = _ :=
      (notifyStock_job _ _ _).trans (filled_job .stockwait)
    rw [jobCode_of job] at e
    exact e
  · have judged := answerJobOpen_ok ok
    rw [openJob_queued going present unlisted] at judged
    obtain ⟨m, fuel, run⟩ := runs_sought (s := s.queuedNew j x) (queuedNew_sought alone) h.agenda (jobIs_of queuedNew_job rfl)
    have e := h.settled answerJobOpen _ _ judged h.reset
    rw [run.settle (by omega), jobCode_of queuedNew_job] at e
    exact e
  · intro label account level cls sides stock flags pinned barred lead present sheets copies bin finishing profile quality offset
      hs hc hb bad
    refine congrArg Host.Outcome.next (h.refused answerJobOpen _ (answerJobOpen_error ?_))
    let f : OpenFields := ⟨label, account, level, cls, sides, sheets, copies, stock, flags, pinned, barred, lead, present, bin,
      finishing, profile, quality, offset⟩
    have body : r.body = f.bytes := hb
    rw [body]
    rcases bad with e | e | ⟨c, e, unset⟩ | e | e | e | e | e | e | e | e | e | e | e | e | e | e | e | e | e | ⟨a, e, unusable⟩
    · exact judgeOpen_bad (f := f) hs hc (.level e)
    · exact judgeOpen_bad (f := f) hs hc (.cls e)
    · exact judgeOpen_bad (f := f) hs hc (.unsetCls c e unset)
    · exact judgeOpen_bad (f := f) hs hc (.sides e)
    · exact judgeOpen_bad (f := f) hs hc (.counts (.inl e))
    · exact judgeOpen_bad (f := f) hs hc (.counts (.inr (.inl e)))
    · exact judgeOpen_bad (f := f) hs hc (.counts (.inr (.inr (.inl e))))
    · exact judgeOpen_bad (f := f) hs hc (.counts (.inr (.inr (.inr e))))
    · exact judgeOpen_bad (f := f) hs hc (.images e)
    · exact judgeOpen_bad (f := f) hs hc (.stock e)
    · exact judgeOpen_bad (f := f) hs hc (.mask e)
    · exact judgeOpen_bad (f := f) hs hc (.pinned e)
    · exact judgeOpen_bad (f := f) hs hc (.barred e)
    · exact judgeOpen_bad (f := f) hs hc (.samePort e)
    · exact judgeOpen_bad (f := f) hs hc (.bin e)
    · exact judgeOpen_bad (f := f) hs hc (.finishing e)
    · exact judgeOpen_bad (f := f) hs hc (.profile e)
    · exact judgeOpen_bad (f := f) hs hc (.quality e)
    · exact judgeOpen_bad (f := f) hs hc (.offset e)
    · refine judgeOpen_badField fun _ a ha => ?_
      have low := a.isLt
      rw [bytes_account] at ha
      have out : 64 ≤ (byte a.val).toNat := by rw [← account_some ha]; exact e
      rw [toNat_byte (by omega)] at out
      omega
    · refine judgeOpen_badField fun _ b hb => ?_
      rw [bytes_account] at hb
      have same : b = a := byte_inj_account ((account_some hb).symm.trans e)
      rw [same]
      exact accountUsable_false unusable
  · exact h.refused answerJobOpen _ (answerJobOpen_error (hb ▸ judgeOpen_openBody_closed fresh tier set closed))
  · exact h.refused answerJobOpen _ (answerJobOpen_error (hb ▸ judgeOpen_openBody_full fresh tier set going (freeSlot_none full)))

end Sys2Proof.Machine
end

section
/-! Job records (chapter 2), tenth part: a message heard, and IDENTITY (R23, R85, R86). -/

namespace Sys2Proof.Machine

variable {s t u : State} {p : PortNo} {x : Port}

/-! ## A message heard (R99) -/

/-- The state in which a port has heard a message and not yet judged it: its receiver hunts (R193). -/
def State.hearing (s : State) (p : PortNo) : State := s.setPort p ((s.port p).heard s.partTime)

theorem message_heard (h : s.Hears p) {m : PressIn} (fits : m.fits = true) :
    s.message p m = (s.hearing p).takeMessage p m := by
  unfold State.message
  rw [if_pos h.hears, if_pos fits]
  rfl

@[simp] theorem hearing_port (q : PortNo) :
    (s.hearing p).port q = if p = q then (s.port p).heard s.partTime else s.port q := State.setPort_port _ _ _ _

theorem hearing_port_same : (s.hearing p).port p = (s.port p).heard s.partTime := by rw [hearing_port, if_pos rfl]

theorem finish_of_settle (run : s.settle = t) : s.finish = t.pump := by
  unfold State.finish
  rw [run]

/-- What an event at a port leaves as it was, for a message whose effects are carried to their end: the clock, the link but for
its notices and the pending commands are kept by every message. -/
theorem beyond_of_kept (kept : Kept s u) (run : u.settle = t) (spool : t.spool = s.spool)
    (ports : ∀ q, q ≠ p → t.port q = s.port q) (alerts : ∀ q, q ≠ p → t.alert q = s.alert q)
    (meter : t.meter = { s.meter with accounts := t.meter.accounts, reservations := t.meter.reservations })
    (choices : t.choices = s.choices) : s.Beyond t p := by
  have kept : Kept s t := run ▸ kept.trans (settle_kept u)
  exact ⟨kept.time, spool, ports, alerts, meter, kept.link, kept.notices, choices, kept.pending, run ▸ settle_agenda u⟩

/-! ## The four cases of R85 -/

theorem eraseDups_length_le {α : Type} [BEq α] [LawfulBEq α] : ∀ l : List α, l.eraseDups.length ≤ l.length
  | [] => by simp
  | a :: l => by
    have shorter := List.length_filter_le (fun b => !b == a) l
    have := eraseDups_length_le (l.filter fun b => !b == a)
    rw [List.eraseDups_cons, List.length_cons, List.length_cons]
    omega
termination_by l => l.length
decreasing_by simp only [List.length_cons]; omega

theorem eraseDups_length {α : Type} [BEq α] [LawfulBEq α] (l : List α) : l.eraseDups.length = l.length ↔ l.Nodup := by
  induction l with
  | nil => simp
  | cons a l ih =>
    rw [List.eraseDups_cons, List.length_cons, List.length_cons, List.nodup_cons]
    have shorter := List.length_filter_le (fun b => !b == a) l
    have le := eraseDups_length_le (l.filter fun b => !b == a)
    constructor
    · intro e
      have all : (l.filter fun b => !b == a).length = l.length := by omega
      rw [List.length_filter_eq_length_iff] at all
      have same : (l.filter fun b => !b == a) = l := List.filter_eq_self.mpr all
      rw [same] at e
      refine ⟨fun mem => ?_, ih.mp (by omega)⟩
      have := all a mem
      simp at this
    · rintro ⟨fresh, nodup⟩
      have same : (l.filter fun b => !b == a) = l := by
        rw [List.filter_eq_self]
        intro b hb
        have : b ≠ a := fun e => fresh (e ▸ hb)
        simpa using this
      rw [same, ih.mpr nodup]

theorem trayNumbersBad_iff (trays : List TrayItem) : trayNumbersBad trays = true ↔
    (∃ t ∈ trays, 5 < t.number.toNat) ∨ ¬ (trays.map (·.number)).Nodup := by
  have twice := eraseDups_length (trays.map (·.number))
  rw [List.length_map] at twice
  unfold trayNumbersBad
  rw [Bool.or_eq_true, decide_eq_true_eq, ← twice, List.any_eq_true]
  simp only [decide_eq_true_eq]

section
variable {c : EngineIdentity}

theorem fault_depth (h : c.depth.toNat < 1 ∨ 4 < c.depth.toNat) : identityFault c = some 1 := by
  unfold identityFault
  rw [if_pos (by simpa using h)]

variable (depth : ¬ (c.depth.toNat < 1 ∨ 4 < c.depth.toNat))
include depth

theorem fault_count (h : c.trays = [] ∨ 6 < c.trays.length) : identityFault c = some 2 := by
  unfold identityFault
  rw [if_neg (by simpa using depth), if_pos (by simpa using h)]

variable (count : ¬ (c.trays = [] ∨ 6 < c.trays.length))
include count

theorem fault_numbers (h : (∃ t ∈ c.trays, 5 < t.number.toNat) ∨ ¬ (c.trays.map (·.number)).Nodup) :
    identityFault c = some 3 := by
  unfold identityFault
  rw [if_neg (by simpa using depth), if_neg (by simpa using count), if_pos ((trayNumbersBad_iff _).mpr h)]

variable (numbers : ¬ ((∃ t ∈ c.trays, 5 < t.number.toNat) ∨ ¬ (c.trays.map (·.number)).Nodup))
include numbers

theorem fault_stock (h : ∃ t ∈ c.trays, t.loaded = true ∧ t.stock = 0) : identityFault c = some 4 := by
  unfold identityFault
  rw [if_neg (by simpa using depth), if_neg (by simpa using count), if_neg (fun e => numbers ((trayNumbersBad_iff _).mp e)),
    if_pos (by simpa using h)]

theorem fault_none (h : ¬ ∃ t ∈ c.trays, t.loaded = true ∧ t.stock = 0) : identityFault c = none := by
  unfold identityFault
  rw [if_neg (by simpa using depth), if_neg (by simpa using count), if_neg (fun e => numbers ((trayNumbersBad_iff _).mp e)),
    if_neg (by simpa using h)]

end

/-! ## IDENTITY taken (R86) -/

/-- The causes that an IDENTITY takes from the alert of its port (R86). -/
def CauseSet.identified (k : CauseSet) : CauseSet :=
  { k with linkLost := false, setupTimeout := false, jam := none, fault := none }

/-- The record of a port whose engine's identity is taken (R86). -/
def Port.identified (x : Port) (c : EngineIdentity) (now : Word32) : Port :=
  { x with state := .ready, stateTime := now, trays := c.trays, caps := some (capsOf c) }

/-- The state in which an IDENTITY is taken, before what follows from its stocks (R86). -/
def State.taken (s : State) (p : PortNo) (c : EngineIdentity) : State :=
  ((((s.modPort p (fun x => { x with caps := some (capsOf c), trays := c.trays })).forgive p).changeCauses p
    CauseSet.identified).portTo p .ready)

theorem forgive_job (j : Slot) :
    (s.forgive p).job j = (s.job j).map (fun y => { y with refusedBy := y.refusedBy.set p false }) := by
  simp [State.forgive, State.job]

theorem forgive_port (q : PortNo) : (s.forgive p).port q = s.port q := rfl

section
variable {c : EngineIdentity} (n : (s.port p).state = .identifying)
include n

theorem taken_eq : s.taken p c =
    ((((s.modPort p (fun x => { x with caps := some (capsOf c), trays := c.trays })).forgive p).changeCauses p
      CauseSet.identified).setPort p ((s.port p).identified c s.partTime)).notifyPort p .identifying
        (.state (s.assigned p)) := by
  have port : (((s.modPort p (fun x => { x with caps := some (capsOf c), trays := c.trays })).forgive p).changeCauses p
      CauseSet.identified).port p = { s.port p with caps := some (capsOf c), trays := c.trays } := by
    rw [changeCauses_port, forgive_port, State.modPort_port, if_pos rfl]
  unfold State.taken
  rw [portTo_kept_stock _ p .ready (by rw [port]; show (s.port p).state ≠ _; rw [n]; decide) (.inr rfl), port,
    changeCauses_partTime, changeCauses_assigned]
  show State.notifyPort (State.setPort _ p _) p (s.port p).state _ = _
  rw [n]
  rfl

theorem taken_port (q : PortNo) : (s.taken p c).port q = if p = q then (s.port p).identified c s.partTime else s.port q := by
  rw [taken_eq n]
  simp only [State.notifyPort, notify_port, State.setPort_port, changeCauses_port, forgive_port, State.modPort_port]
  split <;> rfl

theorem taken_job (j : Slot) :
    (s.taken p c).job j = (s.job j).map (fun y => { y with refusedBy := y.refusedBy.set p false }) := by
  rw [taken_eq n]
  simp only [State.notifyPort, notify_job, State.setPort_job, changeCauses_job, forgive_job]
  rfl

theorem taken_dispatch : (s.taken p c).dispatch = s.dispatch := by
  rw [taken_eq n]; simp only [State.notifyPort, notify_dispatch, State.setPort_dispatch, changeCauses_dispatch]; rfl
theorem taken_meter : (s.taken p c).meter = s.meter := by
  rw [taken_eq n]; simp only [State.notifyPort, notify_meter, State.setPort_meter, changeCauses_meter]; rfl
theorem taken_spool : (s.taken p c).spool = s.spool := by
  rw [taken_eq n]; simp only [State.notifyPort, notify_spool, State.setPort_spool, changeCauses_spool]; rfl
theorem taken_choices : (s.taken p c).choices = s.choices := by
  rw [taken_eq n]; simp only [State.notifyPort, notify_choices, State.setPort_choices, changeCauses_choices]; rfl
theorem taken_agenda : (s.taken p c).agenda = s.agenda := by
  rw [taken_eq n]; simp only [State.notifyPort, notify_agenda, State.setPort_agenda, changeCauses_agenda]; rfl

theorem taken_alert_other {q : PortNo} (h : q ≠ p) : (s.taken p c).alert q = s.alert q := by
  rw [taken_eq n]
  simp only [State.notifyPort, notify_alert, State.setPort_alert]
  rw [changeCauses_other _ _ _ _ h]
  rfl

theorem taken_causes : ((s.taken p c).alert p).causes = (s.alert p).causes.identified := by
  rw [taken_eq n]
  simp only [State.notifyPort, notify_alert, State.setPort_alert]
  rw [changeCauses_causes]
  rfl

end

theorem ascending_length_le (l : List Byte) : (ascending l).length ≤ l.length := by
  have step : ∀ (l acc : List Byte), (l.foldl (fun acc b =>
      acc.filter (fun x => x.toNat < b.toNat) ++ b :: acc.filter (fun x => b.toNat < x.toNat)) acc).length
        ≤ acc.length + l.length := by
    intro l
    induction l with
    | nil => exact fun acc => Nat.le_refl _
    | cons b l ih =>
      intro acc
      have apart : (acc.filter (fun x => decide (b.toNat < x.toNat))).length
          ≤ (acc.filter (fun x => !decide (x.toNat < b.toNat))).length := by
        refine (List.monotone_filter_right acc fun x hx => ?_).length_le
        simp only [decide_eq_true_eq] at hx
        simp only [Bool.not_eq_true', decide_eq_false_iff_not]
        omega
      have whole := List.length_eq_length_filter_add (l := acc) (fun x => decide (x.toNat < b.toNat))
      have := ih (acc.filter (fun x => x.toNat < b.toNat) ++ b :: acc.filter (fun x => b.toNat < x.toNat))
      rw [List.foldl_cons, List.length_cons]
      rw [List.length_append, List.length_cons] at this
      omega
  exact (step l []).trans (Nat.le_of_eq (Nat.zero_add _))

theorem loadedStocks_length_le (trays : List TrayItem) : (loadedStocks trays).length ≤ trays.length := by
  refine (eraseDups_length_le _).trans ?_
  rw [List.length_map]
  exact List.length_filter_le _ _

/-- Stocks loaded that no job waits for, and the choice of job where none is QUEUED, bring nothing about (R62, R68). -/
theorem settle_stocksLoaded (idle : s.agenda = []) (nobody : s.noneReady) (none : s.dispatch.stockWait = []) (l : List Byte)
    (short : l.length ≤ 65535) :
    ((l.foldl (fun w b => w.post (.stockLoaded b)) s).post (.chooseJob p)).settle = s := by
  have posted : ∀ (l : List Byte) (w : State), l.foldl (fun w b => w.post (.stockLoaded b)) w =
      { w with agenda := w.agenda ++ l.map .stockLoaded } := by
    intro l
    induction l with
    | nil => intro w; simp
    | cons b l ih => intro w; rw [List.foldl_cons, ih]; simp [State.post]
  have all : (l.foldl (fun w b => w.post (.stockLoaded b)) s).post (.chooseJob p) =
      { s with agenda := l.map .stockLoaded ++ [.chooseJob p] } := by
    rw [posted, idle]; rfl
  have emptied : ({ s with agenda := [] } : State) = s := by cases s; simp_all
  rw [all, settle_noops]
  · exact emptied
  · show (l.map Task.stockLoaded ++ [Task.chooseJob p]).length ≤ 65536
    simp only [List.length_append, List.length_map, List.length_singleton]
    omega
  · intro k hk
    show doTask k { s with agenda := [] } = { s with agenda := [] }
    rw [emptied]
    rcases List.mem_append.mp hk with hk | hk
    · obtain ⟨b, _, rfl⟩ := List.mem_map.mp hk
      show (s.dispatch.stockWait.filter _).foldl _ s = s
      rw [none]
      rfl
    · rw [List.mem_singleton.mp hk]
      exact chooseJob_none p (chooseJob_noneReady nobody)

/-- R86: an identity taken where no job waits for a port or a stock brings nothing about but the taking itself. -/
theorem settle_identified {c : EngineIdentity} (n : (s.port p).state = .identifying) (idle : s.agenda = [])
    (nobody : s.noneReady) (none : s.dispatch.stockWait = []) (short : c.trays.length ≤ 255) :
    (s.identified p c).settle = s.taken p c := by
  have free : (s.taken p c).noneReady := fun l => by
    unfold State.readyAt
    rw [taken_dispatch n]
    exact nobody l
  have lengths (old : List Byte) : (ascending ((loadedStocks c.trays).filter (fun b => !old.contains b))).length ≤ 65535 := by
    have := ascending_length_le ((loadedStocks c.trays).filter (fun b => !old.contains b))
    have := List.length_filter_le (fun b => !old.contains b) (loadedStocks c.trays)
    have := loadedStocks_length_le c.trays
    omega
  unfold State.identified
  dsimp only
  show State.settle (State.post (List.foldl _ (State.judgeStocks (s.taken p c) _) _) _) = _
  rw [judgeStocks_noneReady free]
  exact settle_stocksLoaded ((taken_agenda n).trans idle) free (by rw [taken_dispatch n]; exact none) _ (lengths _)

theorem takeIdentity_rejected {c : EngineIdentity} {case : Nat} (n : (s.port p).state = .identifying)
    (h : identityFault c = some case) : s.takeIdentity p c = s.notifyPort p .identifying (.identityRejected case) := by
  unfold State.takeIdentity
  rw [if_neg (not_not.mpr n), h, n]

theorem takeIdentity_taken {c : EngineIdentity} (n : (s.port p).state = .identifying) (h : identityFault c = none) :
    s.takeIdentity p c = s.identified p c := by
  unfold State.takeIdentity
  rw [if_neg (not_not.mpr n), h]

/-- Settles O39: the fault of an identity decides; without one, nothing follows its taking. -/
theorem identityJudged : Obligations.IdentityJudged := by
  intro s p c h n short
  have heard : s.message p (.identity c) = (s.hearing p).takeIdentity p c :=
    message_heard h (m := .identity c) (decide_eq_true short)
  have state : ((s.hearing p).port p).state = .identifying := by rw [hearing_port_same]; exact n
  have rejected {case : Nat} (fault : identityFault c = some case) : exec (.identity p c) s =
      .next (State.pump ((s.setPort p ((s.port p).heard s.partTime)).notifyPort p .identifying (.identityRejected case))) := by
    refine congrArg Host.Outcome.next ?_
    rw [heard, takeIdentity_rejected state fault]
    exact finish_of_idle ((notify_agenda _ _ _).trans h.agenda)
  refine ⟨fun depth => rejected (fault_depth depth), fun depth count => rejected (fault_count depth count),
    fun depth count numbers => rejected (fault_numbers depth count numbers),
    fun depth count numbers stock => rejected (fault_stock depth count numbers stock),
    fun depth count numbers stock nobody none => ?_⟩
  have settled : (s.message p (.identity c)).settle = (s.hearing p).taken p c := by
    rw [heard, takeIdentity_taken state (fault_none depth count numbers stock)]
    exact settle_identified state h.agenda nobody none short
  refine ⟨(s.hearing p).taken p c, congrArg Host.Outcome.next (finish_of_settle settled),
    beyond_of_kept (message_kept s p _) settled (taken_spool state) (fun q hq => ?_) (fun q hq => ?_) ?_ (taken_choices state),
    ?_, taken_causes state, fun j => taken_job state j, taken_dispatch state, taken_meter state⟩
  · rw [taken_port state, if_neg hq.symm, hearing_port, if_neg hq.symm]
  · rw [taken_alert_other state hq]; rfl
  · rw [taken_meter state]; rfl
  · rw [taken_port state, if_pos rfl, hearing_port_same]; rfl

end Sys2Proof.Machine
end

section
/-! Job records (chapter 2), eleventh part: a setup that fails (R26, R92, R93). -/

namespace Sys2Proof.Machine

variable {s t u : State} {p : PortNo} {a : Assignment} {x y : Job}

/-! ## The leaving of a job that its account makes HELD (R26, R78) -/

/-- What such a leaving changes: the assignment, the job's record, the press time of its account and the notices. -/
structure State.HeldAside (s t : State) (p : PortNo) (a : Assignment) (x : Job) : Prop where
  job : t.job a.slot = some (x.leftHeld (elapsed s.partTime a.since))
  jobs : ∀ j, j ≠ a.slot → t.job j = s.job j
  dispatch : t.dispatch = { s.dispatch with assignments := s.dispatch.assignments.set p none }
  meter : t.meter = { s.meter with accounts := t.meter.accounts }
  account : t.account x.account = { s.account x.account with
    pressTime := min ((s.account x.account).pressTime + elapsed s.partTime a.since) 18446744073709551615 }
  accounts : ∀ b, b ≠ x.account → t.account b = s.account b
  ports : t.ports = s.ports
  alerts : t.alerts = s.alerts
  spool : t.spool = s.spool
  choices : t.choices = s.choices
  agenda : t.agenda = s.agenda
  time : t.partTime = s.partTime

theorem heldAside (h : s.LeavesHeld p a x) (d : Destination) : s.HeldAside (s.leaveNow p d) p a x := by
  have left := leaveNow_held h d
  dsimp only at left
  rw [left]
  refine ⟨?_, fun j n => ?_, ?_, ?_, ?_, fun b n => ?_, ?_, ?_, ?_, ?_, ?_, ?_⟩
  · simp
  · simp [n.symm]
  · simp
  · simp
  · simp
  · simp [n.symm]
  · simp
  · simp
  · simp
  · simp
  · simp
  · simp

theorem State.HeldAside.port (h : s.HeldAside t p a x) (q : PortNo) : t.port q = s.port q := by
  unfold State.port
  rw [h.ports]

theorem State.HeldAside.alert (h : s.HeldAside t p a x) (q : PortNo) : t.alert q = s.alert q := by
  unfold State.alert
  rw [h.alerts]

theorem State.HeldAside.noneReady (h : s.HeldAside t p a x) (n : s.noneReady) : t.noneReady := fun l => by
  unfold State.readyAt
  rw [h.dispatch]
  exact n l

/-- The record `y` of a job that has left a state whose jobs, assignments and meter unit were those of `s`, but for the job's own
record, stands in `t` as it left. -/
theorem leftHeld_of {v : State} (out : u.HeldAside v p a x) (beyond : s.Beyond t p) (jobs : t.jobs = v.jobs)
    (dispatch : t.dispatch = v.dispatch) (meter : t.meter = v.meter) (others : ∀ j, j ≠ a.slot → u.job j = s.job j)
    (placed : u.dispatch = s.dispatch) (bills : u.meter = s.meter) (time : u.partTime = s.partTime) :
    s.LeftHeld t p a (x.leftHeld (elapsed s.partTime a.since)) := by
  have job : ∀ j, t.job j = v.job j := fun j => by unfold State.job; rw [jobs]
  have account : ∀ b, t.account b = v.account b := fun b => by unfold State.account; rw [meter]
  have before : ∀ b, u.account b = s.account b := fun b => by unfold State.account; rw [bills]
  refine { beyond with job := ?_, jobs := fun j n => ?_, dispatch := ?_, reservations := ?_, account := ?_,
                       accounts := fun b n => ?_ }
  · rw [job, out.job, time]
  · rw [job, out.jobs j n, others j n]
  · rw [dispatch, out.dispatch, placed]
  · rw [meter, out.meter, bills]
  · show t.account x.account = _
    rw [account, out.account, before, time]
    rfl
  · rw [account, out.accounts b n, before]

/-! ## SETUP_REFUSED (R92) -/

/-- The state in which a refused setup is recorded and its job still assigned (R92). -/
def State.refused (s : State) (p : PortNo) (j : Slot) (code : Byte) : State :=
  ((s.modPort p (fun x => { x with setupTimer := none, refusal := some (j, code) })).notifyPort p .setup
    (.setupRefused j code)).modJob j (fun x => { x with refusedBy := x.refusedBy.set p true })

theorem takeSetupRefused_eq {j : Slot} {code : Byte} (n : (s.port p).state = .setup) (h : s.assigned p = some j) :
    s.takeSetupRefused p code = ((s.refused p j code).post (.leave p .head)).post (.backToReady p) := by
  unfold State.takeSetupRefused
  rw [if_neg (not_not.mpr n), h]
  rfl

section
variable {code : Byte}

theorem refused_port (j : Slot) (q : PortNo) : (s.refused p j code).port q =
    if p = q then { s.port p with setupTimer := none, refusal := some (j, code) } else s.port q := by
  simp [State.refused, State.notifyPort]

theorem refused_job (h : s.job a.slot = some y) :
    (s.refused p a.slot code).job a.slot = some { y with refusedBy := y.refusedBy.set p true } := by
  simp [State.refused, State.notifyPort, h]

theorem refused_job_other {j k : Slot} (h : k ≠ j) : (s.refused p j code).job k = s.job k := by
  simp [State.refused, State.notifyPort, h.symm]

theorem refused_dispatch (j : Slot) : (s.refused p j code).dispatch = s.dispatch := by simp [State.refused, State.notifyPort]
theorem refused_meter (j : Slot) : (s.refused p j code).meter = s.meter := by simp [State.refused, State.notifyPort]
theorem refused_alerts (j : Slot) : (s.refused p j code).alerts = s.alerts := by simp [State.refused, State.notifyPort]
theorem refused_spool (j : Slot) : (s.refused p j code).spool = s.spool := by simp [State.refused, State.notifyPort]
theorem refused_choices (j : Slot) : (s.refused p j code).choices = s.choices := by simp [State.refused, State.notifyPort]
theorem refused_agenda (j : Slot) : (s.refused p j code).agenda = s.agenda := by simp [State.refused, State.notifyPort]
theorem refused_time (j : Slot) : (s.refused p j code).partTime = s.partTime := by simp [State.refused, State.notifyPort]

/-- A refused job leaves as it would have left, but for the port in its refused-by set (R23, R92). -/
theorem refused_leavesHeld (h : s.LeavesHeld p a y) :
    (s.refused p a.slot code).LeavesHeld p a { y with refusedBy := y.refusedBy.set p true } where
  assignment := by simpa [State.refused, State.notifyPort] using h.assignment
  job := refused_job h.job
  running := h.running
  unfinished := h.unfinished
  sound := h.sound
  kept := h.kept
  going := h.going
  stops := by simpa [State.refused, State.notifyPort] using h.stops

end

/-! ## What follows the leaving: READY (R92, R111), or IDENTIFYING (R93) -/

section
variable (n : (s.port p).state ≠ .ready)
include n

theorem readied_alert_other {q : PortNo} (h : q ≠ p) : (s.readied p).alert q = s.alert q := by
  rw [readied_eq n]
  simp only [State.notifyPort, notify_alert, State.setPort_alert]
  exact clearAfterLeaving_alert_other h

theorem readied_choices : (s.readied p).choices = s.choices := by
  rw [readied_eq n]; simp [State.notifyPort, State.clearAfterLeaving]

end

/-- R92: the port of a refused job that its account makes HELD is READY again. -/
theorem runs_refused {code : Byte} (h : s.LeavesHeld p a y) (n : (s.port p).state = .setup) (idle : s.agenda = [])
    (nobody : s.noneReady) :
    Runs 3 (s.takeSetupRefused p code) (((s.refused p a.slot code).leaveNow p .head).readied p) := by
  have out := heldAside (refused_leavesHeld (code := code) h) .head
  have away : (((s.refused p a.slot code).leaveNow p .head).port p).state ≠ .ready := by
    rw [out.port, refused_port, if_pos rfl]
    show (s.port p).state ≠ _
    rw [n]
    decide
  have free : (s.refused p a.slot code).noneReady := fun l => by
    unfold State.readyAt
    rw [refused_dispatch]
    exact nobody l
  rw [takeSetupRefused_eq n (assigned_of_assignment s h.assignment)]
  refine runs_leaving ((refused_agenda _).trans idle) (out.agenda.trans ((refused_agenda _).trans idle)) ?_
  exact chooseJob_noneReady (readied_noneReady away (out.noneReady free))

section
variable (n : (s.port p).state = .setup)
include n

/-- R93: SETUP_TIMEOUT joins the alert, and the port identifies its engine again; IDENTIFYING counts stock, as SETUP did. -/
theorem setupTimedOutNow_eq : s.setupTimedOutNow p =
    ((((s.clearAfterLeaving p).changeCauses p (fun c => { c with setupTimeout := true })).setPort p
      ((s.port p).clearFeeding.enter .identifying s.partTime)).notifyPort p .setup (.state (s.assigned p))).setPort p
        (Port.queueOut { (s.port p).clearFeeding with
          state := .identifying, stateTime := s.partTime, nextTag := 0, owner := none } .hello) := by
  have port : ((s.clearAfterLeaving p).changeCauses p (fun c => { c with setupTimeout := true })).port p
      = (s.port p).clearFeeding := by rw [changeCauses_port, clearAfterLeaving_port, if_pos rfl]
  have time : ((s.clearAfterLeaving p).changeCauses p (fun c => { c with setupTimeout := true })).partTime = s.partTime := by
    simp [State.clearAfterLeaving]
  have assigned : ((s.clearAfterLeaving p).changeCauses p (fun c => { c with setupTimeout := true })).assigned p
      = s.assigned p := by simp [State.clearAfterLeaving]
  have setup : ((s.port p).clearFeeding).state = .setup := n
  unfold State.setupTimedOutNow State.identifyAt State.send
  rw [portTo_kept_stock _ p .identifying (by rw [port, setup]; decide) (.inr rfl), port, time, assigned, setup]
  rw [State.modPort_modPort]
  unfold State.modPort
  simp only [State.notifyPort, notify_port, State.setPort_port, if_true]
  rfl

theorem setupTimedOutNow_port (q : PortNo) : (s.setupTimedOutNow p).port q = if p = q then
    Port.queueOut { (s.port p).clearFeeding with
      state := .identifying, stateTime := s.partTime, nextTag := 0, owner := none } .hello else s.port q := by
  rw [setupTimedOutNow_eq n]
  simp only [State.notifyPort, notify_port, State.setPort_port, changeCauses_port, clearAfterLeaving_port]
  split <;> rfl

theorem setupTimedOutNow_causes : ((s.setupTimedOutNow p).alert p).causes =
    { (s.alert p).causes with trayEmpty := false, setupTimeout := true } := by
  rw [setupTimedOutNow_eq n]
  simp only [State.notifyPort, notify_alert, State.setPort_alert]
  rw [changeCauses_causes, clearAfterLeaving_causes]

theorem setupTimedOutNow_alert_other {q : PortNo} (h : q ≠ p) : (s.setupTimedOutNow p).alert q = s.alert q := by
  rw [setupTimedOutNow_eq n]
  simp only [State.notifyPort, notify_alert, State.setPort_alert]
  rw [changeCauses_other _ _ _ _ h, clearAfterLeaving_alert_other h]

theorem setupTimedOutNow_rest :
    (s.setupTimedOutNow p).jobs = s.jobs ∧ (s.setupTimedOutNow p).dispatch = s.dispatch
    ∧ (s.setupTimedOutNow p).meter = s.meter ∧ (s.setupTimedOutNow p).spool = s.spool
    ∧ (s.setupTimedOutNow p).choices = s.choices ∧ (s.setupTimedOutNow p).agenda = s.agenda := by
  rw [setupTimedOutNow_eq n]
  simp [State.notifyPort, State.clearAfterLeaving]

end

/-! ## The setup timer (R93) -/

/-- The port whose setup has failed, its timer stopped and its job still assigned. -/
def State.untimed (s : State) (p : PortNo) : State := s.modPort p (fun x => { x with setupTimer := none })

section
variable {k : Timer} (n : (s.port p).state = .setup) (timer : (s.port p).setupTimer = some k)
include n timer

theorem setupExpired_due (due : k.length ≤ elapsed s.partTime k.start) :
    s.setupExpired p = ((s.untimed p).post (.leave p .head)).post (.setupTimedOut p) := by
  have expired : timerDue (s.port p).setupTimer s.partTime = true := by
    rw [timer]
    exact decide_eq_true due
  unfold State.setupExpired
  rw [expired, decide_eq_true n]
  rfl

omit n in
theorem setupExpired_counts (early : elapsed s.partTime k.start < k.length) : s.setupExpired p = s := by
  have counts : timerDue (s.port p).setupTimer s.partTime = false := by
    rw [timer]
    exact decide_eq_false (Nat.not_le.mpr early)
  unfold State.setupExpired
  rw [counts, Bool.and_false]
  rfl

end

theorem untimed_port (q : PortNo) : (s.untimed p).port q = if p = q then { s.port p with setupTimer := none } else s.port q :=
  State.modPort_port _ _ _ _

theorem untimed_leavesHeld (h : s.LeavesHeld p a y) : (s.untimed p).LeavesHeld p a y :=
  ⟨h.assignment, h.job, h.running, h.unfinished, h.sound, h.kept, h.going, h.stops⟩

/-- R93: the job has left, and the port identifies its engine again. -/
theorem runs_timedOut (h : s.LeavesHeld p a y) (n : (s.port p).state = .setup) (idle : s.agenda = []) :
    Runs 2 (((s.untimed p).post (.leave p .head)).post (.setupTimedOut p))
      (((s.untimed p).leaveNow p .head).setupTimedOutNow p) := by
  have out := heldAside (untimed_leavesHeld h) .head
  have left : ((s.untimed p).leaveNow p .head).agenda = [] := out.agenda.trans idle
  have setup : (((s.untimed p).leaveNow p .head).port p).state = .setup := by
    rw [out.port, untimed_port, if_pos rfl]
    exact n
  obtain ⟨_, _, _, _, _, agenda⟩ := setupTimedOutNow_rest setup
  exact Runs.post_post (n := 0) (m := 1) idle (Runs.idle left) (Runs.post left (Runs.idle (agenda.trans left)))

/-- Settles O41: a failed setup sends the job away; the port goes on as the failure says. -/
theorem setupFails : Obligations.SetupFails := by
  intro s p
  refine ⟨fun code h => ⟨fun n => congrArg Host.Outcome.next ?_, fun a y n leaves nobody => ?_⟩,
    fun k idle n timer => ⟨fun early => congrArg Host.Outcome.next ?_, fun a y due leaves => ?_⟩⟩
  · have ignored : s.message p (.setupRefused code) = s.hearing p := by
      rw [message_heard h (m := .setupRefused code) rfl]
      show (s.hearing p).takeSetupRefused p code = _
      unfold State.takeSetupRefused
      rw [if_pos (by rw [hearing_port_same]; exact n)]
    rw [ignored]
    exact finish_of_idle h.agenda
  · have heard : s.message p (.setupRefused code) = (s.hearing p).takeSetupRefused p code :=
      message_heard h (m := .setupRefused code) rfl
    have assigned : (s.hearing p).LeavesHeld p a y :=
      ⟨leaves.assignment, leaves.job, leaves.running, leaves.unfinished, leaves.sound, leaves.kept, leaves.going, leaves.stops⟩
    have state : ((s.hearing p).port p).state = .setup := by rw [hearing_port_same]; exact n
    have run := (runs_refused (code := code) assigned state h.agenda nobody).settle (by omega)
    rw [← heard] at run
    have out := heldAside (refused_leavesHeld (code := code) assigned) .head
    have port : (((s.hearing p).refused p a.slot code).leaveNow p .head).port p =
        { (s.port p).heard s.partTime with setupTimer := none, refusal := some (a.slot, code) } := by
      rw [out.port, refused_port, if_pos rfl, hearing_port_same]
    have away : ((((s.hearing p).refused p a.slot code).leaveNow p .head).port p).state ≠ .ready := by
      rw [port]
      show ((s.port p).heard s.partTime).state ≠ _
      rw [n]
      decide
    have beyond := beyond_of_kept (p := p) (message_kept s p (.setupRefused code)) run
      (by rw [readied_spool away, out.spool, refused_spool]; rfl)
      (fun q hq => by rw [readied_port away, if_neg hq.symm, out.port, refused_port, if_neg hq.symm, hearing_port, if_neg hq.symm])
      (fun q hq => by rw [readied_alert_other away hq, out.alert]; unfold State.alert; rw [refused_alerts]; rfl)
      (by rw [readied_meter away, out.meter, refused_meter]; rfl)
      (by rw [readied_choices away, out.choices, refused_choices]; rfl)
    refine ⟨_, congrArg Host.Outcome.next (finish_of_settle run), ?_, ?_, ?_⟩
    · exact leftHeld_of out beyond (readied_jobs away) (readied_dispatch away) (readied_meter away)
        (fun j hj => refused_job_other hj) (refused_dispatch _) (refused_meter _) (refused_time _)
    · rw [readied_port away, if_pos rfl, port, out.time, refused_time]
      rfl
    · rw [readied_causes away, out.alert]
      unfold State.alert
      rw [refused_alerts]
      rfl
  · show State.finish (s.setupExpired p) = _
    rw [setupExpired_counts timer early]
    exact finish_of_idle idle
  · have expired := setupExpired_due n timer due
    have run := (runs_timedOut leaves n idle).settle (by omega)
    rw [← expired] at run
    have out := heldAside (untimed_leavesHeld leaves) .head
    have port : ((s.untimed p).leaveNow p .head).port p = { s.port p with setupTimer := none } := by
      rw [out.port, untimed_port, if_pos rfl]
    have setup : (((s.untimed p).leaveNow p .head).port p).state = .setup := by rw [port]; exact n
    obtain ⟨jobs, dispatch, meter, spool, choices, _⟩ := setupTimedOutNow_rest setup
    have beyond := beyond_of_kept (p := p) (setupExpired_kept s p) run (by rw [spool, out.spool]; rfl)
      (fun q hq => by rw [setupTimedOutNow_port setup, if_neg hq.symm, out.port, untimed_port, if_neg hq.symm])
      (fun q hq => by rw [setupTimedOutNow_alert_other setup hq, out.alert]; rfl)
      (by rw [meter, out.meter]; rfl) (by rw [choices, out.choices]; rfl)
    refine ⟨_, congrArg Host.Outcome.next (finish_of_settle run), ?_, ?_, ?_⟩
    · exact leftHeld_of out beyond jobs dispatch meter (fun _ _ => rfl) rfl rfl rfl
    · rw [setupTimedOutNow_port setup, if_pos rfl, port, out.time]
      rfl
    · rw [setupTimedOutNow_causes setup, out.alert]
      rfl

end Sys2Proof.Machine
end

section
/-! Job records (chapter 2), twelfth part: a sheet starts (R22, R98, R110, R121, R167). -/

namespace Sys2Proof.Machine

variable {s : State} {p : PortNo} {j : Slot} {x : Job}

/-! ## The tray that feeds a sheet (R110) -/

/-- A walk that keeps the entry with the lower number, the earlier of two equal ones, ends with an entry of the list that none
is below. -/
theorem foldl_lowest {f : Option TrayItem → TrayItem → Option TrayItem}
    (next : ∀ b t, f (some b) t = if t.number.toNat < b.number.toNat then some t else some b) :
    ∀ (l : List TrayItem) (b : TrayItem), ∃ r, l.foldl f (some b) = some r ∧ r ∈ b :: l
      ∧ ∀ u ∈ b :: l, r.number.toNat ≤ u.number.toNat := by
  intro l
  induction l with
  | nil => exact fun b => ⟨b, rfl, by simp, by simp⟩
  | cons t l ih =>
    intro b
    rw [List.foldl_cons, next]
    split
    · rename_i lower
      obtain ⟨r, e, mem, least⟩ := ih t
      refine ⟨r, e, List.mem_cons_of_mem b mem, fun u hu => ?_⟩
      rcases List.mem_cons.mp hu with rfl | hu
      · have := least t (List.mem_cons_self ..)
        omega
      · exact least u hu
    · rename_i notLower
      obtain ⟨r, e, mem, least⟩ := ih b
      refine ⟨r, e, ?_, fun u hu => ?_⟩
      · rcases List.mem_cons.mp mem with rfl | mem
        · exact List.mem_cons_self ..
        · exact List.mem_cons_of_mem _ (List.mem_cons_of_mem _ mem)
      · have low := least b (List.mem_cons_self ..)
        rcases List.mem_cons.mp hu with rfl | hu
        · exact low
        rcases List.mem_cons.mp hu with rfl | hu
        · omega
        · exact least u (List.mem_cons_of_mem _ hu)

/-- R110: the tray that feeds a sheet has the lowest number of those LOADED with its stock. -/
theorem feedTray_number {trays : List TrayItem} {stock : Byte} {t : TrayItem} (mem : t ∈ trays) (loaded : t.loaded = true)
    (fits : t.stock = stock)
    (least : ∀ u ∈ trays, u.loaded = true → u.stock = stock → t.number.toNat ≤ u.number.toNat) :
    ((feedTray trays stock).map (·.number)).getD 0 = t.number := by
  have able : t ∈ trays.filter (fun t => t.loaded && t.stock = stock) := by
    rw [List.mem_filter]
    exact ⟨mem, by simp [loaded, fits]⟩
  obtain ⟨b, l, e⟩ : ∃ b l, trays.filter (fun t => t.loaded && t.stock = stock) = b :: l := by
    cases h : trays.filter (fun t => t.loaded && t.stock = stock) with
    | nil => rw [h] at able; cases able
    | cons b l => exact ⟨b, l, rfl⟩
  have walk : ∃ r, feedTray trays stock = some r ∧ r ∈ b :: l ∧ ∀ u ∈ b :: l, r.number.toNat ≤ u.number.toNat := by
    unfold feedTray
    rw [e, List.foldl_cons]
    exact foldl_lowest (fun _ _ => rfl) l b
  obtain ⟨r, fed, mine, lowest⟩ := walk
  rw [← e] at mine lowest
  have mine := List.mem_filter.mp mine
  simp only [Bool.and_eq_true, decide_eq_true_eq] at mine
  have up := lowest t able
  have down := least r mine.1 mine.2.1 mine.2.2
  rw [fed]
  exact BitVec.eq_of_toNat_eq (Nat.le_antisymm up down)

/-! ## The record of the port (R98, R110) -/

/-- A port's record once it has started a sheet of the ordinal `o`, before the message goes out (R98, R110). -/
def Port.starts (q : Port) (o : Nat) : Port :=
  { q with
    path := q.path ++ [{ tag := q.nextTag, ordinal := o, state := .started, mark := .unmarked }]
    nextTag := q.nextTag + 1
    wait := .none
    gateTimer := none
    counters := { q.counters with sheetsStarted := min (q.counters.sheetsStarted + 1) 4294967295 } }

/-- A message joins the outbound side before or after the sheet is entered in the path. -/
theorem queueOut_starts (q : Port) (m : PressOut) (o : Nat) : (q.queueOut m).starts o = (q.starts o).queueOut m := by
  unfold Port.queueOut Port.starts
  cases e : q.sending <;> rfl

/-- A message going out leaves the path and the tags alone (R193). -/
theorem queueOut_path (q : Port) (m : PressOut) : (q.queueOut m).path = q.path := by
  unfold Port.queueOut
  split <;> rfl

theorem queueOut_nextTag (q : Port) (m : PressOut) : (q.queueOut m).nextTag = q.nextTag := by
  unfold Port.queueOut
  split <;> rfl

/-- The state after a sheet of a job has started from a tray, before the decision runs again (R110, R167). -/
def State.started (s : State) (p : PortNo) (j : Slot) (x : Job) (tray : Byte) : State :=
  { (s.setPort p (((s.port p).starts x.next).queueOut
      (.sheet (s.port p).nextTag (BitVec.ofNat 16 x.next) x.sizeClass tray x.sides))).setJob j
        (some { x with next := x.next + 1 }) with
    meter := { s.meter with
      reservations := if s.meter.policy = .stall then s.meter.reservations + 1 else s.meter.reservations } }

theorem send_starts (m : PressOut) (o : Nat) :
    (s.send p m).modPort p (fun q => q.starts o) = s.setPort p (((s.port p).starts o).queueOut m) := by
  unfold State.send
  rw [State.modPort_modPort, ← queueOut_starts]
  rfl

/-- Under STALL a place in the log is reserved for the sheet (R167). -/
def State.reserved (s : State) : State :=
  if s.meter.policy = .stall then { s with meter := { s.meter with reservations := s.meter.reservations + 1 } } else s

theorem reserved_eq : s.reserved = { s with meter := { s.meter with
    reservations := if s.meter.policy = .stall then s.meter.reservations + 1 else s.meter.reservations } } := by
  unfold State.reserved
  split <;> rfl

theorem startSheet_eq : s.startSheet p j x =
    (s.started p j x (((feedTray (s.port p).trays x.stock).map (·.number)).getD 0)).post (.decide p) := by
  have steps (tray : Byte) : (((s.send p (.sheet (s.port p).nextTag (BitVec.ofNat 16 x.next) x.sizeClass tray x.sides)).modPort p
      (fun q => q.starts x.next)).reserved.setJob j (some { x with next := x.next + 1 })) = s.started p j x tray := by
    rw [send_starts, reserved_eq]
    rfl
  exact congrArg (fun u : State => u.post (.decide p)) (steps _)

theorem started_port (tray : Byte) (r : PortNo) : (s.started p j x tray).port r = if p = r then
    ((s.port p).starts x.next).queueOut (.sheet (s.port p).nextTag (BitVec.ofNat 16 x.next) x.sizeClass tray x.sides)
    else s.port r := State.setPort_port _ _ _ _

theorem started_path (tray : Byte) (r : PortNo) :
    ((s.started p j x tray).port r).path.length = (s.port r).path.length + if p = r then 1 else 0 := by
  rw [started_port]
  split
  · rename_i e
    rw [← e, queueOut_path]
    simp [Port.starts]
  · rfl

/-! ## The order of the path (R121) -/

section
variable {q : Port} (order : q.InOrder x) (short : q.path.length < 4) (more : x.next < x.sheets * x.copies)

include order more in
/-- R121: the new sheet has the last tag and the next ordinal. -/
theorem inOrder_starts : (q.starts x.next).InOrder { x with next := x.next + 1 } where
  tags := by
    show (q.path ++ [_]).map Sheet.tag = _
    have length : (q.starts x.next).path.length = q.path.length + 1 := by simp [Port.starts]
    rw [length, List.map_append, order.tags, List.range_succ, List.map_append]
    congr 1
    · refine List.map_congr_left fun i hi => ?_
      have low := List.mem_range.mp hi
      show q.nextTag - _ = (q.nextTag + 1) - _
      rw [Nat.succ_sub low.le]
      bv_omega
    · show [q.nextTag] = [(q.nextTag + 1) - BitVec.ofNat 8 (q.path.length + 1 - q.path.length)]
      rw [Nat.add_sub_cancel_left]
      congr 1
      bv_omega
  unmarked := by
    have step : x.next + 1 - x.good = (x.next - x.good) + 1 := by have := order.counts; omega
    have last : x.good + (x.next - x.good) = x.next := by have := order.counts; omega
    show ((q.path ++ [_]).filter _).map _ = List.range' x.good (x.next + 1 - x.good)
    rw [List.filter_append, List.map_append, order.unmarked, step, List.range'_concat, Nat.one_mul, last]
    rfl
  ordinals := by
    intro z hz
    rcases List.mem_append.mp (show z ∈ q.path ++ [_] from hz) with hz | hz
    · exact order.ordinals z hz
    · rw [List.mem_singleton.mp hz]
      exact ⟨order.counts.1, more⟩
  counts := ⟨Nat.le_succ_of_le order.counts.1, more⟩

include short order more in
/-- A path of at most four sheets has no tag twice (R121). -/
theorem nodup_starts : ((q.starts x.next).path.map (·.tag)).Nodup := by
  have length : (q.starts x.next).path.length = q.path.length + 1 := by simp [Port.starts]
  rw [(inOrder_starts order more).tags, length]
  refine List.Nodup.map_on (fun i hi k hk e => ?_) (List.nodup_range ..)
  have hi := List.mem_range.mp hi
  have hk := List.mem_range.mp hk
  have counts : (q.path.length + 1 - i) % 256 = (q.path.length + 1 - k) % 256 := by
    have same : BitVec.ofNat 8 (q.path.length + 1 - i) = BitVec.ofNat 8 (q.path.length + 1 - k) := by bv_omega
    have := congrArg BitVec.toNat same
    rwa [BitVec.toNat_ofNat, BitVec.toNat_ofNat] at this
  omega

end

/-- The order of a path reads the path and the next tag alone (R121). -/
theorem inOrder_queueOut {q : Port} {m : PressOut} (h : q.InOrder x) : (q.queueOut m).InOrder x := by
  obtain ⟨tags, unmarked, ordinals, counts⟩ := h
  refine ⟨?_, ?_, ?_, counts⟩
  · rw [queueOut_path, queueOut_nextTag]; exact tags
  · rw [queueOut_path]; exact unmarked
  · rw [queueOut_path]; exact ordinals

/-- Settles O48: the port's record with the message behind it, and what the new sheet is in the path. -/
theorem sheetStarts : Obligations.SheetStarts := by
  intro s p j x t mem loaded fits least
  have tray := feedTray_number mem loaded fits least
  have started : s.startSheet p j x = (s.started p j x t.number).post (.decide p) := by rw [startSheet_eq, tray]
  refine ⟨started, fun order short more => ⟨?_, ?_⟩, ?_⟩
  · rw [started, State.post_port, started_port, if_pos rfl]
    exact inOrder_queueOut (inOrder_starts order more)
  · rw [started, State.post_port, started_port, if_pos rfl, queueOut_path]
    exact nodup_starts order short more
  · have each : ∀ r, ((s.startSheet p j x).port r).path.length = (s.port r).path.length + if p = r then 1 else 0 := fun r => by
      rw [started]
      exact started_path (j := j) t.number r
    simp only [each, ← Fin.sum_univ_def, Finset.sum_add_distrib, Finset.sum_ite_eq, Finset.mem_univ, if_true]

end Sys2Proof.Machine
end

section
/-! Job records (chapter 2), thirteenth part: WANT (R21, R49, R113). -/

namespace Sys2Proof.Machine

variable {s t u : State} {p : PortNo} {tag : Byte} {back : Bool} {j : Slot} {y : Job} {z : Sheet}

/-! ## What a spoil leaves of the spool and of the tags of the path (R116) -/

/-- The spool stays as it is, and the sheets of a port's path keep their tags and their order. -/
structure State.SameTags (s t : State) (p : PortNo) : Prop where
  spool : t.spool = s.spool
  tags : (t.port p).path.map (·.tag) = (s.port p).path.map (·.tag)

theorem State.SameTags.refl (s : State) (p : PortNo) : s.SameTags s p := ⟨rfl, rfl⟩

theorem State.SameTags.trans (h : s.SameTags t p) (k : t.SameTags u p) : s.SameTags u p :=
  ⟨k.spool.trans h.spool, k.tags.trans h.tags⟩

theorem modPort_sameTags {f : Port → Port} (h : ∀ q, (f q).path.map (·.tag) = q.path.map (·.tag)) :
    s.SameTags (s.modPort p f) p := by
  refine ⟨rfl, ?_⟩
  rw [State.modPort_port, if_pos rfl]
  exact h _

theorem send_sameTags (m : PressOut) : s.SameTags (s.send p m) p :=
  modPort_sameTags fun q => by rw [queueOut_path]

theorem sendFill_sameTags (band : Nat) : s.SameTags (s.sendFill p tag back band) p :=
  (send_sameTags _).trans (modPort_sameTags fun _ => rfl)

theorem divert_sameTags : s.SameTags (s.divert p tag) p := by
  unfold State.divert
  split
  · split
    · exact send_sameTags _
    · exact .refl s p
  · exact .refl s p

theorem divertAll_sameTags (tags : List Byte) : s.SameTags (s.divertAll p tags) p := by
  unfold State.divertAll
  induction tags generalizing s with
  | nil => exact .refl s p
  | cons tag tags ih => exact divert_sameTags.trans ih

theorem endRequestOf_sameTags (tags : List Byte) : s.SameTags (s.endRequestOf p tags) p := by
  unfold State.endRequestOf
  split
  · split
    · exact (modPort_sameTags (f := fun x => { x with request := none }) fun _ => rfl).trans (sendFill_sameTags _)
    · exact .refl s p
  · exact .refl s p

/-- A port that enters FEEDING out of DRAINING counts stock in both: no stock is judged (R80, R112). -/
theorem feedsAgain_sameTags (h : (s.port p).state = .draining) : s.SameTags (s.portTo p .feeding) p := by
  rw [portTo_kept_stock _ p .feeding (by rw [h]; decide) (.inr rfl)]
  refine ⟨?_, ?_⟩
  · rw [State.notifyPort, notify_spool]; rfl
  · rw [State.notifyPort, notify_port, State.setPort_port, if_pos rfl]; rfl

theorem rewindTo_sameTags (r : Nat) : s.SameTags (s.rewindTo p r) p := by
  unfold State.rewindTo
  split
  · dsimp only
    split
    · have lowered (o : Option Job) (i : Slot) : s.SameTags (s.setJob i o) p := ⟨rfl, rfl⟩
      split
      · rename_i ends
        have draining : (s.port p).state = .draining := by
          simp only [Bool.and_eq_true, decide_eq_true_eq] at ends
          exact ends.1
        refine (lowered _ _).trans ((modPort_sameTags
          (f := fun q => { q with drain := none, destination := none }) fun _ => rfl).trans (feedsAgain_sameTags ?_))
        rw [State.modPort_port, if_pos rfl]
        exact draining
      · exact lowered _ _
    · exact .refl s p
  · exact .refl s p

theorem spoilMark_tags (path : List Sheet) (o : Nat) (tag : Byte) (c : SpoilCause) :
    (spoilMark (supersede path o) tag c).map (·.tag) = path.map (·.tag) := by
  unfold spoilMark supersede
  rw [List.map_map, List.map_map]
  refine List.map_congr_left fun x _ => ?_
  dsimp only [Function.comp_apply]
  split_ifs <;> rfl

theorem spoil_sameTags (c : SpoilCause) : s.SameTags (s.spoil p tag c) p := by
  unfold State.spoil
  split
  · split
    · rename_i x _ _
      have marked : s.SameTags (s.modPort p (fun q => { q with path := spoilMark (supersede q.path x.ordinal) tag c })) p :=
        modPort_sameTags fun q => spoilMark_tags q.path x.ordinal tag c
      have posted (v : State) (k : Task) : v.SameTags (v.post k) p := ⟨rfl, rfl⟩
      exact (((marked.trans (rewindTo_sameTags _)).trans (divertAll_sameTags _)).trans (endRequestOf_sameTags _)).trans
        (posted _ _)
    · exact .refl s p
  · exact .refl s p

/-- A sheet that is marked is not marked again (R116). -/
theorem spoil_marked {c : SpoilCause} (h : sheetOf (s.port p).path tag = some z) (marked : z.mark ≠ .unmarked) :
    s.spoil p tag c = s := by
  unfold State.spoil
  rw [h]
  dsimp only
  rw [Sheet.isUnmarked, decide_eq_false marked]
  rfl

theorem sheetOf_tag {path : List Sheet} (h : sheetOf path tag = some z) : z.tag = tag := by
  simpa using List.find?_some h

theorem State.SameTags.sheetOf (h : s.SameTags t p) (k : sheetOf (s.port p).path tag = some z) :
    ∃ now, sheetOf (t.port p).path tag = some now ∧ now.tag = tag := by
  have mem : tag ∈ (t.port p).path.map (·.tag) := by
    rw [h.tags]
    exact List.mem_map.mpr ⟨z, List.mem_of_find?_eq_some k, sheetOf_tag k⟩
  cases e : Machine.sheetOf (t.port p).path tag with
  | some now => exact ⟨now, rfl, sheetOf_tag e⟩
  | none =>
    obtain ⟨w, hw, same⟩ := List.mem_map.mp mem
    have := List.find?_eq_none.mp e w hw
    simp [same] at this

theorem State.SameTags.band (h : s.SameTags t p) (i : Slot) (image index : Nat) : t.band i image index = s.band i image index := by
  unfold State.band State.image State.imagesOf
  rw [h.spool]

/-! ## The answers to WANT (R113) -/

/-- A port's record once FILL has gone out and been counted (R98, R113). -/
def Port.filled (x : Port) (tag : Byte) (back : Bool) (band : Nat) : Port :=
  Port.queueOut { x with counters := { x.counters with fills := min (x.counters.fills + 1) 4294967295 } } (.fill tag back band)

theorem sendFill_eq (band : Nat) : s.sendFill p tag back band = s.setPort p ((s.port p).filled tag back band) := by
  have counted : ∀ q : Port, { q.queueOut (.fill tag back band) with
      counters := { (q.queueOut (.fill tag back band)).counters with
        fills := bump (q.queueOut (.fill tag back band)).counters.fills } } = q.filled tag back band := fun q => by
    unfold Port.filled Port.queueOut
    cases e : q.sending <;> rfl
  unfold State.sendFill State.send
  rw [State.modPort_modPort]
  exact congrArg (s.setPort p) (counted _)

/-- The record of a read that begins for a sheet (R49). -/
def wantedRead (j : Slot) (tag : Byte) (back : Bool) (index image block : Nat) : BandRead :=
  { tag := tag, back := back, band := index, slot := j, image := image, block := block, live := true, gone := false }

section
variable {image index : Nat}

theorem answerWant_present {block length : Nat} {counts : Planes} (tagged : z.tag = tag)
    (h : s.band j image index = some (.present block length counts)) :
    s.answerWant p j image z back index =
      s.setPort p { s.port p with reads := (s.port p).reads ++ [wantedRead j tag back index image block] } := by
  unfold State.answerWant
  rw [h, tagged]
  rfl

theorem answerWant_lost (tagged : z.tag = tag) (h : s.band j image index = some .lost) :
    s.answerWant p j image z back index = (s.setPort p ((s.port p).filled tag back index)).spoil p tag .parity := by
  unfold State.answerWant
  rw [h, tagged, ← sendFill_eq]

theorem answerWant_unsent (tagged : z.tag = tag) (h : s.band j image index = none) (fresh : z.mark = .unmarked)
    (grace : (s.port p).grace ≠ 0) :
    s.answerWant p j image z back index = s.setPort p { s.port p with
      request := some { tag := tag, back := back, band := index
                        timer := { start := s.partTime, length := (s.port p).grace } } } := by
  unfold State.answerWant
  rw [h, tagged]
  simp only [Sheet.isUnmarked, decide_eq_true fresh, if_true, if_neg grace]
  rfl

theorem answerWant_ungraced (tagged : z.tag = tag) (h : s.band j image index = none) (fresh : z.mark = .unmarked)
    (grace : (s.port p).grace = 0) : s.answerWant p j image z back index =
      (s.setPort p ((s.port p).filled tag back index)).spoil p tag .underrun := by
  unfold State.answerWant
  rw [h, tagged, ← sendFill_eq]
  simp only [Sheet.isUnmarked, decide_eq_true fresh, if_true, if_pos grace]

theorem answerWant_marked (tagged : z.tag = tag) (h : s.band j image index = none) (marked : z.mark ≠ .unmarked) :
    s.answerWant p j image z back index = s.setPort p ((s.port p).filled tag back index) := by
  unfold State.answerWant
  rw [h, tagged, ← sendFill_eq]
  simp only [Sheet.isUnmarked, decide_eq_false marked, Bool.false_eq_true, if_false]

end

/-- A fill leaves the sheets of the path as they are. -/
theorem filled_sheetOf (x : Port) (index : Nat) (k : Byte) :
    sheetOf ((s.setPort p (x.filled tag back index)).port p).path k = sheetOf x.path k := by
  rw [State.setPort_port, if_pos rfl]
  unfold Port.filled
  rw [queueOut_path]

/-! ## WANT (R113) -/

section
variable {band : Byte}

theorem takeWant_noSheet (h : sheetOf (s.port p).path tag = none) (index : Nat) : s.takeWant p tag back index = s := by
  unfold State.takeWant
  rw [h]
  cases s.assigned p with
  | none => rfl
  | some j => cases s.assignedJob p <;> rfl

theorem takeWant_refused (ha : s.assigned p = some j) (hy : s.job j = some y) {index : Nat}
    (h : (back = true ∧ y.sides ≠ 2) ∨ s.bandsPerSide y.sizeClass ≤ index) : s.takeWant p tag back index = s := by
  have job : s.assignedJob p = some y := (assignedJob_of s p j ha).trans hy
  unfold State.takeWant
  rw [ha, job]
  cases sheetOf (s.port p).path tag with
  | none => rfl
  | some z =>
    dsimp only
    rw [if_pos]
    rcases h with ⟨sided, one⟩ | none
    · simp [sided, one]
    · simp [none]

theorem failRequest_none (h : (s.port p).request = none) : s.failRequest p = s := by
  unfold State.failRequest
  rw [h]

theorem failRequest_eq {q : BandRequest} (h : (s.port p).request = some q) : s.failRequest p =
    (s.setPort p (Port.filled { s.port p with request := none } q.tag q.back q.band)).spoil p q.tag .underrun := by
  have emptied : (s.modPort p (fun x => { x with request := none })).port p = { s.port p with request := none } := by
    rw [State.modPort_port, if_pos rfl]
  unfold State.failRequest
  rw [h]
  dsimp only
  rw [sendFill_eq, emptied]
  show State.spoil (State.setPort (State.setPort s p _) p _) _ _ _ = _
  rw [State.setPort_setPort]

theorem failRequest_sameTags : s.SameTags (s.failRequest p) p := by
  unfold State.failRequest
  split
  · exact ((modPort_sameTags (f := fun x => { x with request := none }) fun _ => rfl).trans (sendFill_sameTags _)).trans
      (spoil_sameTags _)
  · exact .refl s p

/-- R113: a request that waited is ended first; the new one is then answered for the sheet as it stands. -/
theorem takeWant_eq (ha : s.assigned p = some j) (hy : s.job j = some y) (hz : sheetOf (s.port p).path tag = some z)
    {index : Nat} (sided : back = true → y.sides = 2) (low : index < s.bandsPerSide y.sizeClass) :
    ∃ now, sheetOf ((s.failRequest p).port p).path tag = some now ∧ now.tag = tag
      ∧ s.takeWant p tag back index =
        (s.failRequest p).answerWant p j ((z.ordinal % y.sheets) * y.sides + (if back = true then 1 else 0)) now back index := by
  have job : s.assignedJob p = some y := (assignedJob_of s p j ha).trans hy
  obtain ⟨now, found, tagged⟩ := failRequest_sameTags.sheetOf hz
  have passes : ¬ ((back && decide (y.sides ≠ 2)) || decide (s.bandsPerSide y.sizeClass ≤ index)) = true := by
    cases back
    · simpa using low
    · simpa [sided rfl] using low
  refine ⟨now, found, tagged, ?_⟩
  unfold State.takeWant
  rw [ha, job, hz]
  dsimp only
  rw [if_neg passes, found]
  rfl

end

theorem hearing_setPort (x : Port) : (s.hearing p).setPort p x = s.setPort p x := State.setPort_setPort _ _ _ _

/-- Settles O49: a WANT that is heard, by the entry of the band, the mark of the sheet and the request that waited. -/
theorem wantAnswered : Obligations.WantAnswered := by
  intro s p tag back band h
  have heard : s.message p (.want tag back band) = (s.hearing p).takeWantIn p tag back band :=
    message_heard h (m := .want tag back band) rfl
  have same : (s.hearing p).port p = (s.port p).heard s.partTime := hearing_port_same
  have ignored (n : (s.hearing p).takeWantIn p tag back band = s.hearing p) :
      exec (.want p tag back band) s = .next (State.pump (s.setPort p ((s.port p).heard s.partTime))) := by
    refine congrArg Host.Outcome.next ?_
    rw [heard, n]
    exact finish_of_idle h.agenda
  have unlessFollows (n : (s.hearing p).takeWant p tag back band.toNat = s.hearing p) :
      (s.hearing p).takeWantIn p tag back band = s.hearing p := by
    unfold State.takeWantIn
    rw [n, ite_self]
  refine ⟨fun n => ignored ?_, fun n => ignored (unlessFollows (takeWant_noSheet (by rw [same]; exact n) _)),
    fun j y ha hy => ⟨fun sided one => ignored (unlessFollows (takeWant_refused (s := s.hearing p) ha hy (.inl ⟨sided, one⟩))),
      fun none => ignored (unlessFollows (takeWant_refused (s := s.hearing p) ha hy (.inr none))), fun z follows hz sided low => ?_⟩⟩
  · unfold State.takeWantIn
    rw [same, n]
    rfl
  · have found : sheetOf ((s.hearing p).port p).path tag = some z := by rw [same]; exact hz
    obtain ⟨now, nowFound, tagged, taken⟩ := takeWant_eq (s := s.hearing p) (index := band.toNat) ha hy found sided low
    have answered : s.message p (.want tag back band) = ((s.hearing p).failRequest p).answerWant p j
        ((z.ordinal % y.sheets) * y.sides + (if back = true then 1 else 0)) now back band.toNat := by
      rw [heard, ← taken]
      unfold State.takeWantIn
      rw [same, follows]
      rfl
    have entry := (failRequest_sameTags (s := s.hearing p) (p := p)).band j
      ((z.ordinal % y.sheets) * y.sides + (if back = true then 1 else 0)) band.toNat
    refine ⟨fun block length counts present => ⟨fun free => congrArg Host.Outcome.next ?_,
      fun q waiting => congrArg Host.Outcome.next ?_⟩, fun free => ?_⟩
    · show State.finish (s.message p _) = _
      rw [answered, answerWant_present tagged (entry.trans present),
        failRequest_none (s := s.hearing p) (by rw [same]; exact free), same]
      rw [hearing_setPort]
      exact finish_of_idle h.agenda
    · have ended := failRequest_eq (s := s.hearing p) (q := q) (by rw [same]; exact waiting)
      rw [same] at ended
      rw [hearing_setPort] at ended
      show State.finish (s.message p _) = _
      rw [answered, answerWant_present tagged (entry.trans present), ended]
      rfl
    · have nothing := failRequest_none (s := s.hearing p) (p := p) (by rw [same]; exact free)
      rw [nothing] at answered nowFound entry
      have z_now : now = z := by rw [found] at nowFound; exact (Option.some.inj nowFound).symm
      rw [z_now] at answered tagged
      have filledAt : (s.hearing p).setPort p (((s.hearing p).port p).filled tag back band.toNat)
          = s.setPort p (((s.port p).heard s.partTime).filled tag back band.toNat) := by
        rw [same]
        exact hearing_setPort _
      have stays (marked : z.mark ≠ .unmarked) (c : SpoilCause) :
          (s.setPort p (((s.port p).heard s.partTime).filled tag back band.toNat)).spoil p tag c
            = s.setPort p (((s.port p).heard s.partTime).filled tag back band.toNat) :=
        spoil_marked ((filled_sheetOf _ _ _).trans hz) marked
      refine ⟨fun unsent fresh grace => congrArg Host.Outcome.next ?_, fun absent marked => congrArg Host.Outcome.next ?_,
        fun cause why => congrArg Host.Outcome.next ?_⟩
      · show State.finish (s.message p _) = _
        rw [answered, answerWant_unsent (s := s.hearing p) tagged unsent fresh (by rw [same]; exact grace), same]
        rw [hearing_setPort]
        exact finish_of_idle h.agenda
      · show State.finish (s.message p _) = _
        have filled : s.message p (.want tag back band)
            = s.setPort p (((s.port p).heard s.partTime).filled tag back band.toNat) := by
          rw [answered, ← filledAt]
          cases e : (s.hearing p).band j ((z.ordinal % y.sheets) * y.sides + (if back = true then 1 else 0)) band.toNat with
          | none => exact answerWant_marked tagged e marked
          | some b =>
            cases b with
            | lost => rw [answerWant_lost tagged e, filledAt, stays marked]
            | present block length counts =>
              have here : s.bandPresent j ((z.ordinal % y.sheets) * y.sides + (if back = true then 1 else 0)) band.toNat
                  = true := by
                have e' : s.band j ((z.ordinal % y.sheets) * y.sides + (if back = true then 1 else 0)) band.toNat = _ := e
                unfold State.bandPresent
                rw [e']
              exact absurd here (by rw [absent]; exact Bool.false_ne_true)
        rw [filled]
        exact finish_of_idle h.agenda
      · show State.finish (s.message p _) = _
        rw [answered]
        refine congrArg State.finish ?_
        rcases why with ⟨rfl, lost⟩ | ⟨rfl, unsent, grace⟩
        · rw [answerWant_lost (s := s.hearing p) tagged lost, filledAt]
          rfl
        · by_cases fresh : z.mark = .unmarked
          · rw [answerWant_ungraced (s := s.hearing p) tagged unsent fresh (by rw [same]; exact grace), filledAt]
            rfl
          · rw [answerWant_marked (s := s.hearing p) tagged unsent fresh, filledAt]
            exact (stays fresh .underrun).symm

end Sys2Proof.Machine
end

section
/-! Job records (chapter 2), fourteenth part: the outcomes WASTE and WITHDRAWN (R22, R37, R118, R119, R127 to R129, R161). -/

namespace Sys2Proof.Machine

variable {s : State} {p : PortNo} {j : Slot} {b : Job} {y : Sheet}

/-! ## A sheet's outcome, its record and its leaving the queue (R125, R129, R165, R166) -/

theorem takeOutcome_eq (ha : s.assigned p = some j) (hb : s.job j = some b) :
    s.takeOutcome p y .good = s.goodOutcome p j b y
    ∧ (∀ c, s.takeOutcome p y (.waste c) = s.wasteOutcome p j b y c)
    ∧ s.takeOutcome p y .withdrawn = s.withdrawnOutcome p y := by
  have job : s.assignedJob p = some b := (assignedJob_of s p j ha).trans hb
  unfold State.takeOutcome
  rw [ha, job]
  exact ⟨rfl, fun _ => rfl, rfl⟩

/-- The reservations once a sheet has taken its place in the log, or needs none (R167). -/
def Meter.unreserved (m : Meter) : Nat := if m.policy = .stall then m.reservations - 1 else m.reservations

/-- A record that finds room in the log, and does not raise its count to the high mark, joins it and nothing else happens
(R166, R170). -/
theorem writeRecord_eq (r : MeterRecord) (room : s.meter.log.length < 256)
    (mark : s.meter.log.length ≠ 191 ∨ s.meter.highMark = true) :
    s.writeRecord r =
      { s with meter := { s.meter with log := s.meter.log ++ [r], reservations := s.meter.unreserved } } := by
  have written : writeLog s.meter.policy s.meter.log s.meter.dropped r = (s.meter.log ++ [r], s.meter.dropped) := by
    unfold writeLog
    rw [if_pos room]
  unfold State.writeRecord
  dsimp only
  rw [written]
  unfold State.highMark
  rw [if_neg]
  · rfl
  · rintro high
    simp only [Bool.and_eq_true, decide_eq_true_eq, Bool.not_eq_true'] at high
    obtain ⟨⟨count, _⟩, clear⟩ := high
    rcases mark with mark | mark
    · exact mark count
    · rw [show s.meter.highMark = false from clear] at mark
      cases mark

theorem forget_eq (x : Port) (tag : Byte) : x.forget tag = { x with
    path := x.path.filter (fun z => z.tag ≠ tag)
    request := x.request.filter (fun r => r.tag ≠ tag)
    reads := x.reads.map (fun r => if r.tag = tag then { r with live := false } else r) } := by
  unfold Port.forget
  cases x.request with
  | none => rfl
  | some r =>
    by_cases e : r.tag = tag
    · simp [e, Option.filter]
    · simp [e, Option.filter]

/-! ## A change of causes reads and writes the alert relay and the link alone (R173) -/

section
variable (jobs : Vector (Option Job) 128) (ports : Vector Port 12) (meter : Meter)

/-- The state with other records of jobs and ports and another meter unit. -/
def State.elsewhere (s : State) (jobs : Vector (Option Job) 128) (ports : Vector Port 12) (meter : Meter) : State :=
  { s with jobs := jobs, ports := ports, meter := meter }

theorem notify_elsewhere (k : NoticeKind) (l : List Byte) :
    (s.elsewhere jobs ports meter).notify k l = (s.notify k l).elsewhere jobs ports meter := by
  unfold State.notify State.elsewhere
  dsimp only
  split
  · rfl
  · split <;> rfl

theorem pumpPanel_elsewhere : (s.elsewhere jobs ports meter).pumpPanel = s.pumpPanel.elsewhere jobs ports meter := by
  have panel : (s.elsewhere jobs ports meter).panel = s.panel := rfl
  unfold State.pumpPanel
  rw [panel]
  cases s.panel.sending with
  | some line => rfl
  | none =>
    cases s.panel.queue with
    | nil => rfl
    | cons line rest => rfl

theorem queueLine_elsewhere (q : PortNo) :
    (s.elsewhere jobs ports meter).queueLine q = (s.queueLine q).elsewhere jobs ports meter :=
  pumpPanel_elsewhere (s := { s with panel := { s.panel with queue := putLine s.panel.queue q (panelText q (s.alert q)) } })
    jobs ports meter

theorem notifyAlert_elsewhere (q : PortNo) (r : AlertReason) (c : Option Cause) :
    (s.elsewhere jobs ports meter).notifyAlert q r c = (s.notifyAlert q r c).elsewhere jobs ports meter :=
  notify_elsewhere jobs ports meter _ _

theorem setAlert_elsewhere (q : PortNo) (x : Alert) :
    (s.elsewhere jobs ports meter).setAlert q x = (s.setAlert q x).elsewhere jobs ports meter := rfl

/-- A port whose escalation interval stays judges its causes alike, whatever jobs, ports and bills stand beside (R174). -/
theorem changeCauses_elsewhere (f : CauseSet → CauseSet) (interval : ports[p].interval = (s.port p).interval) :
    (s.elsewhere jobs ports meter).changeCauses p f = (s.changeCauses p f).elsewhere jobs ports meter := by
  have timer : (s.elsewhere jobs ports meter).escalationTimer p = s.escalationTimer p := by
    unfold State.escalationTimer
    rw [show ((s.elsewhere jobs ports meter).port p).interval = (s.port p).interval from interval]
    rfl
  have alert : (s.elsewhere jobs ports meter).alert p = s.alert p := rfl
  have opens (c : CauseSet) (r : AlertReason) :
      (s.elsewhere jobs ports meter).openAlert p c r = (s.openAlert p c r).elsewhere jobs ports meter := by
    unfold State.openAlert
    dsimp only
    rw [timer, alert, setAlert_elsewhere, notifyAlert_elsewhere, queueLine_elsewhere]
    rfl
  unfold State.changeCauses
  dsimp only
  rw [alert]
  split
  · rfl
  · split
    · rw [setAlert_elsewhere, notifyAlert_elsewhere, queueLine_elsewhere]
    · rw [opens]
    · split
      · rw [opens]
      · split
        · rw [setAlert_elsewhere, notifyAlert_elsewhere, queueLine_elsewhere]
        · rw [setAlert_elsewhere, notifyAlert_elsewhere]

end

theorem changeCauses_setJob (f : CauseSet → CauseSet) (k : Slot) (o : Option Job) :
    (s.changeCauses p f).setJob k o = (s.setJob k o).changeCauses p f := by
  have e := changeCauses_elsewhere (s := s) (p := p) (s.jobs.set k o) s.ports s.meter f rfl
  have other : (s.setJob k o).changeCauses p f = _ := e
  rw [other]
  unfold State.setJob State.elsewhere
  simp only [changeCauses_jobs, changeCauses_ports, changeCauses_meter]

theorem changeCauses_modPort (f : CauseSet → CauseSet) (g : Port → Port) (interval : (g (s.port p)).interval = (s.port p).interval) :
    (s.changeCauses p f).modPort p g = (s.modPort p g).changeCauses p f := by
  have e := changeCauses_elsewhere (s := s) (p := p) s.jobs (s.ports.set p (g (s.port p))) s.meter f (by simpa using interval)
  have other : (s.modPort p g).changeCauses p f = _ := e
  rw [other]
  unfold State.modPort State.setPort State.elsewhere
  simp only [changeCauses_jobs, changeCauses_ports, changeCauses_meter, changeCauses_port]

/-! ## WASTE (R127) -/

/-- The state in which a WASTE outcome is on record and counted, the port's and the job's records being `q` and `d`. -/
def State.wastedAs (s : State) (p : PortNo) (j : Slot) (b : Job) (y : Sheet) (c : WasteCause) (q : Port) (d : Job) : State :=
  { s with
    ports := s.ports.set p q
    jobs := s.jobs.set j (some d)
    meter := { s.meter with
      accounts := s.meter.accounts.set b.account { s.account b.account with
        wasteSheets := min ((s.account b.account).wasteSheets + 1) 4294967295 }
      log := s.meter.log ++ [s.recordOf j b p y.ordinal (some c)]
      reservations := s.meter.unreserved } }

/-- The port's record once a WASTE outcome is counted (R98). -/
def Port.wasteCounted (x : Port) : Port :=
  { x with counters := { x.counters with waste := min (x.counters.waste + 1) 4294967295 } }

section
variable (c : WasteCause) (q : Port) (d : Job)

@[simp] theorem wastedAs_port : (s.wastedAs p j b y c q d).port p = q := by simp [State.wastedAs, State.port]

@[simp] theorem wastedAs_job : (s.wastedAs p j b y c q d).job j = some d := by simp [State.wastedAs, State.job]

theorem wastedAs_modPort (f : Port → Port) : (s.wastedAs p j b y c q d).modPort p f = s.wastedAs p j b y c (f q) d := by
  unfold State.modPort
  rw [wastedAs_port]
  simp [State.wastedAs, State.setPort]

theorem wastedAs_setJob (e : Job) : (s.wastedAs p j b y c q d).setJob j (some e) = s.wastedAs p j b y c q e := by
  simp [State.wastedAs, State.setJob]

/-- R127: the record, the counts and the loss of the ordinal, then the run of underruns, then the sheet leaves the queue. -/
theorem wasteOutcome_eq (hb : s.job j = some b) (room : s.meter.log.length < 256)
    (mark : s.meter.log.length ≠ 191 ∨ s.meter.highMark = true) :
    s.wasteOutcome p j b y c =
      let w := s.wastedAs p j b y c (s.port p).wasteCounted ((b.oneMoreWaste c).loss y.ordinal)
      (if c = .underrun then w.countUnderrun p j else w).modPort p (fun q => q.forget y.tag) := by
  have counted : (((s.writeRecord (s.recordOf j b p y.ordinal (some c))).modAccount b.account
      (fun a => { a with wasteSheets := raiseTo max32 a.wasteSheets 1 })).modJob j
        (fun z => (z.oneMoreWaste c).loss y.ordinal)).modPort p
          (fun q => { q with counters := { q.counters with waste := bump q.counters.waste } }) =
      s.wastedAs p j b y c (s.port p).wasteCounted ((b.oneMoreWaste c).loss y.ordinal) := by
    rw [writeRecord_eq _ room mark]
    unfold State.modJob
    show State.modPort (State.setJob _ j (Option.map _ (s.job j))) _ _ = _
    rw [hb]
    rfl
  exact congrArg (fun w : State => (if c = .underrun then w.countUnderrun p j else w).modPort p (fun q => q.forget y.tag))
    counted

/-- R118: a run of less than three underruns only counts. -/
theorem countUnderrun_below {v : State} (h : (v.port p).underruns < 2) :
    v.countUnderrun p j = v.modPort p (fun x => { x with underruns := (v.port p).underruns + 1 }) := by
  have n : min ((v.port p).underruns + 1) 3 = (v.port p).underruns + 1 := by omega
  unfold State.countUnderrun
  rw [n, if_neg (by omega)]

/-- R119: the third underrun in a row is a permanent one. -/
theorem countUnderrun_third {v : State} (h : 2 ≤ (v.port p).underruns) :
    v.countUnderrun p j = (v.modPort p (fun x => { x with underruns := 3 })).permanentUnderrun p j := by
  have n : min ((v.port p).underruns + 1) 3 = 3 := by omega
  unfold State.countUnderrun
  rw [n, if_pos rfl]

/-- The cause UNDERRUN added (R119). -/
def CauseSet.addUnderrun (k : CauseSet) : CauseSet := { k with underrun := true }

/-- R119: UNDERRUN joins the alert, and the job's gates want all bands from now. -/
theorem permanentUnderrun_eq {v : State} (hv : v.job j = some d) : v.permanentUnderrun p j =
    if (v.port p).state = .feeding then
      ((v.setJob j (some { d with forcedWhole := true })).changeCauses p CauseSet.addUnderrun).stopFeeding p .underrun
    else (v.setJob j (some { d with forcedWhole := true })).changeCauses p CauseSet.addUnderrun := by
  have whole : (v.changeCauses p CauseSet.addUnderrun).modJob j (fun x => { x with forcedWhole := true }) =
      (v.setJob j (some { d with forcedWhole := true })).changeCauses p CauseSet.addUnderrun := by
    rw [← changeCauses_setJob]
    unfold State.modJob
    rw [changeCauses_job, hv]
    rfl
  unfold State.permanentUnderrun
  show (if (State.port (State.modJob (v.changeCauses p CauseSet.addUnderrun) j _) p).state = .feeding then
    State.stopFeeding (State.modJob (v.changeCauses p CauseSet.addUnderrun) j _) p .underrun
      else State.modJob (v.changeCauses p CauseSet.addUnderrun) j _) = _
  rw [whole, changeCauses_port, State.setJob_port]

theorem permanentUnderrun_idle {v : State} (hv : v.job j = some d) (h : (v.port p).state ≠ .feeding) :
    v.permanentUnderrun p j = (v.setJob j (some { d with forcedWhole := true })).changeCauses p CauseSet.addUnderrun := by
  rw [permanentUnderrun_eq d hv, if_neg h]

theorem permanentUnderrun_feeding {v : State} (hv : v.job j = some d) (h : (v.port p).state = .feeding) :
    v.permanentUnderrun p j = (((v.setJob j (some { d with forcedWhole := true })).changeCauses p
      CauseSet.addUnderrun).drains p .underrun).post (.afterRemoval p) := by
  rw [permanentUnderrun_eq d hv, if_pos h, stopFeeding_eq _ _ (by rw [changeCauses_port, State.setJob_port]; exact h)]

end

/-! ## WITHDRAWN (R128) -/

theorem releaseReservation_none (h : s.meter.policy ≠ .stall) : s.releaseReservation = s := by
  unfold State.releaseReservation
  rw [if_neg h]

theorem releaseReservation_room (h : s.meter.policy = .stall) : s.releaseReservation =
    State.post { s with meter := { s.meter with reservations := s.meter.reservations - 1 } } .roomReport := by
  unfold State.releaseReservation
  rw [if_pos h]

/-- Settles O53: the outcome's record, counts and loss; a third underrun in a row stops a port that feeds. -/
theorem wasteAndWithdrawnReported : Obligations.WasteAndWithdrawnReported := by
  intro s p y j b ha hb x gone
  obtain ⟨_, waste, withdrawn⟩ := takeOutcome_eq (y := y) ha hb
  have forgets (q : Port) : q.forget y.tag = _ := forget_eq q y.tag
  refine ⟨fun c room mark => ?_, ?_⟩
  · intro run lost counted wasted
    have outcome := wasteOutcome_eq (p := p) (y := y) c hb room mark
    dsimp only at outcome
    have record : (b.oneMoreWaste c).loss y.ordinal = counted := by
      simp only [counted, lost, Job.loss, Job.oneMoreWaste]
      split
      · rename_i five
        simp [five, raiseTo, max32]
      · rename_i notFive
        cases e : b.lostOrdinal with
        | none => simp [notFive, raiseTo, max32]
        | some o =>
          by_cases same : y.ordinal = o
          · simp [notFive, same, raiseTo, max32]
          · by_cases below : y.ordinal < o
            · simp [notFive, same, Ne.symm same, below, raiseTo, max32]
            · simp [notFive, same, Ne.symm same, below, raiseTo, max32]
    rw [record] at outcome
    have whole (n : Nat) (hn : run = n) (d : Job) :
        s.wastedAs p j b y c (Port.forget { x.wasteCounted with underruns := n } y.tag) d = wasted d := by
      rw [forget_eq, ← hn]
      rfl
    rw [waste c, outcome]
    refine ⟨fun few => ?_, fun under third => ?_⟩
    · by_cases under : c = .underrun
      · have below : x.underruns < 2 := few.resolve_left (not_not.mpr under)
        have count : run = x.underruns + 1 := by
          show (if c = .underrun then min (x.underruns + 1) 3 else x.underruns) = _
          rw [if_pos under]
          omega
        rw [if_pos under, countUnderrun_below (by rw [wastedAs_port]; exact below), wastedAs_modPort, wastedAs_modPort,
          wastedAs_port]
        exact whole _ count counted
      · rw [if_neg under, wastedAs_modPort]
        exact whole x.underruns (if_neg under) counted
    · have count : run = 3 := by
        show (if c = .underrun then min (x.underruns + 1) 3 else x.underruns) = _
        rw [if_pos under]
        omega
      rw [if_pos under, countUnderrun_third (by rw [wastedAs_port]; exact third), wastedAs_modPort]
      refine ⟨fun idle => ?_, fun feeds => ?_⟩
      · rw [permanentUnderrun_idle counted (wastedAs_job _ _ _) (by rw [wastedAs_port]; exact idle), wastedAs_setJob,
          changeCauses_modPort _ _ rfl, wastedAs_modPort]
        exact congrArg (fun v : State => v.changeCauses p CauseSet.addUnderrun) (whole 3 count _)
      · rw [permanentUnderrun_feeding counted (wastedAs_job _ _ _) (by rw [wastedAs_port]; exact feeds), wastedAs_setJob]
        have port (v : State) : (((v.drains p .underrun).post (.afterRemoval p)).modPort p (fun q => q.forget y.tag)).port p =
            ((v.port p).stopped .underrun v.partTime).forget y.tag := by
          rw [State.modPort_port, if_pos rfl, State.post_port, drains_port, if_pos rfl]
        refine ⟨?_, ?_, ?_, ?_, ?_, ?_⟩
        · rw [port]; rfl
        · rw [port]; rfl
        · rw [port]; rfl
        · rw [port, changeCauses_port, wastedAs_port]; rfl
        · rw [State.modPort_job, State.post_job, drains_job, changeCauses_job, wastedAs_job]
        · rw [State.modPort_alert, State.post_alert, drains_alert, changeCauses_causes]; rfl
  · intro left
    have gone_eq : Port.forget { x with counters := { x.counters with withdrawn := min (x.counters.withdrawn + 1) 4294967295 } }
        y.tag = { gone with counters := { x.counters with withdrawn := min (x.counters.withdrawn + 1) 4294967295 } } := by
      rw [forget_eq]
    have leaves (v : State) : v.modPort p (fun q => Port.forget { q with
        counters := { q.counters with withdrawn := bump q.counters.withdrawn } } y.tag)
          = v.setPort p (Port.forget { v.port p with counters := { (v.port p).counters with
              withdrawn := min ((v.port p).counters.withdrawn + 1) 4294967295 } } y.tag) := rfl
    have outcome : s.takeOutcome p y .withdrawn = s.releaseReservation.setPort p (Port.forget
        { s.releaseReservation.port p with counters := { (s.releaseReservation.port p).counters with
            withdrawn := min ((s.releaseReservation.port p).counters.withdrawn + 1) 4294967295 } } y.tag) :=
      withdrawn.trans (leaves s.releaseReservation)
    refine ⟨fun free => ?_, fun stall => ?_⟩
    · rw [outcome, releaseReservation_none free]
      exact congrArg (s.setPort p) gone_eq
    · rw [outcome, releaseReservation_room stall]
      exact congrArg (fun q : Port => State.setPort (State.post { s with meter := { s.meter with
        reservations := s.meter.reservations - 1 } } .roomReport) p q) gone_eq

end Sys2Proof.Machine
end

section
/-! Job records (chapter 2), fifteenth part: what a GOOD outcome does, operation by operation: the debit and its account, the
record, the good count, the images released (R22, R54, R126, R161 to R163, R166). -/

namespace Sys2Proof.Machine

variable {s t : State} {p : PortNo} {j : Slot} {b : Job} {a : AccountNo} {x : Account}

/-! ## Images released (R54) -/

theorem releaseImage_eq (i : Nat) : s.releaseImage j i = { s with spool := (s.releaseImage j i).spool } := by
  unfold State.releaseImage
  split <;> rfl

theorem releaseImage_image (i k : Nat) : (s.releaseImage j i).image j k =
    if i = k then (s.image j i).map (fun _ => ImageRec.gone) else s.image j k := by
  cases h : s.image j i with
  | none =>
    have same : s.releaseImage j i = s := by unfold State.releaseImage; rw [h]
    rw [same]
    split
    · rename_i e; rw [← e, h]; rfl
    · rfl
  | some r =>
    have images : (s.releaseImage j i).imagesOf j = (s.imagesOf j).set i .gone := by
      unfold State.releaseImage
      rw [h]
      exact (State.setImages_imagesOf s j _ j).trans (if_pos rfl)
    have low : i < (s.imagesOf j).length := by
      obtain ⟨low, _⟩ := List.getElem?_eq_some_iff.mp h
      exact low
    unfold State.image
    rw [images, List.getElem?_set]
    split
    · rfl
    · rfl

theorem releaseImage_imagesOf (i : Nat) {k : Slot} (n : k ≠ j) : (s.releaseImage j i).imagesOf k = s.imagesOf k := by
  unfold State.releaseImage
  split
  · exact (State.setImages_imagesOf s j _ k).trans (if_neg n.symm)
  · rfl

theorem releaseImage_pool (i k : Nat) : k ∈ (s.releaseImage j i).spool.pool ↔
    k ∈ s.spool.pool ∨ ∃ r, s.image j i = some r ∧ k ∈ Bands.blocks r.bands := by
  unfold State.releaseImage
  cases h : s.image j i with
  | none => simp
  | some r =>
    simp only [Option.some.injEq, exists_eq_left']
    exact Blocks.mem_addAll _ _ _

theorem releaseImage_kept_parts (i : Nat) :
    (s.releaseImage j i).spool.retired = s.spool.retired ∧ (s.releaseImage j i).spool.dram = s.spool.dram := by
  unfold State.releaseImage
  split <;> exact ⟨rfl, rfl⟩

/-- The images of a list released, one after the other (R54). -/
def State.releaseAll (s : State) (j : Slot) (l : List Nat) : State := l.foldl (fun s i => s.releaseImage j i) s

/-- What the release of images comes to: those that there are, are gone, and their blocks are in the pool (R54). -/
structure State.Released (s t : State) (j : Slot) (l : List Nat) : Prop where
  rest : t = { s with spool := t.spool }
  gone : ∀ i ∈ l, t.image j i = (s.image j i).map (fun _ => ImageRec.gone)
  kept : ∀ i, i ∉ l → t.image j i = s.image j i
  others : ∀ k, k ≠ j → t.imagesOf k = s.imagesOf k
  pool : ∀ k, k ∈ t.spool.pool ↔ k ∈ s.spool.pool ∨ ∃ i r, i ∈ l ∧ s.image j i = some r ∧ k ∈ Bands.blocks r.bands
  retired : t.spool.retired = s.spool.retired
  dram : t.spool.dram = s.spool.dram

theorem releaseAll_released (l : List Nat) : ∀ s : State, s.Released (s.releaseAll j l) j l := by
  induction l with
  | nil => exact fun s => ⟨rfl, by simp, fun _ _ => rfl, fun _ _ => rfl, by simp [State.releaseAll], rfl, rfl⟩
  | cons i l ih =>
    intro s
    obtain ⟨rest, gone, kept, others, pool, retired, dram⟩ := ih (s.releaseImage j i)
    have step : s.releaseAll j (i :: l) = (s.releaseImage j i).releaseAll j l := rfl
    have first := releaseImage_image (s := s) (j := j) i
    rw [step]
    refine ⟨?_, fun k hk => ?_, fun k hk => ?_, fun k n => ?_, fun k => ?_, ?_, ?_⟩
    · refine rest.trans ?_
      rw [releaseImage_eq i]
    · by_cases mem : k ∈ l
      · rw [gone k mem, first]
        split
        · rename_i e
          rw [e]
          cases s.image j k <;> rfl
        · rfl
      · have e : k = i := (List.mem_cons.mp hk).resolve_right mem
        rw [kept k mem, first, if_pos e.symm, e]
    · have apart : i ≠ k := fun e => hk (e ▸ List.mem_cons_self ..)
      rw [kept k (fun mem => hk (List.mem_cons_of_mem _ mem)), first, if_neg apart]
    · rw [others k n, releaseImage_imagesOf i n]
    · rw [pool, releaseImage_pool]
      constructor
      · rintro ((old | ⟨r, hr, hk⟩) | ⟨m, r, mem, hr, hk⟩)
        · exact .inl old
        · exact .inr ⟨i, r, List.mem_cons_self .., hr, hk⟩
        · rw [first] at hr
          split at hr
          · rename_i e
            obtain ⟨_, _, e'⟩ := Option.map_eq_some_iff.mp hr
            rw [← e'] at hk
            cases hk
          · exact .inr ⟨m, r, List.mem_cons_of_mem _ mem, hr, hk⟩
      · rintro (old | ⟨m, r, mem, hr, hk⟩)
        · exact .inl (.inl old)
        · by_cases e : i = m
          · exact .inl (.inr ⟨r, e ▸ hr, hk⟩)
          · have mem := (List.mem_cons.mp mem).resolve_left (fun e' => e e'.symm)
            exact .inr ⟨m, r, mem, by rw [first, if_neg e]; exact hr, hk⟩
    · rw [retired, (releaseImage_kept_parts i).1]
    · rw [dram, (releaseImage_kept_parts i).2]

/-- R54: the images of the last copy's ordinals are released as they are delivered; those of an earlier one are kept. -/
theorem releasePassed_last {d : Job} (hd : s.job j = some d) (h : (d.copies - 1) * d.sheets ≤ d.good - 1) :
    s.releasePassed j = s.releaseAll j (d.imagesOfOrdinal (d.good - 1)) := by
  unfold State.releasePassed
  rw [hd]
  exact if_pos h

theorem releasePassed_earlier {d : Job} (hd : s.job j = some d) (h : ¬ (d.copies - 1) * d.sheets ≤ d.good - 1) :
    s.releasePassed j = s := by
  unfold State.releasePassed
  rw [hd]
  exact if_neg h

theorem releasePassed_eq : s.releasePassed j = { s with spool := (s.releasePassed j).spool } := by
  cases hd : s.job j with
  | none => unfold State.releasePassed; rw [hd]
  | some d =>
    by_cases h : (d.copies - 1) * d.sheets ≤ d.good - 1
    · rw [releasePassed_last hd h]
      exact (releaseAll_released _ s).rest
    · rw [releasePassed_earlier hd h]

theorem mem_imagesOfOrdinal (d : Job) (o i : Nat) : i ∈ d.imagesOfOrdinal o ↔
    i = (o % d.sheets) * d.sides ∨ (d.sides = 2 ∧ i = (o % d.sheets) * d.sides + 1) := by
  unfold Job.imagesOfOrdinal
  dsimp only
  split
  · rename_i two; simp [two]
  · rename_i one; simp [one]

/-! ## The record in the log (R166, R170) -/

/-- A record written touches the log, its counts and the link. -/
theorem writeRecord_parts (r : MeterRecord) : ∃ (link : Link) (log : List MeterRecord) (dropped reservations : Nat) (mark : Bool),
    s.writeRecord r = { s with
      link := link
      meter := { s.meter with log := log, dropped := dropped, reservations := reservations, highMark := mark } } := by
  unfold State.writeRecord State.highMark
  dsimp only
  split
  · rw [notify_eq]
    exact ⟨_, _, _, _, _, rfl⟩
  · exact ⟨_, _, _, _, _, rfl⟩

section
variable (r : MeterRecord)

@[simp] theorem writeRecord_jobs : (s.writeRecord r).jobs = s.jobs := by
  obtain ⟨_, _, _, _, _, e⟩ := writeRecord_parts (s := s) r; rw [e]
@[simp] theorem writeRecord_job (k : Slot) : (s.writeRecord r).job k = s.job k := by
  unfold State.job; rw [writeRecord_jobs]
@[simp] theorem writeRecord_spool : (s.writeRecord r).spool = s.spool := by
  obtain ⟨_, _, _, _, _, e⟩ := writeRecord_parts (s := s) r; rw [e]
@[simp] theorem writeRecord_dispatch : (s.writeRecord r).dispatch = s.dispatch := by
  obtain ⟨_, _, _, _, _, e⟩ := writeRecord_parts (s := s) r; rw [e]
@[simp] theorem writeRecord_agenda : (s.writeRecord r).agenda = s.agenda := by
  obtain ⟨_, _, _, _, _, e⟩ := writeRecord_parts (s := s) r; rw [e]
@[simp] theorem writeRecord_alerts : (s.writeRecord r).alerts = s.alerts := by
  obtain ⟨_, _, _, _, _, e⟩ := writeRecord_parts (s := s) r; rw [e]
@[simp] theorem writeRecord_accounts : (s.writeRecord r).meter.accounts = s.meter.accounts := by
  obtain ⟨_, _, _, _, _, e⟩ := writeRecord_parts (s := s) r; rw [e]

/-- No notice is raised where the count does not rise to the high mark (R170). -/
theorem writeRecord_link (mark : s.meter.log.length ≠ 191 ∨ s.meter.highMark = true) :
    (s.writeRecord r).link = s.link := by
  unfold State.writeRecord State.highMark
  dsimp only
  rw [if_neg]
  intro high
  simp only [Bool.and_eq_true, decide_eq_true_eq, Bool.not_eq_true'] at high
  obtain ⟨⟨count, _⟩, clear⟩ := high
  rcases mark with mark | mark
  · exact mark count
  · rw [mark] at clear
    cases clear

end

/-! ## The account's change of state (R161 to R163) -/

/-- An account's waiting jobs held one after the other (R163). -/
def State.holdEach (s : State) (l : List Slot) : State := l.foldl (fun s j => (s.unlist j).jobTo j .held) s

theorem holdEach_eq (l : List Slot) : ∀ s : State, s.holdEach l =
    { s with link := (s.holdEach l).link, jobs := (s.holdEach l).jobs, dispatch := (s.holdEach l).dispatch } := by
  induction l with
  | nil => exact fun s => rfl
  | cons k l ih =>
    intro s
    have step : s.holdEach (k :: l) = ((s.unlist k).jobTo k .held).holdEach l := rfl
    rw [step, ih, jobTo_eq]
    rfl

theorem holdEach_job (l : List Slot) {k : Slot} (h : k ∉ l) : ∀ s : State, (s.holdEach l).job k = s.job k := by
  induction l with
  | nil => exact fun s => rfl
  | cons i l ih =>
    intro s
    have apart : k ≠ i := fun e => h (e ▸ List.mem_cons_self ..)
    show (((s.unlist i).jobTo i .held).holdEach l).job k = s.job k
    rw [ih (fun mem => h (List.mem_cons_of_mem _ mem)), jobTo_elsewhere _ apart, unlist_job]

/-- The jobs of an account wait in a list: QUEUED or STOCKWAIT (R163). -/
def State.waitsOn (s : State) (a : AccountNo) (j : Slot) : Bool :=
  match s.job j with
  | some x => x.account = a && (x.state = .queued || x.state = .stockwait)
  | none => false

theorem holdJobs_eq : ∃ ps, s.holdJobs a = (s.holdEach (allSlots.filter (s.waitsOn a))).post (.decideEach ps) := ⟨_, rfl⟩

theorem holdJobs_parts : s.holdJobs a = { s with
    link := (s.holdJobs a).link, jobs := (s.holdJobs a).jobs, dispatch := (s.holdJobs a).dispatch
    agenda := (s.holdJobs a).agenda } := by
  obtain ⟨ps, e⟩ := holdJobs_eq (s := s) (a := a)
  rw [e, holdEach_eq]
  rfl

/-- A RUNNING job stays as it is (R163). -/
theorem holdJobs_running {d : Job} (hd : s.job j = some d) (running : d.state = .running) :
    (s.holdJobs a).job j = some d := by
  obtain ⟨ps, e⟩ := holdJobs_eq (s := s) (a := a)
  rw [e, State.post_job, holdEach_job _ _ s, hd]
  intro mem
  have waits := (List.mem_filter.mp mem).2
  simp [State.waitsOn, hd, running] at waits

theorem releaseJobs_parts : s.releaseJobs a = { s with agenda := (s.releaseJobs a).agenda } := by
  have posts : ∀ (l : List Slot) (u : State), l.foldl (fun s j => s.post (.releaseHeld j)) u =
      { u with agenda := (l.foldl (fun s j => s.post (.releaseHeld j)) u).agenda } := by
    intro l
    induction l with
    | nil => exact fun u => rfl
    | cons k l ih =>
      intro u
      rw [List.foldl_cons, ih]
      rfl
  exact posts _ s

/-- An account's record replaced, with what its change of state brings, touches the accounts, the jobs and their lists, the
notices and the work list. -/
theorem accountTo_parts (c : AccountCause) : ∃ (link : Link) (jobs : Vector (Option Job) 128) (d : Dispatcher) (agenda : List Task),
    s.accountTo a x c = { s with
      link := link, jobs := jobs, dispatch := d, agenda := agenda
      meter := { s.meter with accounts := s.meter.accounts.set a x } } := by
  have noticed (u : State) : u.noticeAccount a (s.account a).state x c =
      { u with link := (u.noticeAccount a (s.account a).state x c).link } := by
    unfold State.noticeAccount
    split
    · rw [notify_eq]
    · rfl
  unfold State.accountTo State.moveAccountJobs
  dsimp only
  rw [noticed]
  split
  · exact ⟨_, _, _, _, rfl⟩
  · split
    · rw [holdJobs_parts]
      exact ⟨_, _, _, _, rfl⟩
    · split
      · rw [releaseJobs_parts]
        exact ⟨_, _, _, _, rfl⟩
      · exact ⟨_, _, _, _, rfl⟩

/-- An account whose state stays is written and no more (R162). -/
theorem accountTo_same (c : AccountCause) (h : x.state = (s.account a).state) : s.accountTo a x c = s.setAccount a x := by
  have silent : accountNoticed (s.account a).state (s.account a).state = false := by simp [accountNoticed]
  unfold State.accountTo State.moveAccountJobs State.noticeAccount
  dsimp only
  rw [h, silent, if_pos rfl]
  rfl

/-- An OPEN or LOW account whose record is replaced is told, and its jobs are held if it has become HELD (R162, R163). -/
theorem accountTo_told (c : AccountCause) (good : (s.account a).state = .opened ∨ (s.account a).state = .low)
    (h : x.state = .opened ∨ x.state = .low ∨ x.state = .held) :
    s.accountTo a x c = if x.state = .held then (s.accountTold a x c).holdJobs a else s.accountTold a x c := by
  have told : (s.setAccount a x).noticeAccount a (s.account a).state x c = s.accountTold a x c := by
    unfold State.noticeAccount State.accountTold accountNoticed
    simp only [Bool.and_eq_true, Bool.or_eq_true, decide_eq_true_eq, or_assoc]
    rfl
  unfold State.accountTo
  dsimp only
  rw [told]
  unfold State.moveAccountJobs
  rcases h with h | h | h
  all_goals
    rw [h]
    rcases good with g | g <;> rw [g] <;> rfl

/-! ## The debit (R161, R162) -/

/-- An account's record once a GOOD sheet is paid for (R161). -/
def Account.pays (x : Account) (charge : Nat) : Account :=
  { x with
    balance := max (-2147483648) (x.balance - charge)
    charged := min (x.charged + charge) 18446744073709551615
    goodSheets := min (x.goodSheets + 1) 4294967295 }

theorem debit_eq {charge : Nat} (h : x.balance ≤ 2147483647) : x.debit charge = x.pays charge := by
  have low : saturate32 (x.balance - charge) = max (-2147483648) (x.balance - charge) := by
    unfold saturate32
    omega
  unfold Account.debit
  rw [low]
  rfl

theorem watched_of_good (h : x.state = .opened ∨ x.state = .low) : x.watched = x.watchedTo := by
  unfold Account.watched
  rcases h with h | h <;> rw [h] <;> rfl

/-- The watch leaves a record that it does not judge, or judges to be as it is (R162). -/
theorem watched_same (h : x.state = .unset ∨ x.state = .closed ∨ x.watchedTo = x) : x.watched = x := by
  rcases h with h | h | h
  · unfold Account.watched
    rw [h]
  · unfold Account.watched
    rw [h]
  · unfold Account.watched
    split
    · exact h
    · exact h
    · exact h
    · rfl

theorem watchedTo_state (x : Account) : x.watchedTo.state = .opened ∨ x.watchedTo.state = .low ∨ x.watchedTo.state = .held := by
  unfold Account.watchedTo
  dsimp only
  split_ifs <;> simp

/-! ## The good count (R22) -/

/-- A job's record once one more of its sheets is good and charged (R22). -/
def Job.goodCharged (b : Job) (charge : Nat) : Job :=
  { b with
    charge := b.charge + charge
    good := b.good + 1
    lostOrdinal := if b.lostOrdinal.any (fun o => o ≤ b.good) then none else b.lostOrdinal
    lossCount := if b.lostOrdinal.any (fun o => o ≤ b.good) then 0 else b.lossCount }

theorem oneMoreGood_eq (charge : Nat) : ({ b with charge := b.charge + charge } : Job).oneMoreGood = b.goodCharged charge := by
  unfold Job.oneMoreGood Job.goodCharged
  dsimp only
  cases e : b.lostOrdinal with
  | none => rfl
  | some o =>
    by_cases passed : o ≤ b.good
    · simp [passed, Nat.lt_succ_of_le passed]
    · have ahead : ¬ o < b.good + 1 := by omega
      simp [passed, ahead]

theorem oneMoreGood_good (d : Job) : d.oneMoreGood.good = d.good + 1 := by
  unfold Job.oneMoreGood
  dsimp only
  split
  · split <;> rfl
  · rfl

theorem oneMoreGood_described (d : Job) : d.oneMoreGood.described = d.described := by
  unfold Job.oneMoreGood
  dsimp only
  split
  · split <;> rfl
  · rfl

end Sys2Proof.Machine
end

section
/-! Job records (chapter 2), sixteenth part: DELIVERED (R22, R54, R111, R118, R123 to R126, R129, R161 to R166). -/

namespace Sys2Proof.Machine

variable {s t u : State} {p : PortNo} {j : Slot} {b : Job} {y : Sheet} {tag : Byte}

/-! ## The sheet named (R123, R124) -/

theorem takeDelivered_noSheet (h : sheetOf (s.port p).path tag = none) : s.takeDelivered p tag = s := by
  unfold State.takeDelivered
  rw [h]

theorem takeDelivered_eq {now : Sheet} (h : sheetOf (s.port p).path tag = some y)
    (found : sheetOf ((s.settleSheets p (((s.port p).path.takeWhile (fun z => z.tag ≠ tag)).map
      (fun z => (z, abandonedOutcome z)))).port p).path tag = some now) :
    s.takeDelivered p tag = ((s.settleSheets p (((s.port p).path.takeWhile (fun z => z.tag ≠ tag)).map
      (fun z => (z, abandonedOutcome z)))).takeOutcome p now (deliveredOutcome now)).post (.afterRemoval p) := by
  unfold State.takeDelivered
  rw [h]
  dsimp only
  rw [found]

/-- R123: no sheet is passed by the delivery of the oldest. -/
theorem takeDelivered_oldest {rest : List Sheet} (h : (s.port p).path = y :: rest) (named : y.tag = tag) :
    s.takeDelivered p tag = (s.takeOutcome p y (deliveredOutcome y)).post (.afterRemoval p) := by
  have first : sheetOf (s.port p).path tag = some y := by
    unfold sheetOf
    rw [h, List.find?_cons, decide_eq_true named]
  have none : s.settleSheets p (((s.port p).path.takeWhile (fun z => z.tag ≠ tag)).map (fun z => (z, abandonedOutcome z)))
      = s := by
    rw [h, List.takeWhile_cons, if_neg (by simp [named])]
    rfl
  have e := takeDelivered_eq (now := y) first (by rw [none]; exact first)
  rw [none] at e
  exact e

/-- The outcome of a delivered sheet is that of its mark (R125). -/
theorem deliveredOutcome_of {o : Outcome1}
    (h : (y.mark = .unmarked ∧ o = .good) ∨ (y.mark = .spoiled .underrun ∧ o = .waste .underrun)
      ∨ (y.mark = .spoiled .parity ∧ o = .waste .parity) ∨ (y.mark = .superseded ∧ o = .waste .superseded)) :
    deliveredOutcome y = o := by
  unfold deliveredOutcome
  rcases h with ⟨mark, rfl⟩ | ⟨mark, rfl⟩ | ⟨mark, rfl⟩ | ⟨mark, rfl⟩ <;> rw [mark] <;> rfl

/-! ## What follows the removal (R111, R129) -/

/-- A draining port with an empty path, whose job its account makes HELD, is READY again (R111). -/
theorem runs_drained {a : Assignment} (idle : u.agenda = []) (drains : (u.port p).state = .draining)
    (path : (u.port p).path = []) (h : u.LeavesHeld p a b) (nobody : u.noneReady) :
    Runs 4 (u.post (.afterRemoval p))
      ((u.leaveNow p ((u.port p).destination.getD .head)).readied p) := by
  have out := heldAside h ((u.port p).destination.getD .head)
  have away : ((u.leaveNow p ((u.port p).destination.getD .head)).port p).state ≠ .ready := by
    rw [out.port, drains]
    decide
  refine Runs.post idle ?_
  rw [afterRemoval_leaves drains path]
  exact runs_leaving idle (out.agenda.trans idle) (chooseJob_noneReady (readied_noneReady away (out.noneReady nobody)))

/-- What the job of that port leaves behind (R26, R78, R111). -/
theorem drained_leaves {a : Assignment} (idle : u.agenda = []) (drains : (u.port p).state = .draining)
    (path : (u.port p).path = []) (h : u.LeavesHeld p a b) (nobody : u.noneReady) :
    ∃ t, (u.post (.afterRemoval p)).settle = t ∧ u.LeftHeld t p a (b.leftHeld (elapsed u.partTime a.since))
      ∧ t.port p = { (u.port p).clearFeeding with state := .ready, stateTime := u.partTime }
      ∧ (t.alert p).causes = { (u.alert p).causes with trayEmpty := false } := by
  have run := (runs_drained idle drains path h nobody).settle (by omega)
  have out := heldAside h ((u.port p).destination.getD .head)
  have away : ((u.leaveNow p ((u.port p).destination.getD .head)).port p).state ≠ .ready := by
    rw [out.port, drains]
    decide
  have beyond := beyond_of_kept (p := p) (post_kept u (.afterRemoval p)) run (by rw [readied_spool away, out.spool])
    (fun q hq => by rw [readied_port away, if_neg hq.symm, out.port])
    (fun q hq => by rw [readied_alert_other away hq, out.alert])
    (by rw [readied_meter away, out.meter]) (by rw [readied_choices away, out.choices])
  refine ⟨_, run, ?_, ?_, ?_⟩
  · exact leftHeld_of out beyond (readied_jobs away) (readied_dispatch away) (readied_meter away) (fun _ _ => rfl) rfl rfl rfl
  · rw [readied_port away, if_pos rfl, out.port, out.time]
  · rw [readied_causes away, out.alert]

/-- A port that follows sheets, does not feed and has some left waits for them (R129). -/
theorem afterRemoval_stays (follows : (s.port p).state.follows = true) (idle : (s.port p).state ≠ .feeding)
    (path : (s.port p).path ≠ []) : doTask (.afterRemoval p) s = s := by
  show s.afterRemovalNow p = s
  unfold State.afterRemovalNow
  cases e : (s.port p).state <;> simp_all [PortState.follows]

/-! ## GOOD (R126) -/

/-- The state once a good sheet's charge has joined the job's total and left the account (R161 to R163). -/
def State.debited (s : State) (j : Slot) (b : Job) (charge : Nat) : State :=
  (s.setJob j (some { b with charge := b.charge + charge })).accountTo b.account
    ((s.account b.account).debit charge).watched .debit

/-- The state once the record is written and the good count has risen, before any image is released (R22, R166). -/
def State.recorded (s : State) (p : PortNo) (j : Slot) (b : Job) (y : Sheet) : State :=
  ((s.debited j b (s.chargeOf j b y.ordinal)).writeRecord (s.recordOf j b p y.ordinal none)).modJob j Job.oneMoreGood

/-- The cause UNDERRUN removed (R118). -/
def CauseSet.dropUnderrun (k : CauseSet) : CauseSet := { k with underrun := false }

/-- A port's record once a sheet is counted good (R98, R118). -/
def Port.goodCounted (x : Port) : Port :=
  { x with counters := { x.counters with good := min (x.counters.good + 1) 4294967295 }, underruns := 0 }

theorem goodOutcome_eq : s.goodOutcome p j b y =
    ((((s.recorded p j b y).releasePassed j).modPort p Port.goodCounted).changeCauses p CauseSet.dropUnderrun).modPort p
      (fun q => q.forget y.tag) := rfl

theorem debited_parts (charge : Nat) : ∃ (link : Link) (jobs : Vector (Option Job) 128) (d : Dispatcher) (agenda : List Task),
    s.debited j b charge = { s with
      link := link, jobs := jobs, dispatch := d, agenda := agenda
      meter := { s.meter with
        accounts := s.meter.accounts.set b.account ((s.account b.account).debit charge).watched } } := by
  obtain ⟨link, jobs, d, agenda, e⟩ := accountTo_parts (s := s.setJob j (some { b with charge := b.charge + charge }))
    (a := b.account) (x := ((s.account b.account).debit charge).watched) .debit
  exact ⟨link, jobs, d, agenda, e⟩

theorem recorded_spool : (s.recorded p j b y).spool = s.spool := by
  obtain ⟨_, _, _, _, e⟩ := debited_parts (s := s) (j := j) (b := b) (s.chargeOf j b y.ordinal)
  unfold State.recorded
  rw [State.modJob_spool, writeRecord_spool, e]

theorem recorded_alert (q : PortNo) : (s.recorded p j b y).alert q = s.alert q := by
  obtain ⟨_, _, _, _, e⟩ := debited_parts (s := s) (j := j) (b := b) (s.chargeOf j b y.ordinal)
  unfold State.recorded State.alert
  rw [State.modJob_alerts, writeRecord_alerts, e]

/-- A good outcome makes the job's record the one with one more good sheet; its description stays (R19, R22). -/
theorem recorded_job : ∃ d, (s.recorded p j b y).job j = some d ∧ d.good = b.good + 1
    ∧ d.sheets = b.sheets ∧ d.copies = b.copies ∧ d.sides = b.sides := by
  have debit := accountTo_calm (s.setJob j (some { b with charge := b.charge + s.chargeOf j b y.ordinal })) b.account
    ((s.account b.account).debit (s.chargeOf j b y.ordinal)).watched .debit j
  rw [State.setJob_job, if_pos rfl] at debit
  obtain ⟨d, hd, good, sheets, copies, sides⟩ : ∃ d, (s.debited j b (s.chargeOf j b y.ordinal)).job j = some d
      ∧ d.good = b.good ∧ d.sheets = b.sheets ∧ d.copies = b.copies ∧ d.sides = b.sides := by
    unfold State.debited
    revert debit
    cases (State.accountTo (s.setJob j (some { b with charge := b.charge + s.chargeOf j b y.ordinal })) b.account
      ((s.account b.account).debit (s.chargeOf j b y.ordinal)).watched .debit).job j with
    | none => exact fun h => h.elim
    | some d =>
      intro h
      refine ⟨d, rfl, ?_, ?_, ?_, ?_⟩ <;> rw [h.1]
  have same := oneMoreGood_described d
  refine ⟨d.oneMoreGood, ?_, by rw [oneMoreGood_good, good], ?_, ?_, ?_⟩
  · unfold State.recorded
    rw [State.modJob_job, if_pos rfl, writeRecord_job, hd]
    rfl
  · exact (congrArg Job.sheets same).trans sheets
  · exact (congrArg Job.copies same).trans copies
  · exact (congrArg Job.sides same).trans sides

/-- The rest of a good outcome touches the port, its alert and the link. -/
theorem goodOutcome_spool : (s.goodOutcome p j b y).spool = ((s.recorded p j b y).releasePassed j).spool := by
  rw [goodOutcome_eq]
  simp

/-- R54: in an earlier copy no image is released. -/
theorem goodOutcome_earlier (h : b.good < (b.copies - 1) * b.sheets) :
    (s.goodOutcome p j b y).spool = s.spool := by
  obtain ⟨d, hd, good, sheets, copies, _⟩ := recorded_job (s := s) (p := p) (j := j) (b := b) (y := y)
  rw [goodOutcome_spool, releasePassed_earlier hd (by rw [copies, sheets, good]; omega), recorded_spool]

/-- R54: in the last copy the images of the delivered ordinal are released. -/
theorem goodOutcome_last (h : (b.copies - 1) * b.sheets ≤ b.good) :
    ∃ v : State, (s.goodOutcome p j b y).spool = v.spool ∧ s.Released { s with spool := v.spool } j (b.imagesOfOrdinal b.good) := by
  obtain ⟨d, hd, good, sheets, copies, sides⟩ := recorded_job (s := s) (p := p) (j := j) (b := b) (y := y)
  have images : d.imagesOfOrdinal (d.good - 1) = b.imagesOfOrdinal b.good := by
    unfold Job.imagesOfOrdinal
    rw [good, sheets, sides]
    rfl
  have released := releasePassed_last hd (by rw [copies, sheets, good]; exact h)
  rw [images] at released
  obtain ⟨_, gone, kept, others, pool, retired, dram⟩ := releaseAll_released (j := j) (b.imagesOfOrdinal b.good)
    (s.recorded p j b y)
  rw [← released] at gone kept others pool retired dram
  have before : (s.recorded p j b y).spool = s.spool := recorded_spool
  have image : ∀ i, (s.recorded p j b y).image j i = s.image j i := fun i => by
    unfold State.image State.imagesOf
    rw [before]
  have spool := goodOutcome_spool (s := s) (p := p) (j := j) (b := b) (y := y)
  generalize (s.recorded p j b y).releasePassed j = v at gone kept others pool retired dram spool
  refine ⟨v, spool, rfl, fun i hi => ?_, fun i hi => ?_, fun k n => ?_, fun k => ?_, ?_, ?_⟩
  · rw [← image]; exact gone i hi
  · rw [← image]; exact kept i hi
  · refine (others k n).trans ?_
    unfold State.imagesOf
    rw [before]
  · refine (pool k).trans ?_
    simp only [image, before]
  · exact retired.trans (congrArg Spool.retired before)
  · exact dram.trans (congrArg Spool.dram before)

/-- An alert without UNDERRUN stays as it is (R118). -/
theorem dropUnderrun_none (h : (s.alert p).causes.underrun = false) : s.changeCauses p CauseSet.dropUnderrun = s := by
  have same : (s.alert p).causes.dropUnderrun = (s.alert p).causes := by
    unfold CauseSet.dropUnderrun
    rw [← h]
  unfold State.changeCauses
  dsimp only
  rw [if_pos same]

/-! ## GOOD, where the account's state stays and no image is released (R126) -/

/-- The state once a sheet is on record, paid for and counted by its job, where nothing else follows (R22, R161, R166). -/
def State.paidFor (s : State) (p : PortNo) (j : Slot) (b : Job) (y : Sheet) : State :=
  { s with
    jobs := s.jobs.set j (some (b.goodCharged (s.chargeOf j b y.ordinal)))
    meter := { s.meter with
      accounts := s.meter.accounts.set b.account ((s.account b.account).pays (s.chargeOf j b y.ordinal))
      log := s.meter.log ++ [s.recordOf j b p y.ordinal none]
      reservations := s.meter.unreserved } }

section
variable (solvent : (s.account b.account).balance ≤ 2147483647)
  (stays : (s.account b.account).state = .unset ∨ (s.account b.account).state = .closed
    ∨ ((s.account b.account).pays (s.chargeOf j b y.ordinal)).watchedTo
      = (s.account b.account).pays (s.chargeOf j b y.ordinal))
include solvent stays

theorem debited_same : s.debited j b (s.chargeOf j b y.ordinal) =
    (s.setJob j (some { b with charge := b.charge + s.chargeOf j b y.ordinal })).setAccount b.account
      ((s.account b.account).pays (s.chargeOf j b y.ordinal)) := by
  unfold State.debited
  rw [debit_eq solvent, watched_same stays]
  exact accountTo_same .debit rfl

variable (room : s.meter.log.length < 256) (mark : s.meter.log.length ≠ 191 ∨ s.meter.highMark = true)
include room mark

theorem recorded_same : s.recorded p j b y = s.paidFor p j b y := by
  have written := writeRecord_eq (s := (s.setJob j (some { b with charge := b.charge + s.chargeOf j b y.ordinal })).setAccount
    b.account ((s.account b.account).pays (s.chargeOf j b y.ordinal))) (s.recordOf j b p y.ordinal none) room mark
  unfold State.recorded
  rw [debited_same solvent stays, written]
  unfold State.modJob
  show State.setJob _ j (Option.map _ ((State.setJob s j (some { b with
    charge := b.charge + s.chargeOf j b y.ordinal })).job j)) = _
  rw [State.setJob_job, if_pos rfl, Option.map_some, oneMoreGood_eq]
  unfold State.paidFor State.setJob
  simp only [State.setAccount_jobs, Vector.set_set]
  rfl

/-- R126: the sheet is on record, paid for and counted, and leaves the queue. -/
theorem goodOutcome_same (earlier : b.good < (b.copies - 1) * b.sheets) (calm : (s.alert p).causes.underrun = false) :
    s.goodOutcome p j b y = (s.paidFor p j b y).setPort p ((s.port p).goodCounted.forget y.tag) := by
  have job : (s.paidFor p j b y).job j = some (b.goodCharged (s.chargeOf j b y.ordinal)) := by
    simp [State.paidFor, State.job]
  have stayed : (s.paidFor p j b y).releasePassed j = s.paidFor p j b y := by
    refine releasePassed_earlier job ?_
    show ¬ (b.copies - 1) * b.sheets ≤ b.good + 1 - 1
    omega
  rw [goodOutcome_eq, recorded_same solvent stays room mark, stayed,
    dropUnderrun_none (s := (s.paidFor p j b y).modPort p Port.goodCounted) calm, State.modPort_modPort]
  rfl

end

/-! ## GOOD, where the debit may change the account's state (R162, R163) -/

theorem accountTold_parts (a : AccountNo) (x : Account) (c : AccountCause) : s.accountTold a x c =
    { s with link := (s.accountTold a x c).link, meter := { s.meter with accounts := s.meter.accounts.set a x } } := by
  unfold State.accountTold
  dsimp only
  split
  · rw [notify_eq]; rfl
  · rfl

theorem releasePassed_link : (s.releasePassed j).link = s.link := by rw [releasePassed_eq]
theorem releasePassed_job (k : Slot) : (s.releasePassed j).job k = s.job k := by rw [releasePassed_eq]; rfl
theorem releasePassed_alert (q : PortNo) : (s.releasePassed j).alert q = s.alert q := by rw [releasePassed_eq]; rfl
theorem releasePassed_meter : (s.releasePassed j).meter = s.meter := by rw [releasePassed_eq]
theorem releasePassed_dispatch : (s.releasePassed j).dispatch = s.dispatch := by rw [releasePassed_eq]
theorem releasePassed_agenda : (s.releasePassed j).agenda = s.agenda := by rw [releasePassed_eq]

/-- What the rest of a good outcome leaves of the accounts, the jobs, their lists and the work list as the debit left them. -/
theorem goodOutcome_parts :
    (s.goodOutcome p j b y).meter.accounts = (s.debited j b (s.chargeOf j b y.ordinal)).meter.accounts
    ∧ (s.goodOutcome p j b y).job j = ((s.debited j b (s.chargeOf j b y.ordinal)).job j).map Job.oneMoreGood
    ∧ (∀ i, i ≠ j → (s.goodOutcome p j b y).job i = (s.debited j b (s.chargeOf j b y.ordinal)).job i)
    ∧ (s.goodOutcome p j b y).dispatch = (s.debited j b (s.chargeOf j b y.ordinal)).dispatch
    ∧ (s.goodOutcome p j b y).agenda = (s.debited j b (s.chargeOf j b y.ordinal)).agenda := by
  rw [goodOutcome_eq]
  unfold State.recorded
  refine ⟨?_, ?_, fun i n => ?_, ?_, ?_⟩
  · rw [State.modPort_meter, changeCauses_meter, State.modPort_meter, releasePassed_meter, State.modJob_meter,
      writeRecord_accounts]
  · rw [State.modPort_job, changeCauses_job, State.modPort_job, releasePassed_job, State.modJob_job, if_pos rfl,
      writeRecord_job]
  · rw [State.modPort_job, changeCauses_job, State.modPort_job, releasePassed_job, State.modJob_job, if_neg n.symm,
      writeRecord_job]
  · rw [State.modPort_dispatch, changeCauses_dispatch, State.modPort_dispatch, releasePassed_dispatch,
      State.modJob_dispatch, writeRecord_dispatch]
  · rw [State.modPort_agenda, changeCauses_agenda, State.modPort_agenda, releasePassed_agenda, State.modJob_agenda,
      writeRecord_agenda]

/-- No notice follows the account's where the log does not rise to its high mark and no UNDERRUN leaves the alert. -/
theorem goodOutcome_link (mark : s.meter.log.length ≠ 191 ∨ s.meter.highMark = true)
    (calm : (s.alert p).causes.underrun = false) :
    (s.goodOutcome p j b y).link = (s.debited j b (s.chargeOf j b y.ordinal)).link := by
  have still : (((s.recorded p j b y).releasePassed j).modPort p Port.goodCounted).alert p = s.alert p := by
    rw [State.modPort_alert, releasePassed_alert, recorded_alert]
  have count : (s.debited j b (s.chargeOf j b y.ordinal)).meter.log.length ≠ 191
      ∨ (s.debited j b (s.chargeOf j b y.ordinal)).meter.highMark = true := by
    obtain ⟨_, _, _, _, e⟩ := debited_parts (s := s) (j := j) (b := b) (s.chargeOf j b y.ordinal)
    rw [e]
    exact mark
  rw [goodOutcome_eq, dropUnderrun_none (by rw [still]; exact calm), State.modPort_link, State.modPort_link,
    releasePassed_link]
  unfold State.recorded
  rw [State.modJob_link, writeRecord_link _ count]

/-- R161 to R163: the debit of an OPEN or LOW account, told, with its jobs held where it becomes HELD. -/
theorem debited_told (solvent : (s.account b.account).balance ≤ 2147483647) (charge : Nat)
    (good : (s.account b.account).state = .opened ∨ (s.account b.account).state = .low) :
    s.debited j b charge =
      let u := (s.setJob j (some { b with charge := b.charge + charge })).accountTold b.account
        ((s.account b.account).pays charge).watchedTo .debit
      if ((s.account b.account).pays charge).watchedTo.state = .held then u.holdJobs b.account else u := by
  unfold State.debited
  rw [debit_eq solvent, watched_of_good (x := (s.account b.account).pays charge) good]
  exact accountTo_told .debit good (watchedTo_state _)

/-- Settles O52: the sheet named and its outcome; for GOOD, the debit, the record, the good count and the images. -/
theorem deliveredGoodIsCharged : Obligations.DeliveredGoodIsCharged := by
  intro s p tag h
  have heard : s.message p (.delivered tag) = (s.hearing p).takeDeliveredIn p tag := message_heard h (m := .delivered tag) rfl
  have same : (s.hearing p).port p = (s.port p).heard s.partTime := hearing_port_same
  have ignored (n : (s.hearing p).takeDeliveredIn p tag = s.hearing p) :
      exec (.delivered p tag) s = .next (State.pump (s.setPort p ((s.port p).heard s.partTime))) := by
    refine congrArg Host.Outcome.next ?_
    rw [heard, n]
    exact finish_of_idle h.agenda
  have follows (f : ((s.port p).heard s.partTime).state.follows = true) :
      s.message p (.delivered tag) = (s.hearing p).takeDelivered p tag := by
    rw [heard]
    unfold State.takeDeliveredIn
    rw [same, f]
    rfl
  refine ⟨fun n => ignored ?_, fun n => ignored ?_, fun y rest f path named => ⟨fun o outcome => ?_, ?_⟩,
    fun y f found now nowFound => congrArg Host.Outcome.next ?_, fun y j b ha hb => ⟨fun last => ?_, fun earlier => ?_, ?_⟩⟩
  · unfold State.takeDeliveredIn
    rw [same, n]
    rfl
  · unfold State.takeDeliveredIn
    rw [takeDelivered_noSheet (by rw [same]; exact n), ite_self]
  · have delivered : s.message p (.delivered tag) = ((s.hearing p).takeOutcome p y o).post (.afterRemoval p) := by
      rw [follows f, takeDelivered_oldest (by rw [same]; exact path) named, deliveredOutcome_of outcome]
    refine ⟨congrArg (fun v => Host.Outcome.next (State.finish v)) delivered, fun a b idle drains empty leaves nobody => ?_⟩
    have time : ((s.hearing p).takeOutcome p y o).partTime = s.partTime :=
      (takeOutcome_kept (s.hearing p) p y o).time
    obtain ⟨t, run, left, port, causes⟩ := drained_leaves (u := (s.hearing p).takeOutcome p y o) idle drains empty leaves nobody
    rw [time] at left port
    rw [← delivered] at run
    exact ⟨t, congrArg Host.Outcome.next (finish_of_settle run), left, port, causes⟩
  · intro j b idle others elsewhere unmarked ha hb earlier charge a paid passed solvent stays room mark calm
    have delivered : s.message p (.delivered tag) = ((s.hearing p).takeOutcome p y .good).post (.afterRemoval p) := by
      rw [follows f, takeDelivered_oldest (by rw [same]; exact path) named,
        deliveredOutcome_of (.inl ⟨unmarked, rfl⟩)]
    obtain ⟨good, _, _⟩ := takeOutcome_eq (s := s.hearing p) (y := y) ha hb
    have outcome := goodOutcome_same (s := s.hearing p) (p := p) (j := j) (b := b) (y := y) solvent stays room mark earlier calm
    have left : (((s.port p).heard s.partTime).goodCounted.forget y.tag) =
        { (s.port p).heard s.partTime with
          path := rest
          request := ((s.port p).heard s.partTime).request.filter (fun r => r.tag ≠ tag)
          reads := ((s.port p).heard s.partTime).reads.map (fun r => if r.tag = tag then { r with live := false } else r)
          underruns := 0
          counters := { ((s.port p).heard s.partTime).counters with
            good := min (((s.port p).heard s.partTime).counters.good + 1) 4294967295 } } := by
      have remains : (((s.port p).heard s.partTime).goodCounted).path.filter (fun z => z.tag ≠ tag) = rest := by
        show ((s.port p).heard s.partTime).path.filter _ = rest
        rw [path, List.filter_cons_of_neg (by simp [named]), List.filter_eq_self]
        exact fun z hz => decide_eq_true (elsewhere z hz)
      rw [forget_eq, named, remains]
      rfl
    rw [same, left] at outcome
    have final := good.trans outcome
    have stop := afterRemoval_stays (s := (s.hearing p).takeOutcome p y .good) (p := p)
      (by rw [final, State.setPort_port, if_pos rfl]; exact f) (by rw [final, State.setPort_port, if_pos rfl]; exact idle)
      (by rw [final, State.setPort_port, if_pos rfl]; exact others)
    have agenda : ((s.hearing p).takeOutcome p y .good).agenda = [] := by rw [final]; exact h.agenda
    have run : (s.message p (.delivered tag)).settle = (s.hearing p).takeOutcome p y .good := by
      rw [delivered]
      exact settle_post agenda _ stop
    refine congrArg Host.Outcome.next ((finish_of_settle run).trans (congrArg State.pump ?_))
    rw [final]
    have whole (q : Port) : ((s.hearing p).paidFor p j b y).setPort p q =
        { ((s.hearing p).setPort p q).setJob j (some (b.goodCharged (s.chargeOf j b y.ordinal))) with
          meter := ((s.hearing p).paidFor p j b y).meter } := rfl
    rw [whole, hearing_setPort]
    rfl
  · show State.finish (s.message p (.delivered tag)) = _
    have there : sheetOf ((s.hearing p).port p).path tag = some y := by rw [same]; exact found
    rw [follows f, takeDelivered_eq (now := now) there (by rw [same]; exact nowFound), same]
    rfl
  · obtain ⟨good, _, _⟩ := takeOutcome_eq (y := y) ha hb
    obtain ⟨v, spool, released⟩ := goodOutcome_last (s := s) (p := p) (j := j) (b := b) (y := y) last
    have image : ∀ i, (s.goodOutcome p j b y).image j i = State.image { s with spool := v.spool } j i := fun i => by
      unfold State.image State.imagesOf
      rw [spool]
    have member (i : Nat) := mem_imagesOfOrdinal b b.good i
    intro front lastImage
    rw [good, spool]
    refine ⟨fun i r hi hr => ?_, fun i hi => ?_, fun k n => ?_, fun k => ?_, released.retired, released.dram⟩
    · rw [image, released.gone i ((member i).mpr hi), hr]
      rfl
    · rw [image]
      exact released.kept i (fun mem => hi ((member i).mp mem))
    · refine Eq.trans ?_ (released.others k n)
      unfold State.imagesOf
      rw [spool]
    · refine (released.pool k).trans ?_
      simp only [member]
      rfl
  · obtain ⟨good, _, _⟩ := takeOutcome_eq (y := y) ha hb
    show (s.takeOutcome p y .good).spool = s.spool
    rw [good]
    exact goodOutcome_earlier earlier
  · intro charge a paid solvent serves running u passed
    obtain ⟨good, _, _⟩ := takeOutcome_eq (y := y) ha hb
    obtain ⟨accounts, job, jobs, dispatch, agenda⟩ := goodOutcome_parts (s := s) (p := p) (j := j) (b := b) (y := y)
    have told : s.debited j b (s.chargeOf j b y.ordinal) = if paid.state = .held then u.holdJobs b.account else u :=
      debited_told solvent _ serves
    have parts : u = { s.setJob j (some { b with charge := b.charge + charge }) with
        link := u.link, meter := { s.meter with accounts := s.meter.accounts.set b.account paid } } :=
      accountTold_parts _ _ _
    have uJob : ∀ i, u.job i = (s.setJob j (some { b with charge := b.charge + charge })).job i := fun i => by
      rw [parts]; rfl
    have charged : (if paid.state = .held then u.holdJobs b.account else u).job j
        = some { b with charge := b.charge + charge } := by
      have mine : u.job j = some { b with charge := b.charge + charge } := by rw [uJob, State.setJob_job, if_pos rfl]
      split
      · exact holdJobs_running mine running
      · exact mine
    show (s.takeOutcome p y .good).meter.accounts = _ ∧ (s.takeOutcome p y .good).job j = _
      ∧ (∀ i, i ≠ j → (s.takeOutcome p y .good).job i = _) ∧ (s.takeOutcome p y .good).dispatch = _
      ∧ (s.takeOutcome p y .good).agenda = _ ∧ (_ → _ → (s.takeOutcome p y .good).link = _)
    rw [good]
    refine ⟨?_, ?_, fun i n => ?_, ?_, ?_, fun mark calm => ?_⟩
    · rw [accounts, told]
      have mine : u.meter.accounts = s.meter.accounts.set b.account paid := by rw [parts]
      split
      · rw [holdJobs_parts]; exact mine
      · exact mine
    · rw [job, told, charged]
      exact congrArg some (oneMoreGood_eq charge)
    · rw [jobs i n, told]
      split
      · rfl
      · rw [uJob, State.setJob_job, if_neg n.symm]
    · rw [dispatch, told]
      split
      · rfl
      · rw [parts]; rfl
    · rw [agenda, told]
      split
      · rfl
      · rw [parts]; rfl
    · rw [goodOutcome_link mark calm, told]
      split <;> rfl

end Sys2Proof.Machine
end

section
/-! Spool memory (chapter 3), first part: the start-up self-test (R40, R41). -/

namespace Sys2Proof.Machine

variable {s t : State} {senses : Vector Sense 12}

/-! ## A test attempt (R40) -/

/-- The spool DRAM once a test attempt has ended: the block under test holds the attempt's pattern (R40). -/
def Spool.attempted (x : Spool) : List Host.Cell :=
  Memory.write x.dram (blockAddress x.testBlock) (testPattern x.testFails)

theorem attemptEnd_passed (testing : s.spool.startUp = .starting) :
    s.attemptEnd true senses = State.nextBlock { s with spool := { s.spool with
      dram := s.spool.attempted, pool := Blocks.add s.spool.pool s.spool.testBlock } } senses := by
  unfold State.attemptEnd
  rw [if_neg (by simp [testing])]
  rfl

theorem attemptEnd_repeated (testing : s.spool.startUp = .starting) (again : s.spool.testFails ≠ 3) :
    s.attemptEnd false senses = { s with spool := { s.spool with
      dram := s.spool.attempted, testFails := s.spool.testFails + 1 } } := by
  unfold State.attemptEnd
  rw [if_neg (by simp [testing])]
  exact if_neg again

theorem attemptEnd_retired (testing : s.spool.startUp = .starting) (last : s.spool.testFails = 3) :
    s.attemptEnd false senses = State.nextBlock { s with spool := { s.spool with
      dram := s.spool.attempted, retired := s.spool.retired ++ [s.spool.testBlock] } } senses := by
  unfold State.attemptEnd
  rw [if_neg (by simp [testing])]
  exact if_pos last

theorem nextBlock_before_last (h : s.spool.testBlock < 32767) :
    s.nextBlock senses = { s with spool := { s.spool with testBlock := s.spool.testBlock + 1, testFails := 0 } } :=
  if_neg (Nat.ne_of_lt h)

theorem nextBlock_last (h : s.spool.testBlock = 32767) :
    s.nextBlock senses = State.startUp { s with spool := { s.spool with
      testBlock := 32768, testFails := 0, startUp := startUpOf s.spool.retired.length } } senses :=
  if_pos h

/-- With nothing left to bring about, the row is the attempt's end and the outbound line's choice. -/
theorem exec_attemptEnd (passed : Bool) (e : s.attemptEnd passed senses = t) (idle : t.agenda = []) :
    exec (.selfTestAttemptEnd passed senses) s = .next t.pump := by
  rw [← finish_of_idle idle, ← e]
  rfl

/-! ## The end of the test (R41) -/

/-- The START notice of a start-up (R41). -/
def State.startNotice (s : State) : Notice := { kind := .start, time := s.partTime, body := startBody s }

/-- The state with its START notice waiting. -/
def State.startTold (s : State) : State := s.modLink (fun l => { l with notices := l.notices ++ [s.startNotice] })

/-- A start-up whose notice finds its place, with a frame on the outbound line and every port ABSENT: the notice joins the queue,
and every port reads its sense lines (R41, R81). -/
theorem startUp_absent (sending : s.link.outbound ≠ none) (room : s.link.notices.length < 64)
    (enabled : s.link.enable.getLsbD 0 = true) (idle : s.agenda = []) (absent : ∀ p, (s.port p).state = .absent) :
    s.BesidePorts (s.startUp senses).finish
    ∧ s.link.notices ++ [s.startNotice] <+: (s.startUp senses).finish.link.notices
    ∧ ∀ p, ((s.startUp senses).finish.port p).state = sensedState (s.port p).signal senses[p] := by
  have told : s.notify .start (startBody s) = s.startTold := (noticeQueuedOrDropped s .start (startBody s)).2.1 enabled room
  have started : s.startUp senses = s.startTold.readAllSenses senses := by
    rw [← told]
    rfl
  obtain ⟨rest, states⟩ := readAllSenses_absent (s := s.startTold) senses absent
  have calm := readAllSenses_calm s.startTold senses
  rw [← started] at rest states calm
  have beside : s.BesidePorts (s.startUp senses) := State.BesidePorts.trans (t := s.startTold) rfl rest
  have line : (s.startUp senses).link.outbound = s.link.outbound := by
    rw [calm.link]
    rfl
  obtain ⟨frame, hf⟩ := Option.ne_none_iff_exists'.mp sending
  have finished : (s.startUp senses).finish = s.startUp senses := by
    rw [finish_of_idle (by rw [beside]; exact idle)]
    exact pump_sending frame (line.trans hf)
  rw [finished]
  exact ⟨beside, calm.notices, states⟩

/-- The state at the end of the self-test whose last block has passed, before the START notice (R40, R41). -/
def State.tested (s : State) : State :=
  { s with spool := { s.spool with
      dram := s.spool.attempted, pool := Blocks.add s.spool.pool s.spool.testBlock
      testBlock := 32768, testFails := 0, startUp := startUpOf s.spool.retired.length } }

/-- Settles O19: the verdict on a block before the last, and after the last the start-up. -/
theorem selfTestRuns : Obligations.SelfTestRuns := by
  intro s senses testing idle
  refine ⟨fun before => ⟨?_, fun again => ?_, fun last => ?_⟩, fun final sending room enabled absent => ?_⟩
  · exact exec_attemptEnd true ((attemptEnd_passed testing).trans (nextBlock_before_last before)) idle
  · exact exec_attemptEnd false (attemptEnd_repeated testing again) idle
  · exact exec_attemptEnd false ((attemptEnd_retired testing last).trans (nextBlock_before_last before)) idle
  · have ended : s.attemptEnd true senses = s.tested.startUp senses := (attemptEnd_passed testing).trans (nextBlock_last final)
    obtain ⟨rest, notices, states⟩ := startUp_absent (s := s.tested) (senses := senses) sending room enabled idle absent
    rw [← ended] at rest notices states
    refine ⟨_, rfl, ?_⟩
    generalize (s.attemptEnd true senses).finish = t at *
    have spool : t.spool = s.tested.spool := by rw [rest]
    have retired : t.spool.retired = s.spool.retired := by rw [spool]; rfl
    have startUp : t.spool.startUp = startUpOf s.spool.retired.length := by rw [spool]; rfl
    have pool : t.spool.pool = Blocks.add s.spool.pool s.spool.testBlock := by rw [spool]; rfl
    refine ⟨retired, by rw [pool, final], fun none => ?_, fun some few => ?_, fun many => ?_, ?_,
      by rw [rest]; rfl, by rw [rest]; rfl, by rw [rest]; rfl, by rw [rest]; rfl, states⟩
    · rw [startUp, startUpOf, if_pos none]
    · rw [startUp, startUpOf, if_neg (by omega), if_pos few]
    · rw [startUp, startUpOf, if_neg (by omega), if_neg (by omega)]
    · rw [spool]
      exact notices

end Sys2Proof.Machine
end

section
/-! Spool memory (chapter 3), second part: the gate of an ordinal (R21, R56). -/

namespace Sys2Proof.Machine

variable {s : State} {j : Slot} {x : Job}

theorem bandPresent_iff_entry (i b : Nat) : s.bandPresent j i b = true ↔
    ∃ block length counts, s.band j i b = some (.present block length counts) := by
  unfold State.bandPresent
  constructor
  · intro h
    split at h
    · rename_i block length counts e
      exact ⟨block, length, counts, e⟩
    · cases h
  · rintro ⟨block, length, counts, e⟩
    rw [e]

theorem gateBands_eq (s : State) (x : Job) : s.gateBands x =
    if x.forcedWhole = true ∨ x.lead = 0 then s.bandsPerSide x.sizeClass else min x.lead (s.bandsPerSide x.sizeClass) := by
  simp [State.gateBands]

/-- R56: the ordinal lies below total, and every image it uses holds the bands that the gate counts. -/
theorem gateMet_iff (hx : s.job j = some x) (o : Nat) : s.gateMet j o = true ↔
    o < x.sheets * x.copies ∧ ∀ i ∈ x.imagesOfOrdinal o, ∀ b < s.gateBands x, s.bandPresent j i b = true := by
  unfold State.gateMet
  rw [hx]
  simp only [Bool.and_eq_true, decide_eq_true_eq, List.all_eq_true, List.mem_range]
  rfl

/-- R21: every copy prints its sheets from the same images. -/
theorem imagesOfOrdinal_nextCopy (x : Job) (o : Nat) : x.imagesOfOrdinal (o + x.sheets) = x.imagesOfOrdinal o := by
  unfold Job.imagesOfOrdinal
  rw [Nat.add_mod_right]

/-- Settles O26: the gate looks at the images of the ordinal, and those of the next copy are the same. -/
theorem gateCondition : Obligations.GateCondition := by
  intro s j x o hx
  refine ⟨?_, fun below => ?_⟩
  · rw [gateMet_iff hx]
    simp only [mem_imagesOfOrdinal, gateBands_eq, bandPresent_iff_entry]
    exact and_congr_right fun _ => ⟨fun all i b hi hb => all i hi b hb, fun all i hi b hb => all i b hi hb⟩
  · have within : o < x.sheets * x.copies := by omega
    rw [Bool.eq_iff_iff, gateMet_iff hx, gateMet_iff hx, imagesOfOrdinal_nextCopy]
    exact and_congr_left fun _ => ⟨fun _ => within, fun _ => below⟩

end Sys2Proof.Machine
end

section
/-! Spool memory (chapter 3), third part: BAND_PUT and the key of a band in a request (R43, R47, R52, R188). -/

namespace Sys2Proof.Machine

variable {s : State} {r : Request} {rest : List Request} {j : Slot} {x : Job} {image band : Nat} {counts : Planes}
  {payload tail : List Byte}

/-! ## The key of a band (R47, R52) -/

/-- The bytes that a BAND_PUT and a BAND_SUM begin with: slot, image and band (R188). -/
def keyBytes (j : Slot) (image band : Nat) : List Byte := byte j.val :: num 2 image ++ [byte band]

theorem keyBytes_slot : byteAt (keyBytes j image band ++ tail) 0 = byte j.val := rfl

theorem keyBytes_image (h : image < 65536) : field (keyBytes j image band ++ tail) 1 2 = image := by
  have spelled : field (keyBytes j image band ++ tail) 1 2 = natOf (num 2 image) := rfl
  rw [spelled, natOf_num_of_lt h]

theorem keyBytes_band (h : band < 256) : (byteAt (keyBytes j image band ++ tail) 3).toNat = band := by
  have carried : byteAt (keyBytes j image band ++ tail) 3 = byte band := rfl
  rw [carried, byte, BitVec.toNat_ofNat, Nat.mod_eq_of_lt h]

/-- A key that passes the tests of R47 and R52: a live job, an image it has, a band its size class has. -/
structure State.KeyGood (s : State) (j : Slot) (x : Job) (image band : Nat) : Prop where
  job : s.job j = some x
  live : x.state.terminal = false
  hasImage : image < x.sheets * x.sides
  imageWord : image < 65536
  hasBand : band < s.bandsPerSide x.sizeClass
  bandByte : band < 256

theorem State.KeyGood.judged (h : s.KeyGood j x image band) (tail : List Byte) :
    s.judgeKey (keyBytes j image band ++ tail) = .ok (j, x) := by
  have within : ¬ x.images ≤ image := Nat.not_le.mpr h.hasImage
  have counted : ¬ s.bandsPerSide x.sizeClass ≤ band := Nat.not_le.mpr h.hasBand
  unfold State.judgeKey
  rw [keyBytes_slot, slot_byte]
  dsimp only
  rw [h.job]
  dsimp only
  rw [h.live, keyBytes_image h.imageWord, keyBytes_band h.bandByte, if_neg Bool.false_ne_true, if_neg within, if_neg counted]

/-! ## BAND_PUT (R47) -/

/-- The rest of a BAND_PUT's body: the four coverage counts and the payload (R188). -/
def countsAndPayload (counts : Planes) (payload : List Byte) : List Byte := planesWire 4 counts ++ payload

/-- No coverage count is above 1,048,575 (R47). -/
structure Planes.InRange (c : Planes) : Prop where
  p0 : c.p0 ≤ 1048575
  p1 : c.p1 ≤ 1048575
  p2 : c.p2 ≤ 1048575
  p3 : c.p3 ≤ 1048575

theorem countsValid_iff (c : Planes) : countsValid c = true ↔ c.InRange := by
  simp only [countsValid, Planes.toList, List.all_cons, List.all_nil, Bool.and_eq_true, decide_eq_true_eq, and_true]
  exact ⟨fun ⟨h0, h1, h2, h3⟩ => ⟨h0, h1, h2, h3⟩, fun ⟨h0, h1, h2, h3⟩ => ⟨h0, h1, h2, h3⟩⟩

theorem countsOf_body (h : counts.InRange) :
    countsOf (keyBytes j image band ++ countsAndPayload counts payload) = counts := by
  have read : ∀ v, v ≤ 1048575 → natOf (num 4 v) = v := fun v hv => natOf_num_of_lt (by omega)
  show Planes.mk (natOf (num 4 counts.p0)) (natOf (num 4 counts.p1)) (natOf (num 4 counts.p2)) (natOf (num 4 counts.p3)) = counts
  rw [read _ h.p0, read _ h.p1, read _ h.p2, read _ h.p3]

theorem payload_body : (keyBytes j image band ++ countsAndPayload counts payload).drop 20 = payload := rfl

/-- What a BAND_PUT with a good key and good counts comes to: the image, the entry and the pool decide, in this order (R47). -/
theorem judgePut_good (key : s.KeyGood j x image band) (range : counts.InRange) :
    s.judgePut (keyBytes j image band ++ countsAndPayload counts payload) =
    if s.imageReleased j image then .error .badState
    else if s.bandPresent j image band then .error .duplicate
    else match s.spool.pool with
      | [] => .error .noRoom
      | block :: _ =>
        .ok { slot := j, image := image, band := band, counts := counts, payload := payload, block := block } := by
  have valid : countsValid counts = true := (countsValid_iff counts).mpr range
  unfold State.judgePut
  rw [key.judged]
  dsimp only
  rw [countsOf_body range, keyBytes_image key.imageWord, keyBytes_band key.bandByte, valid, payload_body]
  rfl

/-- The lowest-numbered block of an ascending pool is its first (R43). -/
theorem pool_of_lowest {pool : List Nat} {block : Nat} (ascending : pool.Pairwise (· < ·)) (mem : block ∈ pool)
    (lowest : ∀ b ∈ pool, block ≤ b) : ∃ rest, pool = block :: rest := by
  cases pool with
  | nil => cases mem
  | cons first rest =>
    obtain ⟨above, _⟩ := List.pairwise_cons.mp ascending
    rcases List.mem_cons.mp mem with e | later
    · exact ⟨rest, by rw [e]⟩
    · have := above block later
      have := lowest first List.mem_cons_self
      omega

theorem bandPut_refused {st : Status} (h : s.Takes 0x20 r rest) (e : s.judgePut r.body = .error st) :
    exec .bandPut s = .next (s.answered r st []) := by
  refine congrArg Host.Outcome.next (h.refused answerBandPut st ?_)
  unfold answerBandPut
  rw [e]

theorem bandPut_begins {w : BandWrite} (h : s.Takes 0x20 r rest) (e : s.judgePut r.body = .ok w) :
    exec .bandPut s = .next (s.modLink (fun l => { l with service := some (.write w) })).pump := by
  refine congrArg Host.Outcome.next (h.serving answerBandPut _ ?_ h.agenda)
  unfold answerBandPut
  rw [e]

/-- Settles O27: the body is read as it was written, and the image, the entry and the pool decide. -/
theorem bandPutBeginsWrite : Obligations.BandPutBeginsWrite := by
  intro s r rest j x image band counts payload h hb hx live hasImage imageWord hasBand bandByte c0 c1 c2 c3
  have body : r.body = keyBytes j image band ++ countsAndPayload counts payload := by
    rw [hb, countsAndPayload, ← List.append_assoc]
    rfl
  have key : s.KeyGood j x image band := ⟨hx, live, hasImage, imageWord, hasBand, bandByte⟩
  have judged := judgePut_good (payload := payload) key ⟨c0, c1, c2, c3⟩
  rw [← body] at judged
  refine ⟨fun released => ?_, fun kept => ⟨fun present => ?_, fun absent =>
    ⟨fun empty => ?_, fun block ascending mem lowest => ?_⟩⟩⟩
  · rw [if_pos released] at judged
    exact bandPut_refused h judged
  · rw [if_neg (by simp [kept]), if_pos present] at judged
    exact bandPut_refused h judged
  · rw [if_neg (by simp [kept]), if_neg (by simp [absent]), empty] at judged
    exact bandPut_refused h judged
  · obtain ⟨others, pool⟩ := pool_of_lowest ascending mem lowest
    rw [if_neg (by simp [kept]), if_neg (by simp [absent]), pool] at judged
    exact bandPut_begins h judged

end Sys2Proof.Machine
end

section
/-! Spool memory (chapter 3), fourth part: an image record replaced (R45, R46), and the answer to a request that was in service
(R4). -/

namespace Sys2Proof.Machine

variable {s t u : State} {r : Request} {rest : List Request} {j : Slot} {i : Nat} {rec rec' : ImageRec}

/-! ## An image record replaced (R45, R46) -/

/-- The spool manager's records of images are those of another state, but for one image, whose record is `rec`. -/
structure State.Recorded (s t : State) (j : Slot) (i : Nat) (rec : ImageRec) : Prop where
  image : t.image j i = some rec
  others : ∀ k n, k ≠ j ∨ n ≠ i → t.image k n = s.image k n

theorem image_congr (h : t.spool.images = s.spool.images) (k : Slot) (n : Nat) : t.image k n = s.image k n := by
  unfold State.image State.imagesOf
  rw [h]

theorem setImage_recorded (had : s.image j i = some rec) (e : t.spool.images = (s.setImage j i rec').spool.images) :
    s.Recorded t j i rec' := by
  have images : ∀ k, (s.setImage j i rec').imagesOf k = if j = k then (s.imagesOf j).set i rec' else s.imagesOf k :=
    fun k => State.setImages_imagesOf s j _ k
  obtain ⟨low, _⟩ := List.getElem?_eq_some_iff.mp had
  refine ⟨?_, fun k n apart => ?_⟩
  · rw [image_congr e, State.image, images, if_pos rfl, List.getElem?_set_self low]
  · rw [image_congr e, State.image, images]
    split
    · rename_i same
      rw [List.getElem?_set_ne (fun e => (apart.resolve_left (· same.symm)) e.symm), same]
      rfl
    · rfl

theorem State.Recorded.band (h : s.Recorded t j i rec) (index : Nat) : t.band j i index = Bands.find rec.bands index := by
  unfold State.band
  rw [h.image]

theorem State.Recorded.other_bands (h : s.Recorded t j i rec) {k : Slot} {n : Nat} (apart : k ≠ j ∨ n ≠ i) (index : Nat) :
    t.band k n index = s.band k n index := by
  unfold State.band
  rw [h.others k n apart]

theorem band_of_image (had : s.image j i = some rec) (index : Nat) : s.band j i index = Bands.find rec.bands index := by
  unfold State.band
  rw [had]

/-! ## The answer to the request in service (R4) -/

theorem servedTag_of (h : s.link.requests = r :: rest) : s.servedTag = r.tag := by
  unfold State.servedTag
  rw [h]
  rfl

theorem conclude_refuse (idle : t.agenda = []) (st : Status) :
    (t.conclude r.tag (.refuse st)).finish = t.answered r st [] := finish_of_idle (by exact idle)

/-- The effects of a request are brought about, then the reply OK is placed. -/
theorem conclude_done (settled : t.settle = u) (reset : u.link.reset = .none) (body : State → List Byte) :
    (s.conclude r.tag (.done t body)).finish = u.answered r .ok (body u) := by
  have idle : u.agenda = [] := by rw [← settled]; exact settle_agenda t
  show (t.settle.replyOk r.tag (body t.settle)).finish = _
  rw [settled, finish_of_idle (by exact idle)]
  unfold State.replyOk
  rw [reset]
  rfl

end Sys2Proof.Machine
end

section
/-! Spool memory (chapter 3), fifth part: the end of a BAND_PUT's write (R48, R57, R69, R70, R74, R105, R114). -/

namespace Sys2Proof.Machine

variable {s t u v : State} {r : Request} {rest : List Request} {w : BandWrite} {rec : ImageRec} {x : Job}

/-! ## The band stored (R48) -/

/-- The image record that a band stored leaves (R48). -/
def ImageRec.stored (rec : ImageRec) (w : BandWrite) : ImageRec := rec.store w.band w.block w.payload.length w.counts

theorem storeBand_eq (had : s.image w.slot w.image = some rec) : s.storeBand w = { s with spool := { s.spool with
    images := (s.setImage w.slot w.image (rec.stored w)).spool.images
    pool := Blocks.remove s.spool.pool w.block } } := by
  unfold State.storeBand
  rw [had]
  rfl

theorem storeBand_recorded (had : s.image w.slot w.image = some rec) :
    s.Recorded (s.storeBand w) w.slot w.image (rec.stored w) :=
  setImage_recorded had (by rw [storeBand_eq had])

theorem stored_find (index : Nat) : Bands.find (rec.stored w).bands index =
    if index = w.band then some (.present w.block w.payload.length w.counts) else Bands.find rec.bands index :=
  Bands.find_put _ _ _ _

theorem storeBand_link (s : State) (w : BandWrite) : (s.storeBand w).link = s.link := by
  unfold State.storeBand
  split <;> rfl

/-- The reply's body is read off the image record as the store leaves it (R188). -/
theorem bandPutBody_stored (h : t.image w.slot w.image = some (rec.stored w)) : bandPutBody t w =
    byte w.slot.val :: num 2 w.image ++ [byte w.band] ++ num 2 w.block ++ [byte (rec.present + 1),
      byte (if Bands.find rec.bands w.band = some .lost then rec.lost - 1 else rec.lost)] ++ num 2 t.spool.pool.length := by
  unfold bandPutBody
  rw [h]
  rfl

/-! ## A write into a block of the DRAM (R48) -/

/-- A block read back after a write into it holds the bytes written. -/
theorem load_write {m : List Host.Cell} {block : Nat} {bytes : List Byte} (h : Memory.wf m) (fits : bytes.length ≤ 16384)
    (low : block < 32768) :
    Memory.load (Memory.write m (blockAddress block) bytes) (blockAddress block) bytes.length = bytes := by
  refine List.ext_getElem (by simp [Memory.load]) fun i hi hi' => ?_
  have within : blockAddress block + i < Memory.size := by
    unfold blockAddress Memory.size
    omega
  simp only [Memory.load, List.getElem_map, List.getElem_range]
  exact read_write h _ _ _ hi' within

/-! ## The request that waits for the band (R114) -/

/-- A band stored that is served, or that no port waits for, changes the ports alone. -/
theorem State.Serves.beside (h : t.Serves w v) : v = { t with ports := v.ports } := by
  rcases h with ⟨_, _, _, _, rfl⟩ | ⟨_, rfl⟩ <;> rfl

theorem serveRequest_of_serves (hx : t.job w.slot = some x) (h : t.Serves w v) :
    t.serveRequest w.slot w.image w.band w.block = v := by
  unfold State.serveRequest
  rcases h with ⟨p, q, ⟨runs, waits, band, z, y, tagged, hy, image⟩, alone, rfl⟩ | ⟨nobody, rfl⟩
  · rw [portRunning_of_assigned t runs alone]
    dsimp only
    rw [waits, hy]
    dsimp only
    rw [tagged]
    dsimp only
    rw [if_pos (by simp [band, image, Job.imageOfSide]), State.beginRead, State.modPort_modPort, band]
    rfl
  · split
    · rename_i p runs
      split
      · rename_i q y waits hy
        split
        · rename_i z tagged
          refine if_neg fun named => ?_
          simp only [Bool.and_eq_true, decide_eq_true_eq] at named
          exact nobody p q ⟨assigned_of_portRunning _ runs, waits, named.1, z, y, tagged, hy, named.2.symm⟩
        · rfl
      · rfl
    · rfl

theorem serveRequest_of_unassigned (h : t.portRunning w.slot = none) :
    t.serveRequest w.slot w.image w.band w.block = t := by
  unfold State.serveRequest
  rw [h]

/-! ## The gate-met signal (R57) -/

theorem completesGate_iff (hx : v.job w.slot = some x) : v.completesGate w = true ↔
    v.gateMet w.slot x.next = true ∧ w.image ∈ x.imagesOfOrdinal x.next ∧ w.band < v.gateBands x := by
  unfold State.completesGate
  rw [hx]
  simp only [Bool.and_eq_true, List.contains_iff_mem, decide_eq_true_eq, and_assoc]

/-- R57: a store completes the gate of the next ordinal where that gate is met now, and the band is one that it requires. -/
theorem completesGate_of_serves (hx : t.job w.slot = some x) (h : t.Serves w v) : v.completesGate w = true ↔
    t.gateMet w.slot x.next = true
    ∧ (w.image = (x.next % x.sheets) * x.sides ∨ (x.sides = 2 ∧ w.image = (x.next % x.sheets) * x.sides + 1))
    ∧ w.band < (if x.forcedWhole = true ∨ x.lead = 0 then t.bandsPerSide x.sizeClass
        else min x.lead (t.bandsPerSide x.sizeClass)) := by
  rw [← mem_imagesOfOrdinal, ← gateBands_eq, h.beside]
  exact completesGate_iff hx

theorem gateSignal_queued (h : v.jobIs w.slot .queued = true) : v.gateSignal w.slot = v.seekPort w.slot := if_pos h

theorem gateSignal_told (h : v.jobIs w.slot .queued = false) : v.gateSignal w.slot = v.tellPort w.slot :=
  if_neg (by simp [h])

theorem tellPort_unassigned (h : v.portRunning w.slot = none) : v.tellPort w.slot = v := by
  unfold State.tellPort
  rw [h]

theorem portRunning_none (h : ∀ p, v.assigned p ≠ some w.slot) : v.portRunning w.slot = none := by
  unfold State.portRunning
  rw [List.find?_eq_none]
  exact fun p _ => by simpa using h p

theorem storeAndTell_signals (served : (s.storeBand w).serveRequest w.slot w.image w.band w.block = v)
    (completes : v.completesGate w = true) : s.storeAndTell w = v.gateSignal w.slot := by
  unfold State.storeAndTell
  rw [served]
  exact if_pos completes

theorem storeAndTell_silent (served : (s.storeBand w).serveRequest w.slot w.image w.band w.block = v)
    (completes : v.completesGate w = false) : s.storeAndTell w = v := by
  unfold State.storeAndTell
  rw [served]
  exact if_neg (by simp [completes])

/-! ## The end of the write (R48) -/

theorem finishPut_ended (h : s.live w.slot = false) : finishPut s w = .refuse .noSuch := by
  unfold finishPut
  rw [h]
  rfl

theorem imageReleased_of (had : s.image w.slot w.image = some rec) : s.imageReleased w.slot w.image = rec.released := by
  unfold State.imageReleased
  rw [had]

theorem finishPut_released (h : s.live w.slot = true) (released : s.imageReleased w.slot w.image = true) :
    finishPut s w = .refuse .badState := by
  unfold finishPut
  rw [h, released]
  rfl

theorem finishPut_stores (h : s.live w.slot = true) (kept : s.imageReleased w.slot w.image = false) :
    finishPut s w = .done (s.storeAndTell w) (fun _ => bandPutBody (s.storeBand w) w) := by
  unfold finishPut
  rw [h, kept]
  rfl

/-- The state in which a write's payload stands in its block (R48). -/
def State.written (s : State) (w : BandWrite) : State := s.writeBlock w.block w.payload

section
variable (requests : s.link.requests = r :: rest) (served : s.link.service = some (.write w))
include requests served

theorem writeComplete_concludes {a : Answer} (judged : finishPut (s.written w) w = a) :
    exec .bandPutWriteComplete s = .next ((s.written w).conclude r.tag a).finish := by
  show execBandPutWriteComplete s = _
  unfold execBandPutWriteComplete
  rw [served, ← judged]
  dsimp only
  rw [State.writeEnds, servedTag_of (s := s.writeBlock w.block w.payload) requests]
  rfl

theorem writeComplete_refused {st : Status} (idle : s.agenda = []) (judged : finishPut (s.written w) w = .refuse st) :
    exec .bandPutWriteComplete s = .next ((s.written w).answered r st []) := by
  rw [writeComplete_concludes requests served judged]
  exact congrArg Host.Outcome.next (conclude_refuse (t := s.written w) idle st)

/-- A write that is kept stores its band; what follows is brought about, then the reply OK is placed. -/
theorem writeComplete_stores {n : Nat} (reset : s.link.reset = .none) (live : (s.written w).live w.slot = true)
    (kept : (s.written w).imageReleased w.slot w.image = false) (run : Runs n ((s.written w).storeAndTell w) u)
    (fuel : n ≤ 65536) :
    exec .bandPutWriteComplete s = .next (u.answered r .ok (bandPutBody ((s.written w).storeBand w) w)) := by
  have settled := run.settle fuel
  have calm : Kept ((s.written w).storeBand w) u := settled ▸ (storeAndTell_kept (s.written w) w).trans (settle_kept _)
  have unset : u.link.reset = .none := by
    rw [calm.link]
    exact (congrArg Link.reset (storeBand_link (s.written w) w)).trans reset
  rw [writeComplete_concludes requests served (finishPut_stores live kept)]
  exact congrArg Host.Outcome.next (conclude_done settled unset _)

end

/-- Nothing follows the store of a band whose job is not QUEUED and runs on no port (R57). -/
theorem storeAndTell_quiet (served : (s.storeBand w).serveRequest w.slot w.image w.band w.block = v)
    (settled : v.jobIs w.slot .queued = false) (nobody : v.portRunning w.slot = none) : s.storeAndTell w = v := by
  cases completes : v.completesGate w with
  | false => exact storeAndTell_silent served completes
  | true => rw [storeAndTell_signals served completes, gateSignal_told settled, tellPort_unassigned nobody]

theorem jobIs_not {st : JobState} (hx : v.job w.slot = some x) (h : x.state ≠ st) : v.jobIs w.slot st = false := by
  unfold State.jobIs
  rw [hx]
  exact decide_eq_false h

section
variable (served : (s.storeBand w).serveRequest w.slot w.image w.band w.block = v) (hx : v.job w.slot = some x)
  (idle : v.agenda = []) (completes : v.completesGate w = true)
include served hx idle completes

/-- R57, R69, R70: the gate-met signal of a QUEUED job makes the choice of port. -/
theorem storeAndTell_seeks (queued : x.state = .queued) (sought : v.Sought w.slot u) :
    ∃ n ≤ 16, Runs n (s.storeAndTell w) u := by
  have waits := jobIs_of hx queued
  rw [storeAndTell_signals served completes, gateSignal_queued waits]
  exact runs_sought sought idle waits

/-- R57, R105: the gate-met signal of a RUNNING job makes its port decide. -/
theorem storeAndTell_decides {p : PortNo} (running : x.state = .running) (runs : v.assigned p = some w.slot)
    (alone : ∀ q, v.assigned q = some w.slot → q = p) (decides : State.Decides p 5 v u) :
    ∃ n ≤ 9, Runs n (s.storeAndTell w) u := by
  rw [storeAndTell_signals served completes, gateSignal_told (jobIs_not hx (by rw [running]; exact JobState.noConfusion)),
    tellPort_posts runs alone]
  exact runs_decides 5 v u decides idle

end

/-- Settles O28: the write discarded, or the band stored; then the request that waits for it, and the gate it completes. -/
theorem bandPutStoresBand : Obligations.BandPutStoresBand := by
  intro s r rest w rec requests served reset idle wf fits low
  have released : ∀ rec, s.image w.slot w.image = some rec → (s.written w).imageReleased w.slot w.image = rec.released :=
    fun _ had => imageReleased_of (s := s.written w) had
  refine ⟨fun ended => writeComplete_refused requests served idle (finishPut_ended ended),
    fun live had gone => writeComplete_refused requests served idle (finishPut_released live ((released rec had).trans gone)),
    fun live had kept => ?_⟩
  obtain ⟨image, others⟩ := storeBand_recorded (s := s.written w) had
  have recorded : s.Recorded ((s.written w).storeBand w) w.slot w.image (rec.stored w) := ⟨image, others⟩
  have parts := storeBand_eq (s := s.written w) had
  have still : ((s.written w).storeBand w).agenda = [] := by rw [parts]; exact idle
  have answers {n : Nat} {u : State} (run : Runs n ((s.written w).storeAndTell w) u) (fuel : n ≤ 65536) :=
    writeComplete_stores requests served reset live ((released rec had).trans kept) run fuel
  rw [bandPutBody_stored recorded.image] at answers
  have quiet {u : State} (follows : (s.written w).storeAndTell w = u) (done : u.agenda = []) :=
    answers (n := 0) ⟨by rw [follows]; exact done, follows.symm⟩ (Nat.zero_le _)
  refine ⟨(s.written w).storeBand w, (recorded.band _).trans ((stored_find _).trans (if_pos rfl)),
    ⟨rec.stored w, recorded.image, rfl, rfl, kept, rfl⟩, fun k apart => ?_, fun j i k apart => recorded.other_bands apart k,
    fun b => ?_, ?_, fun a outside => ?_, by rw [parts]; rfl, by rw [parts]; rfl, by rw [parts]; rfl, by rw [parts]; rfl,
    by rw [parts]; rfl, by rw [parts]; rfl, by rw [parts]; rfl, by rw [parts]; rfl, still, fun nobody other => ?_,
    fun x v hx serves => ?_⟩
  · rw [recorded.band, stored_find, if_neg apart, band_of_image had]
  · rw [parts]
    exact Blocks.mem_remove _ _ _
  · rw [parts]
    exact load_write wf fits low
  · rw [parts]
    exact read_write_elsewhere wf _ _ a outside
  · have nobody : ((s.written w).storeBand w).portRunning w.slot = none := by rw [parts]; exact nobody
    have other : ((s.written w).storeBand w).jobIs w.slot .queued = false := by rw [parts]; exact other
    exact quiet (storeAndTell_quiet (serveRequest_of_unassigned nobody) other nobody) still
  · have stored : ((s.written w).storeBand w).job w.slot = some x := by rw [parts]; exact hx
    have job : v.job w.slot = some x := by rw [serves.beside]; exact stored
    have idle : v.agenda = [] := by rw [serves.beside]; exact still
    have assigned : v.assigned = s.assigned := by rw [serves.beside, parts]; rfl
    have served := serveRequest_of_serves stored serves
    have signals := completesGate_of_serves stored serves
    rw [show ((s.written w).storeBand w).bandsPerSide x.sizeClass = s.bandsPerSide x.sizeClass by rw [parts]; rfl] at signals
    rw [← assigned]
    refine ⟨fun incomplete => ?_, fun completes => ⟨fun queued u sought => ?_, fun running p u runs alone decides => ?_,
      fun other nobody => ?_⟩⟩
    · exact quiet (storeAndTell_silent served (by rw [← Bool.not_eq_true, signals]; exact incomplete)) idle
    · obtain ⟨n, fuel, run⟩ := storeAndTell_seeks served job idle (signals.mpr completes) queued sought
      exact answers run (by omega)
    · obtain ⟨n, fuel, run⟩ := storeAndTell_decides served job idle (signals.mpr completes) running runs alone decides
      exact answers run (by omega)
    · exact quiet (storeAndTell_quiet served (jobIs_not job other) (portRunning_none nobody)) idle

end Sys2Proof.Machine
end

section
/-! Spool memory (chapter 3), sixth part: a band lost to a parity error (R50, R51), and BAND_SUM (R52). -/

namespace Sys2Proof.Machine

variable {s t u : State} {r : Request} {rest : List Request} {j : Slot} {x : Job} {i index block length : Nat} {counts : Planes}
  {rec : ImageRec} {reader : Option PortNo} {q : SumRead}

/-! ## A band lost (R50, R51) -/

/-- A present band has been taken as lost: its image record, its block, the start-up state and the BAND_LOST notice follow, and
beside the ports nothing else changes (R50, R51). -/
structure State.BandLost (s t : State) (j : Slot) (x : Job) (i : Nat) (rec : ImageRec) (index block : Nat) (counts : Planes)
    (reader : Option PortNo) : Prop where
  recorded : s.Recorded t j i (rec.lose index counts)
  spool : t.spool = { s.spool with
    images := t.spool.images
    retired := s.spool.retired ++ [block]
    startUp := if s.spool.startUp = .ready then .readyDegraded else s.spool.startUp }
  link : t.link = (s.notify .bandLost
    (bandLostBody j x.label i index counts block reader (rec.present - 1) (rec.lost + 1))).link
  beside : t = { s with link := t.link, spool := t.spool, ports := t.ports }

theorem loseBand_eq (had : s.image j i = some rec) (present : s.band j i index = some (.present block length counts))
    (hx : s.job j = some x) : s.loseBand j i index reader = State.notify { s with spool := { s.spool with
      images := (s.setImage j i (rec.lose index counts)).spool.images
      retired := s.spool.retired ++ [block]
      startUp := if s.spool.startUp = .ready then .readyDegraded else s.spool.startUp } } .bandLost
        (bandLostBody j x.label i index counts block reader (rec.present - 1) (rec.lost + 1)) := by
  unfold State.loseBand
  rw [had, present, hx]
  rfl

theorem loseBand_lost (had : s.image j i = some rec) (present : s.band j i index = some (.present block length counts))
    (hx : s.job j = some x) : s.BandLost (s.loseBand j i index reader) j x i rec index block counts reader := by
  rw [loseBand_eq had present hx]
  refine ⟨setImage_recorded had (by rw [notify_spool]), by rw [notify_spool], notify_link_congr _ _ rfl rfl, ?_⟩
  rw [notify_eq]

theorem loseBand_ports (had : s.image j i = some rec) (present : s.band j i index = some (.present block length counts))
    (hx : s.job j = some x) : (s.loseBand j i index reader).ports = s.ports := by
  rw [loseBand_eq had present hx, notify_ports]

theorem lose_find (k : Nat) : Bands.find (rec.lose index counts).bands k =
    if k = index then some .lost else Bands.find rec.bands k := Bands.find_put _ _ _ _

theorem State.BandLost.band (h : s.BandLost t j x i rec index block counts reader) : t.band j i index = some .lost := by
  rw [h.recorded.band, lose_find, if_pos rfl]

theorem State.BandLost.other_bands (h : s.BandLost t j x i rec index block counts reader) (had : s.image j i = some rec)
    (k : Slot) (n m : Nat) (apart : k ≠ j ∨ n ≠ i ∨ m ≠ index) : t.band k n m = s.band k n m := by
  by_cases same : k = j ∧ n = i
  · obtain ⟨rfl, rfl⟩ := same
    have apart : m ≠ index := by simpa using apart
    rw [h.recorded.band, lose_find, if_neg apart, band_of_image had]
  · exact h.recorded.other_bands (not_and_or.mp same) m

/-! ## A band read ends (R49) -/

theorem endRead_absent (h : s.bandPresent j i index = false) (e : Bool) :
    s.endRead j i index block e reader = (s, .lost) := by
  unfold State.endRead
  split
  · rename_i found
    rw [State.bandPresent, found] at h
    cases h
  · rfl

theorem endRead_payload (h : s.band j i index = some (.present block length counts)) :
    s.endRead j i index block false reader = (s, .payload (Memory.load s.spool.dram (blockAddress block) length)) := by
  unfold State.endRead
  rw [h]
  simp

theorem endRead_parity (h : s.band j i index = some (.present block length counts)) :
    s.endRead j i index block true reader = (s.loseBand j i index reader, .lost) := by
  unfold State.endRead
  rw [h]
  simp

/-! ## BAND_SUM (R52) -/

theorem judgeSum_present {image band : Nat} (key : s.KeyGood j x image band) (tail : List Byte)
    (present : s.band j image band = some (.present block length counts)) :
    s.judgeSum (keyBytes j image band ++ tail) = .ok { slot := j, image := image, band := band, block := block } := by
  unfold State.judgeSum
  rw [key.judged]
  dsimp only
  rw [keyBytes_image key.imageWord, keyBytes_band key.bandByte, present]

theorem judgeSum_absent {image band : Nat} (key : s.KeyGood j x image band) (tail : List Byte)
    (absent : s.bandPresent j image band = false) : s.judgeSum (keyBytes j image band ++ tail) = .error .noSuch := by
  unfold State.judgeSum
  rw [key.judged]
  dsimp only
  rw [keyBytes_image key.imageWord, keyBytes_band key.bandByte]
  split
  · rename_i found
    rw [State.bandPresent, found] at absent
    cases absent
  · rfl

theorem bandSum_refused {st : Status} (h : s.Takes 0x21 r rest) (e : s.judgeSum r.body = .error st) :
    exec .bandSum s = .next (s.answered r st []) := by
  refine congrArg Host.Outcome.next (h.refused answerBandSum st ?_)
  unfold answerBandSum
  rw [e]

theorem bandSum_begins (h : s.Takes 0x21 r rest) (e : s.judgeSum r.body = .ok q) :
    exec .bandSum s = .next (s.modLink (fun l => { l with service := some (.sum q) })).pump := by
  refine congrArg Host.Outcome.next (h.serving answerBandSum _ ?_ h.agenda)
  unfold answerBandSum
  rw [e]

section
variable (requests : s.link.requests = r :: rest) (served : s.link.service = some (.sum q))
include requests served

theorem sumEnd_refused {e : Bool} (idle : t.agenda = [])
    (ends : s.endRead q.slot q.image q.band q.block e none = (t, .lost)) :
    exec (.bandSumReadEnd e) s = .next (t.answered r .noSuch []) := by
  show execBandSumReadEnd e s = _
  unfold execBandSumReadEnd
  rw [served]
  dsimp only
  rw [State.concludeSum, ends, servedTag_of requests]
  exact congrArg Host.Outcome.next (conclude_refuse idle .noSuch)

theorem sumEnd_answered (idle : s.agenda = []) (reset : s.link.reset = .none)
    (present : s.band q.slot q.image q.band = some (.present q.block length counts)) :
    exec (.bandSumReadEnd false) s = .next (s.answered r .ok
      (num 2 (byteSum (Memory.load s.spool.dram (blockAddress q.block) length)) ++ num 2 length ++ planesWire 4 counts)) := by
  have counted : s.countsAt q = counts := by
    unfold State.countsAt
    rw [present]
  have whole : (Memory.load s.spool.dram (blockAddress q.block) length).length = length := by simp [Memory.load]
  show execBandSumReadEnd false s = _
  unfold execBandSumReadEnd
  rw [served]
  dsimp only
  rw [State.concludeSum, endRead_payload present, servedTag_of requests]
  dsimp only
  rw [counted, whole]
  exact congrArg Host.Outcome.next (conclude_done (settle_of_idle s idle) reset _)

end

/-- Settles O29: the key is judged and the read begins; it ends in the sum, in a band gone, or in a band lost. -/
theorem bandSumReadsOrLosesBand : Obligations.BandSumReadsOrLosesBand := by
  intro s r rest q
  refine ⟨fun x block length counts h hb hx live hasImage imageWord hasBand bandByte => ?_,
    fun requests served reset idle => ⟨fun absent e => sumEnd_refused requests served idle (endRead_absent absent e),
      fun length counts present => ⟨sumEnd_answered requests served idle reset present, fun x rec hx had => ?_⟩⟩⟩
  · have body : r.body = keyBytes q.slot q.image q.band ++ [] := by
      rw [hb, List.append_nil]
      rfl
    have key : s.KeyGood q.slot x q.image q.band := ⟨hx, live, hasImage, imageWord, hasBand, bandByte⟩
    refine ⟨fun present same => bandSum_begins h ?_, fun absent => bandSum_refused h ?_⟩
    · rw [body, judgeSum_present key [] present, ← same]
    · rw [body, judgeSum_absent key [] absent]
  · have lost := loseBand_lost (reader := none) had present hx
    have ports := loseBand_ports (reader := none) had present hx
    have ends := endRead_parity (reader := none) present
    generalize s.loseBand q.slot q.image q.band none = t at *
    have beside := lost.beside
    have spool := lost.spool
    refine ⟨t, sumEnd_refused requests served (by rw [beside]; exact idle) ends, lost.band,
      ⟨rec.lose q.band counts, lost.recorded.image, rfl, rfl, rfl, rfl⟩, lost.other_bands had, by rw [spool], by rw [spool],
      by rw [spool], by rw [spool], lost.link, by rw [beside], ports, by rw [beside], by rw [beside], by rw [beside]⟩

end Sys2Proof.Machine
end

section
/-! Spool memory (chapter 3), seventh part: the end of a read for an engine (R49 to R51, R98, R115). -/

namespace Sys2Proof.Machine

variable {s t : State} {p : PortNo} {index : Nat} {q : BandRead} {x : Job} {rec : ImageRec} {length : Nat} {counts : Planes}

/-- A port's record once one of its reads has ended (R101). -/
def Port.readEnded (x : Port) (index : Nat) : Port := { x with reads := x.reads.eraseIdx index }

/-- The state once a port's read has left its reads in progress (R101). -/
def State.readEnded (s : State) (p : PortNo) (index : Nat) : State := s.setPort p ((s.port p).readEnded index)

theorem readEnded_port : (s.readEnded p index).port p = (s.port p).readEnded index := by
  rw [State.readEnded, State.setPort_port, if_pos rfl]

theorem readEnded_send (m : PressOut) :
    (s.readEnded p index).send p m = s.setPort p (((s.port p).readEnded index).queueOut m) := by
  rw [State.send, State.modPort, readEnded_port, State.readEnded, State.setPort_setPort]

theorem readEnded_sendFill (tag : Byte) (back : Bool) (band : Nat) : (s.readEnded p index).sendFill p tag back band =
    s.setPort p (((s.port p).readEnded index).filled tag back band) := by
  rw [sendFill_eq, readEnded_port, State.readEnded, State.setPort_setPort]

/-! ## The answer to the engine (R115) -/

theorem answerRead_gone (h : q.live = false) (result : ReadResult) : s.answerRead p q result = s := by
  unfold State.answerRead
  rw [h]
  rfl

theorem answerRead_payload (h : q.live = true) (bytes : List Byte) :
    s.answerRead p q (.payload bytes) = s.send p (.band q.tag q.back q.band bytes) := by
  unfold State.answerRead
  rw [h]
  rfl

theorem answerRead_lost (h : q.live = true) :
    s.answerRead p q .lost = (s.sendFill p q.tag q.back q.band).spoil p q.tag .parity := by
  unfold State.answerRead
  rw [h]
  rfl

/-- A read that is not gone is judged against the band map, and the port answers its engine (R49, R115). -/
theorem exec_spoolReadEnd {e : Bool} {result : ReadResult} (reading : (s.port p).reads[index]? = some q)
    (kept : q.gone = false)
    (ends : (s.readEnded p index).endRead q.slot q.image q.band q.block e (some p) = (t, result)) :
    exec (.spoolReadEnd p index e) s = .next (t.answerRead p q result).finish := by
  show Host.Outcome.next (s.portReadEnd p index e).finish = _
  unfold State.portReadEnd
  rw [reading]
  dsimp only
  rw [kept]
  exact congrArg (fun z : State × ReadResult => Host.Outcome.next (z.1.answerRead p q z.2).finish) ends

/-! ## A band lost to a port's read (R50, R115) -/

/-- The state that a band lost leaves at the port whose read met the error: FILL has gone out if the sheet is still there. -/
def State.lossAnswered (t : State) (p : PortNo) (q : BandRead) : State :=
  if q.live then t.sendFill p q.tag q.back q.band else t

theorem lossAnswered_eq (t : State) : t.lossAnswered p q = { t with ports := (t.lossAnswered p q).ports } := by
  unfold State.lossAnswered
  split
  · rw [sendFill_eq]
    rfl
  · rfl

theorem lossAnswered_port_self : (t.lossAnswered p q).port p =
    if q.live = true then (t.port p).filled q.tag q.back q.band else t.port p := by
  unfold State.lossAnswered
  split
  · rw [sendFill_eq, State.setPort_port, if_pos rfl]
  · rfl

theorem lossAnswered_port_other {k : PortNo} (apart : k ≠ p) : (t.lossAnswered p q).port k = t.port k := by
  unfold State.lossAnswered
  split
  · rw [sendFill_eq, State.setPort_port, if_neg apart.symm]
  · rfl

/-- The port's answer to a lost band, and the end of the step: a sheet still there is spoiled PARITY (R115). -/
theorem answerRead_lost_finish (idle : t.agenda = []) : (t.answerRead p q .lost).finish =
    if q.live = true then ((t.lossAnswered p q).spoil p q.tag .parity).finish else (t.lossAnswered p q).pump := by
  unfold State.lossAnswered
  cases live : q.live with
  | true => rw [answerRead_lost live]; rfl
  | false => rw [answerRead_gone live]; exact finish_of_idle idle

/-- A band lost beside a change of the ports is lost. -/
theorem State.BandLost.of_ports {u : State} {j : Slot} {i band block : Nat} {reader : Option PortNo}
    (h : u.BandLost t j x i rec band block counts reader) (before : u = { s with ports := u.ports })
    (v : State) (after : v = { t with ports := v.ports }) : s.BandLost v j x i rec band block counts reader := by
  have images : ∀ k n, u.image k n = s.image k n := fun k n => by rw [before]; rfl
  have spool : u.spool = s.spool := by rw [before]
  have told : ∀ b, (u.notify .bandLost b).link = (s.notify .bandLost b).link := fun b =>
    notify_link_congr _ _ (by rw [before]) (by rw [before])
  obtain ⟨⟨image, others⟩, lostSpool, link, beside⟩ := h
  refine ⟨⟨?_, fun k n apart => ?_⟩, ?_, ?_, ?_⟩
  · rw [after]; exact image
  · rw [after, ← images]; exact others k n apart
  · rw [after, ← spool]; exact lostSpool
  · rw [after, ← told]; exact link
  · rw [after]
    show ({ t with ports := v.ports } : State) = { s with link := t.link, spool := t.spool, ports := v.ports }
    rw [beside, before]

/-- Settles O30: the read leaves the reads in progress, and ends in its payload, in a band gone, or in a band lost. -/
theorem spoolReadAnswersEngine : Obligations.SpoolReadAnswersEngine := by
  intro s p index q reading idle kept
  have absentEnds (absent : s.bandPresent q.slot q.image q.band = false) (e : Bool) :=
    exec_spoolReadEnd reading kept (endRead_absent (s := s.readEnded p index) (block := q.block) (reader := some p) absent e)
  have payloadEnds {length : Nat} {counts : Planes}
      (present : s.band q.slot q.image q.band = some (.present q.block length counts)) :=
    exec_spoolReadEnd reading kept (endRead_payload (s := s.readEnded p index) (reader := some p) present)
  refine ⟨fun live length counts present => ?_, fun live absent y tagged marked e => ?_,
    fun length counts x rec hx had present => ?_,
    fun gone => ⟨fun absent e => ?_, fun length counts present => ?_⟩⟩
  · rw [payloadEnds present, answerRead_payload live, readEnded_send]
    exact congrArg Host.Outcome.next (finish_of_idle (by exact idle))
  · have still : sheetOf ((s.setPort p (((s.port p).readEnded index).filled q.tag q.back q.band)).port p).path q.tag = some y :=
      (filled_sheetOf _ _ _).trans tagged
    rw [absentEnds absent e, answerRead_lost live, readEnded_sendFill, spoil_marked still marked]
    exact congrArg Host.Outcome.next (finish_of_idle (by exact idle))
  · have lost := loseBand_lost (s := s.readEnded p index) (reader := some p) had present hx
    have ports := loseBand_ports (s := s.readEnded p index) (reader := some p) had present hx
    have ended := exec_spoolReadEnd reading kept (endRead_parity (s := s.readEnded p index) (reader := some p) present)
    generalize (s.readEnded p index).loseBand q.slot q.image q.band (some p) = u at *
    have unchanged : ∀ k, u.port k = (s.readEnded p index).port k := fun k => by unfold State.port; rw [ports]
    have still : u.agenda = [] := by rw [lost.beside]; exact idle
    have whole := lost.of_ports (s := s) rfl (u.lossAnswered p q) (lossAnswered_eq u)
    have beside := whole.beside
    have spool := whole.spool
    rw [answerRead_lost_finish still] at ended
    refine ⟨u.lossAnswered p q, ?_, whole.band,
      ⟨rec.lose q.band counts, whole.recorded.image, rfl, rfl, rfl, rfl⟩, whole.other_bands had, by rw [spool], by rw [spool],
      by rw [spool], whole.link, ?_, fun k apart => ?_, by rw [spool], by rw [beside], by rw [beside], by rw [beside],
      by rw [beside], by rw [beside]; exact idle⟩
    · rw [ended]
    · rw [lossAnswered_port_self, unchanged, readEnded_port]
      rfl
    · rw [lossAnswered_port_other apart, unchanged, State.readEnded, State.setPort_port, if_neg apart.symm]
  · rw [absentEnds absent e, answerRead_gone gone]
    exact congrArg Host.Outcome.next (finish_of_idle (by exact idle))
  · rw [payloadEnds present, answerRead_gone gone]
    exact congrArg Host.Outcome.next (finish_of_idle (by exact idle))

end Sys2Proof.Machine
end

section
/-! Dispatch (chapter 4), first part: the slice timer (R75, R76). -/

namespace Sys2Proof.Machine

variable {s : State} {p : PortNo} {a : Assignment} {x : Job} {t : Timer}

/-- The state in which a slice timer has expired: it is absent, and its job's SLICE flag is set (R76). -/
def State.sliceFlagged (s : State) (p : PortNo) (a : Assignment) (x : Job) : State :=
  (s.setAssignment p (some { a with slice := none })).setJob a.slot (some { x with slice := true })

theorem sliceExpired_due (ha : s.assignment p = some a) (hx : s.job a.slot = some x) (ht : a.slice = some t)
    (due : t.length ≤ elapsed s.partTime t.start) : s.sliceExpired p = (s.sliceFlagged p a x).post (.decide p) := by
  have expired : timerDue a.slice s.partTime = true := by rw [ht]; exact decide_eq_true due
  have flagged : (s.setAssignment p (some { a with slice := none })).modJob a.slot (fun y => { y with slice := true }) =
      s.sliceFlagged p a x := by
    unfold State.modJob
    rw [State.setAssignment_job, hx]
    rfl
  unfold State.sliceExpired
  rw [ha]
  dsimp only
  rw [if_pos expired, flagged]

theorem sliceExpired_counts (ha : s.assignment p = some a) (ht : a.slice = some t)
    (early : elapsed s.partTime t.start < t.length) : s.sliceExpired p = s := by
  have counting : timerDue a.slice s.partTime = false := by
    rw [ht]
    exact decide_eq_false (by omega)
  unfold State.sliceExpired
  rw [ha]
  dsimp only
  rw [if_neg (by simp [counting])]

/-- Settles O31: an expired timer flags the job and makes its port decide; a counting one changes nothing. -/
theorem sliceExpirySetsFlag : Obligations.SliceExpirySetsFlag := by
  intro s p a x t ha hx ht idle
  have expires (due : t.length ≤ elapsed s.partTime t.start) {u : State} {n : Nat} (fuel : n ≤ 65536)
      (run : Runs n ((s.sliceFlagged p a x).post (.decide p)) u) : exec (.sliceExpiry p) s = .next u.pump := by
    refine congrArg Host.Outcome.next (finish_of_settle ?_)
    rw [sliceExpired_due ha hx ht due]
    exact run.settle fuel
  refine ⟨fun due rests => ?_, fun due _ u decided => ?_, fun early => ?_⟩
  · exact expires due (by omega) (Runs.noop (s := s.sliceFlagged p a x) idle (decide_noop p rests))
  · obtain ⟨n, fuel, run⟩ := runs_decides 5 (s.sliceFlagged p a x) u decided idle
    exact expires due (by omega) run
  · refine congrArg Host.Outcome.next ?_
    rw [sliceExpired_counts ha ht early]
    exact finish_of_idle idle

end Sys2Proof.Machine
end

section
/-! Coverage and charge (chapter 8): SIZE_SET and TIER_SET (R79, R141 to R144). -/

namespace Sys2Proof.Machine

variable {s : State} {r : Request} {rest : List Request}

/-! ## SIZE_SET (R79, R142) -/

/-- The body of a SIZE_SET (R188). -/
def sizeBody (n f sh w b : Nat) : List Byte := byte n :: num 4 f ++ [byte sh, byte w, byte b]

theorem class_outOfRange {b : Byte} (h : 16 ≤ b.toNat) : class? b = none := dif_neg (by omega)

theorem sizeBody_factor {n f sh w b : Nat} (hf : f < 4294967296) : field (sizeBody n f sh w b) 1 4 = f :=
  field_num [byte n] [byte sh, byte w, byte b] (n := 4) hf

/-- The class that a SIZE_SET carries is read back from its body (R142). -/
theorem sizeOf_sizeBody {n f sh w b : Nat} (hf : f < 4294967296) (hsh : sh < 256) (hw : w < 256) (hb : b < 256) :
    sizeOf (sizeBody n f sh w b) = { factor := f, shift := sh, weight := w, bands := b } :=
  SizeClass.mk.injEq .. |>.mpr ⟨sizeBody_factor hf, toNat_byte hsh, toNat_byte hw, toNat_byte hb⟩

theorem sizeValuesValid_iff {n f sh w b : Nat} (hf : f < 4294967296) (hsh : sh < 256) (hw : w < 256) (hb : b < 256) :
    sizeValuesValid (sizeBody n f sh w b) = true ↔
      1 ≤ f ∧ f ≤ 1048575 ∧ 16 ≤ sh ∧ sh ≤ 40 ∧ 1 ≤ w ∧ 1 ≤ b := by
  have shift : (byteAt (sizeBody n f sh w b) 5).toNat = sh := toNat_byte hsh
  have weight : (byteAt (sizeBody n f sh w b) 6).toNat = w := toNat_byte hw
  have bands : (byteAt (sizeBody n f sh w b) 7).toNat = b := toNat_byte hb
  unfold sizeValuesValid
  rw [sizeBody_factor hf, shift, weight, bands]
  simp [and_assoc]

/-- R79: a class is in use while a job of it is not terminal. -/
theorem classInUse_iff (c : ClassNo) :
    s.classInUse c = true ↔ ∃ j x, s.job j = some x ∧ x.state.terminal = false ∧ x.sizeClass = c := by
  unfold State.classInUse
  rw [List.any_eq_true]
  refine exists_congr fun j => ?_
  cases s.job j <;> simp [allSlots]

/-! ## TIER_SET (R144) -/

/-- The body of a TIER_SET (R188). -/
def tierBody (n : Nat) (t : Tier) : List Byte :=
  byte n :: num 2 t.base ++ num 2 t.rates.p0 ++ num 2 t.rates.p1 ++ num 2 t.rates.p2 ++ num 2 t.rates.p3
    ++ num 2 t.allowance

theorem tier_outOfRange {b : Byte} (h : 4 ≤ b.toNat) : tier? b = none := dif_neg (by omega)

/-- Every number of a tier fills two bytes. -/
structure Tier.Words (t : Tier) : Prop where
  base : t.base < 65536
  p0 : t.rates.p0 < 65536
  p1 : t.rates.p1 < 65536
  p2 : t.rates.p2 < 65536
  p3 : t.rates.p3 < 65536
  allowance : t.allowance < 65536

/-- The tier that a TIER_SET carries is read back from its body (R144). -/
theorem tierOf_tierBody {n : Nat} {t : Tier} (h : t.Words) : tierOf (tierBody n t) = t := by
  have base : field (tierBody n t) 1 2 = t.base := by
    simpa [tierBody] using field_num [byte n] (num 2 t.rates.p0 ++ num 2 t.rates.p1 ++ num 2 t.rates.p2
      ++ num 2 t.rates.p3 ++ num 2 t.allowance) (n := 2) h.base
  have p0 : field (tierBody n t) 3 2 = t.rates.p0 := by
    simpa [tierBody, num_length] using field_num (byte n :: num 2 t.base) (num 2 t.rates.p1 ++ num 2 t.rates.p2
      ++ num 2 t.rates.p3 ++ num 2 t.allowance) (n := 2) h.p0
  have p1 : field (tierBody n t) 5 2 = t.rates.p1 := by
    simpa [tierBody, num_length] using field_num (byte n :: num 2 t.base ++ num 2 t.rates.p0) (num 2 t.rates.p2
      ++ num 2 t.rates.p3 ++ num 2 t.allowance) (n := 2) h.p1
  have p2 : field (tierBody n t) 7 2 = t.rates.p2 := by
    simpa [tierBody, num_length] using field_num (byte n :: num 2 t.base ++ num 2 t.rates.p0 ++ num 2 t.rates.p1)
      (num 2 t.rates.p3 ++ num 2 t.allowance) (n := 2) h.p2
  have p3 : field (tierBody n t) 9 2 = t.rates.p3 := by
    simpa [tierBody, num_length] using field_num
      (byte n :: num 2 t.base ++ num 2 t.rates.p0 ++ num 2 t.rates.p1 ++ num 2 t.rates.p2) (num 2 t.allowance) (n := 2) h.p3
  have allowance : field (tierBody n t) 11 2 = t.allowance := by
    simpa [tierBody, num_length] using field_num (byte n :: num 2 t.base ++ num 2 t.rates.p0 ++ num 2 t.rates.p1
      ++ num 2 t.rates.p2 ++ num 2 t.rates.p3) [] (n := 2) h.allowance
  unfold tierOf
  rw [base, p0, p1, p2, p3, allowance]

section
variable (h : s.Takes 0x40 r rest)
include h

theorem sizeSet_outOfRange {n f sh w b : Nat} (hn : n < 256) (body : r.body = sizeBody n f sh w b) (high : 16 ≤ n) :
    exec .sizeSet s = .next (s.answered r .badField []) := by
  refine congrArg Host.Outcome.next (h.refused answerSizeSet .badField ?_)
  unfold answerSizeSet
  rw [body, show byteAt (sizeBody n f sh w b) 0 = byte n from rfl, class_outOfRange (by rw [toNat_byte hn]; exact high)]

variable {c : ClassNo} {f sh w b : Nat} (hf : f < 4294967296) (hsh : sh < 256) (hw : w < 256) (hb : b < 256)
  (body : r.body = sizeBody c.val f sh w b)
include body

theorem sizeSet_inUse (used : s.classInUse c = true) : exec .sizeSet s = .next (s.answered r .badState []) := by
  refine congrArg Host.Outcome.next (h.refused answerSizeSet .badState ?_)
  unfold answerSizeSet
  rw [body, show byteAt (sizeBody c.val f sh w b) 0 = byte c.val from rfl, class_byte]
  exact if_pos used

variable (free : s.classInUse c = false)
include hf hsh hw hb free

theorem sizeSet_badValue (bad : f < 1 ∨ 1048575 < f ∨ sh < 16 ∨ 40 < sh ∨ w < 1 ∨ b < 1) :
    exec .sizeSet s = .next (s.answered r .badField []) := by
  have invalid : sizeValuesValid (sizeBody c.val f sh w b) = false := by
    rw [Bool.eq_false_iff, ne_eq, sizeValuesValid_iff hf hsh hw hb]
    omega
  refine congrArg Host.Outcome.next (h.refused answerSizeSet .badField ?_)
  unfold answerSizeSet
  rw [body, show byteAt (sizeBody c.val f sh w b) 0 = byte c.val from rfl, class_byte]
  dsimp only
  rw [if_neg (by simp [free]), if_pos (by simp [invalid])]

theorem sizeSet_taken (good : 1 ≤ f ∧ f ≤ 1048575 ∧ 16 ≤ sh ∧ sh ≤ 40 ∧ 1 ≤ w ∧ 1 ≤ b) :
    exec .sizeSet s = .next (State.answered { s with meter := { s.meter with
      sizes := s.meter.sizes.set c (some { factor := f, shift := sh, weight := w, bands := b }) } } r .ok r.body) := by
  have valid := (sizeValuesValid_iff (n := c.val) hf hsh hw hb).mpr good
  refine congrArg Host.Outcome.next (h.done answerSizeSet _ (fun _ => r.body) ?_ h.agenda h.reset)
  unfold answerSizeSet
  rw [body, show byteAt (sizeBody c.val f sh w b) 0 = byte c.val from rfl, class_byte]
  dsimp only
  rw [if_neg (by simp [free]), if_neg (by simp [valid]), sizeOf_sizeBody hf hsh hw hb]
  rfl

end

section
variable (h : s.Takes 0x41 r rest) {t : Tier} (words : t.Words)
include h words

theorem tierSet_refused {n : Nat} (hn : n < 256) (body : r.body = tierBody n t) (bad : 4 ≤ n ∨ 1024 < t.allowance) :
    exec .tierSet s = .next (s.answered r .badField []) := by
  refine congrArg Host.Outcome.next (h.refused answerTierSet .badField ?_)
  unfold answerTierSet
  rw [body, tierOf_tierBody words, show byteAt (tierBody n t) 0 = byte n from rfl]
  split
  · rfl
  · rename_i k hk
    rcases bad with high | high
    · rw [tier_outOfRange (by rw [toNat_byte hn]; exact high)] at hk
      cases hk
    · exact if_pos high

theorem tierSet_taken {k : TierNo} (body : r.body = tierBody k.val t) (low : t.allowance ≤ 1024) :
    exec .tierSet s = .next (State.answered { s with meter := { s.meter with
      tiers := s.meter.tiers.set k (some t) } } r .ok r.body) := by
  refine congrArg Host.Outcome.next (h.done answerTierSet _ (fun _ => r.body) ?_ h.agenda h.reset)
  unfold answerTierSet
  rw [body, tierOf_tierBody words, show byteAt (tierBody k.val t) 0 = byte k.val from rfl, tier_byte]
  dsimp only
  rw [if_neg (by omega)]
  simp [tierBody, planesWire]

end

/-- Settles O55: each body is read back as its entry; a class in use and a number out of range decide. -/
theorem tablesSet : Obligations.TablesSet := by
  intro s r rest
  constructor
  · intro n f sh w b h hn hf hsh hw hb body
    refine ⟨sizeSet_outOfRange h hn body, ?_⟩
    rintro c rfl
    refine ⟨fun used => sizeSet_inUse h body ((classInUse_iff c).mpr used), fun free => ?_⟩
    have unused : s.classInUse c = false := by
      rw [Bool.eq_false_iff, ne_eq, classInUse_iff]
      rintro ⟨j, x, hx, live, cls⟩
      rcases free j x hx with ended | other
      · rw [live] at ended; cases ended
      · exact other cls
    exact ⟨sizeSet_taken h hf hsh hw hb body unused, sizeSet_badValue h hf hsh hw hb body unused⟩
  · intro n base p0 p1 p2 p3 al h hn hbase h0 h1 h2 h3 hal body
    let t : Tier := { base := base, rates := { p0 := p0, p1 := p1, p2 := p2, p3 := p3 }, allowance := al }
    have words : t.Words := ⟨hbase, h0, h1, h2, h3, hal⟩
    refine ⟨tierSet_refused h words hn body, ?_⟩
    rintro k rfl
    exact tierSet_taken h words body

end Sys2Proof.Machine
end

section
/-! Dispatch (chapter 4), second part: eligibility and the choices of port and job (R59, R64, R68, R69, R74). -/

namespace Sys2Proof.Machine

variable {s : State} {j : Slot} {p : PortNo} {x : Job} {c : Capabilities}

/-! ## The first port of a kind -/

theorem find?_allPorts {f : PortNo → Bool} (h : allPorts.find? f = some p) : f p = true ∧ ∀ q < p, f q = false := by
  rw [List.find?_eq_some_iff_getElem] at h
  obtain ⟨holds, i, _, at_i, before⟩ := h
  refine ⟨holds, fun q below => ?_⟩
  have i_eq : i = p.val := by rw [← at_i]; simp [allPorts]
  have q_fails := before q.val (by rw [i_eq]; exact below)
  simpa [allPorts] using q_fails

theorem find?_allPorts_none {f : PortNo → Bool} (h : allPorts.find? f = none) (q : PortNo) : f q = false := by
  rw [List.find?_eq_none] at h
  exact Bool.eq_false_iff.mpr (h q (List.mem_finRange q))

/-! ## The choice of port (R69) -/

/-- The free port that a choice of R69 takes first among those a job is eligible for. -/
def State.firstAble (s : State) (j : Slot) (f : PortNo → Bool) : Option PortNo :=
  allPorts.find? fun q => s.eligible j q && f q

theorem choosePort_eq (s : State) (j : Slot) : s.choosePort j =
    (s.firstAble j fun q => (s.port q).owner = some j).or
      ((s.firstAble j fun q => (s.port q).owner = none).or (s.firstAble j fun _ => true)) := by
  have first (f : PortNo → Bool) : (allPorts.filter fun q => s.eligible j q).find? f = s.firstAble j f := by
    unfold State.firstAble
    simp only [List.find?_filter, Bool.decide_and, Bool.decide_eq_true]
  have lowest : (allPorts.filter fun q => s.eligible j q).head? = s.firstAble j fun _ => true := by
    simp only [State.firstAble, List.head?_filter, Bool.and_true]
  unfold State.choosePort
  dsimp only
  rw [first, first, lowest]
  cases s.firstAble j fun q => (s.port q).owner = some j with
  | some q => rfl
  | none => cases s.firstAble j fun q => (s.port q).owner = none <;> rfl

theorem firstAble_some {f : PortNo → Bool} (h : s.firstAble j f = some p) :
    s.eligible j p = true ∧ f p = true ∧ ∀ q < p, s.eligible j q = true → f q = false := by
  obtain ⟨holds, before⟩ := find?_allPorts h
  rw [Bool.and_eq_true] at holds
  refine ⟨holds.1, holds.2, fun q below able => ?_⟩
  have fails := before q below
  rwa [able, Bool.true_and] at fails

theorem firstAble_none {f : PortNo → Bool} (h : s.firstAble j f = none) (q : PortNo) (able : s.eligible j q = true) :
    f q = false := by
  have fails := find?_allPorts_none h q
  rwa [able, Bool.true_and] at fails

/-- R69: the lowest-numbered free port that holds the job's setup, else that holds none, else the lowest-numbered. -/
theorem choosePort_some (h : s.choosePort j = some p) :
    s.eligible j p = true
    ∧ (((s.port p).owner = some j ∧ ∀ q, q < p → s.eligible j q = true → (s.port q).owner ≠ some j)
      ∨ ((∀ q, s.eligible j q = true → (s.port q).owner ≠ some j)
        ∧ (s.port p).owner = none ∧ ∀ q, q < p → s.eligible j q = true → (s.port q).owner ≠ none)
      ∨ ((∀ q, s.eligible j q = true → (s.port q).owner ≠ some j ∧ (s.port q).owner ≠ none)
        ∧ ∀ q, q < p → s.eligible j q = false)) := by
  rw [choosePort_eq] at h
  cases own : s.firstAble j fun q => (s.port q).owner = some j with
  | some q =>
    rw [own, Option.some_or] at h
    cases h
    obtain ⟨able, mine, before⟩ := firstAble_some own
    exact ⟨able, .inl ⟨of_decide_eq_true mine, fun q below e => of_decide_eq_false (before q below e)⟩⟩
  | none =>
    have notMine q (e : s.eligible j q = true) := of_decide_eq_false (firstAble_none own q e)
    rw [own, Option.none_or] at h
    cases unowned : s.firstAble j fun q => (s.port q).owner = none with
    | some q =>
      rw [unowned, Option.some_or] at h
      cases h
      obtain ⟨able, nobody, before⟩ := firstAble_some unowned
      exact ⟨able, .inr (.inl ⟨notMine, of_decide_eq_true nobody, fun q below e => of_decide_eq_false (before q below e)⟩)⟩
    | none =>
      rw [unowned, Option.none_or] at h
      obtain ⟨able, _, before⟩ := firstAble_some h
      have owned q (e : s.eligible j q = true) := of_decide_eq_false (firstAble_none unowned q e)
      refine ⟨able, .inr (.inr ⟨fun q e => ⟨notMine q e, owned q e⟩, fun q below => ?_⟩)⟩
      exact Bool.eq_false_iff.mpr fun e => Bool.noConfusion (before q below e)

theorem choosePort_none (h : s.choosePort j = none) (p : PortNo) : s.eligible j p = false := by
  rw [choosePort_eq, Option.or_eq_none_iff, Option.or_eq_none_iff] at h
  obtain ⟨_, _, nothing⟩ := h
  exact Bool.eq_false_iff.mpr fun e => Bool.noConfusion (firstAble_none nothing p e)

/-! ## The choice of job (R68) -/

theorem chooseJob_some (h : s.chooseJob p = some j) : s.eligible j p = true
    ∧ ∃ before after, (List.finRange 8).flatMap s.readyAt = before ++ j :: after ∧ ∀ i ∈ before, s.eligible i p = false := by
  obtain ⟨able, before, after, order, fails⟩ := List.find?_eq_some_iff_append.mp h
  refine ⟨able, before, after, order, fun i at_i => ?_⟩
  simpa using fails i at_i

theorem mem_readyOrder : j ∈ s.readyOrder ↔ ∃ l, j ∈ s.readyAt l := by
  simp [State.readyOrder, List.mem_flatMap]

theorem chooseJob_ineligible (h : s.chooseJob p = none) (l : Level) (waits : j ∈ s.readyAt l) : s.eligible j p = false :=
  Bool.eq_false_iff.mpr (List.find?_eq_none.mp h j (mem_readyOrder.mpr ⟨l, waits⟩))

theorem chooseJob_assigns (h : s.chooseJob p = some j) : doTask (.chooseJob p) s = s.assign p j := by
  have able := (chooseJob_some h).1
  unfold State.eligible at able
  rw [Bool.and_eq_true] at able
  change s.seekJobNow p = _
  unfold State.seekJobNow
  rw [if_pos able.1, h]

theorem choosePort_assigns (queued : s.jobIs j .queued = true) (h : s.choosePort j = some p) :
    doTask (.choosePort j) s = s.assign p j := by
  change s.seekPortNow j = _
  unfold State.seekPortNow
  rw [if_pos queued, h]

/-- A job no longer QUEUED seeks no port (R61). -/
theorem choosePort_unqueued (h : s.jobIs j .queued = false) : doTask (.choosePort j) s = s := by
  change s.seekPortNow j = s
  unfold State.seekPortNow
  rw [h]
  rfl

/-! ## Presence and eligibility (R59, R64) -/

theorem PortState.counting_iff (st : PortState) :
    st.counting = true ↔ st ∈ [.identifying, .ready, .setup, .feeding, .draining, .stopped] := by
  cases st <;> decide

theorem loadedWith_iff (trays : List TrayItem) (stock : Byte) :
    loadedWith trays stock = true ↔ ∃ t ∈ trays, t.loaded = true ∧ t.stock = stock := by
  simp [loadedWith, List.any_eq_true]

theorem stockPresent_iff (s : State) (stock : Byte) : s.stockPresent stock = true ↔
    ∃ p : PortNo, (s.port p).state ∈ [.identifying, .ready, .setup, .feeding, .draining, .stopped]
      ∧ ∃ t ∈ (s.port p).trays, t.loaded = true ∧ t.stock = stock := by
  simp only [State.stockPresent, allPorts, List.any_eq_true, List.mem_finRange, true_and, Bool.and_eq_true,
    PortState.counting_iff, loadedWith_iff]

theorem free_iff : s.free p = true ↔ (s.port p).state = .ready ∧ (s.port p).held = false ∧ s.assignment p = none := by
  simp [State.free, and_assoc]

theorem Job.allowsClass_iff (x : Job) (cls : Option PortClass) : x.allowsClass cls = true ↔
    (cls = some .sheet ∧ x.onSheet = true) ∨ (cls = some .roll ∧ x.onRoll = true) := by
  cases cls with
  | none => simp [Job.allowsClass]
  | some k => cases k <;> simp [Job.allowsClass]

/-- The conditions of R64 on a job and what a port can do, but for availability. -/
theorem eligibleIgnoring_of (hx : s.job j = some x) (hc : (s.port p).caps = some c) : s.eligibleIgnoring j p = true ↔
    (((s.port p).cls = some .sheet ∧ x.onSheet = true) ∨ ((s.port p).cls = some .roll ∧ x.onRoll = true))
    ∧ x.barred ≠ some p ∧ (x.pinned = none ∨ x.pinned = some p)
    ∧ c.classes.getLsbD x.sizeClass.val = true
    ∧ (c.colour = true ∨ x.colour = false) ∧ (c.duplex = true ∨ x.sides = 1)
    ∧ (∃ t ∈ (s.port p).trays, t.loaded = true ∧ t.stock = x.stock)
    ∧ x.refusedBy[p] = false
    ∧ ((s.account x.account).state = .opened ∨ (s.account x.account).state = .low)
    ∧ s.gateMet j x.next = true := by
  unfold State.eligibleIgnoring
  rw [hx, hc]
  simp only [Bool.and_eq_true, Bool.or_eq_true, Bool.not_eq_true', decide_eq_true_eq, Job.allowsClass_iff, loadedWith_iff,
    AccountState.good_iff, and_assoc]

theorem eligibleIgnoring_known (h : s.eligibleIgnoring j p = true) :
    ∃ x c, s.job j = some x ∧ (s.port p).caps = some c := by
  unfold State.eligibleIgnoring at h
  split at h
  · rename_i x c hx hc
    exact ⟨x, c, hx, hc⟩
  · cases h

theorem eligibleIgnoring_iff (s : State) (j : Slot) (p : PortNo) : s.eligibleIgnoring j p = true ↔
    ∃ (x : Job) (c : Capabilities), s.job j = some x ∧ (s.port p).caps = some c
      ∧ (((s.port p).cls = some .sheet ∧ x.onSheet = true) ∨ ((s.port p).cls = some .roll ∧ x.onRoll = true))
      ∧ x.barred ≠ some p ∧ (x.pinned = none ∨ x.pinned = some p)
      ∧ c.classes.getLsbD x.sizeClass.val = true
      ∧ (c.colour = true ∨ x.colour = false) ∧ (c.duplex = true ∨ x.sides = 1)
      ∧ (∃ t ∈ (s.port p).trays, t.loaded = true ∧ t.stock = x.stock)
      ∧ x.refusedBy[p] = false
      ∧ ((s.account x.account).state = .opened ∨ (s.account x.account).state = .low)
      ∧ s.gateMet j x.next = true := by
  constructor
  · intro h
    obtain ⟨x, c, hx, hc⟩ := eligibleIgnoring_known h
    exact ⟨x, c, hx, hc, (eligibleIgnoring_of hx hc).mp h⟩
  · rintro ⟨x, c, hx, hc, h⟩
    exact (eligibleIgnoring_of hx hc).mpr h

/-! ## The signal to feeding ports (R74) -/

theorem signalled_sorted (s : State) (j : Slot) : (s.signalled j).Pairwise (· < ·) :=
  (List.pairwise_lt_finRange 12).filter _

theorem mem_signalled (hx : s.job j = some x) : p ∈ s.signalled j ↔
    (s.port p).state = .feeding
    ∧ (∃ (i : Slot) (y : Job), s.assigned p = some i ∧ s.job i = some y ∧ x.level < y.level)
    ∧ s.eligibleIgnoring j p = true := by
  unfold State.signalled State.assignedJob
  rw [hx]
  simp only [List.mem_filter, allPorts, List.mem_finRange, true_and, Bool.and_eq_true, decide_eq_true_eq, and_assoc]
  refine and_congr_right fun _ => and_congr_left fun _ => ?_
  cases hi : s.assigned p with
  | none => simp
  | some i => cases hy : s.job i <;> simp [hy]

theorem jobIs_iff_of {st : JobState} (hx : s.job j = some x) : s.jobIs j st = true ↔ x.state = st := by
  unfold State.jobIs
  rw [hx]
  exact decide_eq_true_iff

/-- Settles O32: each choice is the first port or job of its list that qualifies. -/
theorem choicesOfPortAndJob : Obligations.ChoicesOfPortAndJob := by
  intro s
  refine ⟨fun j p => choosePort_some, fun j => choosePort_none, fun p j => chooseJob_some,
    fun p none l j => chooseJob_ineligible none l, stockPresent_iff s, fun j p => ?_, eligibleIgnoring_iff s,
    fun j x hx => ⟨fun queued => ?_, fun other => ?_, signalled_sorted s j, fun p => mem_signalled hx⟩,
    fun p => ⟨fun j => chooseJob_assigns, chooseJob_none p⟩⟩
  · unfold State.eligible
    rw [Bool.and_eq_true, free_iff]
  · have waits := jobIs_of hx queued
    exact ⟨fun p => choosePort_assigns waits, choosePort_noop j, signalPorts_posts waits⟩
  · have gone : s.jobIs j .queued = false := Bool.eq_false_iff.mpr (mt (jobIs_iff_of hx).mp other)
    exact ⟨choosePort_unqueued gone, signalPorts_noop gone⟩

end Sys2Proof.Machine
end

section
/-! Feeding sheets (chapter 6): the sheet-boundary decision and the boundary test (R72, R77, R103). -/

namespace Sys2Proof.Machine

variable {s : State} {p : PortNo} {i j : Slot} {x : Job} {a : Assignment}

/-! ## The boundary test (R72) -/

theorem waitsBelow_iff (n : Nat) : s.waitsBelow p n = true ↔
    ∃ (l : Level) (i : Slot), l.val < n ∧ i ∈ s.readyAt l ∧ s.eligibleIgnoring i p = true := by
  simp only [State.waitsBelow, List.any_eq_true, List.mem_finRange, true_and, Bool.and_eq_true, decide_eq_true_eq]
  exact ⟨fun ⟨l, below, i, h⟩ => ⟨l, i, below, h⟩, fun ⟨l, i, below, h⟩ => ⟨l, below, i, h⟩⟩

theorem waitsBelow_none {n : Nat}
    (h : ∀ (l : Level) (i : Slot), l.val < n → i ∈ s.readyAt l → s.eligibleIgnoring i p = false) :
    s.waitsBelow p n = false := by
  rw [Bool.eq_false_iff, Ne, waitsBelow_iff]
  rintro ⟨l, i, below, waits, able⟩
  rw [h l i below waits] at able
  cases able

theorem boundaryTest_urgent (h : s.waitsBelow p x.level.val = true) : s.boundaryTest p x = .urgent := if_pos h

theorem boundaryTest_slice (calm : s.waitsBelow p x.level.val = false) (flag : x.slice = true)
    (waits : s.waitsBelow p (x.level.val + 1) = true) : s.boundaryTest p x = .slice := by
  unfold State.boundaryTest
  rw [if_neg (by simp [calm]), if_pos (by simp [flag, waits])]

theorem boundaryTest_goOn (calm : s.waitsBelow p x.level.val = false)
    (h : x.slice = false ∨ s.waitsBelow p (x.level.val + 1) = false) : s.boundaryTest p x = .goOn := by
  unfold State.boundaryTest
  rw [if_neg (by simp [calm]), if_neg (by rcases h with h | h <;> simp [h])]

/-! ## The decision by its cause (R103) -/

section
variable (feeds : (s.port p).state = .feeding) (at_p : s.assigned p = some j) (hx : s.job j = some x)
include feeds at_p hx

theorem runDecision_stops {c : DrainCause} (h : s.stopCause p x = some c) : s.runDecision p = s.stopFeeding p c := by
  have job : s.assignedJob p = some x := (assignedJob_of s p j at_p).trans hx
  unfold State.runDecision
  rw [if_neg (not_not.mpr feeds), at_p, job]
  dsimp only
  rw [h]

/-- With no cause of its own the port goes by the boundary test's answer (R72). -/
theorem runDecision_answered (h : s.stopCause p x = none) :
    (s.boundaryTest p x = .urgent → s.runDecision p = s.stopFeeding p .urgent)
    ∧ (s.boundaryTest p x = .slice →
      s.runDecision p = (s.setJob j (some { x with slice := false })).stopFeeding p .slice)
    ∧ (s.boundaryTest p x = .goOn → s.runDecision p = (s.restartSlice p j x).waitOrStart p j) := by
  have job : s.assignedJob p = some x := (assignedJob_of s p j at_p).trans hx
  unfold State.runDecision
  rw [if_neg (not_not.mpr feeds), at_p, job]
  dsimp only
  rw [h]
  exact ⟨fun e => by rw [e], fun e => by rw [e], fun e => by rw [e]⟩

end

/-! ## Steps 1 to 4: the causes of the port and its job -/

theorem stopCause_hold (h : (s.port p).held = true) : s.stopCause p x = some .hold := if_pos h

section
variable (free : (s.port p).held = false)
include free

theorem stopCause_flags (h : x.cancel = true ∨ x.suspend = true ∨ x.lossCount = 5) : s.stopCause p x = some .flags := by
  have flagged : (x.cancel || x.suspend || x.failing) = true := by
    rw [Bool.or_eq_true, Bool.or_eq_true, Job.failing_iff, or_assoc]
    exact h
  unfold State.stopCause
  rw [free, if_neg Bool.false_ne_true, if_pos flagged]

variable (cancel : x.cancel = false) (suspend : x.suspend = false) (loss : x.lossCount ≠ 5)
include cancel suspend loss

/-- Past step 2 the account decides first (R103). -/
theorem stopCause_unflagged : s.stopCause p x =
    if (s.account x.account).state.stops then some .account
    else if x.next = x.total then some .endOfJob
    else if !loadedWith (s.port p).trays x.stock then some .noTray
    else none := by
  have failing : x.failing = false := Bool.eq_false_iff.mpr (mt x.failing_iff.mp loss)
  unfold State.stopCause
  rw [free, cancel, suspend, failing]
  rfl

theorem stopCause_account (h : (s.account x.account).state = .held ∨ (s.account x.account).state = .closed) :
    s.stopCause p x = some .account := by
  rw [stopCause_unflagged free cancel suspend loss, if_pos ((AccountState.stops_iff _).mpr h)]

variable (held : (s.account x.account).state ≠ .held) (closed : (s.account x.account).state ≠ .closed)
include held closed

/-- Past step 3 the end of the job and its stock decide (R103). -/
theorem stopCause_served : s.stopCause p x =
    if x.next = x.total then some .endOfJob
    else if !loadedWith (s.port p).trays x.stock then some .noTray
    else none := by
  have serves : ¬(s.account x.account).state.stops = true := by
    rw [AccountState.stops_iff]
    exact not_or.mpr ⟨held, closed⟩
  rw [stopCause_unflagged free cancel suspend loss, if_neg serves]

theorem stopCause_end (h : x.next = x.sheets * x.copies) : s.stopCause p x = some .endOfJob :=
  (stopCause_served free cancel suspend loss held closed).trans (if_pos h)

theorem stopCause_noTray (more : x.next ≠ x.sheets * x.copies) (h : loadedWith (s.port p).trays x.stock = false) :
    s.stopCause p x = some .noTray := by
  rw [stopCause_served free cancel suspend loss held closed, h]
  exact if_neg more

theorem stopCause_none (more : x.next ≠ x.sheets * x.copies) (h : loadedWith (s.port p).trays x.stock = true) :
    s.stopCause p x = none := by
  rw [stopCause_served free cancel suspend loss held closed, h]
  exact if_neg more

end

/-! ## The slice restarted (R77) -/

/-- The state in which a running job's SLICE flag is cleared and its slice timer starts again (R77). -/
def State.sliceRestarted (s : State) (p : PortNo) (j : Slot) (x : Job) (a : Assignment) : State :=
  (s.setJob j (some { x with slice := false })).setAssignment p (some { a with slice := s.sliceTimer x.level })

theorem restartSlice_flagged (flag : x.slice = true) (ha : s.assignment p = some a) :
    s.restartSlice p j x = s.sliceRestarted p j x a := by
  unfold State.restartSlice
  rw [if_pos flag]
  dsimp only
  rw [State.setJob_assignment, ha]
  rfl

theorem restartSlice_unflagged (flag : x.slice = false) : s.restartSlice p j x = s := if_neg (by simp [flag])

/-- With nothing more urgent waiting and no SLICE flag the decision goes on past the boundary test (R72). -/
theorem runDecision_waits (feeds : (s.port p).state = .feeding) (at_p : s.assigned p = some j) (hx : s.job j = some x)
    (cause : s.stopCause p x = none) (calm : s.waitsBelow p x.level.val = false) (flag : x.slice = false) :
    s.runDecision p = s.waitOrStart p j := by
  obtain ⟨_, _, goesOn⟩ := runDecision_answered feeds at_p hx cause
  rw [goesOn (boundaryTest_goOn calm (.inl flag)), restartSlice_unflagged flag]

/-- A slice restarted makes no job eligible that was not (R64 does not speak of the SLICE flag). -/
theorem sliceRestarted_eligible (hx : s.job j = some x) (i : Slot) (q : PortNo) :
    (s.sliceRestarted p j x a).eligibleIgnoring i q = s.eligibleIgnoring i q := by
  have port : (s.sliceRestarted p j x a).port q = s.port q := rfl
  by_cases own : i = j
  · subst own
    have job : (s.sliceRestarted p i x a).job i = some { x with slice := false } := by simp [State.sliceRestarted]
    unfold State.eligibleIgnoring State.gateMet
    rw [job, hx, port]
    cases (s.port q).caps <;> rfl
  · have job : (s.sliceRestarted p j x a).job i = s.job i := by simp [State.sliceRestarted, Ne.symm own]
    unfold State.eligibleIgnoring State.gateMet
    rw [job]
    rfl

/-- With nothing waiting for it the decision of a job whose slice is restarted is the rest of the one under way (R77, R103). -/
theorem runDecision_restarts (feeds : (s.port p).state = .feeding) (ha : s.assignment p = some a) (slot : a.slot = j)
    (hx : s.job j = some x) (cause : s.stopCause p x = none) (flag : x.slice = true)
    (none : s.waitsBelow p (x.level.val + 1) = false) (calm : s.waitsBelow p x.level.val = false) :
    s.runDecision p = (s.sliceRestarted p j x a).runDecision p := by
  have at_p : s.assigned p = some j := by unfold State.assigned; rw [ha, ← slot]; rfl
  have now : s.runDecision p = (s.sliceRestarted p j x a).waitOrStart p j := by
    obtain ⟨_, _, goesOn⟩ := runDecision_answered feeds at_p hx cause
    rw [goesOn (boundaryTest_goOn calm (.inr none)), restartSlice_flagged flag ha]
  have waits n : (s.sliceRestarted p j x a).waitsBelow p n = s.waitsBelow p n := by
    unfold State.waitsBelow
    simp only [sliceRestarted_eligible hx]
    rfl
  have job : (s.sliceRestarted p j x a).job j = some { x with slice := false } := by simp [State.sliceRestarted]
  have assigned : (s.sliceRestarted p j x a).assigned p = some j := by
    simp [State.assigned, State.sliceRestarted, slot]
  rw [now, runDecision_waits (s := s.sliceRestarted p j x a) feeds assigned job cause ((waits _).trans calm) rfl]

/-! ## Steps 6 to 9: log room, the gate, path room and the start -/

section
variable (hx : s.job j = some x)
include hx

theorem waitOrStart_log (stall : s.meter.policy = .stall) (full : 256 ≤ s.meter.log.length + s.meter.reservations) :
    s.waitOrStart p j = s.waitFor p .log := by
  unfold State.waitOrStart
  rw [hx]
  exact if_pos (by simp [State.logFull, stall, full])

variable (room : s.meter.policy ≠ .stall ∨ s.meter.log.length + s.meter.reservations < 256)
include room

theorem waitOrStart_room : s.waitOrStart p j =
    if !s.gateMet j x.next then s.waitForGate p
    else if (s.port p).depth ≤ (s.port p).path.length then s.waitFor p .path
    else s.startSheet p j x := by
  have notFull : s.logFull = false := by
    rcases room with policy | below
    · simp [State.logFull, policy]
    · simp [State.logFull, Nat.not_le.mpr below]
  unfold State.waitOrStart
  rw [hx]
  exact if_neg (by simp [notFull])

theorem waitOrStart_gate (h : s.gateMet j x.next = false) : s.waitOrStart p j = s.waitForGate p := by
  rw [waitOrStart_room hx room, h]
  rfl

theorem waitOrStart_path (h : s.gateMet j x.next = true) (full : (s.port p).depth ≤ (s.port p).path.length) :
    s.waitOrStart p j = s.waitFor p .path := by
  rw [waitOrStart_room hx room, h]
  exact if_pos full

theorem waitOrStart_starts (h : s.gateMet j x.next = true) (free : (s.port p).path.length < (s.port p).depth) :
    s.waitOrStart p j = s.startSheet p j x := by
  rw [waitOrStart_room hx room, h]
  exact if_neg (Nat.not_le.mpr free)

end

/-- Settles O33: the cause to stop feeding, then the boundary test's answer, then what the port waits for. -/
theorem decisionOrder : Obligations.DecisionOrder := by
  intro s p j x feeds at_p hx
  have stops {c : DrainCause} (h : s.stopCause p x = some c) := runDecision_stops feeds at_p hx h
  refine ⟨fun held => stops (stopCause_hold held), fun free => ⟨fun flags => stops (stopCause_flags free flags),
    fun cancel suspend loss => ⟨fun account => stops (stopCause_account free cancel suspend loss account),
    fun held closed => ⟨fun ends => stops (stopCause_end free cancel suspend loss held closed ends),
    fun more => ⟨fun tray => stops (stopCause_noTray free cancel suspend loss held closed more tray), fun tray => ?_⟩⟩⟩⟩⟩
  have cause := stopCause_none free cancel suspend loss held closed more tray
  obtain ⟨urgent, slice, _⟩ := runDecision_answered feeds at_p hx cause
  refine ⟨?urgent, fun calm flag => ⟨?slice, fun nobody a ha => ?restart⟩, fun calm flag => ?goesOn⟩
  case urgent =>
    exact fun waits => urgent (boundaryTest_urgent ((waitsBelow_iff _).mpr waits))
  case slice =>
    rintro ⟨l, i, level, waits⟩
    exact slice (boundaryTest_slice (waitsBelow_none calm) flag
      ((waitsBelow_iff _).mpr ⟨l, i, Nat.lt_succ_of_le level, waits⟩))
  case restart =>
    have slot : a.slot = j := by simpa [State.assigned, ha] using at_p
    exact runDecision_restarts feeds ha slot hx cause flag
      (waitsBelow_none fun l i below => nobody l i (Nat.le_of_lt_succ below)) (waitsBelow_none calm)
  case goesOn =>
    rw [runDecision_waits feeds at_p hx cause (waitsBelow_none calm) flag]
    exact ⟨waitOrStart_log hx, fun room => ⟨waitOrStart_gate hx room,
      fun met => ⟨waitOrStart_path hx room met, waitOrStart_starts hx room met⟩⟩⟩

end Sys2Proof.Machine
end

section
/-! Engine ports (chapter 5): PORT_HOLD and PORT_RELEASE (R95, R96). -/

namespace Sys2Proof.Machine

variable {s t : State} {r : Request} {rest : List Request} {p : PortNo} {j : Slot} {y : Job} {b : Bool}

/-! ## The held flag -/

theorem setHeld_port : (s.setHeld p b).port p = { s.port p with held := b } := by
  simp [State.setHeld, State.notifyPort]

@[simp] theorem setHeld_agenda : (s.setHeld p b).agenda = s.agenda := by simp [State.setHeld, State.notifyPort]
@[simp] theorem setHeld_job : (s.setHeld p b).job j = s.job j := by simp [State.setHeld, State.notifyPort]
@[simp] theorem setHeld_readyAt (l : Level) : (s.setHeld p b).readyAt l = s.readyAt l := by
  simp [State.setHeld, State.notifyPort, State.readyAt]
@[simp] theorem setHeld_assigned : (s.setHeld p b).assigned p = s.assigned p := by
  simp [State.setHeld, State.notifyPort, State.assigned]
@[simp] theorem setHeld_partTime : (s.setHeld p b).partTime = s.partTime := by simp [State.setHeld, State.notifyPort]
@[simp] theorem setHeld_reset : (s.setHeld p b).link.reset = s.link.reset := by simp [State.setHeld, State.notifyPort]

theorem setHeld_state : ((s.setHeld p b).port p).state = (s.port p).state := by rw [setHeld_port]

/-! ## A request about one port (R95, R96) -/

/-- What a request comes to that names a port and is answered with its state (R95, R96, R97). -/
theorem State.Takes.portSettled {kind : Byte} {n : Nat} {u : State} {f : PortNo → Answer} (h : s.Takes kind r rest)
    (hb : r.body = [byte p.val]) (e : f p = .done u (fun s' => [s'.portCode p])) (hr : u.link.reset = .none)
    (run : Runs n u t) (fuel : n ≤ 65536) :
    (s.serve kind (fun _ body => withPort body f)).finish = t.answered r .ok [(t.port p).state.code] := by
  have asks : withPort r.body f = f p := by
    unfold withPort
    rw [hb, show byteAt [byte p.val] 0 = byte p.val from rfl, port_byte]
  rw [h.settled _ u _ (asks.trans e) hr, run.settle fuel]
  rfl

/-! ## PORT_HOLD (R95, R104) -/

section
variable (h : s.Takes 0x30 r rest) (hb : r.body = [byte p.val])
include h hb

theorem execPortHold_held (held : (s.port p).held = true) :
    exec .portHold s = .next (s.answered r .ok [(s.port p).state.code]) :=
  congrArg Host.Outcome.next (h.portSettled hb (if_pos held) h.reset (Runs.idle h.agenda) (by omega))

theorem execPortHold_free {n : Nat} (held : (s.port p).held = false) (run : Runs n ((s.setHeld p true).post (.decide p)) t)
    (fuel : n ≤ 65536) : exec .portHold s = .next (t.answered r .ok [(t.port p).state.code]) :=
  congrArg Host.Outcome.next
    (h.portSettled hb (if_neg (by simp [held])) (setHeld_reset.trans h.reset) run fuel)

theorem execPortHold_rests (held : (s.port p).held = false) (rests : (s.port p).state ≠ .feeding) :
    exec .portHold s = .next ((s.setHeld p true).answered r .ok [(s.port p).state.code]) := by
  have run : Runs 1 ((s.setHeld p true).post (.decide p)) (s.setHeld p true) :=
    Runs.noop (setHeld_agenda.trans h.agenda) (decide_noop p (by rwa [setHeld_state]))
  rw [execPortHold_free h hb held run (by omega), setHeld_state]

/-- R95, R104: a FEEDING port held stops feeding; with sheets in its path it waits for them. -/
theorem execPortHold_feeding (held : (s.port p).held = false) (feeds : (s.port p).state = .feeding)
    (at_p : s.assigned p = some j) (hy : s.job j = some y) (sheets : (s.port p).path ≠ []) :
    exec .portHold s =
      .next (((s.setHeld p true).drains p .hold).answered r .ok [PortState.draining.code]) := by
  have stops : doTask (.decide p) (s.setHeld p true) = ((s.setHeld p true).drains p .hold).post (.afterRemoval p) := by
    have feeding : ((s.setHeld p true).port p).state = .feeding := setHeld_state.trans feeds
    change (s.setHeld p true).runDecision p = _
    rw [runDecision_stops feeding (setHeld_assigned.trans at_p) (setHeld_job.trans hy)
      (stopCause_hold (by rw [setHeld_port])), stopFeeding_eq _ _ feeding]
  have drained : ((s.setHeld p true).drains p .hold).port p = ((s.setHeld p true).port p).stopped DrainCause.hold s.partTime := by
    simp [State.drains, State.notifyPort]
  have idle : ((s.setHeld p true).drains p .hold).agenda = [] := by simp [State.drains, State.notifyPort, h.agenda]
  have waits : Runs 1 (((s.setHeld p true).drains p .hold).post (.afterRemoval p)) ((s.setHeld p true).drains p .hold) :=
    Runs.noop idle (afterRemoval_waits (by rw [drained]; rfl) (by rw [drained, setHeld_port]; exact sheets))
  rw [execPortHold_free h hb held (Runs.post (setHeld_agenda.trans h.agenda) (by rw [stops]; exact waits)) (by omega), drained]
  rfl

end

/-! ## PORT_RELEASE (R68, R96) -/

section
variable (h : s.Takes 0x31 r rest) (hb : r.body = [byte p.val])
include h hb

theorem execPortRelease_free (held : (s.port p).held = false) :
    exec .portRelease s = .next (s.answered r .ok [(s.port p).state.code]) :=
  congrArg Host.Outcome.next (h.portSettled hb (if_neg (by simp [held])) h.reset (Runs.idle h.agenda) (by omega))

/-- A port released that does not feed decides nothing; the choice of job gives it what it gives it (R68, R96). -/
theorem execPortRelease_held (held : (s.port p).held = true) (rests : (s.port p).state ≠ .feeding)
    (gives : doTask (.chooseJob p) (s.setHeld p false) = t) (idle : t.agenda = []) :
    exec .portRelease s = .next (t.answered r .ok [(t.port p).state.code]) := by
  have quiet : (s.setHeld p false).agenda = [] := setHeld_agenda.trans h.agenda
  have decides : doTask (.decide p) (s.setHeld p false) = s.setHeld p false := decide_noop p (by rwa [setHeld_state])
  have run : Runs 2 (((s.setHeld p false).post (.decide p)).post (.chooseJob p)) t :=
    Runs.post_post (n := 0) (m := 1) quiet (by rw [decides]; exact Runs.idle quiet)
      (Runs.post quiet (by rw [gives]; exact Runs.idle idle))
  exact congrArg Host.Outcome.next
    (h.portSettled hb (if_pos held) (setHeld_reset.trans h.reset) run (by omega))

theorem execPortRelease_rests (held : (s.port p).held = true) (rests : (s.port p).state ≠ .feeding)
    (nothing : (s.port p).state ≠ .ready ∨ s.noneReady) :
    exec .portRelease s = .next ((s.setHeld p false).answered r .ok [(s.port p).state.code]) := by
  have stays : doTask (.chooseJob p) (s.setHeld p false) = s.setHeld p false := by
    rcases nothing with busy | empty
    · refine chooseJob_noop p ?_
      rw [Bool.eq_false_iff, Ne, free_iff, setHeld_state]
      exact fun free => busy free.1
    · exact chooseJob_none p (chooseJob_noneReady (fun l => (setHeld_readyAt l).trans (empty l)))
  rw [execPortRelease_held h hb held rests stays (setHeld_agenda.trans h.agenda), setHeld_state]

theorem execPortRelease_takes (held : (s.port p).held = true) (ready : (s.port p).state = .ready)
    (chosen : (s.setHeld p false).chooseJob p = some j) (hy : s.job j = some y) (queued : y.state = .queued)
    (other : (s.port p).owner ≠ some j) :
    exec .portRelease s = .next (((s.setHeld p false).assign p j).answered r .ok [PortState.setup.code]) := by
  have setup := assign_setup (s := s.setHeld p false) (setHeld_job.trans hy) (by rw [queued]; decide) (setHeld_state.trans ready)
    (by rw [setHeld_port]; exact other)
  have idle : ((s.setHeld p false).assign p j).agenda = [] := by rw [setup]; simp [State.notifyPort, h.agenda]
  have state : (((s.setHeld p false).assign p j).port p).state = .setup := by
    rw [setup]
    simp [State.notifyPort, queueOut_state]
  rw [execPortRelease_held h hb held (by rw [ready]; decide) (chooseJob_assigns chosen) idle, state]

end

/-- Settles O43: the flag changes with its notice, then the port decides and a released one chooses. -/
theorem holdAndRelease : Obligations.HoldAndRelease := by
  intro s r rest p hb x turned
  refine ⟨fun h => ⟨execPortHold_held h hb, execPortHold_rests h hb, fun j y held feeds at_p hy sheets => ?_⟩,
    fun h => ⟨execPortRelease_free h hb, execPortRelease_rests h hb,
      fun j y held ready _ chosen hy queued other => execPortRelease_takes h hb held ready chosen hy queued other⟩⟩
  rw [execPortHold_feeding h hb held feeds at_p hy sheets]
  unfold State.drains
  rw [setHeld_port, setHeld_assigned, at_p, setHeld_partTime]
  rfl

end Sys2Proof.Machine
end

section
/-! The meter log (chapter 9): METER_POLICY, METER_READ, the report of log room and the writing of a record (R105, R165 to R170). -/

namespace Sys2Proof.Machine

variable {s t u : State} {r : Request} {rest : List Request} {p q : PortNo} {n : Nat}

/-- What a request comes to whose consequences come to an end (R7, R184). -/
theorem State.Takes.ran {kind : Byte} {body : State → List Byte} (h : s.Takes kind r rest) (owner : State → List Byte → Answer)
    (e : owner s r.body = .done u body) (hr : u.link.reset = .none) (run : Runs n u t) (fuel : n ≤ 65536) :
    (s.serve kind owner).finish = t.answered r .ok (body t) := by
  rw [h.settled owner u body e hr, run.settle fuel]

/-! ## The report to feeding ports (R105, R167) -/

theorem decideEach_none {ps : List PortNo} (h : s.feedingAmong ps = []) : doTask (.decideEach ps) s = s := by
  change s.decideEachNow ps = s
  unfold State.decideEachNow
  rw [h]

theorem decideEach_one {ps : List PortNo} (h : s.feedingAmong ps = [q]) :
    doTask (.decideEach ps) s = s.post (.decide q) := by
  change s.decideEachNow ps = _
  unfold State.decideEachNow
  rw [h]

/-- Where several ports feed, one of them takes the report before the others (log entry 1). -/
theorem decideEach_several {ps : List PortNo} (several : 2 ≤ (s.feedingAmong ps).length) :
    ∃ q ∈ s.feedingAmong ps, doTask (.decideEach ps) s =
      (({ s with choices := s.choices + 1 } : State).post (.decide q)).post
        (.decideEach ((s.feedingAmong ps).filter (fun p => p ≠ q))) := by
  change ∃ q ∈ s.feedingAmong ps, s.decideEachNow ps = _
  unfold State.decideEachNow
  match e : s.feedingAmong ps with
  | [] => simp [e] at several
  | [q] => simp [e] at several
  | q :: q' :: qs =>
    refine ⟨(q :: q' :: qs).getD (Config.arbiter s.choices (q :: q' :: qs).length % (q :: q' :: qs).length) q, ?_, rfl⟩
    have within : Config.arbiter s.choices (q :: q' :: qs).length % (q :: q' :: qs).length < (q :: q' :: qs).length :=
      Nat.mod_lt _ (by simp)
    rw [List.getD_eq_getElem _ _ within]
    exact List.getElem_mem within

theorem roomReport_posts : doTask .roomReport s = s.post (.decideEach allPorts) := rfl

theorem feedingAmong_none (h : ∀ p, (s.port p).state ≠ .feeding) (ps : List PortNo) : s.feedingAmong ps = [] := by
  unfold State.feedingAmong
  rw [List.filter_eq_nil_iff]
  intro p _
  simpa using h p

theorem feedingAmong_one (feeds : (s.port p).state = .feeding) (alone : ∀ q, q ≠ p → (s.port q).state ≠ .feeding) :
    s.feedingAmong allPorts = [p] := by
  have only : (fun q => decide ((s.port q).state = .feeding)) = fun q => q == p := by
    funext q
    by_cases e : q = p
    · subst e
      simp [feeds]
    · simp [e, alone q e]
  unfold State.feedingAmong
  have once : List.count p allPorts = 1 := List.count_eq_one_of_mem (List.nodup_finRange 12) (List.mem_finRange p)
  rw [only, List.filter_beq, once]
  rfl

/-- With no port feeding the report comes to nothing (R106). -/
theorem runs_roomReport_none (idle : s.agenda = []) (h : ∀ p, (s.port p).state ≠ .feeding) :
    Runs 2 (s.post .roomReport) s := by
  refine Runs.post idle ?_
  rw [roomReport_posts]
  exact Runs.noop idle (decideEach_none (feedingAmong_none h _))

/-- The one feeding port decides, and what it posts is carried through (R105). -/
theorem runs_roomReport_one (idle : s.agenda = []) (feeds : (s.port p).state = .feeding)
    (alone : ∀ q, q ≠ p → (s.port q).state ≠ .feeding) (run : Runs n (s.runDecision p) t) :
    Runs (n + 3) (s.post .roomReport) t := by
  refine Runs.post (n := n + 2) idle ?_
  rw [roomReport_posts]
  refine Runs.post (n := n + 1) idle ?_
  rw [decideEach_one (feedingAmong_one feeds alone)]
  exact Runs.post idle run

/-- A sheet started makes its port decide again (R110). -/
theorem runs_again (again : s.agenda = [.decide p]) (done : (({ s with agenda := [] } : State).runDecision p).agenda = []) :
    Runs 1 s (({ s with agenda := [] } : State).runDecision p) := by
  have posted := post_of_agenda again
  have run : Runs 1 (State.post { s with agenda := [] } (.decide p)) (({ s with agenda := [] } : State).runDecision p) :=
    Runs.post (n := 0) rfl (Runs.idle done)
  rwa [← posted] at run

/-! ## METER_POLICY (R168) -/

theorem LogPolicy.ofCode?_code (k : LogPolicy) : LogPolicy.ofCode? k.code = some k := by cases k <;> decide

theorem LogPolicy.ofCode?_none {b : Byte} (h : ∀ k : LogPolicy, k.code ≠ b) : LogPolicy.ofCode? b = none := by
  have keep : b ≠ 0 := (h .keep).symm
  have wrap : b ≠ 1 := (h .wrap).symm
  have stall : b ≠ 2 := (h .stall).symm
  unfold LogPolicy.ofCode?
  rw [if_neg keep, if_neg wrap, if_neg stall]

/-- What a METER_POLICY comes to for a known policy, before what it posts (R168). -/
theorem answerMeterPolicy_known {asked : LogPolicy} {b : List Byte} (hb : b = [asked.code]) : answerMeterPolicy s b =
    if s.meter.policy = asked then .done s (fun s'' => meterPolicyBody s''.meter)
    else if s.meter.policy = .stall then .done ((s.setPolicy asked 0).post .roomReport) (fun s'' => meterPolicyBody s''.meter)
    else if asked = .stall then
      if s.meter.log.length + s.sheetsInFlight ≤ 256 then
        .done (s.setPolicy .stall s.sheetsInFlight) (fun s'' => meterPolicyBody s''.meter)
      else .refuse .badState
    else .done (s.setPolicy asked s.meter.reservations) (fun s'' => meterPolicyBody s''.meter) := by
  unfold answerMeterPolicy
  rw [hb, show byteAt [asked.code] 0 = asked.code from rfl, LogPolicy.ofCode?_code]

section
variable (h : s.Takes 0x55 r rest)
include h

theorem execMeterPolicy_unknown {b : Byte} (hb : r.body = [b]) (unknown : ∀ k : LogPolicy, k.code ≠ b) :
    exec .meterPolicy s = .next (s.answered r .badField []) := by
  refine congrArg Host.Outcome.next (h.refused answerMeterPolicy .badField ?_)
  unfold answerMeterPolicy
  rw [hb, show byteAt [b] 0 = b from rfl, LogPolicy.ofCode?_none unknown]

variable {asked : LogPolicy} (hb : r.body = [asked.code])
include hb

theorem execMeterPolicy_same (same : s.meter.policy = asked) :
    exec .meterPolicy s = .next ((s.setPolicy asked s.meter.reservations).answered r .ok
      (meterPolicyBody (s.setPolicy asked s.meter.reservations).meter)) := by
  subst same
  exact congrArg Host.Outcome.next
    (h.ran answerMeterPolicy ((answerMeterPolicy_known hb).trans (if_pos rfl)) h.reset (Runs.idle h.agenda) (by omega))

/-- Under STALL the change is reported to the ports before the reply (R66, R167). -/
theorem execMeterPolicy_leaves (change : s.meter.policy ≠ asked) (stall : s.meter.policy = .stall)
    (run : Runs n ((s.setPolicy asked 0).post .roomReport) t) (fuel : n ≤ 65536) :
    exec .meterPolicy s = .next (t.answered r .ok (meterPolicyBody t.meter)) := by
  have e : answerMeterPolicy s r.body =
      .done ((s.setPolicy asked 0).post .roomReport) (fun s'' => meterPolicyBody s''.meter) := by
    rw [answerMeterPolicy_known hb, if_neg change, if_pos stall]
  exact congrArg Host.Outcome.next (h.ran answerMeterPolicy e h.reset run fuel)

theorem execMeterPolicy_changes (change : s.meter.policy ≠ asked) (old : s.meter.policy ≠ .stall) (new : asked ≠ .stall) :
    exec .meterPolicy s = .next ((s.setPolicy asked s.meter.reservations).answered r .ok
      (meterPolicyBody (s.setPolicy asked s.meter.reservations).meter)) := by
  have e : answerMeterPolicy s r.body =
      .done (s.setPolicy asked s.meter.reservations) (fun s'' => meterPolicyBody s''.meter) := by
    rw [answerMeterPolicy_known hb, if_neg change, if_neg old, if_neg new]
  exact congrArg Host.Outcome.next (h.ran answerMeterPolicy e h.reset (Runs.idle h.agenda) (by omega))

end

section
variable (h : s.Takes 0x55 r rest) (hb : r.body = [LogPolicy.stall.code]) (change : s.meter.policy ≠ .stall)
include h hb change

theorem execMeterPolicy_stalls (fits : s.meter.log.length + s.sheetsInFlight ≤ 256) :
    exec .meterPolicy s = .next ((s.setPolicy .stall s.sheetsInFlight).answered r .ok
      (meterPolicyBody (s.setPolicy .stall s.sheetsInFlight).meter)) := by
  have e : answerMeterPolicy s r.body =
      .done (s.setPolicy .stall s.sheetsInFlight) (fun s'' => meterPolicyBody s''.meter) := by
    rw [answerMeterPolicy_known hb, if_neg change, if_neg change, if_pos rfl, if_pos fits]
  exact congrArg Host.Outcome.next (h.ran answerMeterPolicy e h.reset (Runs.idle h.agenda) (by omega))

theorem execMeterPolicy_tooMany (many : 256 < s.meter.log.length + s.sheetsInFlight) :
    exec .meterPolicy s = .next (s.answered r .badState []) := by
  refine congrArg Host.Outcome.next (h.refused answerMeterPolicy .badState ?_)
  rw [answerMeterPolicy_known hb, if_neg change, if_neg change, if_pos rfl, if_neg (Nat.not_le.mpr many)]

end

/-! ## METER_READ (R169, R170) -/

/-- The state in which up to `n` records have left the front of the log, before the report of room (R169, R170). -/
def State.logRead (s : State) (n : Nat) : State :=
  { s with meter := { s.meter with
    log := s.meter.log.drop n
    dropped := 0
    highMark := if (s.meter.log.drop n).length < 128 ∧ (s.meter.log.drop n).length < s.meter.log.length then false
      else s.meter.highMark } }

theorem readLog_eq : s.readLog n =
    if s.meter.policy = .stall ∧ (s.meter.log.drop n).length < s.meter.log.length then (s.logRead n).post .roomReport
    else s.logRead n := by
  unfold State.readLog State.logRead
  simp only [Bool.and_eq_true, decide_eq_true_eq, and_comm]

section
variable (h : s.Takes 0x56 r rest) (hn : n < 256) (hb : r.body = [byte n])
include h hn hb

theorem execMeterRead_outOfRange (range : n < 1 ∨ 8 < n) : exec .meterRead s = .next (s.answered r .badField []) := by
  refine congrArg Host.Outcome.next (h.refused answerMeterRead .badField ?_)
  unfold answerMeterRead
  rw [hb, show byteAt [byte n] 0 = byte n from rfl, toNat_byte hn]
  exact if_pos (by simpa using range)

/-- The records read are answered once the ports have taken the report of room, where there is one (R167, R169). -/
theorem execMeterRead_reads {m : Nat} (low : 1 ≤ n) (high : n ≤ 8) (run : Runs m (s.readLog n) t) (fuel : m ≤ 65536) :
    exec .meterRead s = .next (t.answered r .ok
      (meterReadBody (s.meter.log.drop n).length s.meter.dropped (s.meter.log.take n))) := by
  have e : answerMeterRead s r.body =
      .done (s.readLog n) (fun _ => meterReadBody (s.meter.log.drop n).length s.meter.dropped (s.meter.log.take n)) := by
    unfold answerMeterRead
    rw [hb, show byteAt [byte n] 0 = byte n from rfl, toNat_byte hn]
    exact if_neg (by simp; omega)
  have reset : (s.readLog n).link.reset = .none := by
    rw [readLog_eq]
    split <;> exact h.reset
  exact congrArg Host.Outcome.next (h.ran answerMeterRead e reset run fuel)

theorem execMeterRead_quiet (low : 1 ≤ n) (high : n ≤ 8) (nobody : ∀ p, (s.port p).state ≠ .feeding) :
    exec .meterRead s = .next ((s.logRead n).answered r .ok
      (meterReadBody (s.meter.log.drop n).length s.meter.dropped (s.meter.log.take n))) := by
  have idle : (s.logRead n).agenda = [] := h.agenda
  have run : ∃ m ≤ 2, Runs m (s.readLog n) (s.logRead n) := by
    rw [readLog_eq]
    split
    · exact ⟨2, le_rfl, runs_roomReport_none idle nobody⟩
    · exact ⟨0, by omega, Runs.idle idle⟩
  obtain ⟨m, few, run⟩ := run
  exact execMeterRead_reads h hn hb low high run (by omega)

end

/-! ## The writing of a record (R166, R170) -/

/-- The record that brings the count from 191 to 192 raises METER_HIGH (R170). -/
theorem writeRecord_high (r : MeterRecord) (count : s.meter.log.length = 191) (clear : s.meter.highMark = false) :
    s.writeRecord r =
      State.notify { s with meter := { s.meter with
          log := s.meter.log ++ [r], reservations := s.meter.unreserved, highMark := true } } .meterHigh
        (num 2 192 ++ num 2 s.meter.unreserved ++ num 2 s.meter.dropped ++ [s.meter.policy.code]) := by
  have written : writeLog s.meter.policy s.meter.log s.meter.dropped r = (s.meter.log ++ [r], s.meter.dropped) :=
    if_pos (by omega)
  have long : (s.meter.log ++ [r]).length = 192 := by simp [count]
  unfold State.writeRecord
  dsimp only
  rw [written]
  unfold State.highMark meterHighBody
  dsimp only
  rw [if_pos (by simp [count, clear]), long]
  rfl

/-- A record that finds the log full is written by the policy (R166). -/
theorem writeRecord_full (r : MeterRecord) (count : s.meter.log.length = 256) (stall : s.meter.policy ≠ .stall) :
    s.writeRecord r = { s with meter := { s.meter with
      log := (writeLog s.meter.policy s.meter.log s.meter.dropped r).1
      dropped := (writeLog s.meter.policy s.meter.log s.meter.dropped r).2 } } := by
  unfold State.writeRecord State.highMark
  dsimp only
  rw [if_neg (by simp [count]), if_neg stall]

theorem writeLog_full {policy : LogPolicy} {log : List MeterRecord} {dropped : Nat} (r : MeterRecord)
    (count : log.length = 256) : writeLog policy log dropped r =
      (if policy = .wrap then log.drop 1 ++ [r] else log, min (dropped + 1) 65535) := by
  unfold writeLog
  rw [if_neg (by omega)]
  cases policy <;> rfl

/-! ## The statement's four parts -/

section
variable (feeds : (s.port p).state = .feeding) (alone : ∀ q, q ≠ p → (s.port q).state ≠ .feeding) (idle : s.agenda = [])
include feeds alone idle

/-- The one feeding port decides once, or again after one sheet it starts, in the time of the report (R105, R110). -/
theorem runs_reported : ((s.runDecision p).agenda = [] → Runs 3 (s.post .roomReport) (s.runDecision p))
    ∧ ((s.runDecision p).agenda = [.decide p] →
      (({ s.runDecision p with agenda := [] } : State).runDecision p).agenda = [] →
      Runs 4 (s.post .roomReport) (({ s.runDecision p with agenda := [] } : State).runDecision p)) :=
  ⟨fun done => runs_roomReport_one (n := 0) idle feeds alone (Runs.idle done),
    fun again done => runs_roomReport_one (n := 1) idle feeds alone (runs_again again done)⟩

end

theorem runDecision_policy (s : State) (p : PortNo) : (s.runDecision p).meter.policy = s.meter.policy := by
  rw [(runDecision_calm s p).meter]

/-- What a METER_POLICY does where no port feeds (R168). -/
theorem meterPolicy_quiet (h : s.Takes 0x55 r rest) (nobody : ∀ p, (s.port p).state ≠ .feeding) {asked : LogPolicy}
    (hb : r.body = [asked.code]) (change : s.meter.policy ≠ asked) (stall : s.meter.policy = .stall) :
    exec .meterPolicy s = .next ((s.setPolicy asked 0).answered r .ok (meterPolicyBody (s.setPolicy asked 0).meter)) :=
  execMeterPolicy_leaves h hb change stall (runs_roomReport_none (s := s.setPolicy asked 0) h.agenda nobody) (by omega)

/-- R66, R167: the ports take the report of a policy that leaves STALL before the reply. -/
theorem meterPolicy_reported (stall : s.meter.policy = .stall) (h : s.Takes 0x55 r rest) {asked : LogPolicy} (hb : r.body = [asked.code]) (new : asked ≠ .stall)
    {m : Nat} (few : m ≤ 65536) (run : Runs m ((s.setPolicy asked 0).post .roomReport) t) (policy : t.meter.policy = asked) :
    exec .meterPolicy s = .next (t.answered r .ok
      ([asked.code] ++ num 2 t.meter.log.length ++ num 2 t.meter.reservations)) := by
  rw [execMeterPolicy_leaves h hb (by rw [stall]; exact new.symm) stall run few, ← policy]
  rfl

/-- The state in which a log not empty has lost records at its front (R169, R170). -/
def State.logShortened (s : State) (n : Nat) : State :=
  { s with meter := { s.meter with
    log := s.meter.log.drop n
    dropped := 0
    highMark := if (s.meter.log.drop n).length < 128 then false else s.meter.highMark } }

/-- Where records leave the log under STALL, the room is reported (R167). -/
theorem readLog_reports (low : 1 ≤ n) (some : s.meter.log ≠ []) (stall : s.meter.policy = .stall) :
    s.readLog n = (s.logShortened n).post .roomReport := by
  have fewer : (s.meter.log.drop n).length < s.meter.log.length := by
    have := List.length_pos_iff.mpr some
    rw [List.length_drop]
    omega
  rw [readLog_eq, if_pos ⟨stall, fewer⟩]
  unfold State.logRead State.logShortened
  simp only [fewer, and_true]

/-- Settles O58: each request by its answer and its report, the report by the ports that feed, the record by the policy. -/
theorem meterLogKept : Obligations.MeterLogKept := by
  intro s
  refine ⟨fun r rest nobody => ⟨fun b h hb => ?policy, fun n h hn hb => ?read⟩,
    fun r rest p feeds alone stall => ⟨fun asked new h hb => ?policyReport, fun n low high some h hb => ?readReport⟩,
    fun ps => ⟨decideEach_none, fun q => decideEach_one, decideEach_several, rfl⟩, fun r => ?record⟩
  case policy =>
    refine ⟨execMeterPolicy_unknown h hb, ?_⟩
    rintro asked rfl
    refine ⟨fun same => execMeterPolicy_same h hb same, fun change => ⟨meterPolicy_quiet h nobody hb change,
      execMeterPolicy_changes h hb change, ?_, ?_⟩⟩
    · rintro rfl fits
      exact execMeterPolicy_stalls h hb change fits
    · rintro rfl many
      exact execMeterPolicy_tooMany h hb change many
  case read =>
    exact ⟨execMeterRead_outOfRange h hn hb, fun low high => execMeterRead_quiet h hn hb low high nobody⟩
  case policyReport =>
    obtain ⟨once, twice⟩ := runs_reported (s := s.setPolicy asked 0) feeds alone h.agenda
    have policy := runDecision_policy (s.setPolicy asked 0) p
    refine ⟨fun done => ?_, fun again done => ?_⟩
    · exact meterPolicy_reported stall h hb new (by omega) (once done) policy
    · exact meterPolicy_reported stall h hb new (by omega) (twice again done) ((runDecision_policy _ p).trans policy)
  case readReport =>
    have reads {t : State} {m : Nat} (run : Runs m (s.readLog n) t) :=
      execMeterRead_reads h (by omega) hb low high run
    rw [readLog_reports low some stall] at reads
    obtain ⟨once, twice⟩ := runs_reported (s := s.logShortened n) feeds alone h.agenda
    exact ⟨fun done => reads (once done) (by omega), fun again done => reads (twice again done) (by omega)⟩
  case record =>
    refine ⟨writeRecord_eq r, writeRecord_high r, fun count => ⟨fun keep => ?_, fun wrap => ?_⟩⟩
    · rw [writeRecord_full r count (by rw [keep]; decide), writeLog_full r count, keep]
      rfl
    · rw [writeRecord_full r count (by rw [wrap]; decide), writeLog_full r count, wrap]
      rfl

end Sys2Proof.Machine
end

section
/-! Dispatch (chapter 4), third part: a stock present no longer (R59, R60, R63). -/

namespace Sys2Proof.Machine

variable {s t : State} {i j k : Slot} {x y : Job} {l : Level} {js : List Slot}

/-! ## The place on the stock wait list (R60) -/

theorem mem_waitListWith : i ∈ s.waitListWith j ↔ i = j ∨ i ∈ s.dispatch.stockWait := by
  unfold State.waitListWith
  simp only [List.mem_append, List.mem_cons, List.mem_filter, decide_eq_true_eq]
  by_cases below : s.levelOf i ≤ s.levelOf j
  · simp [below, Nat.not_lt.mpr below, or_comm]
  · simp [below, Nat.not_le.mp below]

/-- Behind the jobs of its own level: the others keep their order. -/
theorem waitListWith_level (n : Nat) : (s.waitListWith j).filter (fun i => s.levelOf i = n) =
    s.dispatch.stockWait.filter (fun i => s.levelOf i = n) ++ if s.levelOf j = n then [j] else [] := by
  unfold State.waitListWith
  rw [List.filter_append, List.filter_cons, List.filter_filter, List.filter_filter]
  by_cases below : n ≤ s.levelOf j
  · have first : (fun i => decide (s.levelOf i = n) && decide (s.levelOf i ≤ s.levelOf j)) = fun i => decide (s.levelOf i = n) := by
      funext i
      by_cases e : s.levelOf i = n
      · simp [e, below]
      · simp [e]
    have second : s.dispatch.stockWait.filter (fun i => decide (s.levelOf i = n) && decide (s.levelOf j < s.levelOf i)) = [] := by
      rw [List.filter_eq_nil_iff]
      intro i _
      simp only [Bool.and_eq_true, decide_eq_true_eq]
      omega
    rw [first, second]
    by_cases e : s.levelOf j = n <;> simp [e]
  · have first : s.dispatch.stockWait.filter (fun i => decide (s.levelOf i = n) && decide (s.levelOf i ≤ s.levelOf j)) = [] := by
      rw [List.filter_eq_nil_iff]
      intro i _
      simp only [Bool.and_eq_true, decide_eq_true_eq]
      omega
    have second : (fun i => decide (s.levelOf i = n) && decide (s.levelOf j < s.levelOf i)) = fun i => decide (s.levelOf i = n) := by
      funext i
      by_cases e : s.levelOf i = n
      · simp [e, Nat.not_le.mp below]
      · simp [e]
    have other : s.levelOf j ≠ n := by omega
    rw [first, second]
    simp [other]

theorem waitListWith_sorted (h : s.dispatch.stockWait.Pairwise (fun i k => s.levelOf i ≤ s.levelOf k)) :
    (s.waitListWith j).Pairwise (fun i k => s.levelOf i ≤ s.levelOf k) := by
  unfold State.waitListWith
  rw [List.pairwise_append, List.pairwise_cons]
  refine ⟨h.filter _, ⟨fun k above => ?_, h.filter _⟩, fun i below k later => ?_⟩
  · exact Nat.le_of_lt (of_decide_eq_true (List.mem_filter.mp above).2)
  · have low : s.levelOf i ≤ s.levelOf j := of_decide_eq_true (List.mem_filter.mp below).2
    rcases List.mem_cons.mp later with rfl | above
    · exact low
    · exact low.trans (Nat.le_of_lt (of_decide_eq_true (List.mem_filter.mp above).2))

/-! ## One job moves (R63) -/

/-- A job that moves changes its record, the lists and the notices, and nothing else. -/
theorem toStockWait_eq (s : State) (j : Slot) : s.toStockWait j = { s with
    link := (s.toStockWait j).link
    jobs := (s.toStockWait j).jobs
    dispatch := { s.dispatch with
      ready := (s.toStockWait j).dispatch.ready, stockWait := (s.toStockWait j).dispatch.stockWait } } := by
  unfold State.toStockWait State.notifyStock
  split
  · rw [notify_eq, jobTo_eq]
    rfl
  · rw [jobTo_eq]
    rfl

theorem toStockWait_readyAt : (s.toStockWait j).readyAt l = (s.readyAt l).filter (fun i => i ≠ j) := by
  unfold State.toStockWait State.notifyStock
  split
  · rw [notify_eq]
    exact (jobTo_readyAt ..).trans (unlist_readyAt ..)
  · exact (jobTo_readyAt ..).trans (unlist_readyAt ..)

theorem toStockWait_waits (j : Slot) : (s.toStockWait j).dispatch.stockWait = (s.unlist j).waitListWith j := by
  unfold State.toStockWait State.notifyStock
  split
  · rw [notify_dispatch, jobTo_dispatch]
    rfl
  · rw [jobTo_dispatch]
    rfl

/-- A slot not on the wait list is not taken from it. -/
theorem unlist_stockWait_of_notMem (out : j ∉ s.dispatch.stockWait) :
    (s.unlist j).dispatch.stockWait = s.dispatch.stockWait :=
  List.filter_eq_self.mpr fun _ hi => decide_eq_true fun e => out (e ▸ hi)

theorem toStockWait_stockWait (out : j ∉ s.dispatch.stockWait) : (s.toStockWait j).dispatch.stockWait = s.waitListWith j := by
  rw [toStockWait_waits]
  unfold State.waitListWith
  rw [unlist_stockWait_of_notMem out]
  rfl

theorem toStockWait_job : (s.toStockWait j).job k =
    if j = k then (s.job j).map (fun x => { x with state := .stockwait }) else s.job k := by
  unfold State.toStockWait
  rw [notifyStock_job, jobTo_job]
  rfl

theorem toStockWait_levelOf : (s.toStockWait j).levelOf = s.levelOf := by
  funext k
  unfold State.levelOf
  rw [toStockWait_job]
  by_cases e : j = k
  · subst e
    rw [if_pos rfl]
    cases s.job j <;> rfl
  · rw [if_neg e]

/-- The notices of a job that joins the stock wait list (R25, R60). -/
theorem toStockWait_told (hx : s.job j = some x) (other : x.state ≠ .stockwait) :
    (s.toStockWait j).link = ((s.notify .job (jobNoticeBody j x.state { x with state := .stockwait })).notify .stock
      (stockBody j { x with state := .stockwait } ((s.unlist j).dispatch.stockWait.length + 1))).link := by
  have job : (((s.unlist j).joinWait j).jobTo j .stockwait).job j = some { x with state := .stockwait } := by
    rw [jobTo_same_slot]
    exact congrArg _ hx
  have told := jobTo_link (s := (s.unlist j).joinWait j) hx other
  unfold State.toStockWait
  rw [notifyStock_eq _ job, jobTo_dispatch, show ((s.unlist j).joinWait j).dispatch.stockWait = (s.unlist j).waitListWith j
    from rfl, waitListWith_length]
  refine notify_link_congr _ _ (told.trans (notify_link_congr _ _ rfl rfl)) ?_
  rw [jobTo_partTime, notify_partTime]
  rfl

/-- The two notices of a QUEUED job that moves, the count of the second one greater (R25, R60). -/
theorem toStockWait_link (hx : s.job j = some x) (queued : x.state = .queued) (out : j ∉ s.dispatch.stockWait) :
    (s.toStockWait j).link = ((s.notify .job (jobNoticeBody j .queued { x with state := .stockwait })).notify .stock
      (stockBody j { x with state := .stockwait } (s.dispatch.stockWait.length + 1))).link := by
  rw [toStockWait_told hx (by rw [queued]; decide), queued, unlist_stockWait_of_notMem out]

/-! ## The jobs of a stock move (R63) -/

/-- What stands once the jobs `js` have moved from the ready queue to the stock wait list, one behind the other. -/
structure State.Moved (s t : State) (js : List Slot) : Prop where
  ready : ∀ l, t.readyAt l = (s.readyAt l).filter (fun i => i ∉ js)
  waiting : ∀ n : Nat, t.dispatch.stockWait.filter (fun i => t.levelOf i = n) =
    s.dispatch.stockWait.filter (fun i => s.levelOf i = n) ++ js.filter (fun i => s.levelOf i = n)
  levels : t.levelOf = s.levelOf
  sorted : s.dispatch.stockWait.Pairwise (fun i k => s.levelOf i ≤ s.levelOf k) →
    t.dispatch.stockWait.Pairwise (fun i k => t.levelOf i ≤ t.levelOf k)
  moved : ∀ j ∈ js, ∀ x, s.job j = some x → t.job j = some { x with state := .stockwait }
  kept : ∀ j, j ∉ js → t.job j = s.job j

theorem moved_nil (s : State) : s.Moved s [] :=
  { ready := fun l => by simp
    waiting := fun n => by simp
    levels := rfl
    sorted := id
    moved := fun j h => absurd h List.not_mem_nil
    kept := fun j _ => rfl }

theorem moved_cons (new : j ∉ js) (out : j ∉ s.dispatch.stockWait) (h : (s.toStockWait j).Moved t js) : s.Moved t (j :: js) where
  ready l := by
    rw [h.ready, toStockWait_readyAt, List.filter_filter]
    congr 1
    funext i
    simp [List.mem_cons, not_or, Bool.and_comm]
  waiting n := by
    rw [h.waiting, toStockWait_levelOf, toStockWait_stockWait out, waitListWith_level, List.append_assoc, List.filter_cons]
    by_cases e : s.levelOf j = n <;> simp [e]
  levels := h.levels.trans toStockWait_levelOf
  sorted order := by
    refine h.sorted ?_
    rw [toStockWait_stockWait out, toStockWait_levelOf]
    exact waitListWith_sorted order
  moved k hk x hx := by
    rcases List.mem_cons.mp hk with rfl | later
    · rw [h.kept k new, toStockWait_job, if_pos rfl, hx]
      rfl
    · refine h.moved k later x ?_
      rw [toStockWait_job, if_neg fun e : j = k => new (e ▸ later), hx]
  kept k hk := by
    obtain ⟨other, rest⟩ := not_or.mp (mt List.mem_cons.mpr hk)
    rw [h.kept k rest, toStockWait_job, if_neg (Ne.symm other)]

theorem moved_of_fold (js : List Slot) : ∀ (s : State), js.Nodup → (∀ j ∈ js, j ∉ s.dispatch.stockWait) →
    s.Moved (js.foldl State.toStockWait s) js := by
  induction js with
  | nil => exact fun s _ _ => moved_nil s
  | cons j js ih =>
    intro s once out
    obtain ⟨new, once⟩ := List.nodup_cons.mp once
    have absent := out j List.mem_cons_self
    refine moved_cons new absent (ih (s.toStockWait j) once fun k later => ?_)
    rw [toStockWait_stockWait absent, mem_waitListWith, not_or]
    exact ⟨fun e => new (e ▸ later), out k (List.mem_cons_of_mem _ later)⟩

/-- Jobs that move leave everything as it was but the notices, the job records and the lists (R63). -/
theorem foldl_toStockWait_eq (js : List Slot) : ∀ s : State, ∃ link jobs ready wait, js.foldl State.toStockWait s =
    { s with link := link, jobs := jobs, dispatch := { s.dispatch with ready := ready, stockWait := wait } } := by
  induction js with
  | nil => exact fun s => ⟨s.link, s.jobs, s.dispatch.ready, s.dispatch.stockWait, rfl⟩
  | cons j js ih =>
    intro s
    obtain ⟨link, jobs, ready, wait, e⟩ := ih (s.toStockWait j)
    refine ⟨link, jobs, ready, wait, ?_⟩
    rw [List.foldl_cons, e, toStockWait_eq]

theorem judgeStock_eq (s : State) (stock : Byte) : ∃ link jobs ready wait, s.judgeStock stock =
    { s with link := link, jobs := jobs, dispatch := { s.dispatch with ready := ready, stockWait := wait } } := by
  unfold State.judgeStock
  split
  · exact ⟨s.link, s.jobs, s.dispatch.ready, s.dispatch.stockWait, rfl⟩
  · exact foldl_toStockWait_eq _ s

@[simp] theorem judgeStock_port (stock : Byte) (p : PortNo) : (s.judgeStock stock).port p = s.port p := by
  obtain ⟨_, _, _, _, e⟩ := judgeStock_eq s stock; rw [e]; rfl
@[simp] theorem judgeStock_assigned (stock : Byte) (p : PortNo) : (s.judgeStock stock).assigned p = s.assigned p := by
  obtain ⟨_, _, _, _, e⟩ := judgeStock_eq s stock; rw [e]; rfl
@[simp] theorem judgeStock_agenda (stock : Byte) : (s.judgeStock stock).agenda = s.agenda := by
  obtain ⟨_, _, _, _, e⟩ := judgeStock_eq s stock; rw [e]

/-! ## Which jobs move -/

/-- The job of a slot asks for a stock. -/
def State.asks (s : State) (stock : Byte) (j : Slot) : Bool := (s.job j).any (fun y => y.stock = stock)

theorem judgeStock_gone {stock : Byte} (gone : s.stockPresent stock = false) :
    s.judgeStock stock = (s.readyOrder.filter (s.asks stock)).foldl State.toStockWait s := by
  unfold State.judgeStock
  rw [if_neg (by simp [gone])]
  refine congrArg (fun js => js.foldl State.toStockWait s) (List.filter_congr fun j _ => ?_)
  unfold State.asks
  cases s.job j <;> rfl

/-- Only one member of a list with no repetition adds to a flat map. -/
theorem flatMap_eq_of_only {α β : Type} {L : List α} {a : α} {f : α → List β} (once : L.Nodup) (mem : a ∈ L)
    (only : ∀ b ∈ L, b ≠ a → f b = []) : L.flatMap f = f a := by
  obtain ⟨before, after, rfl⟩ := List.append_of_mem mem
  rw [List.nodup_append] at once
  obtain ⟨_, once, apart⟩ := once
  have first : before.flatMap f = [] := List.flatMap_eq_nil_iff.mpr fun b hb =>
    only b (List.mem_append_left _ hb) (apart b hb a List.mem_cons_self)
  have last : after.flatMap f = [] := List.flatMap_eq_nil_iff.mpr fun b hb =>
    only b (List.mem_append_right _ (List.mem_cons_of_mem _ hb)) fun e => (List.nodup_cons.mp once).1 (e ▸ hb)
  rw [List.flatMap_append, List.flatMap_cons, first, last, List.nil_append, List.append_nil]

/-- Every job of the ready queue stands in the list of its level (R58). -/
def State.ReadyByLevel (s : State) : Prop :=
  ∀ l j, j ∈ s.readyAt l → ∃ y, s.job j = some y ∧ y.level = l ∧ y.state = .queued

section
variable (byLevel : s.ReadyByLevel)
include byLevel

theorem State.ReadyByLevel.levelOf (waits : j ∈ s.readyAt l) : s.levelOf j = l.val := by
  obtain ⟨y, hy, level, _⟩ := byLevel l j waits
  unfold State.levelOf
  rw [hy, ← level]

theorem readyOrder_nodup (once : ∀ l, (s.readyAt l).Nodup) : s.readyOrder.Nodup := by
  refine List.nodup_flatMap.mpr ⟨fun l _ => once l, (List.nodup_finRange 8).imp fun {a b} apart j ha hb => ?_⟩
  exact apart (Fin.ext ((byLevel.levelOf ha).symm.trans (byLevel.levelOf hb)))

/-- The jobs of one level in the order of R68 are those of its list. -/
theorem readyOrder_level (l : Level) : s.readyOrder.filter (fun j => s.levelOf j = l.val) = s.readyAt l := by
  have other (b : Level) (ne : b ≠ l) : (s.readyAt b).filter (fun j => decide (s.levelOf j = l.val)) = [] := by
    refine List.filter_eq_nil_iff.mpr fun j waits => ?_
    rw [byLevel.levelOf waits, decide_eq_true_eq]
    exact fun e => ne (Fin.ext e)
  unfold State.readyOrder
  rw [List.filter_flatMap,
    flatMap_eq_of_only (List.nodup_finRange 8) (List.mem_finRange l) fun b _ ne => other b ne]
  exact List.filter_eq_self.mpr fun j waits => decide_eq_true (byLevel.levelOf waits)

end

/-! ## A stock judged (R59, R63) -/

section
variable {stock : Byte}

theorem judgeStock_present (h : ∃ q : PortNo, (s.port q).state ∈ [.identifying, .ready, .setup, .feeding, .draining, .stopped]
    ∧ ∃ k ∈ (s.port q).trays, k.loaded = true ∧ k.stock = stock) : s.judgeStock stock = s :=
  if_pos ((stockPresent_iff s stock).mpr h)

/-- What a stock that is present no longer does to the jobs of the ready queue, each once and in no other list (R63). -/
theorem judgeStock_moved (gone : s.stockPresent stock = false) (byLevel : s.ReadyByLevel) (once : ∀ l, (s.readyAt l).Nodup)
    (out : ∀ l, ∀ j ∈ s.readyAt l, j ∉ s.dispatch.stockWait) :
    s.Moved (s.judgeStock stock) (s.readyOrder.filter (s.asks stock)) := by
  rw [judgeStock_gone gone]
  refine moved_of_fold _ s ((readyOrder_nodup byLevel once).filter _) fun j hj => ?_
  obtain ⟨l, waits⟩ := mem_readyOrder.mp (List.mem_filter.mp hj).1
  exact out l j waits

theorem mem_asking : j ∈ s.readyOrder.filter (s.asks stock) ↔ (∃ l, j ∈ s.readyAt l) ∧ s.asks stock j = true := by
  rw [List.mem_filter, mem_readyOrder]

/-- In the list of a level only those stay that ask for another stock. -/
theorem filter_unasking (l : Level) : (s.readyAt l).filter (fun i => i ∉ s.readyOrder.filter (s.asks stock)) =
    (s.readyAt l).filter (fun i => !s.asks stock i) := by
  refine List.filter_congr fun i waits => ?_
  have member : i ∈ s.readyOrder.filter (s.asks stock) ↔ s.asks stock i = true :=
    mem_asking.trans (and_iff_right ⟨l, waits⟩)
  cases asks : s.asks stock i <;> simp [member, asks]

/-- R63: the whole of what a judgement that finds its stock gone changes. -/
theorem judgeStock_gone_spec (gone : s.stockPresent stock = false) (byLevel : s.ReadyByLevel)
    (once : ∀ l, (s.readyAt l).Nodup) (out : ∀ l, ∀ j ∈ s.readyAt l, j ∉ s.dispatch.stockWait) :
    let t := s.judgeStock stock
    (∀ l, t.readyAt l = (s.readyAt l).filter (fun j => !s.asks stock j))
    ∧ (∀ l : Level, t.dispatch.stockWait.filter (fun j => t.levelOf j = l.val) =
        s.dispatch.stockWait.filter (fun j => s.levelOf j = l.val) ++ (s.readyAt l).filter (s.asks stock))
    ∧ (s.dispatch.stockWait.Pairwise (fun i j => s.levelOf i ≤ s.levelOf j) →
      t.dispatch.stockWait.Pairwise (fun i j => t.levelOf i ≤ t.levelOf j))
    ∧ (∀ l j y, j ∈ s.readyAt l → s.asks stock j = true → s.job j = some y → t.job j = some { y with state := .stockwait })
    ∧ (∀ j, (∀ l, j ∈ s.readyAt l → s.asks stock j = false) → t.job j = s.job j) := by
  have h := judgeStock_moved gone byLevel once out
  refine ⟨fun l => (h.ready l).trans (filter_unasking l), fun l => ?_, h.sorted,
    fun l j y waits asks hy => h.moved j (mem_asking.mpr ⟨⟨l, waits⟩, asks⟩) y hy, fun j stays => h.kept j fun moves => ?_⟩
  · rw [h.waiting, List.filter_comm, readyOrder_level byLevel]
  · obtain ⟨⟨l, waits⟩, asks⟩ := mem_asking.mp moves
    rw [stays l waits] at asks
    cases asks

/-- R25, R60: the notices of a single job that moves. -/
theorem judgeStock_link (gone : s.stockPresent stock = false) (byLevel : s.ReadyByLevel)
    (out : ∀ l, ∀ j ∈ s.readyAt l, j ∉ s.dispatch.stockWait) (only : s.readyOrder.filter (s.asks stock) = [j])
    (hy : s.job j = some y) :
    (s.judgeStock stock).link = ((s.notify .job (jobNoticeBody j .queued { y with state := .stockwait })).notify .stock
      (stockBody j { y with state := .stockwait } (s.dispatch.stockWait.length + 1))).link := by
  obtain ⟨⟨l, waits⟩, _⟩ := mem_asking.mp (show j ∈ s.readyOrder.filter (s.asks stock) by rw [only]; exact List.mem_cons_self)
  obtain ⟨y', hy', _, queued⟩ := byLevel l j waits
  cases hy.symm.trans hy'
  rw [judgeStock_gone gone, only]
  exact toStockWait_link hy queued (out l j waits)

end

end Sys2Proof.Machine
end

section
/-! Engine ports (chapter 5): TRAY (R62, R88, R89, R99). -/

namespace Sys2Proof.Machine

variable {s t u : State} {p : PortNo} {item old : TrayItem} {j : Slot} {y : Job} {n m : Nat} {k : Task}

/-! ## Tasks behind a run -/

/-- A task posted behind others is done once these have come to their end. -/
theorem Runs.then_post (h : Runs n s t) (g : Runs m (doTask k t) u) : Runs (n + (m + 1)) (s.post k) u := by
  have behind : Runs (m + 1) { t with agenda := [k] } u := by
    have posted : ({ t with agenda := [k] } : State) = t.post k := by unfold State.post; rw [h.agenda]; rfl
    rw [posted]
    exact Runs.post h.agenda g
  exact Runs.append h (rest := [k]) behind

theorem Runs.then_noop (h : Runs n s t) (g : doTask k t = t) : Runs (n + 1) (s.post k) t :=
  Runs.then_post (m := 0) h (by rw [g]; exact Runs.idle h.agenda)

/-! ## The message and the table (R88) -/

/-- The port's record once the entry has been replaced, after the message has come. -/
def Port.trayTaken (x : Port) (now : Word32) (item : TrayItem) : Port :=
  { x.heard now with trays := trayReplaced x.trays item }

/-- The state in which the tray table has its new entry, before what follows (R88). -/
def State.trayTaken (s : State) (p : PortNo) (item : TrayItem) : State :=
  s.setPort p ((s.port p).trayTaken s.partTime item)

theorem trayTaken_port : (s.trayTaken p item).port p = (s.port p).trayTaken s.partTime item := by simp [State.trayTaken]

theorem execTray_heard (h : s.Hears p) : exec (.tray p item) s = .next ((s.hearing p).takeTray p item).finish :=
  congrArg (fun u : State => Host.Outcome.next u.finish) (message_heard h (m := .tray item) rfl)

/-- A TRAY that changes no table leaves the port having heard it (R88, R99). -/
theorem execTray_ignored (h : s.Hears p) (n : (s.hearing p).takeTray p item = s.hearing p) :
    exec (.tray p item) s = .next (State.pump (s.setPort p ((s.port p).heard s.partTime))) := by
  rw [execTray_heard h, n, finish_of_idle (by exact h.agenda)]
  rfl

theorem takeTray_barred (h : (s.port p).state.takesTray = false) : s.takeTray p item = s := if_pos (by simp [h])

theorem takeTray_zero (loaded : item.loaded = true) (zero : item.stock = 0) : s.takeTray p item = s := by
  unfold State.takeTray
  split
  · rfl
  · exact if_pos (by simp [loaded, zero])

theorem takeTray_unknown (h : (s.port p).trays.find? (fun t => t.number = item.number) = none) : s.takeTray p item = s := by
  unfold State.takeTray
  rw [h]
  split
  · rfl
  · split <;> rfl

theorem takeTray_repeated (h : (s.port p).trays.find? (fun t => t.number = item.number) = some item) :
    s.takeTray p item = s := by
  unfold State.takeTray
  rw [h]
  split
  · rfl
  · split
    · rfl
    · exact if_pos rfl

theorem takeTray_changes (takes : (s.port p).state.takesTray = true) (sound : item.loaded = true → item.stock ≠ 0)
    (found : (s.port p).trays.find? (fun t => t.number = item.number) = some old) (new : old ≠ item) :
    s.takeTray p item = s.trayChanged p old item := by
  have fits : ¬(item.loaded && decide (item.stock = 0)) = true := by
    rw [Bool.and_eq_true, decide_eq_true_eq]
    exact fun ⟨loaded, zero⟩ => sound loaded zero
  unfold State.takeTray
  rw [if_neg (by simp [takes]), if_neg fits, found]
  exact if_neg new

/-! ## What a change of the table brings (R62, R63, R89) -/

/-- The tasks a changed entry posts: the stock it loads, and the port's decision (R62, R88). -/
def State.trayTasks (s : State) (p : PortNo) (old item : TrayItem) : State :=
  (if item.loaded && !(old.loaded && old.stock = item.stock) then (s.post (.stockLoaded item.stock)).post (.chooseJob p)
    else s).post (.decide p)

theorem hearing_trayTaken : (s.hearing p).modPort p (fun x => { x with
    trays := trayReplaced ((s.hearing p).port p).trays item }) = s.trayTaken p item := by
  change (s.hearing p).setPort p _ = _
  rw [hearing_setPort, hearing_port_same]
  rfl

/-- With no job on the ready queue no stock is judged (R63). -/
theorem trayChanged_noneReady (nobody : s.noneReady) : (s.hearing p).trayChanged p old item =
    (((s.trayTaken p item).judgeTrayEmpty p (s.port p).trays (trayReplaced (s.port p).trays item)).trayTasks p old item) := by
  have before : ((s.hearing p).port p).trays = (s.port p).trays := by rw [hearing_port_same]; rfl
  have judged (b : Bool) : (if b then (s.trayTaken p item).judgeStock old.stock else s.trayTaken p item) =
      s.trayTaken p item := by
    split
    · exact judgeStock_noneReady (s := s.trayTaken p item) nobody _
    · rfl
  unfold State.trayChanged State.trayTasks
  dsimp only
  rw [hearing_trayTaken, before, judged]

theorem stockLoaded_nobody (h : s.dispatch.stockWait = []) (stock : Byte) : doTask (.stockLoaded stock) s = s := by
  simp only [doTask, h]
  rfl

/-- The tasks of a changed entry come to nothing where no job waits for a stock and the port neither takes one nor feeds. -/
theorem runs_trayTasks_noop (idle : s.agenda = []) (none : s.dispatch.stockWait = [])
    (nothing : doTask (.chooseJob p) s = s) (rests : (s.port p).state ≠ .feeding) :
    ∃ n ≤ 3, Runs n (s.trayTasks p old item) s := by
  have decides := decide_noop p rests
  unfold State.trayTasks
  split
  · exact ⟨3, le_rfl,
      (((Runs.idle idle).then_noop (stockLoaded_nobody none _)).then_noop nothing).then_noop decides⟩
  · exact ⟨1, by omega, (Runs.idle idle).then_noop decides⟩

theorem judgeTrayEmpty_unassigned {b a : List TrayItem} (h : s.assigned p = none) : s.judgeTrayEmpty p b a = s := by
  unfold State.judgeTrayEmpty State.assignedJob
  rw [h]
  rfl

theorem judgeTrayEmpty_emptied {b a : List TrayItem} (at_p : s.assigned p = some j) (hy : s.job j = some y)
    (before : loadedWith b y.stock = true) (after : loadedWith a y.stock = false) :
    s.judgeTrayEmpty p b a = s.changeCauses p (fun c => { c with trayEmpty := true }) := by
  have job : s.assignedJob p = some y := (assignedJob_of s p j at_p).trans hy
  unfold State.judgeTrayEmpty
  rw [job]
  exact if_pos (by rw [before, after]; rfl)

/-! ## The cases of the statement -/

section
variable (h : s.Hears p) (sound : item.loaded = true → item.stock ≠ 0)
  (found : (s.port p).trays.find? (fun t => t.number = item.number) = some old) (new : old ≠ item)
include h found new

/-- The step of a TRAY that changes an entry. -/
theorem message_trayChanged (sound : item.loaded = true → item.stock ≠ 0) (takes : (s.port p).state.takesTray = true) :
    s.message p (.tray item) = (s.hearing p).trayChanged p old item := by
  have same := hearing_port_same (s := s) (p := p)
  rw [message_heard h (m := .tray item) rfl]
  exact takeTray_changes (s := s.hearing p) (by rw [same]; exact takes) sound (by rw [same]; exact found) new

include sound

theorem execTray_runs (takes : (s.port p).state.takesTray = true) (nobody : s.noneReady) {m : Nat} (few : m ≤ 65536)
    (run : Runs m (((s.trayTaken p item).judgeTrayEmpty p (s.port p).trays
      (trayReplaced (s.port p).trays item)).trayTasks p old item) t) :
    (s.message p (.tray item)).settle = t := by
  rw [message_trayChanged h found new sound takes, trayChanged_noneReady nobody]
  exact run.settle few

/-- R88: at a READY port without a job nothing more follows where no job waits. -/
theorem tray_ready (nobody : s.noneReady) (ready : (s.port p).state = .ready) (free : s.assigned p = none)
    (none : s.dispatch.stockWait = []) : exec (.tray p item) s = .next (s.trayTaken p item).pump := by
  obtain ⟨n, few, run⟩ := runs_trayTasks_noop (s := s.trayTaken p item) (old := old) (item := item) (p := p) h.agenda none
    (chooseJob_none p (chooseJob_noneReady nobody)) (by rw [trayTaken_port]; exact ready ▸ PortState.noConfusion)
  refine congrArg Host.Outcome.next (finish_of_settle ?_)
  refine execTray_runs h sound found new (by rw [ready]; rfl) nobody (by omega : n ≤ 65536) ?_
  rw [judgeTrayEmpty_unassigned (s := s.trayTaken p item) free]
  exact run

/-- R89: the last tray of the assigned job's stock has gone. -/
theorem tray_emptied (nobody : s.noneReady) (setup : (s.port p).state = .setup) (at_p : s.assigned p = some j)
    (hy : s.job j = some y) (none : s.dispatch.stockWait = []) (before : loadedWith (s.port p).trays y.stock = true)
    (after : loadedWith (trayReplaced (s.port p).trays item) y.stock = false) :
    ∃ t : State, exec (.tray p item) s = .next t.pump ∧ s.AtPort t p
      ∧ t.port p = (s.port p).trayTaken s.partTime item
      ∧ (t.alert p).causes = { (s.alert p).causes with trayEmpty := true } := by
  generalize raised : (s.trayTaken p item).changeCauses p (fun c => { c with trayEmpty := true }) = t
  have port : t.port p = (s.port p).trayTaken s.partTime item := by rw [← raised, changeCauses_port, trayTaken_port]
  have state : (t.port p).state = .setup := by rw [port]; exact setup
  have idle : t.agenda = [] := by rw [← raised, changeCauses_agenda]; exact h.agenda
  have dispatch : t.dispatch = s.dispatch := by rw [← raised, changeCauses_dispatch]; rfl
  have busy : t.free p = false := by
    rw [Bool.eq_false_iff, Ne, free_iff, state]
    exact fun free => PortState.noConfusion free.1
  obtain ⟨n, few, run⟩ := runs_trayTasks_noop (old := old) (item := item) idle (by rw [dispatch]; exact none)
    (chooseJob_noop p busy) (by rw [state]; exact PortState.noConfusion)
  have settled : (s.message p (.tray item)).settle = t := by
    refine execTray_runs h sound found new (by rw [setup]; rfl) nobody (by omega : n ≤ 65536) ?_
    rw [judgeTrayEmpty_emptied (s := s.trayTaken p item) at_p hy before after, raised]
    exact run
  have meter : t.meter = s.meter := by rw [← raised, changeCauses_meter]; rfl
  have beyond : s.Beyond t p := by
    refine beyond_of_kept (message_kept s p (.tray item)) settled (by rw [← raised, changeCauses_spool]; rfl)
      (fun q ne => ?_) (fun q ne => ?_) (by rw [meter]) (by rw [← raised, changeCauses_choices]; rfl)
    · rw [← raised, changeCauses_port]
      simp [State.trayTaken, ne.symm]
    · rw [← raised, changeCauses_other _ _ _ _ ne]
      rfl
  refine ⟨t, congrArg Host.Outcome.next (finish_of_settle settled),
    { beyond with jobs := by rw [← raised, changeCauses_jobs]; rfl, dispatch := dispatch, meterKept := meter }, port, ?_⟩
  rw [← raised, changeCauses_causes]
  rfl

end

/-! ## A stock loaded (R62) -/

/-- The entry as it has become stands in the table. -/
theorem mem_trayReplaced {trays : List TrayItem} (found : trays.find? (fun t => t.number = item.number) = some old) :
    item ∈ trayReplaced trays item :=
  List.mem_map.mpr ⟨old, List.mem_of_find?_eq_some found, if_pos (by simpa using List.find?_some found)⟩

/-- R61: a job placed at the tail of its level, wherever it stood. -/
theorem place_unlisted {x : Job} (hx : s.job j = some x) (present : s.stockPresent x.stock = true) :
    s.place j false = ((s.unlist j).queuedAt j x).seekPort j := by
  rw [place_ready s hx false present, joinReady_eq (s := s.unlist j) hx]
  rfl

theorem queuedAt_readyAt (x : Job) (l : Level) :
    (s.queuedAt j x).readyAt l = if l = x.level then s.readyAt x.level ++ [j] else s.readyAt l := by
  unfold State.queuedAt
  rw [jobTo_readyAt]
  by_cases e : l = x.level
  · subst e
    simp [State.readyAt]
  · rw [if_neg e]
    exact Vector.getElem_set_ne x.level.isLt l.isLt fun same => e (Fin.ext same.symm)

theorem stockLoaded_one (only : s.dispatch.stockWait = [j]) (hy : s.job j = some y) :
    doTask (.stockLoaded y.stock) s = s.post (.releaseStocked j) := by
  simp [doTask, only, hy]

theorem releaseStocked_places (hy : s.job j = some y) (waits : y.state = .stockwait) (present : s.stockPresent y.stock = true) :
    doTask (.releaseStocked j) s = ((s.unlist j).queuedAt j y).seekPort j := by
  rw [← place_unlisted hy present]
  exact if_pos (jobIs_of hy waits)

/-- R62: the job that waits for the stock loaded becomes QUEUED, where no port can be chosen for it. -/
theorem runs_stockLoaded (idle : s.agenda = []) (only : s.dispatch.stockWait = [j]) (hy : s.job j = some y)
    (waits : y.state = .stockwait) (present : s.stockPresent y.stock = true) (nobody : s.noPortToChoose) :
    ∃ m ≤ 18, Runs m (s.post (.stockLoaded y.stock)) ((s.unlist j).queuedAt j y) := by
  have nowhere : ((s.unlist j).queuedAt j y).noPortToChoose := fun q => by rw [queuedAt_port]; exact nobody q
  have queued : ((s.unlist j).queuedAt j y).jobIs j .queued = true := jobIs_of (queuedAt_job (s := s.unlist j) hy) rfl
  obtain ⟨m, few, run⟩ := runs_sought (sought_of_noPort nowhere) (queuedAt_agenda.trans idle) queued
  refine ⟨m + 2, by omega, Runs.post idle ?_⟩
  rw [stockLoaded_one only hy]
  refine Runs.post idle ?_
  rw [releaseStocked_places hy waits present]
  exact run

section
variable (h : s.Hears p) (sound : item.loaded = true → item.stock ≠ 0)
  (found : (s.port p).trays.find? (fun t => t.number = item.number) = some old) (new : old ≠ item)
  (nobody : s.noneReady) (stopped : (s.port p).state = .stopped) (free : s.assigned p = none)
  (only : s.dispatch.stockWait = [j]) (hy : s.job j = some y) (waits : y.state = .stockwait) (stock : y.stock = item.stock)
  (loaded : item.loaded = true) (another : ¬(old.loaded = true ∧ old.stock = item.stock)) (nowhere : s.noPortToChoose)
include h sound found new nobody stopped free only hy waits stock loaded another nowhere

theorem message_trayReleases : (s.message p (.tray item)).settle = ((s.trayTaken p item).unlist j).queuedAt j y := by
  have port := trayTaken_port (s := s) (p := p) (item := item)
  have state : ((((s.trayTaken p item).unlist j).queuedAt j y).port p).state = .stopped := by
    rw [queuedAt_port, unlist_port, port]
    exact stopped
  have present : (s.trayTaken p item).stockPresent y.stock = true := by
    rw [stockPresent_iff]
    refine ⟨p, ?_, item, ?_, loaded, stock.symm⟩
    · rw [port, show ((s.port p).trayTaken s.partTime item).state = .stopped from stopped]
      decide
    · rw [port]
      exact mem_trayReplaced found
  have alone : (s.trayTaken p item).noPortToChoose := fun q => by
    by_cases e : p = q
    · subst e
      rw [port, show ((s.port p).trayTaken s.partTime item).state = .stopped from stopped]
      decide
    · rw [show (s.trayTaken p item).port q = s.port q from (State.setPort_port ..).trans (if_neg e)]
      exact nowhere q
  have busy : (((s.trayTaken p item).unlist j).queuedAt j y).free p = false := by
    rw [Bool.eq_false_iff, Ne, free_iff, state]
    exact fun free => PortState.noConfusion free.1
  obtain ⟨m, few, run⟩ := runs_stockLoaded (s := s.trayTaken p item) h.agenda only hy waits present alone
  have tasks : (s.trayTaken p item).trayTasks p old item =
      (((s.trayTaken p item).post (.stockLoaded item.stock)).post (.chooseJob p)).post (.decide p) := by
    unfold State.trayTasks
    rw [if_pos (by simpa [loaded, Classical.or_iff_not_imp_left] using another)]
  refine execTray_runs (m := m + 1 + 1) h sound found new (by rw [stopped]; rfl) nobody (by omega) ?_
  rw [judgeTrayEmpty_unassigned (s := s.trayTaken p item) free, tasks, ← stock]
  exact (run.then_noop (chooseJob_noop p busy)).then_noop (decide_noop p (by rw [state]; exact PortState.noConfusion))

theorem tray_releases : ∃ t : State, exec (.tray p item) s = .next t.pump ∧ s.Beyond t p
    ∧ t.port p = (s.port p).trayTaken s.partTime item
    ∧ t.job j = some { y with state := .queued } ∧ (∀ i, i ≠ j → t.job i = s.job i)
    ∧ t.dispatch.stockWait = [] ∧ (∀ l, t.readyAt l = if l = y.level then [j] else [])
    ∧ t.alert p = s.alert p ∧ t.meter = s.meter := by
  have settled := message_trayReleases h sound found new nobody stopped free only hy waits stock loaded another nowhere
  have meter : (((s.trayTaken p item).unlist j).queuedAt j y).meter = s.meter := jobTo_meter ..
  have beyond : s.Beyond (((s.trayTaken p item).unlist j).queuedAt j y) p := by
    refine beyond_of_kept (message_kept s p (.tray item)) settled (jobTo_spool ..) (fun q ne => ?_) (fun q _ => jobTo_alert ..)
      (by rw [meter]) (jobTo_choices ..)
    rw [queuedAt_port, unlist_port]
    exact (State.setPort_port ..).trans (if_neg ne.symm)
  refine ⟨_, congrArg Host.Outcome.next (finish_of_settle settled), beyond, ?_, queuedAt_job (s := (s.trayTaken p item).unlist j) hy,
    fun i ne => jobTo_elsewhere _ ne, ?_, fun l => ?_, jobTo_alert .., meter⟩
  · rw [queuedAt_port, unlist_port, trayTaken_port]
  · unfold State.queuedAt
    rw [jobTo_dispatch]
    change ((s.trayTaken p item).unlist j).dispatch.stockWait = []
    rw [unlist_stockWait, show (s.trayTaken p item).dispatch.stockWait = [j] from only]
    simp
  · have empty (l : Level) : ((s.trayTaken p item).unlist j).readyAt l = [] := by
      rw [unlist_readyAt, show (s.trayTaken p item).readyAt l = [] from nobody l]
      rfl
    rw [queuedAt_readyAt, empty, empty]
    rfl

end

/-! ## A tray emptied whose stock is judged (R63) -/

/-- R63, R88: at a port without a job an emptied tray has its stock judged, and nothing else follows. -/
theorem tray_judged (h : s.Hears p) (found : (s.port p).trays.find? (fun t => t.number = item.number) = some old)
    (full : old.loaded = true) (empty : item.loaded = false) (state : (s.port p).state = .ready ∨ (s.port p).state = .stopped)
    (free : s.assigned p = none) :
    exec (.tray p item) s = .next (State.pump ((s.trayTaken p item).judgeStock old.stock)) := by
  have takes : (s.port p).state.takesTray = true := by rcases state with e | e <;> rw [e] <;> rfl
  have rests : (((s.trayTaken p item).judgeStock old.stock).port p).state ≠ .feeding := by
    rw [judgeStock_port, trayTaken_port]
    rcases state with e | e <;> exact fun feeds => PortState.noConfusion (e.symm.trans feeds)
  have idle : ((s.trayTaken p item).judgeStock old.stock).agenda = [] := by rw [judgeStock_agenda]; exact h.agenda
  have unassigned : ((s.trayTaken p item).judgeStock old.stock).assigned p = none := by rw [judgeStock_assigned]; exact free
  have changed : (s.hearing p).trayChanged p old item = ((s.trayTaken p item).judgeStock old.stock).post (.decide p) := by
    unfold State.trayChanged
    dsimp only
    simp only [hearing_trayTaken, full, empty, Bool.false_and, Bool.not_false, Bool.and_self, if_true, Bool.false_eq_true, if_false]
    rw [judgeTrayEmpty_unassigned unassigned]
  refine congrArg Host.Outcome.next (finish_of_settle ?_)
  rw [message_trayChanged h found (fun e => by rw [e, empty] at full; cases full)
    (fun loaded => by rw [empty] at loaded; cases loaded) takes, changed]
  exact (Runs.noop idle (decide_noop p rests)).settle (by omega)

/-- Settles O42: the table's entry replaced, and what a stock loaded or lost brings. -/
theorem trayChangesTable : Obligations.TrayChangesTable := by
  intro s p item h x after ignored
  have same := hearing_port_same (s := s) (p := p)
  refine ⟨fun barred => execTray_ignored h (takeTray_barred (by rw [same]; exact barred)),
    fun loaded zero => execTray_ignored h (takeTray_zero loaded zero),
    fun unknown => execTray_ignored h (takeTray_unknown (by rw [same]; exact unknown)),
    fun repeated => execTray_ignored h (takeTray_repeated (by rw [same]; exact repeated)),
    fun old found new sound nobody => ⟨tray_ready h sound found new nobody,
      fun j y setup at_p hy none before gone => tray_emptied h sound found new nobody setup at_p hy none before gone,
      fun j y stopped free only hy waits stock loaded another nowhere =>
        tray_releases h sound found new nobody stopped free only hy waits stock loaded another nowhere⟩,
    fun old found full empty => tray_judged h found full empty,
    fun stock => ⟨judgeStock_present, fun absent byLevel once out => ?_⟩⟩
  have gone : s.stockPresent stock = false := by
    rw [Bool.eq_false_iff, Ne, stockPresent_iff]
    rintro ⟨q, counts, k, holds, loaded, isStock⟩
    exact absent q counts k holds loaded isStock
  obtain ⟨ready, waiting, sorted, moved, kept⟩ := judgeStock_gone_spec gone byLevel once out
  obtain ⟨_, _, _, _, e⟩ := judgeStock_eq s stock
  exact ⟨ready, waiting, sorted, moved, kept, fun j y only hy => judgeStock_link gone byLevel out only hy,
    by rw [e], by rw [e], by rw [e], by rw [e], by rw [e], by rw [e]⟩

end Sys2Proof.Machine
end

section
/-! Accounts (chapter 9), second part: the holding and the release of an account's jobs (R61, R163, R164). -/

namespace Sys2Proof.Machine

variable {s t u w : State} {a : AccountNo} {j k : Slot} {x y : Job} {l : Level} {js : List Slot}

/-! ## A job placed at the tail of its level (R61) -/

theorem unlist_queuedAt_job (hx : s.job j = some x) (k : Slot) :
    ((s.unlist j).queuedAt j x).job k = if j = k then some { x with state := .queued } else s.job k := by
  unfold State.queuedAt
  rw [jobTo_job]
  change (if j = k then (s.job j).map _ else s.job k) = _
  rw [hx]
  rfl

theorem unlist_queuedAt_link (hx : s.job j = some x) (other : x.state ≠ .queued) :
    ((s.unlist j).queuedAt j x).link = (s.notify .job (jobNoticeBody j x.state { x with state := .queued })).link := by
  unfold State.queuedAt
  refine Eq.trans (jobTo_link _ (x := x) ?_ other) (notify_link_congr _ _ ?_ ?_)
  · exact hx
  · rfl
  · rfl

/-- A job that waits for a stock: the same change as a QUEUED job whose stock has gone (R60, R61). -/
theorem place_toStockWait (hx : s.job j = some x) (absent : s.stockPresent x.stock = false) :
    s.place j false = s.toStockWait j := place_waits s hx false absent

/-- What a job that is placed leaves as it was: all but its record, the lists, the notices and the work list. -/
theorem place_parts (hx : s.job j = some x) : ∃ link jobs ready wait agenda, s.place j false =
    { s with link := link, jobs := jobs, dispatch := { s.dispatch with ready := ready, stockWait := wait }, agenda := agenda } := by
  cases present : s.stockPresent x.stock with
  | true =>
    rw [place_unlisted hx present]
    unfold State.queuedAt
    rw [jobTo_eq]
    exact ⟨_, _, _, _, _, rfl⟩
  | false =>
    rw [place_toStockWait hx present, toStockWait_eq]
    exact ⟨_, _, _, _, _, rfl⟩

theorem place_job_other (hx : s.job j = some x) (ne : k ≠ j) : (s.place j false).job k = s.job k := by
  cases present : s.stockPresent x.stock with
  | true =>
    rw [place_unlisted hx present]
    exact (unlist_queuedAt_job hx k).trans (if_neg ne.symm)
  | false => rw [place_toStockWait hx present, toStockWait_job, if_neg ne.symm]

/-- R61: a HELD job whose stock is present. -/
theorem place_held_ready (hx : s.job j = some x) (held : x.state = .held) (present : s.stockPresent x.stock = true) :
    (s.place j false).job j = some { x with state := .queued }
    ∧ (∀ l, (s.place j false).readyAt l = (s.readyAt l).filter (fun i => i ≠ j) ++ (if l = x.level then [j] else []))
    ∧ (s.place j false).dispatch.stockWait = s.dispatch.stockWait.filter (fun i => i ≠ j)
    ∧ (s.place j false).link = (s.notify .job (jobNoticeBody j .held { x with state := .queued })).link
    ∧ (s.place j false).agenda = s.agenda ++ [.choosePort j, .signalPorts j] := by
  rw [place_unlisted hx present]
  refine ⟨(unlist_queuedAt_job hx j).trans (if_pos rfl), fun l => ?_, ?_, ?_, ?_⟩
  · change ((s.unlist j).queuedAt j x).readyAt l = _
    rw [queuedAt_readyAt, unlist_readyAt, unlist_readyAt]
    by_cases e : l = x.level
    · subst e
      rw [if_pos rfl, if_pos rfl]
    · rw [if_neg e, if_neg e, List.append_nil]
  · change ((s.unlist j).queuedAt j x).dispatch.stockWait = _
    unfold State.queuedAt
    rw [jobTo_dispatch]
    rfl
  · rw [← held]
    exact unlist_queuedAt_link hx (by rw [held]; decide)
  · change ((((s.unlist j).queuedAt j x).agenda ++ [.choosePort j]) ++ [.signalPorts j]) = _
    rw [queuedAt_agenda, List.append_assoc]
    rfl

/-- R60, R61: a HELD job whose stock is not present. -/
theorem place_held_waits (hx : s.job j = some x) (held : x.state = .held) (absent : s.stockPresent x.stock = false) :
    let waiting := s.dispatch.stockWait.filter (fun i => i ≠ j)
    (s.place j false).job j = some { x with state := .stockwait }
    ∧ (∀ l, (s.place j false).readyAt l = (s.readyAt l).filter (fun i => i ≠ j))
    ∧ (s.place j false).dispatch.stockWait = waiting.filter (fun i => s.levelOf i ≤ x.level.val)
        ++ j :: waiting.filter (fun i => x.level.val < s.levelOf i)
    ∧ (s.place j false).link = ((s.notify .job (jobNoticeBody j .held { x with state := .stockwait })).notify .stock
        (stockBody j { x with state := .stockwait } (waiting.length + 1))).link
    ∧ (s.place j false).agenda = s.agenda := by
  have level : (s.unlist j).levelOf j = x.level.val := by
    unfold State.levelOf
    rw [unlist_job, hx]
  rw [place_toStockWait hx absent]
  refine ⟨?_, fun l => toStockWait_readyAt, ?_, ?_, ?_⟩
  · rw [toStockWait_job, if_pos rfl, hx]
    rfl
  · rw [toStockWait_waits, State.waitListWith, level]
    rfl
  · rw [toStockWait_told hx (by rw [held]; decide), held]
    rfl
  · rw [toStockWait_eq]

/-! ## The jobs of an account held (R163) -/

theorem holdEach_cons (s : State) (j : Slot) (js : List Slot) :
    s.holdEach (j :: js) = ((s.unlist j).jobTo j .held).holdEach js := rfl

theorem holdEach_readyAt (js : List Slot) : ∀ (s : State) (l : Level),
    (s.holdEach js).readyAt l = (s.readyAt l).filter (fun i => i ∉ js) := by
  induction js with
  | nil => exact fun s l => by simp [State.holdEach]
  | cons j js ih =>
    intro s l
    rw [holdEach_cons, ih, jobTo_readyAt, unlist_readyAt, List.filter_filter]
    congr 1
    funext i
    simp [List.mem_cons, not_or, Bool.and_comm]

theorem holdEach_stockWait (js : List Slot) : ∀ s : State,
    (s.holdEach js).dispatch.stockWait = s.dispatch.stockWait.filter (fun i => i ∉ js) := by
  induction js with
  | nil => exact fun s => by simp [State.holdEach]
  | cons j js ih =>
    intro s
    rw [holdEach_cons, ih, jobTo_dispatch, unlist_stockWait, List.filter_filter]
    congr 1
    funext i
    simp [List.mem_cons, not_or, Bool.and_comm]

theorem holdEach_assignments (js : List Slot) : ∀ s : State,
    (s.holdEach js).dispatch.assignments = s.dispatch.assignments := by
  induction js with
  | nil => exact fun s => rfl
  | cons j js ih =>
    intro s
    rw [holdEach_cons, ih, jobTo_dispatch]
    rfl

theorem holdEach_held (once : js.Nodup) (mem : k ∈ js) : ∀ s : State,
    (s.holdEach js).job k = (s.job k).map (fun x => { x with state := .held }) := by
  induction js with
  | nil => exact absurd mem List.not_mem_nil
  | cons j js ih =>
    intro s
    obtain ⟨new, once⟩ := List.nodup_cons.mp once
    rw [holdEach_cons]
    rcases List.mem_cons.mp mem with rfl | later
    · rw [holdEach_job _ new, jobTo_same_slot, unlist_job]
    · rw [ih once later, jobTo_elsewhere _ fun e : k = j => new (e ▸ later), unlist_job]

/-- The notice of a job that becomes HELD (R25). -/
def State.noticeHeld (s u : State) (j : Slot) : State :=
  (s.job j).elim u fun x => u.notify .job (jobNoticeBody j x.state { x with state := .held })

/-- Each job held raises its notice, in the order in which they are held (R25, R163). -/
theorem holdEach_link (s₀ : State) (once : js.Nodup) : ∀ s u : State, s.link = u.link → s.partTime = u.partTime →
    (∀ j ∈ js, s.job j = s₀.job j ∧ ∃ x, s₀.job j = some x ∧ x.state ≠ .held) →
    (s.holdEach js).link = (js.foldl s₀.noticeHeld u).link := by
  induction js with
  | nil => exact fun s u link _ _ => link
  | cons j js ih =>
    intro s u link time same
    obtain ⟨new, once⟩ := List.nodup_cons.mp once
    obtain ⟨stays, x, hx, waits⟩ := same j List.mem_cons_self
    have noticed : s₀.noticeHeld u j = u.notify .job (jobNoticeBody j x.state { x with state := .held }) := by
      unfold State.noticeHeld
      rw [hx]
      rfl
    rw [holdEach_cons, List.foldl_cons, noticed]
    refine ih once _ _ ?_ ?_ fun k later => ?_
    · exact (jobTo_link (s.unlist j) (x := x) (stays.trans hx) waits).trans (notify_link_congr _ _ link time)
    · rw [jobTo_partTime, notify_partTime]
      exact time
    · rw [jobTo_elsewhere _ fun e : k = j => new (e ▸ later), unlist_job]
      exact same k (List.mem_cons_of_mem _ later)

/-- The slots whose jobs a change of the account holds, in slot order (R163). -/
def State.toHold (s : State) (a : AccountNo) : List Slot := allSlots.filter (s.waitsOn a)

theorem toHold_nodup : (s.toHold a).Nodup := (List.nodup_finRange 128).filter _

theorem mem_toHold : j ∈ s.toHold a ↔ s.waitsOn a j = true := by
  simp [State.toHold, allSlots]

theorem waitsOn_iff : s.waitsOn a j = true ↔
    ∃ x, s.job j = some x ∧ x.account = a ∧ (x.state = .queued ∨ x.state = .stockwait) := by
  unfold State.waitsOn
  cases s.job j <;> simp

theorem holdEach_toHold_job (hx : s.job j = some x) :
    (s.holdEach (s.toHold a)).job j = some (if s.waitsOn a j then { x with state := .held } else x) := by
  by_cases waits : s.waitsOn a j = true
  · rw [holdEach_held toHold_nodup (mem_toHold.mpr waits), hx, if_pos waits]
    rfl
  · rw [holdEach_job _ (mt mem_toHold.mp waits), hx, if_neg waits]

theorem filter_toHold (l : List Slot) : l.filter (fun i => i ∉ s.toHold a) = l.filter (fun i => !s.waitsOn a i) := by
  refine List.filter_congr fun i _ => ?_
  simp [mem_toHold]

/-- The ports whose assigned jobs are an account's (R163). -/
def State.runningFor (s : State) (a : AccountNo) : List PortNo :=
  allPorts.filter fun p => (s.assignedJob p).any fun x => x.account = a

/-- A job held is still its account's, so that its port is still told (R163). -/
theorem holdEach_runningFor : (s.holdEach (s.toHold a)).runningFor a = s.runningFor a := by
  refine List.filter_congr fun p _ => ?_
  have assigned : (s.holdEach (s.toHold a)).assigned p = s.assigned p := by
    unfold State.assigned State.assignment
    rw [holdEach_assignments]
  unfold State.assignedJob
  rw [assigned]
  cases s.assigned p with
  | none => rfl
  | some j =>
    change ((s.holdEach (s.toHold a)).job j).any _ = (s.job j).any _
    cases hx : s.job j with
    | none =>
      have out : j ∉ s.toHold a := fun mem => by
        obtain ⟨x, hx', _⟩ := waitsOn_iff.mp (mem_toHold.mp mem)
        rw [hx] at hx'
        cases hx'
      rw [holdEach_job _ out, hx]
    | some x =>
      rw [holdEach_toHold_job hx]
      split <;> rfl

/-- R163: the jobs that wait are held, then the account's ports are told. -/
theorem holdJobs_eq_post (s : State) (a : AccountNo) :
    s.holdJobs a = (s.holdEach (s.toHold a)).post (.decideEach (s.runningFor a)) := by
  have running : (allPorts.filter fun p =>
      match (s.holdEach (s.toHold a)).assignedJob p with
      | some x => decide (x.account = a)
      | none => false) = s.runningFor a := by
    rw [← holdEach_runningFor]
    refine List.filter_congr fun p _ => ?_
    cases (s.holdEach (s.toHold a)).assignedJob p <;> rfl
  rw [← running]
  rfl

theorem holdJobs_spec (s : State) (a : AccountNo) :
    (∀ j x, s.job j = some x → (s.holdJobs a).job j = some (if s.waitsOn a j then { x with state := .held } else x))
    ∧ (∀ l, (s.holdJobs a).readyAt l = (s.readyAt l).filter (fun j => !s.waitsOn a j))
    ∧ (s.holdJobs a).dispatch.stockWait = s.dispatch.stockWait.filter (fun j => !s.waitsOn a j)
    ∧ (s.holdJobs a).dispatch.assignments = s.dispatch.assignments
    ∧ (s.holdJobs a).link = ((s.toHold a).foldl s.noticeHeld s).link
    ∧ (s.holdJobs a).agenda = s.agenda ++ [.decideEach (s.runningFor a)] := by
  rw [holdJobs_eq_post]
  refine ⟨fun j x hx => holdEach_toHold_job hx, fun l => (holdEach_readyAt _ s l).trans (filter_toHold _),
    (holdEach_stockWait _ s).trans (filter_toHold _), holdEach_assignments _ s,
    holdEach_link s toHold_nodup s s rfl rfl fun j mem => ?_, ?_⟩
  · obtain ⟨x, hx, _, state⟩ := waitsOn_iff.mp (mem_toHold.mp mem)
    exact ⟨rfl, x, hx, by rcases state with e | e <;> rw [e] <;> decide⟩
  · change (s.holdEach (s.toHold a)).agenda ++ _ = _
    rw [holdEach_eq]

/-! ## The jobs of an account released (R164) -/

/-- The HELD jobs of an account, in slot order. -/
def State.heldFor (s : State) (a : AccountNo) : List Slot :=
  allSlots.filter fun j => (s.job j).any fun x => x.account = a && x.state = .held

theorem mem_heldFor : j ∈ s.heldFor a ↔ ∃ x, s.job j = some x ∧ x.account = a ∧ x.state = .held := by
  unfold State.heldFor
  cases hx : s.job j <;> simp [allSlots, hx]

theorem releaseJobs_eq (s : State) (a : AccountNo) : s.releaseJobs a =
    { s with agenda := s.agenda ++ (s.heldFor a).map Task.releaseHeld } := by
  have posts (l : List Slot) : ∀ u : State, l.foldl (fun s j => s.post (.releaseHeld j)) u =
      { u with agenda := u.agenda ++ l.map Task.releaseHeld } := by
    induction l with
    | nil => exact fun u => by simp
    | cons j l ih =>
      intro u
      rw [List.foldl_cons, ih]
      simp [State.post]
  have held : s.heldFor a = allSlots.filter fun j =>
      match s.job j with
      | some x => x.account = a && x.state = .held
      | none => false := by
    refine List.filter_congr fun j _ => ?_
    cases s.job j <;> rfl
  rw [held]
  exact posts _ s

/-- The state in which a job has been placed and what that brings has come to nothing. -/
def State.placedIdle (u : State) (j : Slot) : State := { u.place j false with agenda := [] }

/-- Where no port can be chosen, a job placed finds none (R61, R69, R74). -/
theorem runs_place (idle : u.agenda = []) (nobody : u.noPortToChoose) (hx : u.job j = some x) :
    ∃ n ≤ 16, Runs n (u.place j false) (u.placedIdle j) := by
  cases present : u.stockPresent x.stock with
  | true =>
    have nowhere : ((u.unlist j).queuedAt j x).noPortToChoose := fun q => by rw [queuedAt_port]; exact nobody q
    have queued : ((u.unlist j).queuedAt j x).jobIs j .queued = true := jobIs_of (queuedAt_job (s := u.unlist j) hx) rfl
    have quiet : ((u.unlist j).queuedAt j x).agenda = [] := queuedAt_agenda.trans idle
    have placed : u.placedIdle j = (u.unlist j).queuedAt j x := by
      unfold State.placedIdle
      rw [place_unlisted hx present]
      change { (u.unlist j).queuedAt j x with agenda := [] } = _
      rw [← quiet]
    rw [placed, place_unlisted hx present]
    exact runs_sought (sought_of_noPort nowhere) quiet queued
  | false =>
    have quiet : (u.place j false).agenda = [] := by rw [place_toStockWait hx present, toStockWait_eq]; exact idle
    have placed : u.placedIdle j = u.place j false := by
      unfold State.placedIdle
      rw [← quiet]
    rw [placed]
    exact ⟨0, by omega, Runs.idle quiet⟩

/-- The state in which jobs have been placed in turn (R164). -/
def State.releasing (u : State) (js : List Slot) : State := js.foldl State.placedIdle u

theorem placedIdle_parts (hx : u.job j = some x) : ∃ link jobs ready wait, u.placedIdle j =
    { u with link := link, jobs := jobs, dispatch := { u.dispatch with ready := ready, stockWait := wait }, agenda := [] } := by
  obtain ⟨link, jobs, ready, wait, _, e⟩ := place_parts hx
  refine ⟨link, jobs, ready, wait, ?_⟩
  unfold State.placedIdle
  rw [e]

theorem releaseHeld_places (hx : u.job j = some x) (held : x.state = .held) (good : (u.account x.account).state.good = true) :
    doTask (.releaseHeld j) u = u.place j false := by
  simp only [doTask, hx, held, good]
  rfl

/-- R164: each HELD job of a good account is placed before the next. -/
theorem runs_releasing (js : List Slot) : ∀ u : State, u.agenda = [] → js.Nodup → u.noPortToChoose →
    (u.account a).state.good = true → (∀ j ∈ js, ∃ x, u.job j = some x ∧ x.account = a ∧ x.state = .held) →
    ∃ n ≤ 17 * js.length, Runs n { u with agenda := js.map Task.releaseHeld } (u.releasing js)
      ∧ (u.releasing js).account a = u.account a := by
  induction js with
  | nil => exact fun u idle _ _ _ _ => ⟨0, by omega, ⟨rfl, by cases u; cases idle; rfl⟩, rfl⟩
  | cons j js ih =>
    intro u idle once nobody good held
    obtain ⟨new, once⟩ := List.nodup_cons.mp once
    obtain ⟨x, hx, mine, state⟩ := held j List.mem_cons_self
    obtain ⟨n, few, places⟩ := runs_place idle nobody hx
    obtain ⟨link, jobs, ready, wait, parts⟩ := placedIdle_parts hx
    have account : (u.placedIdle j).account a = u.account a := by rw [parts]; rfl
    have later (k : Slot) (mem : k ∈ js) : (u.placedIdle j).job k = u.job k :=
      place_job_other hx fun e : k = j => new (e ▸ mem)
    obtain ⟨m, more, rest, same⟩ := ih (u.placedIdle j) rfl once (fun q => by rw [parts]; exact nobody q)
      (by rw [account]; exact good) fun k mem => by rw [later k mem]; exact held k (List.mem_cons_of_mem _ mem)
    have released : doTask (.releaseHeld j) u = u.place j false := releaseHeld_places hx state (by rw [mine]; exact good)
    have start : ({ { u with agenda := (j :: js).map Task.releaseHeld } with agenda := [] } : State) = u := by
      cases u; cases idle; rfl
    refine ⟨n + m + 1, by rw [List.length_cons]; omega, ⟨.releaseHeld j, js.map Task.releaseHeld, rfl, ?_⟩,
      same.trans account⟩
    rw [start, released]
    exact places.append rest

end Sys2Proof.Machine
end

section
/-! Accounts (chapter 9), third part: the four account requests (R156 to R159, R162 to R164). -/

namespace Sys2Proof.Machine

variable {s t w : State} {r : Request} {rest : List Request} {a : AccountNo} {x y : Account} {c : AccountCause} {n : Nat}
  {v l f : Int} {k : TierNo}

/-! ## The bodies (R184, R187) -/

theorem byteAt_append (before after : List Byte) (b : Byte) : byteAt (before ++ b :: after) before.length = b := by
  simp [byteAt, List.getD]

theorem int32_length (v : Int) : (int32 v).length = 4 := num_length 4 _

/-- A signed number's field in a body that carries it after `before` (R184). -/
theorem intField_int32 (before after : List Byte) (range : inRange v) :
    intField (before ++ int32 v ++ after) before.length = v := by
  obtain ⟨low, high⟩ := range
  have word : (v % 4294967296).toNat < 256 ^ 4 := by omega
  unfold intField int32
  rw [field_num before after word]
  unfold signed32
  split <;> omega

/-- The body of an ACCOUNT_SET (R187). -/
def accountSetBody (a : AccountNo) (v l f : Int) (k : TierNo) : List Byte :=
  byte a.val :: int32 v ++ int32 l ++ int32 f ++ [byte k.val]

theorem accountSetBody_fields (hv : inRange v) (hl : inRange l) (hf : inRange f) :
    byteAt (accountSetBody a v l f k) 0 = byte a.val ∧ intField (accountSetBody a v l f k) 1 = v
    ∧ intField (accountSetBody a v l f k) 5 = l ∧ intField (accountSetBody a v l f k) 9 = f
    ∧ byteAt (accountSetBody a v l f k) 13 = byte k.val := by
  refine ⟨rfl, ?_, ?_, ?_, ?_⟩
  · simpa [accountSetBody] using intField_int32 [byte a.val] (int32 l ++ int32 f ++ [byte k.val]) hv
  · simpa [accountSetBody, int32_length] using intField_int32 (byte a.val :: int32 v) (int32 f ++ [byte k.val]) hl
  · simpa [accountSetBody, int32_length] using intField_int32 (byte a.val :: int32 v ++ int32 l) [byte k.val] hf
  · simpa [accountSetBody, int32_length] using byteAt_append (byte a.val :: int32 v ++ int32 l ++ int32 f) [] (byte k.val)

/-- The body of an ACCOUNT_LIMITS (R187). -/
def accountLimitsBody (a : AccountNo) (l f : Int) (k : TierNo) : List Byte :=
  byte a.val :: int32 l ++ int32 f ++ [byte k.val]

theorem accountLimitsBody_fields (hl : inRange l) (hf : inRange f) :
    byteAt (accountLimitsBody a l f k) 0 = byte a.val ∧ intField (accountLimitsBody a l f k) 1 = l
    ∧ intField (accountLimitsBody a l f k) 5 = f ∧ byteAt (accountLimitsBody a l f k) 9 = byte k.val := by
  refine ⟨rfl, ?_, ?_, ?_⟩
  · simpa [accountLimitsBody] using intField_int32 [byte a.val] (int32 f ++ [byte k.val]) hl
  · simpa [accountLimitsBody, int32_length] using intField_int32 (byte a.val :: int32 l) [byte k.val] hf
  · simpa [accountLimitsBody, int32_length] using byteAt_append (byte a.val :: int32 l ++ int32 f) [] (byte k.val)

theorem accountCreditBody_field (hv : inRange v) : intField (byte a.val :: int32 v) 1 = v := by
  simpa using intField_int32 [byte a.val] [] hv

theorem withAccount_named {body : List Byte} (g : AccountNo → Answer) (h : byteAt body 0 = byte a.val) :
    withAccount body g = g a := by
  unfold withAccount
  rw [h, account_byte]

theorem setTier?_set (h : s.meter.tiers[k] ≠ none) : s.setTier? (byte k.val) = some k := by
  unfold State.setTier?
  rw [tier_byte]
  exact if_pos (Option.isSome_iff_ne_none.mpr h)

theorem setTier?_unset (h : s.meter.tiers[k] = none) : s.setTier? (byte k.val) = none := by
  unfold State.setTier?
  rw [tier_byte]
  exact if_neg (by rw [h]; exact Bool.false_ne_true)

/-! ## The watch (R162) -/

theorem watched_judged (unset : x.state ≠ .unset) (closed : x.state ≠ .closed) : x.watched = x.watchedTo := by
  unfold Account.watched
  cases h : x.state with
  | unset => exact absurd h unset
  | closed => exact absurd h closed
  | opened => rfl
  | low => rfl
  | held => rfl

/-! ## What an account's change of state does to its jobs (R163, R164) -/

theorem accountTo_eq : s.accountTo a y c = (s.accountTold a y c).moveAccountJobs a (s.account a).state y.state := by
  have told : (s.setAccount a y).noticeAccount a (s.account a).state y c = s.accountTold a y c := by
    unfold State.noticeAccount State.accountTold accountNoticed
    simp only [Bool.and_eq_true, Bool.or_eq_true, decide_eq_true_eq, or_assoc]
    rfl
  unfold State.accountTo
  dsimp only
  rw [told]

theorem accountTold_account : (s.accountTold a y c).account a = y := by
  rw [accountTold_parts]
  simp [State.account]

theorem accountTold_agenda : (s.accountTold a y c).agenda = s.agenda := by rw [accountTold_parts]
theorem accountTold_jobs : (s.accountTold a y c).jobs = s.jobs := by rw [accountTold_parts]
theorem accountTold_ports : (s.accountTold a y c).ports = s.ports := by rw [accountTold_parts]
theorem accountTold_dispatch : (s.accountTold a y c).dispatch = s.dispatch := by rw [accountTold_parts]

theorem accountTold_reset : (s.accountTold a y c).link.reset = s.link.reset := by
  unfold State.accountTold
  dsimp only
  split
  · rw [notify_reset]
    rfl
  · rfl

theorem accountTo_reset : (s.accountTo a y c).link.reset = s.link.reset := by
  rw [accountTo_eq, (moveAccountJobs_kept (s.accountTold a y c) a _ _).link]
  exact accountTold_reset

/-- Nothing follows for an account that has no job (R163, R164). -/
theorem runs_move_noJobs {b e : AccountState} (idle : w.agenda = []) (none : ∀ j x, w.job j = some x → x.account ≠ a) :
    ∃ n ≤ 1, Runs n (w.moveAccountJobs a b e) w := by
  have hold : w.toHold a = [] := List.filter_eq_nil_iff.mpr fun j _ waits => by
    obtain ⟨x, hx, mine, _⟩ := waitsOn_iff.mp waits
    exact none j x hx mine
  have running : w.runningFor a = [] := List.filter_eq_nil_iff.mpr fun p _ runs => by
    cases hx : w.assignedJob p with
    | none => rw [hx] at runs; cases runs
    | some x =>
      rw [hx] at runs
      obtain ⟨j, _, hj⟩ := Option.bind_eq_some_iff.mp hx
      exact none j x hj (of_decide_eq_true runs)
  have held : w.heldFor a = [] := List.filter_eq_nil_iff.mpr fun j mem holds => by
    obtain ⟨x, hx, mine, _⟩ := mem_heldFor.mp (List.mem_filter.mpr ⟨mem, holds⟩)
    exact none j x hx mine
  unfold State.moveAccountJobs
  split
  · exact ⟨0, by omega, Runs.idle idle⟩
  · split
    · rw [holdJobs_eq_post, hold, running]
      exact ⟨1, le_rfl, Runs.noop idle (decideEach_none rfl)⟩
    · split
      · rw [releaseJobs_eq, held, List.map_nil, List.append_nil]
        exact ⟨0, by omega, Runs.idle idle⟩
      · exact ⟨0, by omega, Runs.idle idle⟩

theorem runs_accountTo_noJobs (idle : s.agenda = []) (none : ∀ j x, s.job j = some x → x.account ≠ a) :
    ∃ n ≤ 1, Runs n (s.accountTo a y c) (s.accountTold a y c) := by
  rw [accountTo_eq]
  refine runs_move_noJobs (accountTold_agenda.trans idle) fun j x hx => none j x ?_
  unfold State.job at hx ⊢
  rwa [accountTold_jobs] at hx

/-- The state in which an account's waiting jobs have been held and its ports have found nothing to decide (R163). -/
def State.accountHeld (s : State) (a : AccountNo) (y : Account) (c : AccountCause) : State :=
  { (s.accountTold a y c).holdJobs a with agenda := [] }

/-- R163: the waiting jobs are held; ports that do not feed have nothing to decide. -/
theorem runs_accountTo_holds (idle : s.agenda = []) (change : (s.account a).state ≠ y.state) (stops : y.state.stops = true)
    (rests : ∀ p b, s.assignedJob p = some b → b.account = a → (s.port p).state ≠ .feeding) :
    Runs 1 (s.accountTo a y c) (s.accountHeld a y c) := by
  generalize told : s.accountTold a y c = w
  have quiet : (w.holdEach (w.toHold a)).agenda = [] := by
    rw [holdEach_eq, ← told]
    exact accountTold_agenda.trans idle
  have assigned (p : PortNo) : w.assignedJob p = s.assignedJob p := by
    rw [← told]
    unfold State.assignedJob State.assigned State.assignment State.job
    rw [accountTold_dispatch, accountTold_jobs]
  have port (p : PortNo) : (w.holdEach (w.toHold a)).port p = s.port p := by
    rw [holdEach_eq, ← told]
    unfold State.port
    rw [accountTold_ports]
  have nobody : (w.holdEach (w.toHold a)).feedingAmong (w.runningFor a) = [] := by
    refine List.filter_eq_nil_iff.mpr fun p mem feeds => ?_
    have runs := (List.mem_filter.mp mem).2
    rw [assigned] at runs
    cases hb : s.assignedJob p with
    | none => rw [hb] at runs; cases runs
    | some b =>
      rw [hb] at runs
      rw [port] at feeds
      exact rests p b hb (of_decide_eq_true runs) (of_decide_eq_true feeds)
  have held : s.accountHeld a y c = w.holdEach (w.toHold a) := by
    unfold State.accountHeld
    rw [told, holdJobs_eq_post]
    change { w.holdEach (w.toHold a) with agenda := [] } = _
    rw [← quiet]
  rw [held, accountTo_eq, told]
  unfold State.moveAccountJobs
  rw [if_neg change, if_pos stops, holdJobs_eq_post]
  exact Runs.noop quiet (decideEach_none nobody)

/-- R164: the HELD jobs are released in slot order, each placed before the next. -/
theorem runs_accountTo_releases (idle : s.agenda = []) (stops : (s.account a).state.stops = true) (good : y.state.good = true)
    (nobody : s.noPortToChoose) :
    ∃ n ≤ 2176, Runs n (s.accountTo a y c) ((s.accountTold a y c).releasing (s.heldFor a))
      ∧ ((s.accountTold a y c).releasing (s.heldFor a)).account a = y := by
  have job (j : Slot) : (s.accountTold a y c).job j = s.job j := by
    unfold State.job
    rw [accountTold_jobs]
  have held : (s.accountTold a y c).heldFor a = s.heldFor a := by
    unfold State.heldFor
    simp only [job]
  have few : (s.heldFor a).length ≤ 128 := (List.length_filter_le _ _).trans (by simp [allSlots])
  have quiet : (s.accountTold a y c).agenda = [] := accountTold_agenda.trans idle
  obtain ⟨n, bound, run, same⟩ := runs_releasing (a := a) (s.heldFor a) (s.accountTold a y c) quiet
    ((List.nodup_finRange 128).filter _)
    (fun q => by unfold State.port; rw [accountTold_ports]; exact nobody q) (by rw [accountTold_account]; exact good)
    (fun j mem => by rw [job]; exact mem_heldFor.mp mem)
  have notStops : y.state.stops = false := by
    rcases (AccountState.good_iff _).mp good with e | e <;> rw [e] <;> rfl
  refine ⟨n, by omega, ?_, same.trans accountTold_account⟩
  have moved : s.accountTo a y c = { s.accountTold a y c with agenda := (s.heldFor a).map Task.releaseHeld } := by
    rw [accountTo_eq]
    unfold State.moveAccountJobs
    rw [if_neg (fun e => by rw [e, notStops] at stops; cases stops), if_neg (by rw [notStops]; exact Bool.false_ne_true),
      if_pos (by rw [good, stops]; rfl), releaseJobs_eq, held, quiet, List.nil_append]
  rw [moved]
  exact run

/-! ## ACCOUNT_SET (R156) -/

/-- The record of an account newly set, before the watch (R156). -/
def Account.newly (v l f : Int) (k : TierNo) : Account :=
  { state := .opened, tier := some k, balance := v, low := l, floor := f, charged := 0, goodSheets := 0, wasteSheets := 0
    pressTime := 0 }

section
variable (h : s.Takes 0x50 r rest) (hb : r.body = accountSetBody a v l f k) (hv : inRange v) (hl : inRange l) (hf : inRange f)
include h hb hv hl hf

theorem execAccountSet_outOfRange (bad : s.meter.tiers[k] = none ∨ l < f) :
    exec .accountSet s = .next (s.answered r .badField []) := by
  obtain ⟨number, _, low, floor, tier⟩ := accountSetBody_fields (a := a) (k := k) hv hl hf
  refine congrArg Host.Outcome.next (h.refused answerAccountSet .badField ?_)
  unfold answerAccountSet
  rw [hb, withAccount_named _ number, tier, low, floor]
  by_cases unset : s.meter.tiers[k] = none
  · rw [setTier?_unset unset]
  · rw [setTier?_set unset]
    exact if_pos (bad.resolve_left unset)

variable (tierSet : s.meter.tiers[k] ≠ none) (order : f ≤ l)
include tierSet order

theorem execAccountSet_busy (busy : (s.account a).state = .opened ∨ (s.account a).state = .low ∨ (s.account a).state = .held) :
    exec .accountSet s = .next (s.answered r .badState []) := by
  obtain ⟨number, _, low, floor, tier⟩ := accountSetBody_fields (a := a) (k := k) hv hl hf
  refine congrArg Host.Outcome.next (h.refused answerAccountSet .badState ?_)
  unfold answerAccountSet
  rw [hb, withAccount_named _ number, tier, low, floor, setTier?_set tierSet]
  dsimp only
  rw [if_neg (not_lt.mpr order)]
  rcases busy with e | e | e <;> rw [e]

theorem execAccountSet_sets (free : (s.account a).state = .unset ∨ (s.account a).state = .closed)
    (run : Runs n (s.accountTo a (Account.newly v l f k).watchedTo .set) t) (few : n ≤ 65536)
    (record : t.account a = (Account.newly v l f k).watchedTo) :
    exec .accountSet s = .next (t.answered r .ok (accountBody a (Account.newly v l f k).watchedTo)) := by
  obtain ⟨number, balance, low, floor, tier⟩ := accountSetBody_fields (a := a) (k := k) hv hl hf
  have e : answerAccountSet s r.body = accountDone (s.accountTo a (Account.newly v l f k).watchedTo .set) a := by
    unfold answerAccountSet
    rw [hb, withAccount_named _ number, tier, balance, low, floor, setTier?_set tierSet]
    dsimp only
    rw [if_neg (not_lt.mpr order)]
    rcases free with e | e <;> rw [e] <;> rfl
  rw [← record]
  exact congrArg Host.Outcome.next (h.ran answerAccountSet e (accountTo_reset.trans h.reset) run few)

end

/-! ## ACCOUNT_LIMITS (R157) -/

/-- An account's record with new limits, before the watch (R157). -/
def Account.limitedTo (x : Account) (l f : Int) (k : TierNo) : Account := { x with low := l, floor := f, tier := some k }

section
variable (h : s.Takes 0x51 r rest) (hb : r.body = accountLimitsBody a l f k) (hl : inRange l) (hf : inRange f)
include h hb hl hf

theorem execAccountLimits_outOfRange (bad : s.meter.tiers[k] = none ∨ l < f) :
    exec .accountLimits s = .next (s.answered r .badField []) := by
  obtain ⟨number, low, floor, tier⟩ := accountLimitsBody_fields (a := a) (k := k) hl hf
  refine congrArg Host.Outcome.next (h.refused answerAccountLimits .badField ?_)
  unfold answerAccountLimits
  rw [hb, withAccount_named _ number, tier, low, floor]
  by_cases unset : s.meter.tiers[k] = none
  · rw [setTier?_unset unset]
  · rw [setTier?_set unset]
    exact if_pos (bad.resolve_left unset)

variable (tierSet : s.meter.tiers[k] ≠ none) (order : f ≤ l)
include tierSet order

theorem execAccountLimits_unset (unset : (s.account a).state = .unset) :
    exec .accountLimits s = .next (s.answered r .badState []) := by
  obtain ⟨number, low, floor, tier⟩ := accountLimitsBody_fields (a := a) (k := k) hl hf
  refine congrArg Host.Outcome.next (h.refused answerAccountLimits .badState ?_)
  unfold answerAccountLimits
  rw [hb, withAccount_named _ number, tier, low, floor, setTier?_set tierSet]
  dsimp only
  rw [if_neg (not_lt.mpr order), if_pos unset]

theorem execAccountLimits_limits (set : (s.account a).state ≠ .unset)
    (watch : ((s.account a).limitedTo l f k).watched = y) (run : Runs n (s.accountTo a y .limits) t) (few : n ≤ 65536)
    (record : t.account a = y) : exec .accountLimits s = .next (t.answered r .ok (accountBody a y)) := by
  obtain ⟨number, low, floor, tier⟩ := accountLimitsBody_fields (a := a) (k := k) hl hf
  have e : answerAccountLimits s r.body = accountDone (s.accountTo a y .limits) a := by
    unfold answerAccountLimits
    rw [hb, withAccount_named _ number, tier, low, floor, setTier?_set tierSet, ← watch]
    dsimp only
    rw [if_neg (not_lt.mpr order), if_neg set]
    rfl
  rw [← record]
  exact congrArg Host.Outcome.next (h.ran answerAccountLimits e (accountTo_reset.trans h.reset) run few)

end

/-! ## ACCOUNT_CREDIT (R158) -/

/-- An account's record with an amount added to its balance, to the limits of the number, before the watch (R158). -/
def Account.creditedTo (x : Account) (v : Int) : Account :=
  { x with balance := max (-2147483648) (min 2147483647 (x.balance + v)) }

theorem credit_eq (x : Account) (v : Int) : x.credit v = x.creditedTo v := by
  unfold Account.credit Account.creditedTo saturate32
  rw [min_comm]

section
variable (h : s.Takes 0x52 r rest) (hb : r.body = byte a.val :: int32 v) (hv : inRange v)
include h hb

theorem execAccountCredit_unset (unset : (s.account a).state = .unset) :
    exec .accountCredit s = .next (s.answered r .badState []) := by
  refine congrArg Host.Outcome.next (h.refused answerAccountCredit .badState ?_)
  unfold answerAccountCredit
  rw [hb, withAccount_named _ rfl, if_pos unset]

include hv

theorem execAccountCredit_credits (set : (s.account a).state ≠ .unset) (watch : ((s.account a).creditedTo v).watched = y)
    (run : Runs n (s.accountTo a y .credit) t) (few : n ≤ 65536) (record : t.account a = y) :
    exec .accountCredit s = .next (t.answered r .ok (int32 y.balance ++ [y.state.code])) := by
  have e : answerAccountCredit s r.body = .done (s.accountTo a y .credit)
      (fun s' => int32 (s'.account a).balance ++ [(s'.account a).state.code]) := by
    unfold answerAccountCredit
    rw [hb, withAccount_named _ rfl, if_neg set, accountCreditBody_field hv, credit_eq, watch]
  rw [← record]
  exact congrArg Host.Outcome.next (h.ran answerAccountCredit e (accountTo_reset.trans h.reset) run few)

end

/-! ## ACCOUNT_CLOSE (R159) -/

theorem answerAccountClose_eq (hb : r.body = [byte a.val]) : answerAccountClose s r.body =
    if (s.account a).state = .unset then .refuse .badState
    else if (s.account a).state = .closed then accountDone s a
    else accountDone (s.accountTo a { s.account a with state := .closed } .close) a := by
  unfold answerAccountClose
  rw [hb, withAccount_named _ rfl]
  cases (s.account a).state <;> rfl

section
variable (h : s.Takes 0x53 r rest) (hb : r.body = [byte a.val])
include h hb

theorem execAccountClose_unset (unset : (s.account a).state = .unset) :
    exec .accountClose s = .next (s.answered r .badState []) := by
  refine congrArg Host.Outcome.next (h.refused answerAccountClose .badState ?_)
  rw [answerAccountClose_eq hb, if_pos unset]

theorem execAccountClose_closed (closed : (s.account a).state = .closed) :
    exec .accountClose s = .next (s.answered r .ok (accountBody a (s.account a))) := by
  have e : answerAccountClose s r.body = accountDone s a := by
    rw [answerAccountClose_eq hb, if_neg (by rw [closed]; decide), if_pos closed]
  exact congrArg Host.Outcome.next (h.ran answerAccountClose e h.reset (Runs.idle h.agenda) (by omega))

theorem execAccountClose_closes (set : (s.account a).state ≠ .unset) (going : (s.account a).state ≠ .closed)
    (run : Runs n (s.accountTo a { s.account a with state := .closed } .close) t) (few : n ≤ 65536)
    (record : t.account a = { s.account a with state := .closed }) :
    exec .accountClose s = .next (t.answered r .ok (accountBody a { s.account a with state := .closed })) := by
  have e : answerAccountClose s r.body = accountDone (s.accountTo a { s.account a with state := .closed } .close) a := by
    rw [answerAccountClose_eq hb, if_neg set, if_neg going]
  rw [← record]
  exact congrArg Host.Outcome.next (h.ran answerAccountClose e (accountTo_reset.trans h.reset) run few)

end

end Sys2Proof.Machine
end

section
/-! Accounts (chapter 9), fourth part: the account requests with no jobs, with jobs to hold and with jobs to release. -/

namespace Sys2Proof.Machine

variable {s : State} {r : Request} {rest : List Request} {a : AccountNo} {v l f : Int} {k : TierNo}

/-! ## An account with no jobs -/

section
variable (none : ∀ j x, s.job j = some x → x.account ≠ a)
include none

theorem accountSet_noJobs (h : s.Takes 0x50 r rest) (hb : r.body = accountSetBody a v l f k) (hv : inRange v) (hl : inRange l)
    (hf : inRange f) (tierSet : s.meter.tiers[k] ≠ Option.none) (order : f ≤ l)
    (free : (s.account a).state = .unset ∨ (s.account a).state = .closed) :
    exec .accountSet s = .next ((s.accountTold a (Account.newly v l f k).watchedTo .set).answered r .ok
      (accountBody a (Account.newly v l f k).watchedTo)) := by
  obtain ⟨n, few, run⟩ := runs_accountTo_noJobs (y := (Account.newly v l f k).watchedTo) (c := .set) h.agenda none
  exact execAccountSet_sets h hb hv hl hf tierSet order free run (by omega) accountTold_account

theorem accountLimits_noJobs (h : s.Takes 0x51 r rest) (hb : r.body = accountLimitsBody a l f k) (hl : inRange l)
    (hf : inRange f) (tierSet : s.meter.tiers[k] ≠ Option.none) (order : f ≤ l) (set : (s.account a).state ≠ .unset) {y : Account}
    (watch : ((s.account a).limitedTo l f k).watched = y) :
    exec .accountLimits s = .next ((s.accountTold a y .limits).answered r .ok (accountBody a y)) := by
  obtain ⟨n, few, run⟩ := runs_accountTo_noJobs (y := y) (c := .limits) h.agenda none
  exact execAccountLimits_limits h hb hl hf tierSet order set watch run (by omega) accountTold_account

theorem accountCredit_noJobs (h : s.Takes 0x52 r rest) (hb : r.body = byte a.val :: int32 v) (hv : inRange v)
    (set : (s.account a).state ≠ .unset) {y : Account} (watch : ((s.account a).creditedTo v).watched = y) :
    exec .accountCredit s = .next ((s.accountTold a y .credit).answered r .ok (int32 y.balance ++ [y.state.code])) := by
  obtain ⟨n, few, run⟩ := runs_accountTo_noJobs (y := y) (c := .credit) h.agenda none
  exact execAccountCredit_credits h hb hv set watch run (by omega) accountTold_account

theorem accountClose_noJobs (h : s.Takes 0x53 r rest) (hb : r.body = [byte a.val]) (set : (s.account a).state ≠ .unset)
    (going : (s.account a).state ≠ .closed) :
    exec .accountClose s = .next ((s.accountTold a { s.account a with state := .closed } .close).answered r .ok
      (accountBody a { s.account a with state := .closed })) := by
  obtain ⟨n, few, run⟩ := runs_accountTo_noJobs (y := { s.account a with state := .closed }) (c := .close) h.agenda none
  exact execAccountClose_closes h hb set going run (by omega) accountTold_account

end

/-! ## An account whose jobs are held (R163) -/

theorem accountHeld_account {y : Account} {c : AccountCause} : (s.accountHeld a y c).account a = y := by
  unfold State.accountHeld
  rw [holdJobs_parts]
  exact accountTold_account

section
variable (rests : ∀ p b, s.assignedJob p = some b → b.account = a → (s.port p).state ≠ .feeding)
include rests

/-- An OPEN or LOW account becomes HELD. -/
theorem runs_accountTo_entersHeld {y : Account} {c : AccountCause} (idle : s.agenda = [])
    (good : (s.account a).state = .opened ∨ (s.account a).state = .low) (held : y.state = .held) :
    Runs 1 (s.accountTo a y c) (s.accountHeld a y c) := by
  refine runs_accountTo_holds idle ?_ (by rw [held]; rfl) rests
  rw [held]
  rcases good with e | e <;> rw [e] <;> exact AccountState.noConfusion

theorem accountLimits_holds (h : s.Takes 0x51 r rest) (hb : r.body = accountLimitsBody a l f k) (hl : inRange l)
    (hf : inRange f) (tierSet : s.meter.tiers[k] ≠ none) (order : f ≤ l)
    (good : (s.account a).state = .opened ∨ (s.account a).state = .low)
    (held : ((s.account a).limitedTo l f k).watchedTo.state = .held) :
    exec .accountLimits s = .next ((s.accountHeld a ((s.account a).limitedTo l f k).watchedTo .limits).answered r .ok
      (accountBody a ((s.account a).limitedTo l f k).watchedTo)) :=
  execAccountLimits_limits h hb hl hf tierSet order (by rcases good with e | e <;> rw [e] <;> decide)
    (watched_of_good (x := (s.account a).limitedTo l f k) good) (runs_accountTo_entersHeld rests h.agenda good held) (by omega)
    accountHeld_account

theorem accountCredit_holds (h : s.Takes 0x52 r rest) (hb : r.body = byte a.val :: int32 v) (hv : inRange v)
    (good : (s.account a).state = .opened ∨ (s.account a).state = .low)
    (held : ((s.account a).creditedTo v).watchedTo.state = .held) :
    exec .accountCredit s = .next ((s.accountHeld a ((s.account a).creditedTo v).watchedTo .credit).answered r .ok
      (int32 ((s.account a).creditedTo v).watchedTo.balance ++ [((s.account a).creditedTo v).watchedTo.state.code])) :=
  execAccountCredit_credits h hb hv (by rcases good with e | e <;> rw [e] <;> decide)
    (watched_of_good (x := (s.account a).creditedTo v) good) (runs_accountTo_entersHeld rests h.agenda good held) (by omega)
    accountHeld_account

theorem accountClose_holds (h : s.Takes 0x53 r rest) (hb : r.body = [byte a.val])
    (judged : (s.account a).state = .opened ∨ (s.account a).state = .low ∨ (s.account a).state = .held) :
    exec .accountClose s = .next ((s.accountHeld a { s.account a with state := .closed } .close).answered r .ok
      (accountBody a { s.account a with state := .closed })) := by
  have set : (s.account a).state ≠ .unset := by rcases judged with e | e | e <;> rw [e] <;> decide
  have going : (s.account a).state ≠ .closed := by rcases judged with e | e | e <;> rw [e] <;> decide
  exact execAccountClose_closes h hb set going (runs_accountTo_holds h.agenda going rfl rests) (by omega) accountHeld_account

end

/-! ## An account whose HELD jobs are released (R164) -/

section
variable (nobody : s.noPortToChoose)
include nobody

theorem accountSet_releases (h : s.Takes 0x50 r rest) (hb : r.body = accountSetBody a v l f k) (hv : inRange v) (hl : inRange l)
    (hf : inRange f) (tierSet : s.meter.tiers[k] ≠ none) (order : f ≤ l) (closed : (s.account a).state = .closed)
    (good : (Account.newly v l f k).watchedTo.state = .opened ∨ (Account.newly v l f k).watchedTo.state = .low) :
    exec .accountSet s = .next (((s.accountTold a (Account.newly v l f k).watchedTo .set).releasing (s.heldFor a)).answered
      r .ok (accountBody a (Account.newly v l f k).watchedTo)) := by
  obtain ⟨n, few, run, record⟩ := runs_accountTo_releases (y := (Account.newly v l f k).watchedTo) (c := .set) h.agenda
    (by rw [closed]; rfl) ((AccountState.good_iff _).mpr good) nobody
  exact execAccountSet_sets h hb hv hl hf tierSet order (.inr closed) run (by omega) record

theorem accountLimits_releases (h : s.Takes 0x51 r rest) (hb : r.body = accountLimitsBody a l f k) (hl : inRange l)
    (hf : inRange f) (tierSet : s.meter.tiers[k] ≠ none) (order : f ≤ l) (held : (s.account a).state = .held)
    (good : ((s.account a).limitedTo l f k).watchedTo.state = .opened
      ∨ ((s.account a).limitedTo l f k).watchedTo.state = .low) :
    exec .accountLimits s = .next (((s.accountTold a ((s.account a).limitedTo l f k).watchedTo .limits).releasing
      (s.heldFor a)).answered r .ok (accountBody a ((s.account a).limitedTo l f k).watchedTo)) := by
  obtain ⟨n, few, run, record⟩ := runs_accountTo_releases (y := ((s.account a).limitedTo l f k).watchedTo) (c := .limits)
    h.agenda (by rw [held]; rfl) ((AccountState.good_iff _).mpr good) nobody
  exact execAccountLimits_limits h hb hl hf tierSet order (by rw [held]; decide)
    (watched_judged (x := (s.account a).limitedTo l f k) (held.trans_ne (by decide)) (held.trans_ne (by decide))) run (by omega)
    record

theorem accountCredit_releases (h : s.Takes 0x52 r rest) (hb : r.body = byte a.val :: int32 v) (hv : inRange v)
    (held : (s.account a).state = .held)
    (good : ((s.account a).creditedTo v).watchedTo.state = .opened ∨ ((s.account a).creditedTo v).watchedTo.state = .low) :
    exec .accountCredit s = .next (((s.accountTold a ((s.account a).creditedTo v).watchedTo .credit).releasing
      (s.heldFor a)).answered r .ok
        (int32 ((s.account a).creditedTo v).watchedTo.balance ++ [((s.account a).creditedTo v).watchedTo.state.code])) := by
  obtain ⟨n, few, run, record⟩ := runs_accountTo_releases (y := ((s.account a).creditedTo v).watchedTo) (c := .credit)
    h.agenda (by rw [held]; rfl) ((AccountState.good_iff _).mpr good) nobody
  exact execAccountCredit_credits h hb hv (by rw [held]; decide)
    (watched_judged (x := (s.account a).creditedTo v) (held.trans_ne (by decide)) (held.trans_ne (by decide))) run (by omega)
    record

end

/-- Settles O57: each request by its tests, its record and the watch; then what the account's jobs do. -/
theorem accountRequestsAndWatch : Obligations.AccountRequestsAndWatch := by
  refine ⟨fun s r rest a v l f k none hv hl hf => ?noJobs, fun s a => ?holding, fun s r rest a v l f k hv hl hf => ?jobs,
    fun s j x hx held => ?placing⟩
  case noJobs =>
    intro x done
    refine ⟨fun h hb => ⟨execAccountSet_outOfRange h hb hv hl hf, fun tier order =>
        ⟨execAccountSet_busy h hb hv hl hf tier order, accountSet_noJobs none h hb hv hl hf tier order⟩⟩,
      fun h hb => ⟨execAccountLimits_outOfRange h hb hl hf, fun tier order =>
        ⟨execAccountLimits_unset h hb hl hf tier order, fun closed => ?_, fun set going => ?_⟩⟩,
      fun h hb => ⟨execAccountCredit_unset h hb, fun closed => ?_, fun set going => ?_⟩,
      fun h hb => ⟨execAccountClose_unset h hb, execAccountClose_closed h hb, accountClose_noJobs none h hb⟩⟩
    · exact accountLimits_noJobs none h hb hl hf tier order (closed.trans_ne (by decide))
        (watched_same (x := x.limitedTo l f k) (.inr (.inl closed)))
    · exact accountLimits_noJobs none h hb hl hf tier order set (watched_judged (x := x.limitedTo l f k) set going)
    · exact accountCredit_noJobs none h hb hv (closed.trans_ne (by decide))
        (watched_same (x := x.creditedTo v) (.inr (.inl closed)))
    · exact accountCredit_noJobs none h hb hv set (watched_judged (x := x.creditedTo v) set going)
  case holding =>
    obtain ⟨job, ready, waiting, assignments, link, agenda⟩ := holdJobs_spec s a
    refine ⟨job, ready, waiting, ?_, ?_, ?_, assignments, link, agenda⟩ <;> rw [holdJobs_parts]
  case jobs =>
    exact ⟨fun rests => ⟨fun h hb tier order => accountLimits_holds rests h hb hl hf tier order,
        fun h hb => accountCredit_holds rests h hb hv, accountClose_holds rests⟩,
      fun nobody => ⟨fun h hb tier order => accountSet_releases nobody h hb hv hl hf tier order,
        fun h hb tier order => accountLimits_releases nobody h hb hl hf tier order,
        fun h hb => accountCredit_releases nobody h hb hv⟩⟩
  case placing =>
    obtain ⟨_, _, _, _, _, parts⟩ := place_parts hx
    exact ⟨fun i ne => place_job_other hx ne, by rw [parts], by rw [parts], by rw [parts], by rw [parts],
      place_held_ready hx held, place_held_waits hx held⟩

end Sys2Proof.Machine
end

section
/-! The paper path (chapter 7): what the settling of sheets leaves at a STOPPED port (R125 to R130). -/

namespace Sys2Proof.Machine

variable {s t u : State} {p : PortNo} {j : Slot} {b : Job} {y : Sheet} {c : WasteCause} {o : Outcome1} {gone more : List Byte}
  {l : List (Sheet × Outcome1)}

/-- A port keeps its state, the dispatcher stays, no job appears or goes, and the port's path loses the sheets of some tags. -/
structure State.Stands (s t : State) (p : PortNo) (gone : List Byte) : Prop where
  state : (t.port p).state = (s.port p).state
  dispatch : t.dispatch = s.dispatch
  jobs : ∀ j, (t.job j).isSome = (s.job j).isSome
  tags : (t.port p).path.map (·.tag) = ((s.port p).path.map (·.tag)).filter (fun k => k ∉ gone)

theorem State.Stands.refl (s : State) (p : PortNo) : s.Stands s p [] := ⟨rfl, rfl, fun _ => rfl, by simp⟩

theorem State.Stands.trans (h : s.Stands t p gone) (k : t.Stands u p more) : s.Stands u p (gone ++ more) where
  state := k.state.trans h.state
  dispatch := k.dispatch.trans h.dispatch
  jobs j := (k.jobs j).trans (h.jobs j)
  tags := by
    rw [k.tags, h.tags, List.filter_filter]
    congr 1
    funext i
    simp [not_or, Bool.and_comm]

theorem State.Stands.assigned (h : s.Stands t p gone) (q : PortNo) : t.assigned q = s.assigned q := by
  unfold State.assigned State.assignment
  rw [h.dispatch]

/-- An operation that touches neither the ports, the dispatcher nor the presence of jobs. -/
theorem stands_of_same (ports : t.ports = s.ports) (dispatch : t.dispatch = s.dispatch)
    (jobs : ∀ j, (t.job j).isSome = (s.job j).isSome) : s.Stands t p [] := by
  have port : t.port p = s.port p := by unfold State.port; rw [ports]
  exact ⟨by rw [port], dispatch, jobs, by simp [port]⟩

theorem modPort_stands {f : Port → Port} (state : ∀ q, (f q).state = q.state)
    (tags : ∀ q, (f q).path.map (·.tag) = q.path.map (·.tag)) : s.Stands (s.modPort p f) p [] where
  state := by rw [State.modPort_port, if_pos rfl, state]
  dispatch := rfl
  jobs _ := rfl
  tags := by rw [State.modPort_port, if_pos rfl, tags]; simp

theorem modJob_stands (f : Job → Job) : s.Stands (s.modJob j f) p [] :=
  stands_of_same rfl rfl fun k => by
    rw [State.modJob_job]
    split
    · rename_i e
      rw [← e, Option.isSome_map]
    · rfl

theorem changeCauses_stands (f : CauseSet → CauseSet) : s.Stands (s.changeCauses p f) p [] :=
  stands_of_same (changeCauses_ports ..) (changeCauses_dispatch ..) fun k => by rw [changeCauses_job]

theorem writeRecord_stands (r : MeterRecord) : s.Stands (s.writeRecord r) p [] := by
  obtain ⟨_, _, _, _, _, e⟩ := writeRecord_parts (s := s) r
  exact stands_of_same (by rw [e]) (by rw [e]) fun k => by rw [e]; rfl

/-! ## The rewind rule (R112, R117, R130) -/

theorem send_stands (m : PressOut) : s.Stands (s.send p m) p [] :=
  modPort_stands (fun q => queueOut_state q m) fun q => by rw [queueOut_path]

theorem sendFill_stands {tag : Byte} {back : Bool} (band : Nat) : s.Stands (s.sendFill p tag back band) p [] :=
  (send_stands _).trans (modPort_stands (fun _ => rfl) fun _ => rfl)

theorem divert_stands {tag : Byte} : s.Stands (s.divert p tag) p [] := by
  unfold State.divert
  split
  · split
    · exact send_stands _
    · exact .refl s p
  · exact .refl s p

theorem divertAll_stands (tags : List Byte) : s.Stands (s.divertAll p tags) p [] := by
  unfold State.divertAll
  induction tags generalizing s with
  | nil => exact .refl s p
  | cons tag tags ih => exact divert_stands.trans ih

theorem endRequestOf_stands (tags : List Byte) : s.Stands (s.endRequestOf p tags) p [] := by
  unfold State.endRequestOf
  split
  · split
    · exact (modPort_stands (f := fun x => { x with request := none }) (fun _ => rfl) fun _ => rfl).trans (sendFill_stands _)
    · exact .refl s p
  · exact .refl s p

/-- A rewind lowers the job's next ordinal; only a draining port feeds again for it (R22, R112). -/
theorem rewindTo_stands (r : Nat) (still : (s.port p).state ≠ .draining) : s.Stands (s.rewindTo p r) p [] := by
  unfold State.rewindTo
  split
  · rename_i j x at_p hx
    have job : s.job j = some x := (assignedJob_of s p j at_p).symm.trans hx
    have lowered : s.Stands (s.setJob j (some { x with next := r })) p [] :=
      stands_of_same rfl rfl fun k => by
        rw [State.setJob_job]
        split
        · rename_i e
          rw [← e, job]
          rfl
        · rfl
    split
    · dsimp only
      rw [if_neg]
      · exact lowered
      · rw [Bool.and_eq_true, decide_eq_true_eq]
        exact fun ends => still ends.1
    · exact .refl s p
  · exact .refl s p

theorem supersede_tags (path : List Sheet) (r : Nat) : (supersede path r).map (·.tag) = path.map (·.tag) := by
  unfold supersede
  rw [List.map_map]
  refine List.map_congr_left fun x _ => ?_
  dsimp only [Function.comp_apply]
  split_ifs <;> rfl

theorem rewindRule_stands (still : (s.port p).state ≠ .draining) : s.Stands (s.rewindRule p l) p [] := by
  unfold State.rewindRule
  split
  · exact (((rewindTo_stands _ still).trans
      (modPort_stands (f := fun q => { q with path := supersede q.path _ }) (fun _ => rfl) fun q => supersede_tags q.path _)).trans
      (divertAll_stands _)).trans (endRequestOf_stands _)
  · exact .refl s p

/-! ## The outcomes that lose a sheet (R127, R128) -/

/-- A sheet forgotten leaves the path with every other of its tag (R129). -/
theorem forget_stands {f : Port → Port} (state : ∀ q, (f q).state = q.state) (path : ∀ q, (f q).path = q.path) (tag : Byte) :
    s.Stands (s.modPort p (fun q => (f q).forget tag)) p [tag] where
  state := by
    rw [State.modPort_port, if_pos rfl]
    exact state _
  dispatch := rfl
  jobs _ := rfl
  tags := by
    rw [State.modPort_port, if_pos rfl]
    change ((f (s.port p)).path.filter (fun z => z.tag ≠ tag)).map (·.tag) = _
    rw [path, List.filter_map]
    congr 2
    funext z
    simp

theorem countUnderrun_stands (rests : (s.port p).state ≠ .feeding) : s.Stands (s.countUnderrun p j) p [] := by
  have counted (n : Nat) : s.Stands (s.modPort p (fun q => { q with underruns := n })) p [] :=
    modPort_stands (fun _ => rfl) fun _ => rfl
  unfold State.countUnderrun
  dsimp only
  split
  · have declared := ((counted 3).trans (changeCauses_stands (fun c => { c with underrun := true }))).trans
      (modJob_stands (j := j) (fun x => { x with forcedWhole := true }))
    unfold State.permanentUnderrun
    rename_i third
    rw [third]
    dsimp only
    rw [if_neg (by rw [declared.state]; exact rests)]
    exact declared
  · exact counted _

theorem wasteOutcome_stands (rests : (s.port p).state ≠ .feeding) : s.Stands (s.wasteOutcome p j b y c) p [y.tag] := by
  have billed (v : State) (a : AccountNo) (f : Account → Account) : v.Stands (v.modAccount a f) p [] :=
    stands_of_same rfl rfl fun _ => rfl
  have counted := (((writeRecord_stands (s := s) (p := p) (s.recordOf j b p y.ordinal (some c))).trans
    (billed _ b.account (fun a => { a with wasteSheets := raiseTo max32 a.wasteSheets 1 }))).trans
    (modJob_stands (j := j) (fun z => (z.oneMoreWaste c).loss y.ordinal))).trans
    (modPort_stands (f := fun q => { q with counters := { q.counters with waste := bump q.counters.waste } })
      (fun _ => rfl) fun _ => rfl)
  unfold State.wasteOutcome
  dsimp only
  split
  · exact (counted.trans (countUnderrun_stands (by rw [counted.state]; exact rests))).trans
      (forget_stands (f := id) (fun _ => rfl) (fun _ => rfl) y.tag)
  · exact counted.trans (forget_stands (f := id) (fun _ => rfl) (fun _ => rfl) y.tag)

theorem withdrawnOutcome_stands : s.Stands (s.withdrawnOutcome p y) p [y.tag] := by
  have released : s.Stands s.releaseReservation p [] := by
    unfold State.releaseReservation
    split
    · exact stands_of_same rfl rfl fun _ => rfl
    · exact .refl s p
  exact released.trans (forget_stands (f := fun q => { q with
    counters := { q.counters with withdrawn := bump q.counters.withdrawn } }) (fun _ => rfl) (fun _ => rfl) y.tag)

/-- The tags that go where sheets are settled: none at a port without a job, which settles nothing. -/
def State.tagsLost (s : State) (p : PortNo) (tags : List Byte) : List Byte := if (s.assignedJob p).isSome then tags else []

theorem State.Stands.assignedJob (h : s.Stands t p gone) (q : PortNo) :
    (t.assignedJob q).isSome = (s.assignedJob q).isSome := by
  unfold State.assignedJob
  rw [h.assigned]
  cases s.assigned q with
  | none => rfl
  | some j => exact h.jobs j

theorem takeOutcome_stands (rests : (s.port p).state ≠ .feeding) (lost : o ≠ .good) :
    s.Stands (s.takeOutcome p y o) p (s.tagsLost p [y.tag]) := by
  unfold State.takeOutcome
  split
  · rename_i j b _ job
    have lose : s.tagsLost p [y.tag] = [y.tag] := if_pos (by rw [job]; rfl)
    rw [lose]
    cases o with
    | good => exact absurd rfl lost
    | waste c => exact wasteOutcome_stands rests
    | withdrawn => exact withdrawnOutcome_stands
  · rename_i nobody
    have keep : s.tagsLost p [y.tag] = [] := if_neg fun some => by
      obtain ⟨b, job⟩ := Option.isSome_iff_exists.mp some
      obtain ⟨j, at_p, _⟩ := Option.bind_eq_some_iff.mp job
      exact nobody j b at_p job
    rw [keep]
    exact .refl s p

/-- Sheets that take losing outcomes one after the other. -/
theorem foldl_takeOutcome_stands (l : List (Sheet × Outcome1)) : ∀ s : State, (s.port p).state ≠ .feeding →
    (∀ e ∈ l, e.2 ≠ .good) →
    s.Stands (l.foldl (fun s e => s.takeOutcome p e.1 e.2) s) p (s.tagsLost p (l.map (·.1.tag))) := by
  induction l with
  | nil =>
    intro s _ _
    have keep : s.tagsLost p [] = [] := ite_self _
    exact keep ▸ .refl s p
  | cons e l ih =>
    intro s rests lost
    have first := takeOutcome_stands (y := e.1) rests (lost e List.mem_cons_self)
    have rest := ih _ (by rw [first.state]; exact rests) fun k later => lost k (List.mem_cons_of_mem _ later)
    have tags : s.tagsLost p [e.1.tag] ++ (s.takeOutcome p e.1 e.2).tagsLost p (l.map (·.1.tag)) =
        s.tagsLost p ((e :: l).map (·.1.tag)) := by
      unfold State.tagsLost
      rw [first.assignedJob]
      split <;> rfl
    exact tags ▸ first.trans rest

/-- R125, R130: what the settling of lost sheets leaves at a STOPPED port. -/
theorem settleSheets_stands (stopped : (s.port p).state = .stopped) (lost : ∀ e ∈ l, e.2 ≠ .good) :
    s.Stands (s.settleSheets p l) p (s.tagsLost p (l.map (·.1.tag))) := by
  have settled := foldl_takeOutcome_stands l s (by rw [stopped]; decide) lost
  have all := settled.trans (rewindRule_stands (l := l) (by rw [settled.state, stopped]; decide))
  rw [List.append_nil] at all
  exact all

/-- No sheet to settle, nothing to rewind. -/
theorem settleSheets_nil (s : State) (p : PortNo) : s.settleSheets p [] = s := rfl

/-- R136: once every sheet of the path has been settled with its job, the path is empty. -/
theorem settleSheets_empties {f : Sheet → Outcome1} (stopped : (s.port p).state = .stopped)
    (lost : ∀ z ∈ (s.port p).path, f z ≠ .good)
    (job : ((s.settleSheets p ((s.port p).path.map (fun z => (z, f z)))).assignedJob p).isSome) :
    ((s.settleSheets p ((s.port p).path.map (fun z => (z, f z)))).port p).path = [] := by
  have settled := settleSheets_stands (p := p) (l := (s.port p).path.map (fun z => (z, f z))) stopped fun e mem => by
    obtain ⟨z, path, rfl⟩ := List.mem_map.mp mem
    exact lost z path
  have tags : s.tagsLost p (((s.port p).path.map (fun z => (z, f z))).map (·.1.tag)) = (s.port p).path.map (·.tag) := by
    unfold State.tagsLost
    rw [if_pos (by rw [← settled.assignedJob]; exact job), List.map_map]
    rfl
  have left := settled.tags
  rw [tags, List.filter_eq_nil_iff.mpr fun k mem => by simpa using List.mem_map.mp mem] at left
  exact List.map_eq_nil_iff.mp left

end Sys2Proof.Machine
end

section
/-! The paper path (chapter 7): STOP (R75, R100, R125, R130 to R135). -/

namespace Sys2Proof.Machine

variable {s t u v : State} {p : PortNo} {a : Assignment} {b y : Job} {items : List StopItem} {reason : StopReason}
  {add : CauseSet → CauseSet} {q : Port}

/-! ## The reason and the list of a STOP (R131, R132) -/

/-- A reason that the check of R193 lets pass, and the cause it adds (R131). -/
def StopAdds (reason : StopReason) (add : CauseSet → CauseSet) : Prop :=
  (∃ zone : Byte, reason = .jam zone ∧ 1 ≤ zone.toNat ∧ zone.toNat ≤ 8
    ∧ ∀ k, add k = if k.jam = none then { k with jam := some zone } else k)
  ∨ (∃ code : Byte, reason = .fault code ∧ code ≠ 0
    ∧ ∀ k, add k = if k.fault = none then { k with fault := some code } else k)

theorem StopAdds.eq (h : StopAdds reason add) : CauseSet.addStop reason = add := by
  funext k
  rcases h with ⟨zone, rfl, _, _, adds⟩ | ⟨code, rfl, _, adds⟩
  · rw [adds]
    obtain ⟨_, _, jam, _, _, _⟩ := k
    cases jam <;> rfl
  · rw [adds]
    obtain ⟨_, fault, _, _, _, _⟩ := k
    cases fault <;> rfl

theorem StopAdds.fits (h : StopAdds reason add) (short : items.length ≤ 255) : (PressIn.stop reason items).fits = true := by
  rcases h with ⟨zone, rfl, low, high, _⟩ | ⟨code, rfl, real, _⟩
  · simp [PressIn.fits, low, high, short]
  · exact Bool.and_eq_true_iff.mpr ⟨decide_eq_true real, decide_eq_true short⟩

/-- A sheet that the list names FINISH, or that is FINISH and not named, stays (R125, R132). -/
theorem stopOutcome_stays {z : Sheet} (free : ({ tag := z.tag, disposition := .stranded } : StopItem) ∉ items)
    (finish : ({ tag := z.tag, disposition := .finish } : StopItem) ∈ items ∨ z.state = .finish) :
    stopOutcome items z = none := by
  have noneStranded : (items.filter (fun i => i.tag = z.tag)).any (fun i => i.disposition = .stranded) = false := by
    rw [List.any_eq_false]
    intro i mem stranded
    obtain ⟨named, tag⟩ := List.mem_filter.mp mem
    have same : i = { tag := z.tag, disposition := .stranded } := by
      obtain ⟨tag', disposition⟩ := i
      rw [StopItem.mk.injEq]
      exact ⟨of_decide_eq_true tag, of_decide_eq_true stranded⟩
    exact free (same ▸ named)
  have name : namedBy items z.tag = if (items.filter (fun i => i.tag = z.tag)).isEmpty then none else some .finish := by
    unfold namedBy
    dsimp only
    rw [noneStranded]
    rfl
  unfold stopOutcome
  rw [name]
  split
  · rename_i e
    split at e <;> cases e
  · rfl
  · rename_i unnamed
    rcases finish with named | done
    · rw [if_neg] at unnamed
      · cases unnamed
      · rw [List.isEmpty_iff]
        exact List.ne_nil_of_mem (List.mem_filter.mpr ⟨named, decide_eq_true rfl⟩)
    · rw [done]

/-! ## STOPPED entered (R75, R131) -/

/-- The state in which a port with a job has entered STOPPED with the record `q`, and the cause has been added. -/
def State.stopTaken (s : State) (p : PortNo) (q : Port) (a : Assignment) (add : CauseSet → CauseSet) : State :=
  (((s.setPort p q).notifyPort p (s.port p).state (.state (some a.slot))).setAssignment p
    (some { a with slice := none })).changeCauses p add

theorem stopTaken_port (k : PortNo) : (s.stopTaken p q a add).port k = if p = k then q else s.port k := by
  simp [State.stopTaken, State.notifyPort]

theorem stopTaken_agenda : (s.stopTaken p q a add).agenda = s.agenda := by simp [State.stopTaken, State.notifyPort]
theorem stopTaken_jobs : (s.stopTaken p q a add).jobs = s.jobs := by simp [State.stopTaken, State.notifyPort]
theorem stopTaken_meter : (s.stopTaken p q a add).meter = s.meter := by simp [State.stopTaken, State.notifyPort]
theorem stopTaken_spool : (s.stopTaken p q a add).spool = s.spool := by simp [State.stopTaken, State.notifyPort]
theorem stopTaken_choices : (s.stopTaken p q a add).choices = s.choices := by simp [State.stopTaken, State.notifyPort]
theorem stopTaken_time : (s.stopTaken p q a add).partTime = s.partTime := by simp [State.stopTaken, State.notifyPort]

theorem stopTaken_dispatch : (s.stopTaken p q a add).dispatch =
    { s.dispatch with assignments := s.dispatch.assignments.set p (some { a with slice := none }) } := by
  simp [State.stopTaken, State.notifyPort]

theorem stopTaken_alert_other {k : PortNo} (ne : k ≠ p) : (s.stopTaken p q a add).alert k = s.alert k := by
  unfold State.stopTaken
  rw [changeCauses_other _ _ _ _ ne]
  simp [State.notifyPort]

theorem stopTaken_causes : ((s.stopTaken p q a add).alert p).causes = add (s.alert p).causes := by
  unfold State.stopTaken
  rw [changeCauses_causes]
  simp [State.notifyPort]

/-- A field that the PORT notice does not carry may be written before or after (R87). -/
theorem stopTaken_modPort {f : Port → Port} (state : (f q).state = q.state) (held : (f q).held = q.held)
    (cls : (f q).cls = q.cls) (interval : (f q).interval = q.interval) :
    (s.stopTaken p q a add).modPort p f = s.stopTaken p (f q) a add := by
  have at_p : (((s.setPort p q).notifyPort p (s.port p).state (.state (some a.slot))).setAssignment p
      (some { a with slice := none })).port p = q := by simp [State.notifyPort]
  unfold State.stopTaken
  rw [changeCauses_modPort _ _ (by rw [at_p]; exact interval)]
  refine congrArg (fun w : State => w.changeCauses p add) ?_
  unfold State.modPort
  rw [at_p]
  change (((s.setPort p q).notifyPort p (s.port p).state (.state (some a.slot))).setPort p (f q)).setAssignment p _ = _
  rw [notifyPort_setPort _ p q (f q) _ _ state.symm held.symm cls.symm]

/-- The port's record in STOPPED, entered now. -/
def Port.stoppedNow (x : Port) (now : Word32) : Port := { x with state := .stopped, stateTime := now }

/-- The record of a port that has heard a STOP and counted it (R98, R131). -/
def Port.stopCounted (x : Port) : Port :=
  { x with request := none, counters := { x.counters with stops := min (x.counters.stops + 1) 4294967295 } }

theorem countStop_modPort (s : State) (p : PortNo) (f : Port → Port) :
    ((s.hearing p).countStop p).modPort p f = s.setPort p (f ((s.port p).heard s.partTime).stopCounted) := by
  unfold State.countStop
  rw [State.modPort_modPort]
  change (s.hearing p).setPort p _ = _
  rw [hearing_setPort, hearing_port_same]
  rfl

theorem countStop_eq (s : State) (p : PortNo) :
    (s.hearing p).countStop p = s.setPort p ((s.port p).heard s.partTime).stopCounted := by
  unfold State.countStop
  change (s.hearing p).setPort p _ = _
  rw [hearing_setPort, hearing_port_same]
  rfl

/-- A port of one of the states that feed or may feed enters STOPPED: its notice, and no stock is judged (R80, R87). -/
theorem portTo_stopped (other : q.state ≠ .stopped) : (s.setPort p q).portTo p .stopped =
    (s.setPort p (q.stoppedNow s.partTime)).notifyPort p q.state (.state (s.assigned p)) := by
  rw [portTo_kept_stock _ p .stopped (by rw [State.setPort_port, if_pos rfl]; exact other) (.inr rfl),
    State.setPort_port, if_pos rfl, State.setPort_setPort]
  rfl

theorem enterStopped_free (other : q.state ≠ .stopped) (free : s.assignment p = none) : (s.setPort p q).enterStopped p =
    (s.setPort p (q.stoppedNow s.partTime)).notifyPort p q.state (.state none) := by
  have assigned : s.assigned p = none := by unfold State.assigned; rw [free]; rfl
  have none : ((s.setPort p (q.stoppedNow s.partTime)).notifyPort p q.state (.state none)).assignment p = none := by
    simp [State.notifyPort, free]
  unfold State.enterStopped
  dsimp only
  rw [portTo_stopped other, assigned, none]

theorem enterStopped_taken (other : q.state ≠ .stopped) (same : q.state = (s.port p).state) (ha : s.assignment p = some a) :
    ((s.setPort p q).enterStopped p).changeCauses p add = s.stopTaken p (q.stoppedNow s.partTime) a add := by
  have assigned : s.assigned p = some a.slot := by unfold State.assigned; rw [ha]; rfl
  have some : ((s.setPort p (q.stoppedNow s.partTime)).notifyPort p q.state (.state (some a.slot))).assignment p = some a := by
    simp [State.notifyPort, ha]
  unfold State.enterStopped
  dsimp only
  rw [portTo_stopped other, assigned, some, same]
  rfl

/-! ## What a STOP comes to, by the port's state (R100, R131, R132, R135) -/

/-- The record of a port in STOPPED, entered now, with its STOP counted. -/
def Port.stopEntered (x : Port) (now : Word32) : Port := (x.heard now).stopCounted.stoppedNow now

/-- What the destination of a job and the waits become where STOP finds a port that feeds or drains (R131). -/
def Port.stopFed (x : Port) : Port := { x with gateTimer := none, wait := .none, drain := none, destination := some .head }

/-- The path as the list leaves it: a sheet that stays is FINISH (R132). -/
def Port.finishing (x : Port) (items : List StopItem) : Port :=
  { x with path := x.path.map (fun z => if stopOutcome items z = none then { z with state := .finish } else z) }

/-- The sheets that the list settles, with their outcomes, oldest first (R125). -/
def stopSettled (items : List StopItem) (path : List Sheet) : List (Sheet × Outcome1) :=
  path.filterMap (fun z => (stopOutcome items z).map (fun o => (z, o)))

theorem settleStop_eq (u : State) (p : PortNo) (items : List StopItem) : u.settleStop p items =
    (u.modPort p (fun q => q.finishing items)).settleSheets p (stopSettled items (u.port p).path) := by
  have stays : (fun z : Sheet => if (stopOutcome items z).isNone then { z with state := .finish } else z) =
      fun z => if stopOutcome items z = none then { z with state := .finish } else z := by
    funext z
    simp only [Option.isNone_iff_eq_none]
  unfold State.settleStop Port.finishing stopSettled
  dsimp only
  rw [stays]

theorem stopSettled_lost {path : List Sheet} : ∀ e ∈ stopSettled items path, e.2 ≠ .good := by
  rintro ⟨z, o⟩ mem rfl
  obtain ⟨z', _, taken⟩ := List.mem_filterMap.mp mem
  obtain ⟨o', out, pair⟩ := Option.map_eq_some_iff.mp taken
  cases pair
  unfold stopOutcome at out
  split at out
  · cases out
  · cases out
  · split at out <;> cases out

theorem exec_stop (run : (s.message p (.stop reason items)).settle = t) :
    exec (.stop p reason items) s = .next t.pump :=
  congrArg Host.Outcome.next (finish_of_settle run)

section
variable (h : s.Hears p) (adds : StopAdds reason add) (short : items.length ≤ 255)
include h adds short

theorem message_stop : s.message p (.stop reason items) = (s.hearing p).takeStop p reason items :=
  message_heard h (adds.fits short)

theorem stop_ignored (state : (s.port p).state = .absent ∨ (s.port p).state = .probing ∨ (s.port p).state = .loopback
    ∨ (s.port p).state = .identifying ∨ (s.port p).state = .lost) :
    exec (.stop p reason items) s = .next (State.pump (s.setPort p ((s.port p).heard s.partTime))) := by
  have same : ((s.hearing p).port p).state = (s.port p).state := by rw [hearing_port_same]; rfl
  have ignored : (s.hearing p).takeStop p reason items = s.hearing p := by
    unfold State.takeStop
    rcases state with e | e | e | e | e <;> rw [same, e]
  refine exec_stop ?_
  rw [message_stop h adds short, ignored]
  exact settle_of_idle _ h.agenda

/-- STOP at a READY port: the change of state is told before the cause (log entry 27). -/
theorem stop_ready (state : (s.port p).state = .ready) (free : s.assignment p = none) :
    exec (.stop p reason items) s = .next (State.pump (((s.setPort p ((s.port p).stopEntered s.partTime)).notifyPort p .ready
      (.state none)).changeCauses p add)) := by
  have same : ((s.hearing p).port p).state = .ready := by rw [hearing_port_same]; exact state
  have counted : ((s.port p).heard s.partTime).stopCounted.state = .ready := state
  have taken : (s.hearing p).takeStop p reason items =
      ((s.setPort p ((s.port p).stopEntered s.partTime)).notifyPort p .ready (.state none)).changeCauses p add := by
    unfold State.takeStop
    rw [same]
    dsimp only
    rw [countStop_eq, enterStopped_free (by rw [counted]; decide) free, counted, adds.eq]
    rfl
  refine exec_stop ?_
  rw [message_stop h adds short, taken]
  exact settle_of_idle _ (by simp [State.notifyPort, h.agenda])

/-- STOP at a port in SETUP: the set-up ends, and the job is to leave (R100). -/
theorem message_stop_setup (state : (s.port p).state = .setup) (ha : s.assignment p = some a) :
    s.message p (.stop reason items) = (s.stopTaken p { (s.port p).stopEntered s.partTime with
      setupTimer := none, owner := none } a add).post (.afterRemoval p) := by
  have same : ((s.hearing p).port p).state = .setup := by rw [hearing_port_same]; exact state
  rw [message_stop h adds short]
  unfold State.takeStop
  rw [same]
  dsimp only
  rw [countStop_modPort, adds.eq]
  rw [enterStopped_taken (by exact fun e => PortState.noConfusion (state.symm.trans e)) (by rfl) ha]
  rfl

/-- STOP at a port that feeds or drains (R131, R132). -/
theorem message_stop_feeding (state : (s.port p).state = .feeding ∨ (s.port p).state = .draining)
    (ha : s.assignment p = some a) : s.message p (.stop reason items) =
      ((s.stopTaken p (((s.port p).stopEntered s.partTime).stopFed.finishing items) a add).settleSheets p
        (stopSettled items (s.port p).path)).post (.afterRemoval p) := by
  have same : ((s.hearing p).port p).state = (s.port p).state := by rw [hearing_port_same]; rfl
  have other : ((s.port p).heard s.partTime).stopCounted.stopFed.state ≠ .stopped := by
    rcases state with e | e <;> exact fun e' => PortState.noConfusion (e.symm.trans e')
  have entered : ((((s.hearing p).countStop p).modPort p Port.stopFed).enterStopped p).changeCauses p add =
      s.stopTaken p ((s.port p).stopEntered s.partTime).stopFed a add := by
    rw [countStop_modPort, enterStopped_taken other rfl ha]
    rfl
  have taken : (s.hearing p).takeStop p reason items =
      ((((((s.hearing p).countStop p).modPort p Port.stopFed).enterStopped p).changeCauses p add).settleStop p items).post
        (.afterRemoval p) := by
    unfold State.takeStop
    rcases state with e | e <;> rw [same, e, ← adds.eq] <;> rfl
  rw [message_stop h adds short, taken, entered, settleStop_eq, stopTaken_port, if_pos rfl]
  rw [stopTaken_modPort (f := fun q => q.finishing items) rfl rfl rfl rfl]
  rfl

/-- STOP at a port that has stopped: the STOP is counted, the cause added, the path settled against the new list (R135). -/
theorem message_stop_stopped (state : (s.port p).state = .stopped) : s.message p (.stop reason items) =
    (((s.setPort p (((s.port p).heard s.partTime).stopCounted.finishing items)).changeCauses p add).settleSheets p
      (stopSettled items (s.port p).path)).post (.afterRemoval p) := by
  have same : ((s.hearing p).port p).state = .stopped := by rw [hearing_port_same]; exact state
  rw [message_stop h adds short]
  unfold State.takeStop
  rw [same]
  dsimp only
  rw [countStop_eq, adds.eq, settleStop_eq, changeCauses_port, State.setPort_port, if_pos rfl, changeCauses_modPort _ _ rfl]
  unfold State.modPort
  rw [State.setPort_port, if_pos rfl, State.setPort_setPort]
  rfl

end

end Sys2Proof.Machine
end

section
/-! The paper path (chapter 7): the leaving of a STOPPED port's job, and CLEARED (R99, R133, R136). -/

namespace Sys2Proof.Machine

variable {s t u v : State} {p : PortNo} {a c : Assignment} {b y : Job} {items : List StopItem} {reason : StopReason}
  {add : CauseSet → CauseSet} {q : Port}

/-! ## What follows at a STOPPED port (R133) -/

section
variable (stopped : (u.port p).state = .stopped)
include stopped

theorem afterRemoval_stopped_unassigned (free : u.assignment p = none) : doTask (.afterRemoval p) u = u := by
  change u.afterRemovalNow p = u
  unfold State.afterRemovalNow
  rw [stopped, free]
  exact if_neg (by simp)

theorem afterRemoval_stopped_stays (path : (u.port p).path ≠ []) : doTask (.afterRemoval p) u = u :=
  afterRemoval_stays (by rw [stopped]; rfl) (by rw [stopped]; decide) path

theorem afterRemoval_stopped_leaves (path : (u.port p).path = []) (ha : u.assignment p = some a) :
    doTask (.afterRemoval p) u = (u.post (.leave p .head)).post (.leftStopped p) := by
  change u.afterRemovalNow p = _
  unfold State.afterRemovalNow
  rw [stopped, ha]
  exact if_pos (by simp [path])

/-- R133: with an empty path the job leaves, here HELD by its account. -/
theorem runs_leftStopped (idle : u.agenda = []) (path : (u.port p).path = []) (h : u.LeavesHeld p a b) :
    Runs 3 (u.post (.afterRemoval p)) ((u.leaveNow p .head).clearAfterLeaving p) := by
  have left : (u.leaveNow p .head).agenda = [] := (heldAside h .head).agenda.trans idle
  have clear : ((u.leaveNow p .head).clearAfterLeaving p).agenda = [] := by simp [State.clearAfterLeaving, left]
  refine Runs.post idle ?_
  rw [afterRemoval_stopped_leaves stopped path h.assignment]
  exact Runs.post_post (n := 0) (m := 1) idle (Runs.idle left) (Runs.post left (Runs.idle clear))

end

/-- The state once a held job has left its STOPPED port (R133). -/
def State.leftStopped (u : State) (p : PortNo) : State := (u.leaveNow p .head).clearAfterLeaving p

theorem leftStopped_jobs : (u.leftStopped p).jobs = (u.leaveNow p .head).jobs := by
  simp [State.leftStopped, State.clearAfterLeaving]

theorem leftStopped_dispatch : (u.leftStopped p).dispatch = (u.leaveNow p .head).dispatch := by
  simp [State.leftStopped, State.clearAfterLeaving]

theorem leftStopped_meter : (u.leftStopped p).meter = (u.leaveNow p .head).meter := by
  simp [State.leftStopped, State.clearAfterLeaving]

section
variable (h : u.LeavesHeld p a b)
include h

theorem leftStopped_port (k : PortNo) : (u.leftStopped p).port k = if p = k then (u.port p).clearFeeding else u.port k := by
  unfold State.leftStopped
  rw [clearAfterLeaving_port, (heldAside h .head).port, (heldAside h .head).port]

theorem leftStopped_causes : ((u.leftStopped p).alert p).causes = { (u.alert p).causes with trayEmpty := false } := by
  unfold State.leftStopped
  rw [clearAfterLeaving_causes, (heldAside h .head).alert]

theorem leftStopped_alert_other {k : PortNo} (ne : k ≠ p) : (u.leftStopped p).alert k = u.alert k := by
  unfold State.leftStopped
  rw [clearAfterLeaving_alert_other ne, (heldAside h .head).alert]

theorem leftStopped_time : (u.leftStopped p).partTime = u.partTime := by
  unfold State.leftStopped State.clearAfterLeaving
  rw [changeCauses_partTime]
  exact (heldAside h .head).time

theorem leftStopped_spool : (u.leftStopped p).spool = u.spool := by
  simp [State.leftStopped, State.clearAfterLeaving, (heldAside h .head).spool]

theorem leftStopped_choices : (u.leftStopped p).choices = u.choices := by
  simp [State.leftStopped, State.clearAfterLeaving, (heldAside h .head).choices]

theorem leftStopped_noneReady (nobody : u.noneReady) : (u.leftStopped p).noneReady := fun l => by
  unfold State.readyAt
  rw [leftStopped_dispatch]
  exact (heldAside h .head).noneReady nobody l

/-- A state that has the jobs, the dispatcher and the meter unit of the port left, its clock and the rest of its own, has the
job left HELD. -/
theorem leftHeld_of_leftStopped (beyond : u.Beyond t p) (jobs : t.jobs = (u.leftStopped p).jobs)
    (dispatch : t.dispatch = (u.leftStopped p).dispatch) (meter : t.meter = (u.leftStopped p).meter) :
    u.LeftHeld t p a (b.leftHeld (elapsed u.partTime a.since)) :=
  leftHeld_of (heldAside h .head) beyond (jobs.trans (leftStopped_jobs)) (dispatch.trans (leftStopped_dispatch))
    (meter.trans (leftStopped_meter)) (fun _ _ => rfl) rfl rfl rfl

end

/-- R133: what the leaving comes to. -/
theorem stopped_leaves (stopped : (u.port p).state = .stopped) (idle : u.agenda = []) (path : (u.port p).path = [])
    (h : u.LeavesHeld p a b) :
    (u.post (.afterRemoval p)).settle = u.leftStopped p
      ∧ u.LeftHeld (u.leftStopped p) p a (b.leftHeld (elapsed u.partTime a.since)) := by
  have run : (u.post (.afterRemoval p)).settle = u.leftStopped p := (runs_leftStopped stopped idle path h).settle (by omega)
  refine ⟨run, leftHeld_of_leftStopped h ?_ rfl rfl rfl⟩
  refine beyond_of_kept (post_kept u (.afterRemoval p)) run (leftStopped_spool h) (fun k ne => ?_)
    (fun k ne => leftStopped_alert_other h ne) ?_ (leftStopped_choices h)
  · rw [leftStopped_port h, if_neg ne.symm]
  · rw [leftStopped_meter, (heldAside h .head).meter]

/-- R129, R132: a STOP whose path is settled leaves what stays, or lets the job leave. -/
theorem stop_settles (taken : s.message p (.stop reason items) = u.post (.afterRemoval p))
    (stopped : (u.port p).state = .stopped) (time : u.partTime = s.partTime) (idle : u.agenda = []) :
    ((u.port p).path ≠ [] → exec (.stop p reason items) s = .next u.pump)
    ∧ (∀ c b, (u.port p).path = [] → u.LeavesHeld p c b →
      ∃ t : State, exec (.stop p reason items) s = .next t.pump
        ∧ u.LeftHeld t p c (b.leftHeld (elapsed s.partTime c.since))
        ∧ t.port p = (u.port p).clearFeeding
        ∧ (t.alert p).causes = { (u.alert p).causes with trayEmpty := false }) := by
  refine ⟨fun path => exec_stop ?_, fun c b path leaves => ?_⟩
  · rw [taken]
    exact (Runs.noop idle (afterRemoval_stopped_stays stopped path)).settle (by omega)
  · obtain ⟨run, left⟩ := stopped_leaves stopped idle path leaves
    rw [time] at left
    refine ⟨_, exec_stop (by rw [taken]; exact run), left, ?_, leftStopped_causes leaves⟩
    rw [leftStopped_port leaves, if_pos rfl]

/-! ## The job of a port that has just entered STOPPED -/

theorem stopTaken_leavesHeld (h : s.LeavesHeld p a b) :
    (s.stopTaken p q a add).LeavesHeld p { a with slice := none } b where
  assignment := by
    unfold State.assignment
    rw [stopTaken_dispatch]
    simp
  job := by
    unfold State.job
    rw [stopTaken_jobs]
    exact h.job
  running := h.running
  unfinished := h.unfinished
  sound := h.sound
  kept := h.kept
  going := h.going
  stops := by
    unfold State.account
    rw [stopTaken_meter]
    exact h.stops

/-- Its slice timer apart, the assignment that ends is the one that stood before the STOP (R75). -/
theorem leftHeld_of_stopTaken (out : (s.stopTaken p q a add).LeftHeld t p { a with slice := none } y) (beyond : s.Beyond t p) :
    s.LeftHeld t p a y where
  toBeyond := beyond
  job := out.job
  jobs j ne := (out.jobs j ne).trans (by unfold State.job; rw [stopTaken_jobs])
  dispatch := by
    rw [out.dispatch, stopTaken_dispatch]
    simp
  reservations := by rw [out.reservations, stopTaken_meter]
  account := by
    rw [out.account]
    unfold State.account
    rw [stopTaken_meter, stopTaken_time]
  accounts k ne := (out.accounts k ne).trans (by unfold State.account; rw [stopTaken_meter])

/-- R131, R133: a port with an empty path that enters STOPPED lets its job leave at once. -/
theorem stop_leaves (h : s.Hears p) (taken : s.message p (.stop reason items) = (s.stopTaken p q a add).post (.afterRemoval p))
    (stopped : q.state = .stopped) (path : q.path = []) (leaves : s.LeavesHeld p a b) :
    ∃ t : State, exec (.stop p reason items) s = .next t.pump
      ∧ s.LeftHeld t p a (b.leftHeld (elapsed s.partTime a.since))
      ∧ t.port p = q.clearFeeding
      ∧ (t.alert p).causes = { add (s.alert p).causes with trayEmpty := false } := by
  have port : (s.stopTaken p q a add).port p = q := by rw [stopTaken_port, if_pos rfl]
  have going := stopTaken_leavesHeld (q := q) (add := add) leaves
  obtain ⟨run, out⟩ := stopped_leaves (by rw [port]; exact stopped) (stopTaken_agenda.trans h.agenda) (by rw [port]; exact path)
    going
  rw [stopTaken_time] at out
  have beyond : s.Beyond ((s.stopTaken p q a add).leftStopped p) p := by
    refine beyond_of_kept (message_kept s p (.stop reason items)) (by rw [taken]; exact run)
      (out.spool.trans stopTaken_spool) (fun k ne => ?_) (fun k ne => ?_) ?_ (out.choices.trans stopTaken_choices)
    · rw [out.ports k ne, stopTaken_port, if_neg ne.symm]
    · rw [out.alerts k ne, stopTaken_alert_other ne]
    · rw [out.meter, stopTaken_meter]
  refine ⟨_, exec_stop (by rw [taken]; exact run), leftHeld_of_stopTaken out beyond, ?_, ?_⟩
  · rw [leftStopped_port going, if_pos rfl, port]
  · rw [leftStopped_causes going, stopTaken_causes]

/-! ## CLEARED (R99, R136) -/

/-- The state in which the port is READY again, without JAM and ENGINE_FAULT, before the choice of job (R136). -/
def State.clearedAt (v : State) (p : PortNo) : State :=
  (v.changeCauses p (fun c => { c with jam := none, fault := none })).portTo p .ready

section
variable (stopped : (v.port p).state = .stopped)
include stopped

theorem clearedAt_eq : v.clearedAt p = ((v.changeCauses p (fun c => { c with jam := none, fault := none })).setPort p
    { v.port p with state := .ready, stateTime := v.partTime }).notifyPort p .stopped (.state (v.assigned p)) := by
  unfold State.clearedAt
  rw [portTo_kept_stock _ p .ready (by rw [changeCauses_port, stopped]; decide) (.inr rfl), changeCauses_port, stopped,
    changeCauses_assigned, changeCauses_partTime]
  rfl

theorem clearedAt_port (k : PortNo) : (v.clearedAt p).port k =
    if p = k then { v.port p with state := .ready, stateTime := v.partTime } else v.port k := by
  rw [clearedAt_eq stopped]
  simp [State.notifyPort]

theorem clearedAt_causes : ((v.clearedAt p).alert p).causes = { (v.alert p).causes with jam := none, fault := none } := by
  rw [clearedAt_eq stopped, State.notifyPort, notify_alert, State.setPort_alert, changeCauses_causes]

theorem clearedAt_alert_other {k : PortNo} (ne : k ≠ p) : (v.clearedAt p).alert k = v.alert k := by
  rw [clearedAt_eq stopped, State.notifyPort, notify_alert, State.setPort_alert, changeCauses_other _ _ _ _ ne]

theorem clearedAt_jobs : (v.clearedAt p).jobs = v.jobs := by rw [clearedAt_eq stopped]; simp [State.notifyPort]
theorem clearedAt_dispatch : (v.clearedAt p).dispatch = v.dispatch := by rw [clearedAt_eq stopped]; simp [State.notifyPort]
theorem clearedAt_meter : (v.clearedAt p).meter = v.meter := by rw [clearedAt_eq stopped]; simp [State.notifyPort]
theorem clearedAt_spool : (v.clearedAt p).spool = v.spool := by rw [clearedAt_eq stopped]; simp [State.notifyPort]
theorem clearedAt_choices : (v.clearedAt p).choices = v.choices := by rw [clearedAt_eq stopped]; simp [State.notifyPort]
theorem clearedAt_agenda : (v.clearedAt p).agenda = v.agenda := by rw [clearedAt_eq stopped]; simp [State.notifyPort]

/-- R136: with no job waiting the port stays READY. -/
theorem runs_clearedSettled (idle : v.agenda = []) (nobody : v.noneReady) :
    Runs 1 (doTask (.clearedSettled p) v) (v.clearedAt p) := by
  have none : (v.clearedAt p).noneReady := fun l => by
    unfold State.readyAt
    rw [clearedAt_dispatch stopped]
    exact nobody l
  exact Runs.noop (s := v.clearedAt p) ((clearedAt_agenda stopped).trans idle) (chooseJob_none p (chooseJob_noneReady none))

end

theorem message_cleared (h : s.Hears p) : s.message p .cleared = (s.hearing p).takeCleared p := message_heard h (m := .cleared) rfl

theorem cleared_ignored (h : s.Hears p) (other : (s.port p).state ≠ .stopped) :
    exec (.cleared p) s = .next (State.pump (s.setPort p ((s.port p).heard s.partTime))) := by
  have ignored : (s.hearing p).takeCleared p = s.hearing p := if_neg (by rw [hearing_port_same]; exact other)
  refine congrArg Host.Outcome.next (finish_of_settle ?_)
  rw [message_cleared h, ignored]
  exact settle_of_idle _ h.agenda

/-- The state in which CLEARED has settled every sheet (R136). -/
def State.clearedOut (s : State) (p : PortNo) : State :=
  (s.setPort p { (s.port p).heard s.partTime with request := none }).settleSheets p
    ((s.port p).path.map (fun z => (z, clearedOutcome z)))

theorem message_cleared_stopped (h : s.Hears p) (stopped : (s.port p).state = .stopped) :
    s.message p .cleared = ((s.clearedOut p).post (.afterRemoval p)).post (.clearedSettled p) := by
  have discarded : (s.hearing p).modPort p (fun x => { x with request := none }) =
      s.setPort p { (s.port p).heard s.partTime with request := none } := by
    change (s.hearing p).setPort p _ = _
    rw [hearing_setPort, hearing_port_same]
  have settled : (s.setPort p { (s.port p).heard s.partTime with request := none }).settleCleared p = s.clearedOut p := by
    unfold State.settleCleared State.clearedOut
    rw [State.setPort_port, if_pos rfl]
    rfl
  rw [message_cleared h]
  unfold State.takeCleared
  rw [if_pos (by rw [hearing_port_same]; exact stopped), discarded, settled]

/-- R136: a STOPPED port with nothing in its path and no job is READY again. -/
theorem cleared_empty (h : s.Hears p) (stopped : (s.port p).state = .stopped) (path : (s.port p).path = [])
    (free : s.assignment p = none) (nobody : s.noneReady) :
    ∃ t : State, exec (.cleared p) s = .next t.pump ∧ s.AtPort t p
      ∧ t.port p = { (s.port p).heard s.partTime with request := none, state := .ready, stateTime := s.partTime }
      ∧ (t.alert p).causes = { (s.alert p).causes with jam := none, fault := none } := by
  generalize out : s.setPort p { (s.port p).heard s.partTime with request := none } = v
  have nothing : s.clearedOut p = v := by
    unfold State.clearedOut
    rw [path, out]
    rfl
  have port (k : PortNo) : v.port k = if p = k then { (s.port p).heard s.partTime with request := none } else s.port k := by
    rw [← out, State.setPort_port]
  have still : (v.port p).state = .stopped := by rw [port, if_pos rfl]; exact stopped
  have idle : v.agenda = [] := by rw [← out]; exact h.agenda
  have run : Runs 3 ((v.post (.afterRemoval p)).post (.clearedSettled p)) (v.clearedAt p) :=
    Runs.then_post (n := 1) (m := 1)
      (Runs.noop idle (afterRemoval_stopped_unassigned still (by rw [← out]; exact free)))
      (runs_clearedSettled still idle (by rw [← out]; exact nobody))
  have settled : (s.message p .cleared).settle = v.clearedAt p := by
    rw [message_cleared_stopped h stopped, nothing]
    exact run.settle (by omega)
  have meter : (v.clearedAt p).meter = s.meter := (clearedAt_meter still).trans (by rw [← out]; rfl)
  have beyond : s.Beyond (v.clearedAt p) p := by
    refine beyond_of_kept (message_kept s p .cleared) settled ((clearedAt_spool still).trans (by rw [← out]; rfl))
      (fun k ne => ?_) (fun k ne => ?_) (by rw [meter]) ((clearedAt_choices still).trans (by rw [← out]; rfl))
    · rw [clearedAt_port still, if_neg ne.symm, port, if_neg ne.symm]
    · rw [clearedAt_alert_other still ne, ← out]
      rfl
  refine ⟨_, congrArg Host.Outcome.next (finish_of_settle settled), { beyond with
    jobs := (clearedAt_jobs still).trans (by rw [← out]; rfl)
    dispatch := (clearedAt_dispatch still).trans (by rw [← out]; rfl)
    meterKept := meter }, ?_, ?_⟩
  · rw [clearedAt_port still, if_pos rfl, port, if_pos rfl, ← out]
    rfl
  · rw [clearedAt_causes still, ← out]
    rfl

/-- What CLEARED leaves at its port: STOPPED, and with its job still assigned an empty path (R136). -/
theorem clearedOut_stands (stopped : (s.port p).state = .stopped) :
    ((s.clearedOut p).port p).state = .stopped
      ∧ (((s.clearedOut p).assignedJob p).isSome → ((s.clearedOut p).port p).path = []) := by
  generalize out : s.setPort p { (s.port p).heard s.partTime with request := none } = v
  have port : v.port p = { (s.port p).heard s.partTime with request := none } := by rw [← out, State.setPort_port, if_pos rfl]
  have settles : s.clearedOut p = v.settleSheets p ((v.port p).path.map (fun z => (z, clearedOutcome z))) := by
    unfold State.clearedOut
    rw [out, port]
    rfl
  have still : (v.port p).state = .stopped := by rw [port]; exact stopped
  have lost (z : Sheet) : clearedOutcome z ≠ .good := Outcome1.noConfusion
  rw [settles]
  refine ⟨?_, fun job => settleSheets_empties still (fun z _ => lost z) job⟩
  rw [(settleSheets_stands still fun e mem => ?_).state]
  · exact still
  · obtain ⟨z, _, rfl⟩ := List.mem_map.mp mem
    exact lost z

/-- R136: the sheets left are settled, the job leaves, and the port is READY. -/
theorem cleared_leaves (h : s.Hears p) (stopped : (s.port p).state = .stopped) (idle : (s.clearedOut p).agenda = [])
    (leaves : (s.clearedOut p).LeavesHeld p a b) (nobody : (s.clearedOut p).noneReady) :
    ∃ t : State, exec (.cleared p) s = .next t.pump
      ∧ (s.clearedOut p).LeftHeld t p a (b.leftHeld (elapsed s.partTime a.since))
      ∧ t.port p = { ((s.clearedOut p).port p).clearFeeding with state := .ready, stateTime := s.partTime }
      ∧ (t.port p).path = []
      ∧ (t.alert p).causes = { ((s.clearedOut p).alert p).causes with trayEmpty := false, jam := none, fault := none } := by
  have message := message_cleared_stopped h stopped
  have time : (s.clearedOut p).partTime = s.partTime := (settleSheets_kept _ p _).time
  obtain ⟨still, empties⟩ := clearedOut_stands stopped
  have job : (s.clearedOut p).assignedJob p = some b :=
    (assignedJob_of _ p a.slot (assigned_of_assignment _ leaves.assignment)).trans leaves.job
  have path := empties (by rw [job]; rfl)
  generalize s.clearedOut p = u at *
  have port : (u.leftStopped p).port p = (u.port p).clearFeeding := by rw [leftStopped_port leaves, if_pos rfl]
  have stillLeft : ((u.leftStopped p).port p).state = .stopped := by rw [port]; exact still
  have out := runs_leftStopped still idle path leaves
  have run : Runs 5 ((u.post (.afterRemoval p)).post (.clearedSettled p)) ((u.leftStopped p).clearedAt p) :=
    Runs.then_post (n := 3) (m := 1) out
      (runs_clearedSettled stillLeft out.agenda (leftStopped_noneReady leaves nobody))
  have settled := run.settle (by omega)
  have beyond : u.Beyond ((u.leftStopped p).clearedAt p) p := by
    refine beyond_of_kept ((post_kept u (.afterRemoval p)).trans (post_kept _ (.clearedSettled p))) settled
      ((clearedAt_spool stillLeft).trans (leftStopped_spool leaves)) (fun k ne => ?_) (fun k ne => ?_) ?_
      ((clearedAt_choices stillLeft).trans (leftStopped_choices leaves))
    · rw [clearedAt_port stillLeft, if_neg ne.symm, leftStopped_port leaves, if_neg ne.symm]
    · rw [clearedAt_alert_other stillLeft ne, leftStopped_alert_other leaves ne]
    · rw [clearedAt_meter stillLeft, leftStopped_meter, (heldAside leaves .head).meter]
  have left := leftHeld_of_leftStopped leaves beyond (clearedAt_jobs stillLeft) (clearedAt_dispatch stillLeft)
    (clearedAt_meter stillLeft)
  rw [time] at left
  have record : ((u.leftStopped p).clearedAt p).port p =
      { (u.port p).clearFeeding with state := .ready, stateTime := s.partTime } := by
    rw [clearedAt_port stillLeft, if_pos rfl, port, leftStopped_time leaves, time]
  refine ⟨_, congrArg Host.Outcome.next (finish_of_settle (by rw [message]; exact settled)), left, record, ?_, ?_⟩
  · rw [record]
    exact path
  · rw [clearedAt_causes stillLeft, leftStopped_causes leaves]

/-- The record in which a port that fed or drained stands in STOPPED (R131, R132). -/
theorem stopEntered_finishing_all (x : Port) (now : Word32)
    (all : ∀ z ∈ x.path, stopOutcome items z = none) : (x.stopEntered now).stopFed.finishing items =
      { (x.stopEntered now).stopFed with path := x.path.map (fun z => { z with state := .finish }) } := by
  have path : x.path.map (fun z => if stopOutcome items z = none then { z with state := .finish } else z) =
      x.path.map (fun z => { z with state := .finish }) := List.map_congr_left fun z mem => if_pos (all z mem)
  unfold Port.finishing
  rw [← path]
  rfl

theorem stopSettled_nil {path : List Sheet} (all : ∀ z ∈ path, stopOutcome items z = none) : stopSettled items path = [] :=
  List.filterMap_eq_nil_iff.mpr fun z mem => by rw [all z mem]; rfl

/-- Sheets that are FINISH already stay as they are (R135). -/
theorem finishing_same (x : Port) (all : ∀ z ∈ x.path, stopOutcome items z = none) (finish : ∀ z ∈ x.path, z.state = .finish) :
    x.finishing items = x := by
  have path : x.path.map (fun z => if stopOutcome items z = none then { z with state := .finish } else z) = x.path := by
    refine (List.map_congr_left fun z mem => ?_).trans (List.map_id x.path)
    rw [if_pos (all z mem), ← finish z mem]
    rfl
  unfold Port.finishing
  rw [path]

section
variable (h : s.Hears p) (adds : StopAdds reason add) (short : items.length ≤ 255)
include h adds short

/-- R132: every sheet is named FINISH and stays. -/
theorem stop_finishing (state : (s.port p).state = .feeding ∨ (s.port p).state = .draining) (ha : s.assignment p = some a)
    (path : (s.port p).path ≠ []) (all : ∀ z ∈ (s.port p).path, stopOutcome items z = none) :
    exec (.stop p reason items) s = .next (State.pump (s.stopTaken p { ((s.port p).stopEntered s.partTime).stopFed with
      path := (s.port p).path.map (fun z => { z with state := .finish }) } a add)) := by
  have taken := message_stop_feeding h adds short state ha
  rw [stopSettled_nil all, settleSheets_nil, stopEntered_finishing_all _ _ all] at taken
  obtain ⟨stays, _⟩ := stop_settles taken (by rw [stopTaken_port, if_pos rfl]; rfl) stopTaken_time
    (stopTaken_agenda.trans h.agenda)
  refine stays ?_
  rw [stopTaken_port, if_pos rfl]
  exact mt List.map_eq_nil_iff.mp path

/-- R133: nothing is in the path of a port that feeds or drains. -/
theorem stop_fed_empty (state : (s.port p).state = .feeding ∨ (s.port p).state = .draining) (path : (s.port p).path = [])
    (leaves : s.LeavesHeld p a b) :
    ∃ t : State, exec (.stop p reason items) s = .next t.pump
      ∧ s.LeftHeld t p a (b.leftHeld (elapsed s.partTime a.since))
      ∧ t.port p = ((s.port p).stopEntered s.partTime).clearFeeding
      ∧ (t.alert p).causes = { add (s.alert p).causes with trayEmpty := false } := by
  have none : ∀ z ∈ (s.port p).path, stopOutcome items z = none := by rw [path]; exact fun z mem => absurd mem List.not_mem_nil
  have taken := message_stop_feeding h adds short state leaves.assignment
  rw [stopSettled_nil none, settleSheets_nil, stopEntered_finishing_all _ _ none] at taken
  have empty : (s.port p).path.map (fun z => { z with state := .finish }) = (s.port p).path := by rw [path]; rfl
  rw [empty] at taken
  exact stop_leaves (q := ((s.port p).stopEntered s.partTime).stopFed) h taken rfl path leaves

/-- R125, R130: a STOP settles the sheets that do not stay. -/
theorem stop_settles_path (state : (s.port p).state = .feeding ∨ (s.port p).state = .draining ∨ (s.port p).state = .stopped)
    (ha : s.assignment p = some a) (v : State)
    (hv : v = if (s.port p).state = .stopped then
        (s.setPort p { ((s.port p).stopEntered s.partTime).finishing items with stateTime := (s.port p).stateTime }).changeCauses
          p add
      else s.stopTaken p (((s.port p).stopEntered s.partTime).stopFed.finishing items) a add)
    (idle : (v.settleSheets p (stopSettled items (s.port p).path)).agenda = []) :
    let u := v.settleSheets p (stopSettled items (s.port p).path)
    ((u.port p).path ≠ [] → exec (.stop p reason items) s = .next u.pump)
    ∧ (∀ c b, (u.port p).path = [] → u.LeavesHeld p c b →
      ∃ t : State, exec (.stop p reason items) s = .next t.pump
        ∧ u.LeftHeld t p c (b.leftHeld (elapsed s.partTime c.since))
        ∧ t.port p = (u.port p).clearFeeding
        ∧ (t.alert p).causes = { (u.alert p).causes with trayEmpty := false }) := by
  have taken : s.message p (.stop reason items) =
      (v.settleSheets p (stopSettled items (s.port p).path)).post (.afterRemoval p) := by
    by_cases stopped : (s.port p).state = .stopped
    · have same : { ((s.port p).stopEntered s.partTime).finishing items with stateTime := (s.port p).stateTime } =
          ((s.port p).heard s.partTime).stopCounted.finishing items := by
        change { ((s.port p).heard s.partTime).stopCounted.finishing items with state := .stopped } = _
        rw [← stopped]
        rfl
      rw [hv, if_pos stopped, same]
      exact message_stop_stopped h adds short stopped
    · rw [hv, if_neg stopped]
      exact message_stop_feeding h adds short (by tauto) ha
  have still : (v.port p).state = .stopped := by
    rw [hv]
    split
    · rw [changeCauses_port, State.setPort_port, if_pos rfl]
      rfl
    · rw [stopTaken_port, if_pos rfl]
      rfl
  have time : v.partTime = s.partTime := by
    rw [hv]
    split
    · rw [changeCauses_partTime]
      rfl
    · exact stopTaken_time
  exact stop_settles taken ((settleSheets_stands still stopSettled_lost).state.trans still)
    ((settleSheets_kept v p _).time.trans time) idle

/-- R135: a further STOP that settles nothing is counted, and its cause joins. -/
theorem stop_again (stopped : (s.port p).state = .stopped) (job : (s.port p).path = [] → s.assignment p = none)
    (all : ∀ z ∈ (s.port p).path, stopOutcome items z = none) (finish : ∀ z ∈ (s.port p).path, z.state = .finish) :
    exec (.stop p reason items) s = .next (State.pump
      ((s.setPort p ((s.port p).heard s.partTime).stopCounted).changeCauses p add)) := by
  have taken := message_stop_stopped h adds short stopped
  rw [stopSettled_nil all, settleSheets_nil, finishing_same ((s.port p).heard s.partTime).stopCounted all finish] at taken
  generalize out : (s.setPort p ((s.port p).heard s.partTime).stopCounted).changeCauses p add = u at taken
  have port : u.port p = ((s.port p).heard s.partTime).stopCounted := by
    rw [← out, changeCauses_port, State.setPort_port, if_pos rfl]
  have still : (u.port p).state = .stopped := by rw [port]; exact stopped
  have idle : u.agenda = [] := by rw [← out, changeCauses_agenda]; exact h.agenda
  have nothing : doTask (.afterRemoval p) u = u := by
    by_cases path : (s.port p).path = []
    · refine afterRemoval_stopped_unassigned still ?_
      rw [← out, changeCauses_assignment]
      exact job path
    · exact afterRemoval_stopped_stays still (by rw [port]; exact path)
  refine exec_stop ?_
  rw [taken]
  exact (Runs.noop idle nothing).settle (by omega)

end

/-- Settles O54: STOP by the state of its port and by what the list leaves of the path, CLEARED by what is left. -/
theorem stopAndCleared : Obligations.StopAndCleared := by
  intro s p h x stopped
  refine ⟨fun reason items add short adds => ⟨stop_ignored h adds short, stop_ready h adds short, ?setup, ?feeding, ?settling,
    ?again⟩, cleared_ignored h, fun state path free nobody => cleared_empty h state path free nobody,
    fun state a b idle leaves nobody => cleared_leaves h state idle leaves nobody⟩
  case setup =>
    intro a b state path leaves _
    exact stop_leaves h (message_stop_setup h adds short state leaves.assignment) rfl path leaves
  case feeding =>
    refine fun state => ⟨fun a ha path all => ?_, fun a b path leaves _ => stop_fed_empty h adds short state path leaves⟩
    exact stop_finishing h adds short state ha path fun z mem => stopOutcome_stays (all z mem).2 (.inl (all z mem).1)
  case settling =>
    intro state a ha kept v u idle
    exact stop_settles_path h adds short state ha v rfl idle
  case again =>
    intro state job all
    have record : { stopped with stateTime := x.stateTime } = x.stopCounted := by
      change { x.stopCounted with state := .stopped } = x.stopCounted
      rw [← state]
      rfl
    rw [record]
    exact stop_again h adds short state job (fun z mem => stopOutcome_stays (all z mem).2 (.inr (all z mem).1))
      fun z mem => (all z mem).1

end Sys2Proof.Machine
end

section
/-! Engine ports (chapter 5): the bytes of a press-link frame, read back as the message they carry (R99, R193 to R195). -/

namespace Sys2Proof.Machine

/-! ## Contents read back from their bytes (R193, R195) -/

theorem bit_flag (b : Bool) : bit? (flag b) = some b := by cases b <;> rfl

theorem readTrays_wire (l : List TrayItem) : readTrays (l.flatMap trayWire) = some l := by
  induction l with
  | nil => rfl
  | cons t l ih =>
    rw [List.flatMap_cons]
    change readTrays (t.number :: t.stock :: flag t.loaded :: l.flatMap trayWire) = _
    unfold readTrays
    rw [bit_flag, ih]

theorem readItems_wire (l : List StopItem) : readItems (l.flatMap stopItemWire) = some l := by
  induction l with
  | nil => rfl
  | cons i l ih =>
    obtain ⟨tag, disposition⟩ := i
    rw [List.flatMap_cons]
    cases disposition with
    | finish =>
      change readItems (tag :: 1 :: l.flatMap stopItemWire) = _
      unfold readItems
      rw [ih]
      rfl
    | stranded =>
      change readItems (tag :: 2 :: l.flatMap stopItemWire) = _
      unfold readItems
      rw [ih]
      rfl

theorem trayWire_length (l : List TrayItem) : (l.flatMap trayWire).length = 3 * l.length := by
  simp [trayWire, List.length_flatMap, Nat.mul_comm]

theorem stopItemWire_length (l : List StopItem) : (l.flatMap stopItemWire).length = 2 * l.length := by
  simp [stopItemWire, List.length_flatMap, Nat.mul_comm]

theorem toNat_count {n : Nat} (short : n ≤ 255) : (BitVec.ofNat 8 n).toNat = n := toNat_byte (by omega)

/-! ## Messages read back from their frames (R193 to R195) -/

theorem readPress_identity (c : EngineIdentity) (short : c.trays.length ≤ 255) : ∃ body,
    (PressIn.identity c).wire = 0x81 :: body ∧ readPress 0x81 body = some (.identity c) ∧ body.length ≤ 16387 := by
  obtain ⟨c1, c0, classes⟩ := num_two c.classes.toNat
  have read : BitVec.ofNat 16 (natOf [c1, c0]) = c.classes := by
    rw [← classes]
    exact natOf_word16 c.classes
  obtain ⟨colour, duplex, reject⟩ := flags_three c.colour c.duplex c.reject
  have entries : (c.trays.flatMap trayWire).length = 3 * (BitVec.ofNat 8 c.trays.length).toNat := by
    rw [trayWire_length, toNat_count short]
  refine ⟨flags [c.colour, c.duplex, c.reject] :: c.depth :: c1 :: c0 :: BitVec.ofNat 8 c.trays.length ::
    c.trays.flatMap trayWire, ?_, ?_, ?_⟩
  · simp [PressIn.wire, word16, classes]
  · change (if _ then _ else none) = _
    rw [if_pos entries, readTrays_wire, read, colour, duplex, reject]
    rfl
  · simp only [List.length_cons, trayWire_length]
    omega

theorem readPress_stop (reason : StopReason) (items : List StopItem) (fits : (PressIn.stop reason items).fits = true) :
    ∃ body, (PressIn.stop reason items).wire = 0x87 :: body
      ∧ readPress 0x87 body = some (.stop reason items) ∧ body.length ≤ 16387 := by
  have entries (short : items.length ≤ 255) :
      (items.flatMap stopItemWire).length = 2 * (BitVec.ofNat 8 items.length).toNat := by
    rw [stopItemWire_length, toNat_count short]
  cases reason with
  | jam zone =>
    simp only [PressIn.fits, Bool.and_eq_true, decide_eq_true_eq] at fits
    obtain ⟨⟨low, high⟩, short⟩ := fits
    refine ⟨_, rfl, ?_, ?_⟩
    · change (if _ then _ else none) = _
      rw [if_pos (entries short), readItems_wire]
      change (if (decide (1 ≤ zone.toNat) && decide (zone.toNat ≤ 8)) = true then _ else none) = _
      rw [if_pos (by simp [low, high])]
    · simp only [List.length_cons, stopItemWire_length]
      omega
  | fault code =>
    simp only [PressIn.fits, Bool.and_eq_true, decide_eq_true_eq] at fits
    obtain ⟨some, short⟩ := fits
    refine ⟨_, rfl, ?_, ?_⟩
    · change (if _ then _ else none) = _
      rw [if_pos (entries short), readItems_wire]
      exact if_pos some
    · simp only [List.length_cons, stopItemWire_length]
      omega

/-- A message of the table stands in its frame as the kind and body that are read as it, within a frame's length. -/
theorem readPress_wire (m : PressIn) (fits : m.fits = true) (named : m ≠ .foreign) :
    ∃ kind body, m.wire = kind :: body ∧ readPress kind body = some m ∧ body.length ≤ 16387 := by
  cases m with
  | probe sequence pattern =>
    have length : pattern.length = 16 := by simpa [PressIn.fits] using fits
    exact ⟨_, _, rfl, if_pos length, by simp [length]⟩
  | identity c => exact ⟨0x81, readPress_identity c (by simpa [PressIn.fits] using fits)⟩
  | setupDone => exact ⟨_, _, rfl, rfl, by simp⟩
  | setupRefused code => exact ⟨_, _, rfl, rfl, by simp⟩
  | picked tag => exact ⟨_, _, rfl, rfl, by simp⟩
  | want tag back band =>
    refine ⟨_, _, rfl, ?_, by simp⟩
    change (bit? (flag back)).map _ = _
    rw [bit_flag]
    rfl
  | delivered tag => exact ⟨_, _, rfl, rfl, by simp⟩
  | stop reason items => exact ⟨0x87, readPress_stop reason items fits⟩
  | cleared => exact ⟨_, _, rfl, rfl, by simp⟩
  | tray item =>
    refine ⟨_, _, rfl, ?_, by simp [trayWire]⟩
    change (bit? (flag item.loaded)).map _ = _
    rw [bit_flag]
    rfl
  | foreign => exact absurd rfl named

/-! ## The row of a message (R99) -/

/-- A row that takes a message of the table hands it to its port. -/
theorem exec_takesMessage {i : Instr} {p : PortNo} {m : PressIn} (h : pressMessage i = some (p, m)) :
    m ≠ .foreign ∧ ∀ s, exec i s = .next (s.message p m).finish := by
  cases i <;> cases h <;> exact ⟨PressIn.noConfusion, fun _ => rfl⟩

/-- Settles O45: the whole frame is read as its message, and a hunting receiver hands it on as the message's row does. -/
theorem pressFrameIsReceived : Obligations.PressFrameIsReceived := by
  intro s i p m h fits hears
  obtain ⟨named, row⟩ := exec_takesMessage h
  obtain ⟨kind, body, wire, read, short⟩ := readPress_wire m fits named
  have event : (s.hearing p).pressEvent p (.frame (kind :: body)) = s.message p m := by
    rw [message_heard hears fits]
    simp only [State.pressEvent, read]
  have taken : s.pressBytes p (pressFrame m.wire) = (s.message p m).settle := by
    rw [wire, ← event]
    exact pressBytes_pressFrame s p kind body hears short
  rw [row]
  change Host.Outcome.next (s.pressBytes p (pressFrame m.wire)).finish = _
  rw [taken, finish_of_idle (settle_agenda _)]
  rfl

end Sys2Proof.Machine
end

section
/-! Engine ports (chapter 5): what a port's change of state leaves where no stock is counted, and how it reads its sense lines
when its line signal returns (R80, R81). -/

namespace Sys2Proof.Machine

variable {s : State} {p : PortNo} {x : Port} {sense : Sense}

/-! ## A port's change of state (R80) -/

/-- A state that counts no stock has neither tray table nor capabilities (R80). -/
theorem enter_uncounted {st : PortState} (uncounted : st.counting = false) (x : Port) (now : Word32) :
    x.enter st now = x.emptied st now := by
  have other : st ≠ .identifying := fun e => by rw [e] at uncounted; cases uncounted
  unfold Port.enter
  dsimp only
  rw [if_neg other, uncounted]
  rfl

/-- Between two states that count no stock a change of state is the record and its notice. -/
theorem portTo_uncounted {st : PortState} (other : x.state ≠ st) (before : x.state.counting = false)
    (after : st.counting = false) :
    (s.setPort p x).portTo p st =
      (s.setPort p (x.emptied st s.partTime)).notifyPort p x.state (.state (s.assigned p)) := by
  have port : (s.setPort p x).port p = x := by rw [State.setPort_port, if_pos rfl]
  rw [portTo_kept_stock _ p st (by rwa [port]) (.inl (by rwa [port])), port, enter_uncounted after, State.setPort_setPort]
  rfl

/-- The record of a port that enters IDENTIFYING now (R80). -/
def Port.identifying (x : Port) (now : Word32) : Port :=
  { x with state := .identifying, stateTime := now, nextTag := 0, owner := none }

/-- A port enters IDENTIFYING from another state and greets its engine (R80, R81); IDENTIFYING counts stock. -/
theorem identifyAt_entered (other : x.state ≠ .identifying) :
    (s.setPort p x).identifyAt p =
      ((s.setPort p (x.identifying s.partTime)).notifyPort p x.state (.state (s.assigned p))).send p .hello := by
  have port : (s.setPort p x).port p = x := by rw [State.setPort_port, if_pos rfl]
  have entered : (s.setPort p x).portTo p .identifying =
      (s.setPort p (x.identifying s.partTime)).notifyPort p x.state (.state (s.assigned p)) := by
    rw [portTo_kept_stock _ p .identifying (by rwa [port]) (.inr rfl), port, State.setPort_setPort]
    rfl
  have record : ((s.setPort p (x.identifying s.partTime)).notifyPort p x.state (.state (s.assigned p))).port p =
      x.identifying s.partTime := by rw [State.notifyPort, notify_port, State.setPort_port, if_pos rfl]
  unfold State.identifyAt State.modPort
  rw [entered, record]
  exact congrArg (fun t : State => t.send p .hello) (notifyPort_setPort _ _ _ _ _ _ rfl rfl rfl)

/-! ## The sense lines read (R81) -/

/-- The record of a port whose sense lines are read (R81, R193). -/
def Port.sensed (x : Port) (sense : Sense) : Port := { x with cls := senseClass x.signal sense, receiver := .hunting }

/-- The timer of PROBE 0 (R83). -/
def probeTimerAt (now : Word32) : Timer := { start := now, length := 20 }

/-- A port whose sense lines are read goes by its line signal and by what they hold (R81). -/
theorem readSense_eq (s : State) (p : PortNo) (x : Port) (sense : Sense) : (s.setPort p x).readSense p sense =
    let u := s.setPort p (x.sensed sense)
    if x.signal = false then u.portTo p .absent
    else if sense = 0 ∨ sense = 1 then u.identifyAt p
    else if sense = 2 then u.portTo p .absent
    else ((u.portTo p .probing).modPort p (fun x => { x with probeTimer := some (probeTimerAt s.partTime) })).send p
      (.probe 0) := by
  have sensed : (s.setPort p x).modPort p (fun x => x.sensed sense) = s.setPort p (x.sensed sense) := by
    unfold State.modPort
    rw [State.setPort_port, if_pos rfl, State.setPort_setPort]
  have signal : ((s.setPort p (x.sensed sense)).port p).signal = x.signal := by
    rw [State.setPort_port, if_pos rfl]
    rfl
  unfold State.readSense
  change (if !(((s.setPort p x).modPort p (fun x => x.sensed sense)).port p).signal then
    ((s.setPort p x).modPort p (fun x => x.sensed sense)).portTo p .absent else _) = _
  rw [sensed, signal]
  cases x.signal with
  | false => rfl
  | true =>
    simp only [Bool.or_eq_true, decide_eq_true_eq]
    change (if _ then ((s.setPort p x).modPort p (fun x => x.sensed sense)).identifyAt p
      else if _ then ((s.setPort p x).modPort p (fun x => x.sensed sense)).portTo p .absent
      else ((((s.setPort p x).modPort p (fun x => x.sensed sense)).portTo p .probing).modPort p _).send p (.probe 0)) = _
    rw [sensed]
    rfl

/-- A port enters PROBING from a state that counts no stock, its timer set, and sends PROBE 0 (R81). -/
theorem probing_entered (other : x.state ≠ .probing) (uncounted : x.state.counting = false) (k : Timer) :
    (((s.setPort p x).portTo p .probing).modPort p (fun x => { x with probeTimer := some k })).send p (.probe 0) =
      ((s.setPort p (Port.emptied { x with probeTimer := some k } .probing s.partTime)).notifyPort p x.state
        (.state (s.assigned p))).send p (.probe 0) := by
  have record : ((s.setPort p (x.emptied .probing s.partTime)).notifyPort p x.state (.state (s.assigned p))).port p =
      x.emptied .probing s.partTime := by rw [State.notifyPort, notify_port, State.setPort_port, if_pos rfl]
  rw [portTo_uncounted other uncounted rfl]
  unfold State.modPort
  rw [record]
  exact congrArg (fun t : State => t.send p (.probe 0)) (notifyPort_setPort _ _ _ _ _ _ rfl rfl rfl)

/-! ## LINE_SIGNAL_RETURNS (R81) -/

/-- The record of a port whose line signal is present (R81). -/
def Port.plugged (x : Port) : Port := { x with signal := true }

/-- The signal of a port that does not read its sense lines is recorded, and nothing more happens. -/
theorem signalReturns_recorded (gone : (s.port p).signal = false)
    (h : s.spool.startUp = .starting ∨ ((s.port p).state ≠ .absent ∧ (s.port p).state ≠ .lost)) :
    s.signalReturns p sense = s.setPort p (s.port p).plugged := by
  unfold State.signalReturns
  rw [gone]
  by_cases starting : s.spool.startUp = .starting
  · exact if_pos starting
  · obtain ⟨here, found⟩ := h.resolve_left starting
    refine (if_neg starting).trans (if_neg ?_)
    rw [State.modPort_port, if_pos rfl]
    simp [here, found]

/-- An ABSENT or LOST port of a part that is not STARTING reads its sense lines. -/
theorem signalReturns_reads (gone : (s.port p).signal = false) (running : s.spool.startUp ≠ .starting)
    (away : (s.port p).state = .absent ∨ (s.port p).state = .lost) :
    s.signalReturns p sense = (s.setPort p (s.port p).plugged).readSense p sense := by
  unfold State.signalReturns
  rw [gone]
  refine (if_neg running).trans (if_pos ?_)
  rw [State.modPort_port, if_pos rfl]
  simpa using away

/-- What a step comes to where its command leaves nothing to bring about. -/
theorem exec_pumps {i : Instr} {t u : State} (row : exec i s = .next u.finish) (e : u = t) (idle : t.agenda = []) :
    exec i s = .next t.pump := by
  rw [row, e, finish_of_idle idle]

/-- Settles O36: by what the sense lines hold; a state that the reading gives is entered from ABSENT or LOST, which count no
stock. -/
theorem lineSignalReturns : Obligations.LineSignalReturns := by
  intro s p sense idle gone old
  refine ⟨fun stays => exec_pumps rfl (signalReturns_recorded gone stays) idle, fun running away => ?_⟩
  have uncounted : old.state.counting = false := by rcases away with e | e <;> rw [e] <;> rfl
  have other {st : PortState} (present : st ≠ .absent) (found : st ≠ .lost) : old.state ≠ st := by
    rcases away with e | e <;> rw [e]
    · exact present.symm
    · exact found.symm
  have reads := (signalReturns_reads (sense := sense) gone running away).trans (readSense_eq s p _ sense)
  change _ = if true = false then _ else _ at reads
  rw [if_neg Bool.false_ne_true.symm] at reads
  refine ⟨fun cls named => ?identifying, fun ten absent => ?absent, fun ten lost => ?lost, fun eleven => ?probing⟩
  case identifying =>
    have identifies : sense = 0 ∨ sense = 1 := named.imp And.left And.left
    have read : senseClass true sense = some cls := by rcases named with ⟨rfl, rfl⟩ | ⟨rfl, rfl⟩ <;> rfl
    rw [if_pos identifies, identifyAt_entered (x := old.plugged.sensed sense) (other (by decide) (by decide))] at reads
    rw [← read]
    exact exec_pumps rfl reads (by simp [State.send, State.notifyPort, idle])
  case absent =>
    subst ten
    have same := portTo_same (s.setPort p (old.plugged.sensed 2)) p
    rw [State.setPort_port, if_pos rfl] at same
    change State.portTo _ p old.state = _ at same
    rw [absent] at same
    rw [if_neg (by decide), if_pos rfl, same] at reads
    exact exec_pumps rfl reads idle
  case lost =>
    subst ten
    have before : ((s.port p).plugged.sensed 2).state = .lost := lost
    rw [if_neg (by decide), if_pos rfl, portTo_uncounted (x := old.plugged.sensed 2) (by rw [before]; decide) uncounted rfl, before] at reads
    exact exec_pumps rfl reads (by simp [State.notifyPort, idle])
  case probing =>
    subst eleven
    rw [if_neg (by decide), if_neg (by decide), probing_entered (x := old.plugged.sensed 3) (other (by decide) (by decide)) uncounted] at reads
    exact exec_pumps rfl reads (by simp [State.send, State.notifyPort, idle])

end Sys2Proof.Machine
end

section
/-! Engine ports (chapter 5): probing and the loop test (R83, R84). -/

namespace Sys2Proof.Machine

variable {s t : State} {p : PortNo} {k : LoopTest} {r : Request} {rest : List Request}

/-! ## Probing (R83) -/

/-- The state in which probing has ended, in LOOPBACK or in ABSENT: the timer stops, and the port is told. -/
def State.probed (s : State) (p : PortNo) (st : PortState) : State :=
  (s.setPort p (Port.emptied { s.port p with probeTimer := none } st s.partTime)).notifyPort p .probing
    (.state (s.assigned p))

theorem probed_agenda (st : PortState) : (s.probed p st).agenda = s.agenda := by simp [State.probed, State.notifyPort]

section
variable (probing : (s.port p).state = .probing)
include probing

theorem portTo_probed {st : PortState} (other : st ≠ .probing) (uncounted : st.counting = false) :
    (s.modPort p (fun x => { x with probeTimer := none })).portTo p st = s.probed p st := by
  have ended := portTo_uncounted (s := s) (p := p) (x := { s.port p with probeTimer := none }) (st := st)
    (by rw [probing]; exact other.symm) (by rw [probing]; rfl) uncounted
  rw [probing] at ended
  exact ended

/-- PROBE 0 comes back whole. -/
theorem takeEcho_probing : s.takeEcho p 0 probePattern = s.probed p .loopback := by
  unfold State.takeEcho
  rw [probing]
  exact portTo_probed probing (by decide) rfl

/-- Another sequence number or another pattern is no echo of PROBE 0. -/
theorem takeEcho_probing_foreign {sequence : Byte} {pattern : List Byte} (h : sequence ≠ 0 ∨ pattern ≠ probePattern) :
    s.takeEcho p sequence pattern = s := by
  unfold State.takeEcho
  rw [probing]
  refine if_neg ?_
  rw [Bool.and_eq_true, decide_eq_true_eq, decide_eq_true_eq]
  tauto

section
variable {timer : Timer} (counts : (s.port p).probeTimer = some timer)
include counts

theorem probeExpired_due (due : timer.length ≤ elapsed s.partTime timer.start) : s.probeExpired p = s.probed p .absent := by
  have expired : timerDue (s.port p).probeTimer s.partTime = true := by rw [counts]; exact decide_eq_true due
  unfold State.probeExpired
  rw [expired, decide_eq_true probing]
  exact portTo_probed probing (by decide) rfl

omit probing in
theorem probeExpired_early (early : elapsed s.partTime timer.start < timer.length) : s.probeExpired p = s := by
  have running : timerDue (s.port p).probeTimer s.partTime = false := by
    rw [counts]
    exact decide_eq_false (Nat.not_le.mpr early)
  unfold State.probeExpired
  rw [running, Bool.and_false]
  rfl

end
end

/-! ## The loop test (R84) -/

/-- A loop test of so many frames that begins now and awaits its first. -/
def LoopTest.begun (count : Byte) (now : Word32) : LoopTest :=
  { count := count.toNat, awaited := 1, returned := 0, timer := { start := now, length := 20 } }

/-- A loop test with one more frame returned intact. -/
def LoopTest.oneMoreBack (k : LoopTest) : LoopTest := { k with returned := k.returned + 1 }

/-- The state in which a loop test awaits its next frame, and has sent it. -/
def State.loopsOn (s : State) (p : PortNo) (k : LoopTest) : State :=
  (s.setPort p { s.port p with
    loop := some { k with awaited := k.awaited + 1, timer := { start := s.partTime, length := 20 } } }).send p
      (.probe (byte (k.awaited + 1)))

/-- The state in which a loop test has ended with its result. -/
def State.looped (s : State) (p : PortNo) (k : LoopTest) : State :=
  (s.setPort p { s.port p with loop := none }).notifyPort p .loopback (.looptest k.count k.awaited k.returned false)

theorem looped_agenda : (s.looped p k).agenda = s.agenda := by simp [State.looped, State.notifyPort]

theorem nextLoopFrame_more (more : k.awaited < k.count) : s.nextLoopFrame p k = s.loopsOn p k :=
  if_neg (Nat.not_le.mpr more)

theorem nextLoopFrame_last (loopback : (s.port p).state = .loopback) (last : k.awaited = k.count) :
    s.nextLoopFrame p k = s.looped p k := by
  unfold State.nextLoopFrame
  rw [if_pos (Nat.le_of_eq last.symm), loopback]
  rfl

section
variable (test : (s.port p).loop = some k)
include test

/-- The frame awaited comes back whole. -/
theorem takeEcho_loopback (loopback : (s.port p).state = .loopback) (low : k.awaited ≤ 255) :
    s.takeEcho p (byte k.awaited) probePattern = s.nextLoopFrame p k.oneMoreBack := by
  unfold State.takeEcho
  rw [loopback]
  dsimp only
  rw [test]
  exact if_pos (by simp [toNat_byte (Nat.lt_succ_of_le low)])

theorem loopExpired_due (due : k.timer.length ≤ elapsed s.partTime k.timer.start) :
    s.loopExpired p = s.nextLoopFrame p k := by
  unfold State.loopExpired
  rw [test]
  exact if_pos (decide_eq_true due)

theorem loopExpired_early (early : elapsed s.partTime k.timer.start < k.timer.length) : s.loopExpired p = s := by
  unfold State.loopExpired
  rw [test]
  exact if_neg (by simpa [Timer.due] using early)

end

/-! ## PORT_LOOPTEST (R84) -/

section
variable {count : Byte} (hb : r.body = [byte p.val, count])
include hb

theorem answerPortLooptest_eq : answerPortLooptest s r.body =
    if count.toNat = 0 then .refuse .badField
    else if (s.port p).state ≠ .loopback || (s.port p).loop.isSome then .refuse .badState
    else .done ((s.modPort p (fun x => { x with loop := some (.begun count s.partTime) })).send p (.probe 1))
      (fun _ => []) := by
  unfold answerPortLooptest withPort
  rw [hb, show byteAt [byte p.val, count] 0 = byte p.val from rfl, port_byte]
  rfl

variable (h : s.Takes 0x34 r rest)
include h

theorem portLooptest_badField (none : count = 0) : exec .portLooptest s = .next (s.answered r .badField []) := by
  refine congrArg Host.Outcome.next (h.refused answerPortLooptest .badField ?_)
  rw [answerPortLooptest_eq hb, none]
  rfl

variable (frames : count ≠ 0)
include frames

theorem portLooptest_badState (busy : (s.port p).state ≠ .loopback ∨ (s.port p).loop ≠ none) :
    exec .portLooptest s = .next (s.answered r .badState []) := by
  have counted : ¬ count.toNat = 0 := fun e => frames (BitVec.eq_of_toNat_eq e)
  refine congrArg Host.Outcome.next (h.refused answerPortLooptest .badState ?_)
  rw [answerPortLooptest_eq hb, if_neg counted]
  exact if_pos (by simpa [Option.isSome_iff_ne_none] using busy)

theorem portLooptest_begins (loopback : (s.port p).state = .loopback) (free : (s.port p).loop = none) :
    exec .portLooptest s = .next (State.answered ((s.setPort p { s.port p with
      loop := some (.begun count s.partTime) }).send p (.probe 1)) r .ok []) := by
  have counted : ¬ count.toNat = 0 := fun e => frames (BitVec.eq_of_toNat_eq e)
  have judged : answerPortLooptest s r.body =
      .done ((s.setPort p { s.port p with loop := some (.begun count s.partTime) }).send p (.probe 1)) (fun _ => []) := by
    rw [answerPortLooptest_eq hb, if_neg counted, if_neg (by simp [loopback, free])]
    rfl
  exact congrArg Host.Outcome.next (h.done answerPortLooptest _ _ judged h.agenda h.reset)

end

theorem exec_probeEcho {sequence : Byte} {pattern : List Byte} (h : s.Hears p) (length : pattern.length = 16)
    (e : (s.hearing p).takeEcho p sequence pattern = t) (idle : t.agenda = []) :
    exec (.probeEcho p sequence pattern) s = .next t.pump :=
  exec_pumps rfl ((message_heard h (m := .probe sequence pattern) (decide_eq_true length)).trans e) idle

/-- Settles O38: probing by its echo and its expiry, the request by its tests, the loop test by its echo and its expiry. -/
theorem probingAndLoopTest : Obligations.ProbingAndLoopTest := by
  intro s p x now20
  refine ⟨fun probing => ⟨fun h => ?_, fun k idle counts => ⟨fun due => ?_, fun early => ?_⟩⟩, fun r rest count h hb => ?_,
    fun k loopback test few => ⟨fun h => ?_, fun idle => ⟨fun due => ?_, fun early => ?_⟩⟩⟩
  · have state : ((s.hearing p).port p).state = .probing := by rw [hearing_port_same]; exact probing
    have ended : (s.hearing p).probed p .loopback = (s.setPort p (Port.emptied { x.heard s.partTime with probeTimer := none }
        .loopback s.partTime)).notifyPort p .probing (.state (s.assigned p)) := by
      unfold State.probed
      rw [hearing_port_same, hearing_setPort]
      rfl
    exact ⟨exec_probeEcho h rfl ((takeEcho_probing state).trans ended)
        (by rw [← ended, probed_agenda]; exact h.agenda),
      fun sequence pattern length foreign => exec_probeEcho h length (takeEcho_probing_foreign state foreign) h.agenda⟩
  · exact exec_pumps rfl (probeExpired_due probing counts due) ((probed_agenda _).trans idle)
  · exact exec_pumps rfl (probeExpired_early counts early) idle
  · exact ⟨portLooptest_badField hb h, portLooptest_badState hb h, portLooptest_begins hb h⟩
  · have state : ((s.hearing p).port p).state = .loopback := by rw [hearing_port_same]; exact loopback
    have running : ((s.hearing p).port p).loop = some k := by rw [hearing_port_same]; exact test
    have echo (low : k.awaited ≤ 255) := takeEcho_loopback running state low
    refine ⟨fun more => ?_, fun last => ?_⟩
    · have next : (s.hearing p).loopsOn p k.oneMoreBack = (s.setPort p { x.heard s.partTime with
          loop := some { k with awaited := k.awaited + 1, returned := k.returned + 1, timer := now20 } }).send p
            (.probe (byte (k.awaited + 1))) := by
        unfold State.loopsOn
        rw [hearing_port_same, hearing_setPort]
        rfl
      exact exec_probeEcho h rfl ((echo (by omega)).trans ((nextLoopFrame_more (k := k.oneMoreBack) more).trans next)) h.agenda
    · have result : (s.hearing p).looped p k.oneMoreBack = (s.setPort p { x.heard s.partTime with
          loop := none }).notifyPort p .loopback (.looptest k.count k.count (k.returned + 1) false) := by
        unfold State.looped
        rw [hearing_port_same, hearing_setPort, show k.oneMoreBack.awaited = k.count from last]
        rfl
      exact exec_probeEcho h rfl ((echo (by omega)).trans ((nextLoopFrame_last (k := k.oneMoreBack) state last).trans result))
        (by rw [← result, looped_agenda]; exact h.agenda)
  · refine ⟨fun more => ?_, fun last => ?_⟩
    · exact exec_pumps rfl ((loopExpired_due test due).trans (nextLoopFrame_more more)) idle
    · have result : s.looped p k = (s.setPort p { x with loop := none }).notifyPort p .loopback
          (.looptest k.count k.count k.returned false) := by
        unfold State.looped
        rw [last]
      exact exec_pumps rfl ((loopExpired_due test due).trans ((nextLoopFrame_last loopback last).trans result))
        (by rw [← result, looped_agenda]; exact idle)
  · exact exec_pumps rfl (loopExpired_early test early) idle

end Sys2Proof.Machine
end

section
/-! Engine ports (chapter 5): a setup that is done, and the first decision of its port (R91, R103, R108). -/

namespace Sys2Proof.Machine

variable {s : State} {p : PortNo} {j : Slot} {y : Job}

/-- R108: a stopped gate wait timer starts, where the setting lets the port wait. -/
theorem waitForGate_starts (stopped : (s.port p).gateTimer = none) (waits : (s.port p).gateWait ≠ 0) :
    s.waitForGate p = s.setPort p { s.port p with
      wait := .gate, gateTimer := some { start := s.partTime, length := (s.port p).gateWait } } := by
  unfold State.waitForGate
  rw [stopped]
  exact if_neg waits

/-- The record of a port that begins to feed now with the job it has set up for (R91). -/
def Port.setUp (x : Port) (owner : Option Slot) (now : Word32) : Port :=
  { x with setupTimer := none, owner := owner, state := .feeding, stateTime := now }

/-- The state in which the setup of a port is done, before its first decision (R91). -/
def State.setUp (s : State) (p : PortNo) : State :=
  (s.setPort p ((s.port p).setUp (s.assigned p) s.partTime)).notifyPort p .setup (.state (s.assigned p))

theorem setUp_port : (s.setUp p).port p = (s.port p).setUp (s.assigned p) s.partTime := by
  simp [State.setUp, State.notifyPort]

theorem setUp_agenda : (s.setUp p).agenda = s.agenda := by simp [State.setUp, State.notifyPort]
theorem setUp_assigned (q : PortNo) : (s.setUp p).assigned q = s.assigned q := by simp [State.setUp, State.notifyPort]
theorem setUp_job (j : Slot) : (s.setUp p).job j = s.job j := by simp [State.setUp, State.notifyPort]
theorem setUp_account (a : AccountNo) : (s.setUp p).account a = s.account a := by simp [State.setUp, State.notifyPort]
theorem setUp_meter : (s.setUp p).meter = s.meter := by simp [State.setUp, State.notifyPort]
theorem setUp_partTime : (s.setUp p).partTime = s.partTime := by simp [State.setUp, State.notifyPort]

theorem setUp_noneReady (nobody : s.noneReady) : (s.setUp p).noneReady := fun l => by
  simpa [State.setUp, State.notifyPort] using nobody l

/-- No gate hangs on a port (R56). -/
theorem setUp_gateMet (j : Slot) (o : Nat) : (s.setUp p).gateMet j o = s.gateMet j o := by
  unfold State.setUp State.notifyPort
  rw [notify_eq]
  rfl

theorem takeSetupDone_elsewhere (other : (s.port p).state ≠ .setup) : s.takeSetupDone p = s := if_pos other

theorem takeSetupDone_eq (setup : (s.port p).state = .setup) : s.takeSetupDone p = (s.setUp p).post (.decide p) := by
  have feeds := portTo_kept_stock (s.modPort p (fun x => { x with setupTimer := none, owner := s.assigned p })) p .feeding
    (by rw [State.modPort_port, if_pos rfl]; change (s.port p).state ≠ _; rw [setup]; decide) (.inr rfl)
  rw [State.modPort_port, if_pos rfl] at feeds
  change _ = (State.setPort (State.setPort s p _) p _).notifyPort p (s.port p).state _ at feeds
  rw [State.setPort_setPort, setup] at feeds
  unfold State.takeSetupDone
  rw [if_neg (not_not.mpr setup), feeds]
  rfl

section
variable (at_p : s.assigned p = some j) (hy : s.job j = some y) (nobody : s.noneReady)
include at_p hy nobody

/-- The first decision of a port whose job has nothing against it waits for an unmet gate (R103, R108). -/
theorem runDecision_setUp (free : (s.port p).held = false) (cancel : y.cancel = false) (suspend : y.suspend = false)
    (slice : y.slice = false) (loss : y.lossCount ≠ 5) (serves : (s.account y.account).state.stops = false)
    (more : y.next ≠ y.sheets * y.copies) (loaded : loadedWith (s.port p).trays y.stock = true)
    (room : s.meter.policy ≠ .stall ∨ s.meter.log.length + s.meter.reservations < 256)
    (unmet : s.gateMet j y.next = false) (waits : (s.port p).gateWait ≠ 0) (stopped : (s.port p).gateTimer = none) :
    (s.setUp p).runDecision p = (s.setUp p).setPort p { (s.port p).setUp (s.assigned p) s.partTime with
      wait := .gate, gateTimer := some { start := s.partTime, length := (s.port p).gateWait } } := by
  have serving : ¬ ((s.account y.account).state = .held ∨ (s.account y.account).state = .closed) := by
    rw [← AccountState.stops_iff, serves]
    exact Bool.false_ne_true
  obtain ⟨notHeld, notClosed⟩ := not_or.mp serving
  have cause : (s.setUp p).stopCause p y = none :=
    stopCause_none (by rw [setUp_port]; exact free) cancel suspend loss (by rw [setUp_account]; exact notHeld)
      (by rw [setUp_account]; exact notClosed) more (by rw [setUp_port]; exact loaded)
  have job := (setUp_job (s := s) (p := p) j).trans hy
  rw [runDecision_waits (by rw [setUp_port]; rfl) ((setUp_assigned p).trans at_p) job cause
      (waitsBelow_noneReady (setUp_noneReady nobody) _) slice,
    waitOrStart_gate job (by rw [setUp_meter]; exact room) (by rw [setUp_gateMet]; exact unmet),
    waitForGate_starts (by rw [setUp_port]; exact stopped) (by rw [setUp_port]; exact waits), setUp_port, setUp_partTime]
  rfl

end

/-- Settles O40: SETUP_DONE is ignored but in SETUP, where the port feeds and its first decision waits for the gate. -/
theorem setupDoneFeeds : Obligations.SetupDoneFeeds := by
  intro s p h x
  have heard : s.message p .setupDone = (s.hearing p).takeSetupDone p := message_heard h (m := .setupDone) rfl
  refine ⟨fun other => exec_pumps rfl (heard.trans (takeSetupDone_elsewhere (by rwa [hearing_port_same]))) h.agenda, ?_⟩
  intro j y setup at_p hy free cancel suspend slice loss serves more loaded nobody room unmet waits stopped
  have port : (s.hearing p).port p = x := hearing_port_same
  have decided := runDecision_setUp (s := s.hearing p) (p := p) at_p hy nobody (by rwa [port]) cancel suspend slice loss serves
    more (by rwa [port]) room unmet (by rwa [port]) (by rwa [port])
  have begun : (s.hearing p).setUp p =
      (s.setPort p (x.setUp (some j) s.partTime)).notifyPort p .setup (.state (some j)) := by
    have assigned : (s.hearing p).assigned p = some j := at_p
    unfold State.setUp
    rw [port, assigned, hearing_setPort]
    rfl
  have run : Runs 1 (s.message p .setupDone) (((s.hearing p).setUp p).runDecision p) := by
    rw [heard, takeSetupDone_eq (by rwa [port])]
    refine Runs.post (setUp_agenda.trans h.agenda) (Runs.idle ?_)
    change (((s.hearing p).setUp p).runDecision p).agenda = []
    rw [decided]
    exact setUp_agenda.trans h.agenda
  refine congrArg Host.Outcome.next ((finish_of_settle (run.settle (by omega))).trans ?_)
  rw [decided, begun, port]
  change State.pump (State.setPort _ p { x.setUp (s.assigned p) s.partTime with
    wait := .gate, gateTimer := some { start := s.partTime, length := x.gateWait } }) = _
  rw [at_p]
  rfl

end Sys2Proof.Machine
end

section
/-! Engine ports (chapter 5): the sheets of a port that is taken as LOST, settled when its line is lost or when it is reset
(R125, R130, R138, R139). -/

namespace Sys2Proof.Machine

variable {s t u : State} {p : PortNo} {j : Slot} {b : Job} {y : Sheet} {c : WasteCause} {o : Outcome1}
  {l : List (Sheet × Outcome1)}

theorem setPort_self (s : State) (p : PortNo) : s.setPort p (s.port p) = s := by
  unfold State.setPort State.port
  rw [Fin.getElem_fin, Vector.set_getElem_self]

/-! ## What the settling of sheets leaves of a port's record -/

/-- A port's record but for what the settling of sheets touches: the path and its requests and reads, the run count and the
counters, the outbound side. -/
def Port.unpathed (x : Port) : Port :=
  { x with
    path := [], request := none, reads := [], underruns := 0, counters := .zero, sending := none, outQueue := [] }

theorem queueOut_unpathed (x : Port) (m : PressOut) : (x.queueOut m).unpathed = x.unpathed := by
  unfold Port.queueOut
  split <;> rfl

/-- Beside its path a port stays as it was. -/
def State.BesidePath (s t : State) (p : PortNo) : Prop := (t.port p).unpathed = (s.port p).unpathed

theorem State.BesidePath.refl (s : State) (p : PortNo) : s.BesidePath s p := rfl

theorem State.BesidePath.trans (h : s.BesidePath t p) (k : t.BesidePath u p) : s.BesidePath u p := Eq.trans k h

theorem State.BesidePath.state (h : s.BesidePath t p) : (t.port p).state = (s.port p).state := by
  have state := congrArg Port.state (show (t.port p).unpathed = (s.port p).unpathed from h)
  exact state

theorem besidePath_of_ports (h : t.ports = s.ports) : s.BesidePath t p := by
  unfold State.BesidePath State.port
  rw [h]

theorem modPort_besidePath {f : Port → Port} (h : ∀ x, (f x).unpathed = x.unpathed) : s.BesidePath (s.modPort p f) p := by
  unfold State.BesidePath
  rw [State.modPort_port, if_pos rfl, h]

theorem send_besidePath (m : PressOut) : s.BesidePath (s.send p m) p := modPort_besidePath fun x => queueOut_unpathed x m

theorem divertAll_besidePath (tags : List Byte) : s.BesidePath (s.divertAll p tags) p := by
  have divert (s : State) (tag : Byte) : s.BesidePath (s.divert p tag) p := by
    unfold State.divert
    split
    · split
      · exact send_besidePath _
      · exact .refl s p
    · exact .refl s p
  unfold State.divertAll
  induction tags generalizing s with
  | nil => exact .refl s p
  | cons tag tags ih => exact (divert s tag).trans ih

theorem endRequestOf_besidePath (tags : List Byte) : s.BesidePath (s.endRequestOf p tags) p := by
  unfold State.endRequestOf
  split
  · split
    · exact ((modPort_besidePath (f := fun x => { x with request := none }) fun _ => rfl).trans (send_besidePath _)).trans
        (modPort_besidePath fun _ => rfl)
    · exact .refl s p
  · exact .refl s p

/-- Only a draining port feeds again for a rewind (R112). -/
theorem rewindTo_besidePath (r : Nat) (still : (s.port p).state ≠ .draining) : s.BesidePath (s.rewindTo p r) p := by
  unfold State.rewindTo
  split
  · split
    · dsimp only
      rw [if_neg]
      · exact besidePath_of_ports rfl
      · rw [Bool.and_eq_true, decide_eq_true_eq]
        exact fun ends => still ends.1
    · exact .refl s p
  · exact .refl s p

theorem rewindRule_besidePath (still : (s.port p).state ≠ .draining) : s.BesidePath (s.rewindRule p l) p := by
  unfold State.rewindRule
  split
  · exact (((rewindTo_besidePath _ still).trans
      (modPort_besidePath (f := fun q => { q with path := supersede q.path _ }) fun _ => rfl)).trans
      (divertAll_besidePath _)).trans (endRequestOf_besidePath _)
  · exact .refl s p

/-- Only a feeding port stops for a third underrun (R119). -/
theorem countUnderrun_besidePath (rests : (s.port p).state ≠ .feeding) : s.BesidePath (s.countUnderrun p j) p := by
  have counted (n : Nat) : s.BesidePath (s.modPort p (fun q => { q with underruns := n })) p :=
    modPort_besidePath fun _ => rfl
  unfold State.countUnderrun
  dsimp only
  split
  · have declared := (counted (min ((s.port p).underruns + 1) 3)).trans (u := ((s.modPort p (fun q => { q with
      underruns := min ((s.port p).underruns + 1) 3 })).changeCauses p (fun c => { c with underrun := true })).modJob j
        (fun x => { x with forcedWhole := true })) (besidePath_of_ports (changeCauses_ports ..))
    unfold State.permanentUnderrun
    dsimp only
    rw [if_neg (by rw [declared.state]; exact rests)]
    exact declared
  · exact counted _

theorem forget_besidePath (tag : Byte) : s.BesidePath (s.modPort p (fun q => q.forget tag)) p :=
  modPort_besidePath fun _ => rfl

theorem wasteOutcome_besidePath (rests : (s.port p).state ≠ .feeding) : s.BesidePath (s.wasteOutcome p j b y c) p := by
  obtain ⟨_, _, _, _, _, written⟩ := writeRecord_parts (s := s) (s.recordOf j b p y.ordinal (some c))
  have recorded : s.BesidePath (s.writeRecord (s.recordOf j b p y.ordinal (some c))) p :=
    besidePath_of_ports (by rw [written])
  have counted := (recorded.trans (besidePath_of_ports rfl : State.BesidePath _ ((State.modAccount _ b.account
    (fun a => { a with wasteSheets := raiseTo max32 a.wasteSheets 1 })).modJob j
      (fun z => (z.oneMoreWaste c).loss y.ordinal)) p)).trans (modPort_besidePath (f := fun q => { q with
        counters := { q.counters with waste := bump q.counters.waste } }) fun _ => rfl)
  unfold State.wasteOutcome
  dsimp only
  split
  · exact (counted.trans (countUnderrun_besidePath (by rw [counted.state]; exact rests))).trans (forget_besidePath _)
  · exact counted.trans (forget_besidePath _)

theorem withdrawnOutcome_besidePath : s.BesidePath (s.withdrawnOutcome p y) p := by
  have released : s.BesidePath s.releaseReservation p := by
    unfold State.releaseReservation
    split
    · exact besidePath_of_ports rfl
    · exact .refl s p
  exact released.trans (modPort_besidePath fun _ => rfl)

theorem takeOutcome_besidePath (rests : (s.port p).state ≠ .feeding) (lost : o ≠ .good) :
    s.BesidePath (s.takeOutcome p y o) p := by
  unfold State.takeOutcome
  split
  · cases o with
    | good => exact absurd rfl lost
    | waste c => exact wasteOutcome_besidePath rests
    | withdrawn => exact withdrawnOutcome_besidePath
  · exact .refl s p

theorem foldl_takeOutcome_besidePath (l : List (Sheet × Outcome1)) : ∀ s : State, (s.port p).state ≠ .feeding →
    (∀ e ∈ l, e.2 ≠ .good) → s.BesidePath (l.foldl (fun s e => s.takeOutcome p e.1 e.2) s) p := by
  induction l with
  | nil => exact fun s _ _ => .refl s p
  | cons e l ih =>
    intro s rests lost
    have first := takeOutcome_besidePath (y := e.1) rests (lost e List.mem_cons_self)
    exact first.trans (ih _ (by rw [first.state]; exact rests) fun k later => lost k (List.mem_cons_of_mem _ later))

/-! ## The sheets settled (R125, R130) -/

section
variable (rests : (s.port p).state ≠ .feeding) (still : (s.port p).state ≠ .draining) (lost : ∀ e ∈ l, e.2 ≠ .good)
include rests still lost

theorem settleSheets_besidePath : s.BesidePath (s.settleSheets p l) p := by
  have settled := foldl_takeOutcome_besidePath l s rests lost
  exact settled.trans (rewindRule_besidePath (by rw [settled.state]; exact still))

theorem settleSheets_stands_resting : s.Stands (s.settleSheets p l) p (s.tagsLost p (l.map (·.1.tag))) := by
  have settled := foldl_takeOutcome_stands l s rests lost
  have all := settled.trans (rewindRule_stands (l := l) (by rw [settled.state]; exact still))
  rwa [List.append_nil] at all

end

theorem abandonedOutcome_lost (z : Sheet) : abandonedOutcome z ≠ .good := by
  unfold abandonedOutcome
  split <;> exact Outcome1.noConfusion

/-- The sheets of a port's path with the outcomes of a link loss (R125). -/
def abandoned (path : List Sheet) : List (Sheet × Outcome1) := path.map (fun z => (z, abandonedOutcome z))

theorem abandoned_lost (path : List Sheet) : ∀ e ∈ abandoned path, e.2 ≠ .good := by
  intro e mem
  obtain ⟨z, _, rfl⟩ := List.mem_map.mp mem
  exact abandonedOutcome_lost z

section
variable (lost : (s.port p).state = .lost)
include lost

theorem abandon_besidePath : s.BesidePath (s.settleSheets p (abandoned (s.port p).path)) p :=
  settleSheets_besidePath (by rw [lost]; decide) (by rw [lost]; decide) (abandoned_lost _)

/-- R138: once every sheet of the path has been settled with its job, the path is empty. -/
theorem abandon_empties (job : ((s.settleSheets p (abandoned (s.port p).path)).assignedJob p).isSome) :
    ((s.settleSheets p (abandoned (s.port p).path)).port p).path = [] := by
  have settled := settleSheets_stands_resting (p := p) (l := abandoned (s.port p).path) (by rw [lost]; decide)
    (by rw [lost]; decide) (abandoned_lost _)
  have tags : s.tagsLost p ((abandoned (s.port p).path).map (·.1.tag)) = (s.port p).path.map (·.tag) := by
    unfold State.tagsLost abandoned
    rw [if_pos (by rw [← settled.assignedJob]; exact job), List.map_map]
    rfl
  have left := settled.tags
  rw [tags, List.filter_eq_nil_iff.mpr fun k mem => by simpa using List.mem_map.mp mem] at left
  exact List.map_eq_nil_iff.mp left

/-- A port that has entered LOST stays LOST while its sheets are settled (R138). -/
theorem settleAbandoned_lost : s.settleAbandoned p = s.settleSheets p (abandoned (s.port p).path) := by
  have same (u : State) (h : (u.port p).state = .lost) : u.modPort p (fun q => { q with state := .lost }) = u := by
    have record : ({ u.port p with state := .lost } : Port) = u.port p := by rw [← h]
    exact (congrArg (u.setPort p) record).trans (setPort_self u p)
  unfold State.settleAbandoned
  rw [same s lost, lost]
  exact same _ ((abandon_besidePath lost).state.trans lost)

end

end Sys2Proof.Machine
end

section
/-! Engine ports (chapter 5): a lost line signal (R80, R82, R84, R138). -/

namespace Sys2Proof.Machine

variable {s t u v : State} {p : PortNo} {x : Port} {a : Assignment} {y : Job} {k : LoopTest}

/-! ## LOST entered (R82) -/

/-- The record of a port that enters LOST now (R80, R82). -/
def Port.lostNow (x : Port) (now : Word32) : Port :=
  { x.emptied .lost now with
    request := none, gateTimer := none, wait := .none, owner := none, receiver := .hunting
    counters := { x.counters with linkLosses := min (x.counters.linkLosses + 1) 4294967295 } }

/-- The state in which a port has entered LOST (R82). -/
def State.lostAt (s : State) (p : PortNo) (x : Port) : State :=
  (s.setPort p (x.lostNow s.partTime)).notifyPort p x.state (.state (s.assigned p))

theorem enterLost_eq (nobody : s.noneReady) (present : x.state ≠ .lost) : (s.setPort p x).enterLost p = s.lostAt p x := by
  let ended : Port := { x with request := none, gateTimer := none, wait := .none }
  have left : (s.setPort p x).modPort p (fun x => { x with request := none, gateTimer := none, wait := .none }) =
      s.setPort p ended := by
    unfold State.modPort
    rw [State.setPort_port, if_pos rfl, State.setPort_setPort]
  have port : (s.setPort p ended).port p = ended := by rw [State.setPort_port, if_pos rfl]
  have entered : (s.setPort p ended).portTo p .lost =
      (s.setPort p (ended.emptied .lost s.partTime)).notifyPort p x.state (.state (s.assigned p)) := by
    rw [portTo_noneReady (s := s.setPort p ended) nobody .lost (by rwa [port]), port, enter_uncounted rfl, State.setPort_setPort]
    rfl
  have record : ((s.setPort p (ended.emptied .lost s.partTime)).notifyPort p x.state (.state (s.assigned p))).port p =
      ended.emptied .lost s.partTime := by rw [State.notifyPort, notify_port, State.setPort_port, if_pos rfl]
  unfold State.enterLost
  rw [left, entered]
  unfold State.modPort
  rw [record]
  exact notifyPort_setPort _ _ _ _ _ _ rfl rfl rfl

theorem lostAt_port (q : PortNo) : (s.lostAt p x).port q = if p = q then x.lostNow s.partTime else s.port q := by
  simp [State.lostAt, State.notifyPort]

theorem lostAt_agenda : (s.lostAt p x).agenda = s.agenda := by simp [State.lostAt, State.notifyPort]

/-- LOST entered touches the link interface and the port alone. -/
theorem lostAt_came : s.PortCame (s.lostAt p x) p .lost where
  rest := by unfold State.BesidePorts State.lostAt State.notifyPort; rw [notify_eq]; rfl
  entered := by rw [lostAt_port, if_pos rfl]; rfl
  others q ne := by rw [lostAt_port, if_neg ne.symm]

/-! ## LINK_LOST added (R82, R89, R138) -/

theorem displayed_below_linkLost {c : CauseSet} (absent : c.linkLost = false) {d : Cause} (h : c.displayed = some d) :
    Cause.linkLost.rank < d.rank := by
  unfold CauseSet.displayed at h
  rw [absent, if_neg Bool.false_ne_true] at h
  split_ifs at h <;> cases h <;> decide

theorem lostSettledNow_port (q : PortNo) :
    (u.lostSettledNow p).port q = if p = q then (u.port p).clearFeeding else u.port q := by
  unfold State.lostSettledNow
  rw [changeCauses_port, clearAfterLeaving_port]

theorem lostSettledNow_alert_other {q : PortNo} (ne : q ≠ p) : (u.lostSettledNow p).alert q = u.alert q := by
  unfold State.lostSettledNow
  rw [changeCauses_other _ _ _ _ ne, clearAfterLeaving_alert_other ne]

/-- LINK_LOST is the most severe cause: where it is new, it opens or raises the alert (R172, R174). -/
theorem lostSettledNow_alert (absent : (u.alert p).causes.linkLost = false) :
    (u.lostSettledNow p).alert p = u.alarm p { (u.alert p).causes with linkLost := true, trayEmpty := false } := by
  have causes := clearAfterLeaving_causes (s := u) p
  have opened := changeCauses_alarm (u.clearAfterLeaving p) p (fun c => { c with linkLost := true }) .linkLost rfl
    fun d shown => displayed_below_linkLost (by rw [causes]; exact absent) shown
  have interval : ((u.clearAfterLeaving p).port p).interval = (u.port p).interval := by
    rw [clearAfterLeaving_port, if_pos rfl]
    rfl
  have time : (u.clearAfterLeaving p).partTime = u.partTime := by simp [State.clearAfterLeaving]
  rw [causes] at opened
  refine opened.trans ?_
  unfold State.alarm
  rw [interval, time]

theorem lostSettledNow_jobs : (u.lostSettledNow p).jobs = u.jobs := by simp [State.lostSettledNow, State.clearAfterLeaving]
theorem lostSettledNow_dispatch : (u.lostSettledNow p).dispatch = u.dispatch := by
  simp [State.lostSettledNow, State.clearAfterLeaving]
theorem lostSettledNow_meter : (u.lostSettledNow p).meter = u.meter := by simp [State.lostSettledNow, State.clearAfterLeaving]
theorem lostSettledNow_spool : (u.lostSettledNow p).spool = u.spool := by simp [State.lostSettledNow, State.clearAfterLeaving]
theorem lostSettledNow_choices : (u.lostSettledNow p).choices = u.choices := by
  simp [State.lostSettledNow, State.clearAfterLeaving]
theorem lostSettledNow_agenda : (u.lostSettledNow p).agenda = u.agenda := by
  simp [State.lostSettledNow, State.clearAfterLeaving]

/-! ## The job of a LOST port leaves (R82, R138) -/

/-- A job leaves alike wherever the dispatcher, the jobs and the accounts are the same. -/
theorem State.LeavesHeld.congr (h : s.LeavesHeld p a y) (dispatch : u.dispatch = s.dispatch) (jobs : u.jobs = s.jobs)
    (meter : u.meter = s.meter) : u.LeavesHeld p a y where
  assignment := by unfold State.assignment; rw [dispatch]; exact h.assignment
  job := by unfold State.job; rw [jobs]; exact h.job
  running := h.running
  unfinished := h.unfinished
  sound := h.sound
  kept := h.kept
  going := h.going
  stops := by unfold State.account; rw [meter]; exact h.stops

/-- R82, R138: the job of a port that has come from `w` to LOST leaves, here HELD by its account; the feeding fields are
cleared, and LINK_LOST joins the alert. -/
theorem lineSignalLost_leaves {w : State} (taken : s.signalLost p = u.leaveThen p .head (.lostSettled p))
    (came : w.PortCame u p .lost) (kept : Kept w (u.leaveThen p .head (.lostSettled p))) (idle : u.agenda = [])
    (h : u.LeavesHeld p a y) (absent : (u.alert p).causes.linkLost = false) :
    ∃ t : State, exec (.lineSignalLost p) s = .next t.pump
      ∧ w.LeftHeld t p a (y.leftHeld (elapsed w.partTime a.since))
      ∧ t.port p = (u.port p).clearFeeding
      ∧ t.alert p = u.alarm p { (u.alert p).causes with linkLost := true, trayEmpty := false } := by
  have out := heldAside h .head
  have left : (u.leaveNow p .head).agenda = [] := out.agenda.trans idle
  have run : Runs 2 (u.leaveThen p .head (.lostSettled p)) ((u.leaveNow p .head).lostSettledNow p) :=
    Runs.post_post (n := 0) (m := 1) idle (Runs.idle left) (Runs.post left (Runs.idle (lostSettledNow_agenda.trans left)))
  have settled := run.settle (by omega)
  have beyond : w.Beyond ((u.leaveNow p .head).lostSettledNow p) p := by
    refine beyond_of_kept kept settled ?_ (fun q ne => ?_) (fun q ne => ?_) ?_ ?_
    · rw [lostSettledNow_spool, out.spool, came.rest]
    · rw [lostSettledNow_port, if_neg ne.symm, out.port, came.others q ne]
    · rw [lostSettledNow_alert_other ne, out.alert, came.rest]
      rfl
    · rw [lostSettledNow_meter, out.meter, came.rest]
    · rw [lostSettledNow_choices, out.choices, came.rest]
  refine ⟨_, congrArg Host.Outcome.next (finish_of_settle (by rw [taken]; exact settled)),
    leftHeld_of out beyond lostSettledNow_jobs lostSettledNow_dispatch lostSettledNow_meter (fun j _ => by rw [came.rest]; rfl)
      (by rw [came.rest]) (by rw [came.rest]) (by rw [came.rest]), ?_, ?_⟩
  · rw [lostSettledNow_port, if_pos rfl, out.port]
  · rw [lostSettledNow_alert (by rw [out.alert]; exact absent), out.alert]
    unfold State.alarm
    rw [out.port, out.time]

/-! ## LINE_SIGNAL_LOST by the state of the port (R82) -/

section
variable (s p)

theorem signalLost_away (h : (s.port p).state = .absent ∨ (s.port p).state = .lost) :
    s.signalLost p = s.setPort p (s.port p).unplugged := by
  unfold State.signalLost
  rcases h with h | h <;> rw [h] <;> rfl

theorem signalLost_probing (h : (s.port p).state = .probing) :
    s.signalLost p = (s.setPort p (s.port p).unplugged).probed p .absent := by
  have state : ((s.setPort p (s.port p).unplugged).port p).state = .probing := by rw [State.setPort_port, if_pos rfl]; exact h
  unfold State.signalLost
  rw [h]
  exact portTo_probed state (by decide) rfl

theorem signalLost_loopback (h : (s.port p).state = .loopback) :
    s.signalLost p = ((s.setPort p (s.port p).unplugged).endLoopEarly p).portTo p .absent := by
  unfold State.signalLost
  rw [h]
  rfl

theorem signalLost_idle (h : (s.port p).state = .identifying ∨ (s.port p).state = .ready) :
    s.signalLost p = ((s.setPort p (s.port p).unplugged).enterLost p).lostSettledNow p := by
  unfold State.signalLost
  rcases h with h | h <;> rw [h] <;> rfl

theorem signalLost_setup (h : (s.port p).state = .setup) : s.signalLost p =
    ((s.setPort p { (s.port p).unplugged with setupTimer := none }).enterLost p).leaveThen p .head (.lostSettled p) := by
  have stopped : (s.modPort p Port.unplugged).modPort p (fun x => { x with setupTimer := none }) =
      s.setPort p { (s.port p).unplugged with setupTimer := none } := State.modPort_modPort ..
  unfold State.signalLost
  rw [h, ← stopped]

theorem signalLost_follows (h : (s.port p).state = .feeding ∨ (s.port p).state = .draining ∨ (s.port p).state = .stopped) :
    s.signalLost p = (((s.setPort p (s.port p).unplugged).enterLost p).settleAbandoned p).leaveThen p .head
      (.lostSettled p) := by
  unfold State.signalLost
  rcases h with h | h | h <;> rw [h] <;> rfl

end

theorem probed_setPort (st : PortState) : (s.setPort p x).probed p st =
    (s.setPort p (Port.emptied { x with probeTimer := none } st s.partTime)).notifyPort p .probing
      (.state (s.assigned p)) := by
  unfold State.probed
  rw [State.setPort_port, if_pos rfl, State.setPort_setPort]
  rfl

/-- R84: a running loop test is told with the counts it has reached, and its port goes to ABSENT. -/
theorem endLoopEarly_running (loopback : x.state = .loopback) (test : x.loop = some k) :
    ((s.setPort p x).endLoopEarly p).portTo p .absent =
      (((s.setPort p { x with loop := none }).notifyPort p .loopback (.looptest k.count k.awaited k.returned true)).setPort p
        (Port.emptied { x with loop := none } .absent s.partTime)).notifyPort p .loopback (.state (s.assigned p)) := by
  have told : (s.setPort p x).endLoopEarly p =
      (s.setPort p { x with loop := none }).notifyPort p .loopback (.looptest k.count k.awaited k.returned true) := by
    unfold State.endLoopEarly State.modPort
    rw [State.setPort_port, if_pos rfl, test, State.setPort_setPort]
    dsimp only
    rw [loopback]
  rw [told]
  generalize out : (s.setPort p { x with loop := none }).notifyPort p .loopback
    (.looptest k.count k.awaited k.returned true) = w
  have port : w.port p = { x with loop := none } := by
    rw [← out, State.notifyPort, notify_port, State.setPort_port, if_pos rfl]
  have time : w.partTime = s.partTime := by rw [← out]; simp [State.notifyPort]
  have assigned : w.assigned p = s.assigned p := by rw [← out]; simp [State.notifyPort]
  have gone := portTo_uncounted (s := w) (p := p) (x := { x with loop := none }) (st := .absent)
    (by rw [loopback]; decide) (by rw [loopback]; rfl) rfl
  rwa [← port, setPort_self, port, time, assigned, loopback] at gone

/-- R84: with no loop test there is no result to tell. -/
theorem endLoopEarly_none (loopback : x.state = .loopback) (none : x.loop = none) :
    ((s.setPort p x).endLoopEarly p).portTo p .absent =
      (s.setPort p (x.emptied .absent s.partTime)).notifyPort p .loopback (.state (s.assigned p)) := by
  have same : (s.setPort p x).endLoopEarly p = s.setPort p x := by
    unfold State.endLoopEarly
    rw [State.setPort_port, if_pos rfl, none]
  rw [same, portTo_uncounted (by rw [loopback]; decide) (by rw [loopback]; rfl) rfl, loopback]

/-- Settles O37: by the state that the loss of the line finds its port in. -/
theorem lineSignalLost : Obligations.LineSignalLost := by
  intro s p idle x lost
  refine ⟨fun away => exec_pumps rfl (signalLost_away s p away) idle, fun probing => ?probing,
    fun k loopback test => ?looping, fun loopback none => ?loopback, fun state nobody absent => ?idle,
    fun a y state leaves nobody absent => ?leaves, fun state nobody => ?sheets⟩
  case probing =>
    exact exec_pumps rfl ((signalLost_probing s p probing).trans (probed_setPort .absent))
      (by simp [State.notifyPort, idle])
  case looping =>
    exact exec_pumps rfl ((signalLost_loopback s p loopback).trans (endLoopEarly_running loopback test))
      (by simp [State.notifyPort, idle])
  case loopback =>
    exact exec_pumps rfl ((signalLost_loopback s p loopback).trans (endLoopEarly_none loopback none))
      (by simp [State.notifyPort, idle])
  case idle =>
    have present : x.state ≠ .lost := by rcases state with e | e <;> rw [e] <;> decide
    have taken := signalLost_idle s p state
    rw [enterLost_eq nobody present] at taken
    have came := lostAt_came (s := s) (p := p) (x := x)
    have alert (q : PortNo) : (s.lostAt p x).alert q = s.alert q := by rw [came.rest]; rfl
    have still : ((s.lostAt p x).lostSettledNow p).agenda = [] := lostSettledNow_agenda.trans (lostAt_agenda.trans idle)
    have meter : ((s.lostAt p x).lostSettledNow p).meter = s.meter := by rw [lostSettledNow_meter, came.rest]
    have beyond : s.Beyond ((s.lostAt p x).lostSettledNow p) p :=
      beyond_of_kept (signalLost_kept s p) (by rw [taken]; exact settle_of_idle _ still)
        (by rw [lostSettledNow_spool, came.rest])
        (fun q ne => by rw [lostSettledNow_port, if_neg ne.symm, came.others q ne])
        (fun q ne => by rw [lostSettledNow_alert_other ne, alert]) (by rw [meter])
        (by rw [lostSettledNow_choices, came.rest])
    refine ⟨_, exec_pumps rfl taken still, { beyond with
      jobs := by rw [lostSettledNow_jobs, came.rest]
      dispatch := by rw [lostSettledNow_dispatch, came.rest]
      meterKept := meter }, ?_, ?_⟩
    · rw [lostSettledNow_port, if_pos rfl, lostAt_port, if_pos rfl]
      rfl
    · rw [lostSettledNow_alert (by rw [alert]; exact absent), alert]
      unfold State.alarm
      rw [lostAt_port, if_pos rfl, came.rest]
      rfl
  case leaves =>
    have away (z : Port) (taken : s.signalLost p = (s.lostAt p z).leaveThen p .head (.lostSettled p))
        (same : z.interval = x.interval) : ∃ t : State, exec (.lineSignalLost p) s = .next t.pump
        ∧ s.LeftHeld t p a (y.leftHeld (elapsed s.partTime a.since))
        ∧ t.port p = (z.lostNow s.partTime).clearFeeding
        ∧ t.alert p = s.alarm p { (s.alert p).causes with linkLost := true, trayEmpty := false } := by
      have came := lostAt_came (s := s) (p := p) (x := z)
      have alert : (s.lostAt p z).alert p = s.alert p := by rw [came.rest]; rfl
      obtain ⟨t, run, left, port, alarm⟩ := lineSignalLost_leaves taken came (taken ▸ signalLost_kept s p)
        (lostAt_agenda.trans idle) (leaves.congr (by rw [came.rest]) (by rw [came.rest]) (by rw [came.rest]))
        (by rw [alert]; exact absent)
      refine ⟨t, run, left, ?_, ?_⟩
      · rw [port, lostAt_port, if_pos rfl]
      · rw [alarm, alert]
        unfold State.alarm
        rw [lostAt_port, if_pos rfl, came.rest, show (z.lostNow s.partTime).interval = (s.port p).interval from same]
    rcases state with setup | ⟨follows, empty⟩
    · have taken := signalLost_setup s p setup
      rw [enterLost_eq nobody (x := { x with setupTimer := none }) (by rw [setup]; decide)] at taken
      rw [if_pos setup]
      exact away { x with setupTimer := none } taken rfl
    · have present : x.state ≠ .lost := by rcases follows with e | e | e <;> rw [e] <;> decide
      have waits : x.state ≠ .setup := by rcases follows with e | e | e <;> rw [e] <;> decide
      have taken := signalLost_follows s p follows
      have port : (s.lostAt p x).port p = x.lostNow s.partTime := by rw [lostAt_port, if_pos rfl]
      have nothing : ((s.lostAt p x).port p).path = [] := by rw [port]; exact empty
      rw [enterLost_eq nobody present, settleAbandoned_lost (by rw [port]; rfl), nothing] at taken
      rw [if_neg waits]
      exact away x taken rfl
  case sheets =>
    intro u a y settled leaves absent
    have present : x.state ≠ .lost := by rcases state with e | e | e <;> rw [e] <;> decide
    have port : (s.lostAt p x).port p = x.lostNow s.partTime := by rw [lostAt_port, if_pos rfl]
    have gone : ((s.lostAt p x).port p).state = .lost := by rw [port]; rfl
    have taken := signalLost_follows s p state
    rw [enterLost_eq nobody present, settleAbandoned_lost gone] at taken
    have same : (s.lostAt p x).settleSheets p (abandoned ((s.lostAt p x).port p).path) = u := by rw [port]; rfl
    clear_value u
    have stays : (u.port p).state = .lost := by rw [← same]; exact (abandon_besidePath gone).state.trans gone
    have job : (u.assignedJob p).isSome := by
      rw [assignedJob_of u p a.slot (assigned_of_assignment u leaves.assignment), leaves.job]
      rfl
    have empty : (u.port p).path = [] := by
      rw [← same] at job ⊢
      exact abandon_empties gone job
    have time : u.partTime = s.partTime := by
      rw [← same, (settleSheets_kept _ _ _).time, (lostAt_came (s := s) (p := p) (x := x)).rest]
    rw [same] at taken
    obtain ⟨t, run, left, record, alarm⟩ := lineSignalLost_leaves taken
      { rest := rfl, entered := stays, others := fun _ _ => rfl } (leaveThen_kept ..) settled leaves absent
    rw [time] at left
    refine ⟨t, run, left, record, ?_, ?_, alarm⟩
    · rw [record]; exact stays
    · rw [record]; exact empty

end Sys2Proof.Machine
end

section
/-! Engine ports (chapter 5): PORT_RESET (R81, R97, R139). -/

namespace Sys2Proof.Machine

variable {s t u v w : State} {r : Request} {rest : List Request} {p : PortNo} {x : Port} {st : PortState} {sense : Sense}
  {a : Assignment} {y : Job} {now : Word32}

/-! ## The sense lines read by a port whose record is emptied (R81) -/

/-- A port's record but for its outbound side and its state time. -/
def Port.timeless (x : Port) : Port := { x with sending := none, outQueue := [], stateTime := 0 }

theorem queueOut_timeless (x : Port) (m : PressOut) : (x.queueOut m).timeless = x.timeless := by
  unfold Port.queueOut
  split <;> rfl

/-- A port's record without what entering a state may empty (R80). -/
def Port.bared (x : Port) : Port := { x with trays := [], caps := none, nextTag := 0, owner := none }

/-- Of such a record entering a state changes the state and its time alone. -/
theorem enter_bared (bare : x.bared = x) (st : PortState) (now : Word32) :
    x.enter st now = { x with state := st, stateTime := now } := by
  rw [← bare]
  unfold Port.enter
  dsimp only
  split <;> split <;> rfl

/-- A port has come to a record, its outbound side and its state time aside, and the step there has touched the link interface
and that port alone. -/
structure State.ComesTo (s t : State) (p : PortNo) (x : Port) : Prop extends s.PortCame t p x.state where
  record : (t.port p).timeless = x.timeless

theorem State.ComesTo.modPort (h : s.ComesTo t p x) {f : Port → Port}
    (alike : ∀ y z : Port, y.timeless = z.timeless → (f y).timeless = (f z).timeless) :
    s.ComesTo (t.modPort p f) p (f x) := by
  have record : ((t.modPort p f).port p).timeless = (f x).timeless := by
    rw [State.modPort_port, if_pos rfl]
    exact alike _ _ h.record
  exact { rest := h.rest.trans rfl, entered := (congrArg Port.state record :), record := record
          others := fun q ne => by rw [State.modPort_port, if_neg ne.symm, h.others q ne] }

theorem State.ComesTo.send (h : s.ComesTo t p x) (m : PressOut) : s.ComesTo (t.send p m) p x where
  toPortCame := h.toPortCame.send m
  record := by
    unfold State.send
    rw [State.modPort_port, if_pos rfl, queueOut_timeless]
    exact h.record

theorem portTo_comesTo (bare : (s.port p).bared = s.port p) (st : PortState) :
    s.ComesTo (s.portTo p st) p { s.port p with state := st } := by
  by_cases same : (s.port p).state = st
  · subst same
    rw [portTo_same]
    exact { State.PortCame.refl rfl with record := rfl }
  · have nothing : loadedStocks (s.port p).trays = [] := by rw [← bare]; rfl
    have told : s.portTo p st = (s.setPort p { s.port p with state := st, stateTime := s.partTime }).notifyPort p
        (s.port p).state (.state (s.assigned p)) := by
      unfold State.portTo
      dsimp only
      rw [if_neg same, nothing, enter_bared bare]
      split <;> rfl
    rw [told, State.notifyPort]
    refine { rest := ?_, entered := ?_, others := fun q ne => ?_, record := ?_ }
    · unfold State.BesidePorts
      rw [notify_eq]
      rfl
    · rw [notify_port, State.setPort_port, if_pos rfl]
    · rw [notify_port, State.setPort_port, if_neg ne.symm]
    · rw [notify_port, State.setPort_port, if_pos rfl]
      rfl

/-- The record of a port that has read its sense lines (R81). -/
def Port.resensed (x : Port) (sense : Sense) (now : Word32) : Port :=
  { x.sensed sense with
    state := sensedState x.signal sense
    probeTimer := if sensedState x.signal sense = .probing then some (probeTimerAt now) else x.probeTimer }

theorem resensed_other (state : sensedState x.signal sense = st) (other : st ≠ .probing) :
    x.resensed sense now = { x.sensed sense with state := st } := by
  unfold Port.resensed
  rw [state, if_neg other]
  rfl

theorem resensed_probing (state : sensedState x.signal sense = .probing) :
    x.resensed sense now = { x.sensed sense with state := .probing, probeTimer := some (probeTimerAt now) } := by
  unfold Port.resensed
  rw [state, if_pos rfl]

/-- R81: such a port's sense lines are read. -/
theorem readSense_comesTo (bare : (s.port p).bared = s.port p) (sense : Sense) :
    s.ComesTo (s.readSense p sense) p ((s.port p).resensed sense s.partTime) := by
  generalize own : s.port p = x at bare ⊢
  have port : (s.setPort p (x.sensed sense)).port p = x.sensed sense := by rw [State.setPort_port, if_pos rfl]
  have still : (x.sensed sense).bared = x.sensed sense := congrArg (fun y : Port => y.sensed sense) bare
  have goes (st : PortState) : s.ComesTo ((s.setPort p (x.sensed sense)).portTo p st) p { x.sensed sense with state := st } := by
    have came := portTo_comesTo (s := s.setPort p (x.sensed sense)) (p := p) (by rw [port]; exact still) st
    rw [port] at came
    exact { came with
      rest := State.BesidePorts.trans (t := s.setPort p (x.sensed sense)) rfl came.rest
      others := fun q ne => by rw [came.others q ne, State.setPort_port, if_neg ne.symm] }
  have reads := readSense_eq s p x sense
  rw [← own, setPort_self, own] at reads
  rw [reads]
  dsimp only
  by_cases gone : x.signal = false
  · rw [if_pos gone, resensed_other (if_pos gone) (by decide)]
    exact goes .absent
  rw [if_neg gone]
  have given : sensedState x.signal sense = _ := if_neg gone
  by_cases identifies : sense = 0 ∨ sense = 1
  · rw [if_pos identifies] at given ⊢
    have greets := ((goes .identifying).modPort (f := fun y => { y with nextTag := 0, owner := none })
      fun _ _ alike => congrArg (fun y : Port => { y with nextTag := 0, owner := none }) alike).send .hello
    have kept : ({ x.sensed sense with state := .identifying, nextTag := 0, owner := none } : Port) =
        { x.sensed sense with state := .identifying } := by rw [← still]; rfl
    rw [resensed_other given (by decide), ← kept]
    exact greets
  rw [if_neg identifies] at given ⊢
  by_cases ten : sense = 2
  · rw [if_pos ten] at given ⊢
    rw [resensed_other given (by decide)]
    exact goes .absent
  · rw [if_neg ten] at given ⊢
    rw [resensed_probing given]
    exact ((goes .probing).modPort (f := fun y => { y with probeTimer := some (probeTimerAt s.partTime) })
      fun _ _ alike => congrArg (fun y : Port => { y with probeTimer := some (probeTimerAt s.partTime) }) alike).send (.probe 0)

/-! ## The record emptied (R97, steps 3 to 5) -/

/-- What PORT_RESET comes to at its port, from the record `x` and at the time `now`. -/
structure State.ResetFrom (t : State) (p : PortNo) (x : Port) (sense : Sense) (now : Word32) : Prop where
  record : (t.port p).timeless = (x.wiped.resensed sense now).timeless
  time : (t.port p).stateTime = now
  causes : (t.alert p).causes = .empty

/-- What it leaves as it was beside the port, its alert and the notices. -/
structure State.ResetBeside (s t : State) (p : PortNo) : Prop where
  ports : ∀ q, q ≠ p → t.port q = s.port q
  alerts : ∀ q, q ≠ p → t.alert q = s.alert q
  jobs : t.jobs = s.jobs
  dispatch : t.dispatch = s.dispatch
  meter : t.meter = s.meter
  spool : t.spool = s.spool
  choices : t.choices = s.choices
  agenda : t.agenda = s.agenda

theorem portResetRestNow_comes (nobody : s.noneReady) (sense : Sense) :
    (s.portResetRestNow p sense).ResetFrom p (s.port p) sense s.partTime ∧ s.ResetBeside (s.portResetRestNow p sense) p := by
  let c := (s.modPort p Port.wiped).changeCauses p (fun _ => CauseSet.empty)
  have emptied : s.portResetRestNow p sense = c.readSenseAfresh p sense := by
    unfold State.portResetRestNow
    dsimp only
    rw [judgeStocks_noneReady (s := s.modPort p Port.wiped) nobody]
  have port : c.port p = (s.port p).wiped := by rw [changeCauses_port, State.modPort_port, if_pos rfl]
  have elsewhere (q : PortNo) (ne : q ≠ p) : c.port q = s.port q := by
    rw [changeCauses_port, State.modPort_port, if_neg ne.symm]
  have time : c.partTime = s.partTime := changeCauses_partTime ..
  have came := readSense_comesTo (s := c) (p := p) (by rw [port]; rfl) sense
  have read : c.BesidePorts (c.readSenseAfresh p sense) := came.rest.trans rfl
  have alert (q : PortNo) : (c.readSenseAfresh p sense).alert q = c.alert q := by rw [read]; rfl
  rw [emptied]
  constructor
  · refine { record := ?_, time := ?_, causes := ?_ }
    · rw [← port, ← time]
      unfold State.readSenseAfresh
      rw [State.modPort_port, if_pos rfl]
      exact came.record
    · unfold State.readSenseAfresh
      rw [State.modPort_port, if_pos rfl]
      exact time
    · rw [alert]
      exact changeCauses_causes ..
  · refine { ports := fun q ne => ?_, alerts := fun q ne => ?_, jobs := ?_, dispatch := ?_, meter := ?_, spool := ?_
             choices := ?_, agenda := ?_ }
    · unfold State.readSenseAfresh
      rw [State.modPort_port, if_neg ne.symm, came.others q ne, elsewhere q ne]
    · rw [alert]
      exact changeCauses_other _ _ _ _ ne
    all_goals
      rw [read]
      simp [c]

/-! ## PORT_RESET (R97, R139) -/

/-- Without a job the record is emptied at once. -/
theorem resetPort_free (free : s.assignment p = none) :
    s.resetPort p sense = (s.modPort p Port.resetTimers).post (.portResetRest p sense) := by
  unfold State.resetPort
  dsimp only
  rw [if_neg]
  rw [show (s.modPort p Port.resetTimers).assignment p = none from free]
  exact Bool.false_ne_true

/-- R139: with a job the sheets are settled first, and the job leaves before the record is emptied. -/
theorem resetPort_assigned (busy : s.assignment p = some a) (settled : (s.modPort p Port.resetTimers).settleAbandoned p = v)
    (idle : v.agenda = []) : s.resetPort p sense = (v.post (.leave p .head)).post (.portResetRest p sense) := by
  unfold State.resetPort
  dsimp only
  rw [if_pos, settled]
  · unfold State.post
    rw [idle]
    rfl
  · rw [show (s.modPort p Port.resetTimers).assignment p = some a from busy]
    rfl

/-- The sheets of a port are settled with the port taken as LOST, which then has its state again (R139, log entry 31). -/
theorem settleAbandoned_setPort (s : State) (p : PortNo) (x : Port) : (s.setPort p x).settleAbandoned p =
    let u := (s.setPort p { x with state := .lost }).settleSheets p (abandoned x.path)
    u.setPort p { u.port p with state := x.state } := by
  have port : (s.setPort p x).port p = x := by rw [State.setPort_port, if_pos rfl]
  have lost : (s.setPort p x).modPort p (fun q => { q with state := .lost }) = s.setPort p { x with state := .lost } := by
    unfold State.modPort
    rw [port, State.setPort_setPort]
  unfold State.settleAbandoned
  dsimp only
  rw [lost, port, State.setPort_port, if_pos rfl]
  rfl

theorem settleAbandoned_nil (empty : x.path = []) : (s.setPort p x).settleAbandoned p = s.setPort p x := by
  have nothing : abandoned x.path = [] := by rw [empty]; rfl
  rw [settleAbandoned_setPort, nothing]
  dsimp only
  rw [settleSheets_nil, State.setPort_port, if_pos rfl, State.setPort_setPort]

section
variable (h : s.Takes 0x32 r rest) (hb : r.body = [byte p.val])
include h hb

theorem execPortReset_settles {n : Nat} (run : Runs n (s.resetPort p sense) t) (fuel : n ≤ 65536) :
    exec (.portReset sense) s = .next (t.answered r .ok [(t.port p).state.code]) :=
  congrArg Host.Outcome.next
    (h.portSettled hb rfl (by rw [(resetPort_kept s p sense).link]; exact h.reset) run fuel)

/-- R97: the reset of a port that no job runs on. -/
theorem execPortReset_free (nobody : s.noneReady) (free : s.assignment p = none) :
    ∃ t : State, exec (.portReset sense) s = .next (t.answered r .ok [(t.port p).state.code]) ∧ s.AtPort t p
      ∧ t.ResetFrom p (s.port p).resetTimers sense s.partTime := by
  obtain ⟨reset, beside⟩ := portResetRestNow_comes (s := s.modPort p Port.resetTimers) (p := p) nobody sense
  rw [State.modPort_port, if_pos rfl] at reset
  have run : Runs 1 (s.resetPort p sense) ((s.modPort p Port.resetTimers).portResetRestNow p sense) := by
    rw [resetPort_free free]
    exact Runs.post (s := s.modPort p Port.resetTimers) h.agenda (Runs.idle (beside.agenda.trans h.agenda))
  have beyond := beyond_of_kept (resetPort_kept s p sense) (run.settle (by omega)) beside.spool
    (fun q ne => (beside.ports q ne).trans (by rw [State.modPort_port, if_neg ne.symm])) beside.alerts
    (by rw [beside.meter]; rfl) beside.choices
  exact ⟨_, execPortReset_settles h hb run (by omega),
    { beyond with jobs := beside.jobs, dispatch := beside.dispatch, meterKept := beside.meter }, reset⟩

/-- R97, R139: the reset of a port whose sheets have been settled in `v`: its job leaves, here HELD by its account. `w` differs
from `v` in the port and the link interface at most. -/
theorem execPortReset_leaves (busy : s.assignment p = some a) (settled : (s.modPort p Port.resetTimers).settleAbandoned p = v)
    (idle : v.agenda = []) (leaves : v.LeavesHeld p a y) (nobody : v.noneReady) (came : w.PortCame v p st)
    (kept : Kept w v) :
    ∃ t : State, exec (.portReset sense) s = .next (t.answered r .ok [(t.port p).state.code])
      ∧ w.LeftHeld t p a (y.leftHeld (elapsed w.partTime a.since)) ∧ t.ResetFrom p (v.port p) sense v.partTime := by
  have out := heldAside leaves .head
  have left : (v.leaveNow p .head).agenda = [] := out.agenda.trans idle
  obtain ⟨reset, beside⟩ := portResetRestNow_comes (p := p) (out.noneReady nobody) sense
  rw [out.port, out.time] at reset
  have starts := resetPort_assigned (sense := sense) busy settled idle
  have run : Runs 2 ((v.post (.leave p .head)).post (.portResetRest p sense)) ((v.leaveNow p .head).portResetRestNow p sense) :=
    Runs.post_post (n := 0) (m := 1) idle (Runs.idle left) (Runs.post left (Runs.idle (beside.agenda.trans left)))
  have posted : Kept w ((v.post (.leave p .head)).post (.portResetRest p sense)) :=
    kept.trans ((post_kept ..).trans (post_kept ..))
  have beyond : w.Beyond ((v.leaveNow p .head).portResetRestNow p sense) p := by
    refine beyond_of_kept posted (run.settle (by omega)) ?_ (fun q ne => ?_) (fun q ne => ?_) ?_ ?_
    · rw [beside.spool, out.spool, came.rest]
    · rw [beside.ports q ne, out.port, came.others q ne]
    · rw [beside.alerts q ne, out.alert, came.rest]
      rfl
    · rw [beside.meter, out.meter, came.rest]
    · rw [beside.choices, out.choices, came.rest]
  exact ⟨_, execPortReset_settles h hb (by rw [starts]; exact run) (by omega),
    leftHeld_of out beyond beside.jobs beside.dispatch beside.meter (fun j _ => by rw [came.rest]; rfl)
      (by rw [came.rest]) (by rw [came.rest]) (by rw [came.rest]), reset⟩

end

/-- The class that a reading gives by the state that it gives (R81). -/
theorem senseClass_eq (signal : Bool) (sense : Sense) : senseClass signal sense =
    if sensedState signal sense = .identifying then some (if sense = 0 then .sheet else .roll) else none := by
  revert signal sense
  decide

/-- Settles O44: every sheet settled and the job left, the record is emptied and the sense lines are read. -/
theorem portResetEmptiesPort : Obligations.PortResetEmptiesPort := by
  intro s r rest p sense h hb nobody entered reset
  have resets (t : State) (x : Port) (came : t.ResetFrom p x sense s.partTime)
      (besides : x.unpathed = (s.port p).resetTimers.unpathed) (empty : x.path = []) : reset t := by
    have read {α : Type} (f : Port → α) (of : ∀ y, f y.timeless = f y) :
        f (t.port p) = f (x.wiped.resensed sense s.partTime) := by rw [← of, came.record, of]
    have kept {α : Type} (f : Port → α) (of : ∀ y, f y.unpathed = f y) : f x = f (s.port p).resetTimers := by
      rw [← of, besides, of]
    have signal : x.signal = (s.port p).signal := kept (·.signal) fun _ => rfl
    have given : sensedState x.signal sense = entered := congrArg (sensedState · sense) signal
    have probe : (t.port p).probeTimer =
        if entered = .probing then some { start := s.partTime, length := 20 } else none := by
      have none : x.probeTimer = none := kept (·.probeTimer) fun _ => rfl
      rw [← given, ← none]
      exact read (·.probeTimer) fun _ => rfl
    have cls : (t.port p).cls = if entered = .identifying then some (if sense = 0 then .sheet else .roll) else none := by
      rw [← given, ← senseClass_eq]
      exact read (·.cls) fun _ => rfl
    exact ⟨(read (·.state) fun _ => rfl).trans given, came.time, read (·.owner) fun _ => rfl, read (·.caps) fun _ => rfl,
      read (·.trays) fun _ => rfl, read (·.refusal) fun _ => rfl, read (·.nextTag) fun _ => rfl,
      read (·.underruns) fun _ => rfl, read (·.counters) fun _ => rfl,
      (read (·.loop) fun _ => rfl).trans (kept (·.loop) fun _ => rfl),
      (read (·.setupTimer) fun _ => rfl).trans (kept (·.setupTimer) fun _ => rfl), read (·.gateTimer) fun _ => rfl,
      read (·.request) fun _ => rfl, read (·.wait) fun _ => rfl, read (·.drain) fun _ => rfl,
      read (·.destination) fun _ => rfl, (read (·.path) fun _ => rfl).trans empty, probe, cls,
      (read (·.held) fun _ => rfl).trans (kept (·.held) fun _ => rfl), (read (·.signal) fun _ => rfl).trans signal,
      (read (·.grace) fun _ => rfl).trans (kept (·.grace) fun _ => rfl),
      (read (·.gateWait) fun _ => rfl).trans (kept (·.gateWait) fun _ => rfl),
      (read (·.interval) fun _ => rfl).trans (kept (·.interval) fun _ => rfl), came.causes⟩
  refine ⟨fun free empty => ?free, fun a y empty leaves => ?unpathed, ?sheets⟩
  case free =>
    obtain ⟨t, run, left, came⟩ := execPortReset_free (sense := sense) h hb nobody free
    have done : reset t := resets t _ came rfl empty
    exact ⟨t, by rw [← done.1]; exact run, left, done⟩
  case unpathed =>
    let v := s.modPort p Port.resetTimers
    have port : v.port p = (s.port p).resetTimers := by rw [State.modPort_port, if_pos rfl]
    have settled : v.settleAbandoned p = v := settleAbandoned_nil empty
    obtain ⟨t, run, left, came⟩ := execPortReset_leaves (w := s) (st := (s.port p).state) (sense := sense) h hb
      leaves.assignment settled h.agenda (leaves.congr rfl rfl rfl) nobody
      { rest := rfl, entered := by rw [port]; rfl, others := fun q ne => by rw [State.modPort_port, if_neg ne.symm] }
      (modPort_kept _ _ _ fun _ => ⟨rfl, rfl, rfl, id⟩)
    rw [port] at came
    have done : reset t := resets t _ came rfl empty
    exact ⟨t, by rw [← done.1]; exact run, left, done⟩
  case sheets =>
    intro x u v a y idle leaves ready
    let lost : State := s.setPort p { x.resetTimers with state := .lost }
    have record : lost.port p = { x.resetTimers with state := .lost } := by rw [State.setPort_port, if_pos rfl]
    have gone : (lost.port p).state = .lost := by rw [record]
    have same : lost.settleSheets p (abandoned (lost.port p).path) = u := by rw [record]; rfl
    have settled : (s.modPort p Port.resetTimers).settleAbandoned p = v := settleAbandoned_setPort ..
    have stands := settleSheets_stands_resting (s := lost) (p := p) (l := abandoned (lost.port p).path) (by rw [gone]; decide)
      (by rw [gone]; decide) (abandoned_lost _)
    have besides : lost.BesidePath u p := by rw [← same]; exact abandon_besidePath gone
    have time : u.partTime = s.partTime := by rw [← same]; exact (settleSheets_kept _ _ _).time
    have port : v.port p = { u.port p with state := x.state } := by rw [State.setPort_port, if_pos rfl]
    have assigned : u.assignment p = some a := leaves.assignment
    have busy : s.assignment p = some a := by
      rw [← assigned, ← same]
      unfold State.assignment
      rw [stands.dispatch]
      rfl
    have job : (u.assignedJob p).isSome := by
      rw [assignedJob_of u p a.slot (assigned_of_assignment u assigned), show u.job a.slot = some y from leaves.job]
      rfl
    have empty : (u.port p).path = [] := by
      rw [← same] at job ⊢
      exact abandon_empties gone job
    have kept : (v.port p).unpathed = x.resetTimers.unpathed := by
      unfold State.BesidePath at besides
      rw [record] at besides
      rw [port]
      exact congrArg (fun q : Port => { q with state := x.state }) besides
    obtain ⟨t, run, left, came⟩ := execPortReset_leaves (sense := sense) h hb busy settled idle leaves ready
      (State.PortCame.refl rfl) (Kept.refl v)
    rw [show v.partTime = s.partTime from time] at left came
    have done : reset t := resets t _ came kept (by rw [port]; exact empty)
    exact ⟨t, by rw [← done.1]; exact run, left, done⟩

end Sys2Proof.Machine
end

section
/-! Feeding sheets (chapter 6): the wait for a gate (R103, R104, R108, R111). -/

namespace Sys2Proof.Machine

variable {s t u : State} {p : PortNo} {a : Assignment} {y : Job} {k : Timer}

/-! ## The gate wait timer (R103, R108) -/

/-- R103: a gate wait timer that counts goes on. -/
theorem waitForGate_counts (counts : (s.port p).gateTimer ≠ none) :
    s.waitForGate p = s.setPort p { s.port p with wait := .gate } := by
  obtain ⟨k, timer⟩ := Option.ne_none_iff_exists'.mp counts
  unfold State.waitForGate
  rw [timer]
  rfl

/-- R108: a setting of 0 does not wait. -/
theorem waitForGate_stops (stopped : (s.port p).gateTimer = none) (setting : (s.port p).gateWait = 0) :
    s.waitForGate p = s.stopFeeding p .gateWait := by
  unfold State.waitForGate
  rw [stopped]
  exact if_pos setting

/-- R108: a port that does not wait for its gate, or whose timer does not count, has no gate wait to end. -/
theorem gateExpired_elsewhere
    (h : (s.port p).state ≠ .feeding ∨ (s.port p).wait ≠ .gate ∨ (s.port p).gateTimer = none) : s.gateExpired p = s := by
  refine if_neg fun due => ?_
  simp only [Bool.and_eq_true, decide_eq_true_eq] at due
  obtain ⟨⟨feeding, gate⟩, timer⟩ := due
  rcases h with h | h | h
  · exact h feeding
  · exact h gate
  · rw [h] at timer
    exact Bool.false_ne_true timer

theorem gateExpired_early (timer : (s.port p).gateTimer = some k) (early : elapsed s.partTime k.start < k.length) :
    s.gateExpired p = s := by
  have counts : timerDue (s.port p).gateTimer s.partTime = false := by
    rw [timer]
    exact decide_eq_false (Nat.not_le.mpr early)
  unfold State.gateExpired
  rw [counts, Bool.and_false]
  rfl

/-- R108: a gate wait whose length has elapsed stops the feeding. -/
theorem gateExpired_due (feeding : (s.port p).state = .feeding) (gate : (s.port p).wait = .gate)
    (timer : (s.port p).gateTimer = some k) (due : k.length ≤ elapsed s.partTime k.start) :
    s.gateExpired p = (s.drains p .gateWait).post (.afterRemoval p) := by
  have expired : timerDue (s.port p).gateTimer s.partTime = true := by
    rw [timer]
    exact decide_eq_true due
  unfold State.gateExpired
  rw [feeding, gate, expired]
  exact stopFeeding_eq s .gateWait feeding

theorem drains_port_same (c : DrainCause) : (s.drains p c).port p = (s.port p).stopped c s.partTime := by
  rw [drains_port, if_pos rfl]

/-! ## A job that leaves after an event at its port (R26, R78, R111) -/

/-- A job that has left a state which shares jobs, assignments and meter unit with an earlier one has left that one too. -/
theorem State.LeftHeld.since (out : u.LeftHeld t p a y) (beyond : s.Beyond t p) (jobs : u.jobs = s.jobs)
    (dispatch : u.dispatch = s.dispatch) (meter : u.meter = s.meter) (time : u.partTime = s.partTime) :
    s.LeftHeld t p a y where
  toBeyond := beyond
  job := out.job
  jobs j ne := (out.jobs j ne).trans (by unfold State.job; rw [jobs])
  dispatch := by rw [out.dispatch, dispatch]
  reservations := by rw [out.reservations, meter]
  account := by
    rw [out.account, time]
    unfold State.account
    rw [meter]
  accounts b ne := (out.accounts b ne).trans (by unfold State.account; rw [meter])

/-- R104, R111: the job of a port that stops feeding with an empty path leaves at once, here HELD by its account. -/
theorem drains_leaves {c : DrainCause} (kept : Kept s ((s.drains p c).post (.afterRemoval p))) (idle : s.agenda = [])
    (path : (s.port p).path = []) (leaves : s.LeavesHeld p a y) (nobody : s.noneReady) :
    ∃ t : State, ((s.drains p c).post (.afterRemoval p)).settle = t
      ∧ s.LeftHeld t p a (y.leftHeld (elapsed s.partTime a.since))
      ∧ t.port p = { (s.port p).clearFeeding with state := .ready, stateTime := s.partTime }
      ∧ (t.alert p).causes = { (s.alert p).causes with trayEmpty := false } := by
  have jobs : (s.drains p c).jobs = s.jobs := by simp [State.drains, State.notifyPort]
  have dispatch : (s.drains p c).dispatch = s.dispatch := by simp [State.drains, State.notifyPort]
  have meter : (s.drains p c).meter = s.meter := by simp [State.drains, State.notifyPort]
  have time : (s.drains p c).partTime = s.partTime := by simp [State.drains, State.notifyPort]
  have alert (q : PortNo) : (s.drains p c).alert q = s.alert q := by simp [State.drains, State.notifyPort]
  have spool : (s.drains p c).spool = s.spool := by simp [State.drains, State.notifyPort]
  have choices : (s.drains p c).choices = s.choices := by simp [State.drains, State.notifyPort]
  have free : (s.drains p c).noneReady := fun l => by
    unfold State.readyAt
    rw [dispatch]
    exact nobody l
  obtain ⟨t, run, left, port, causes⟩ := drained_leaves (u := s.drains p c) (p := p)
    ((drains_agenda s p c).trans idle) (by rw [drains_port_same]; rfl) (by rw [drains_port_same]; exact path)
    (leaves.congr dispatch jobs meter) free
  rw [time] at left port
  have beyond : s.Beyond t p := by
    refine beyond_of_kept kept run (left.spool.trans spool) (fun q ne => ?_) (fun q ne => ?_) ?_ (left.choices.trans choices)
    · rw [left.ports q ne, drains_port, if_neg ne.symm]
    · rw [left.alerts q ne, alert]
    · rw [← meter]
      exact left.meter
  refine ⟨t, run, left.since beyond jobs dispatch meter time, ?_, ?_⟩
  · rw [port, drains_port_same]
    rfl
  · rw [causes, alert]

/-- Settles O47: the wait begins by the timer and the setting; its expiry has an effect where the wait is for the gate and its
length has elapsed, and then by the path. -/
theorem gateWaitStartsAndExpires : Obligations.GateWaitStartsAndExpires := by
  intro s p x
  refine ⟨waitForGate_counts, waitForGate_starts, waitForGate_stops, fun idle => ⟨fun away => ?_, fun k timer early => ?_,
    fun k feeding gate timer due => ⟨fun path => ?_, fun a y path leaves nobody => ?_⟩⟩⟩
  · exact exec_pumps rfl (gateExpired_elsewhere away) idle
  · exact exec_pumps rfl (gateExpired_early timer early) idle
  · have run : Runs 1 (s.gateExpired p) (s.drains p .gateWait) := by
      rw [gateExpired_due feeding gate timer due]
      exact Runs.noop ((drains_agenda s p .gateWait).trans idle)
        (afterRemoval_waits (by rw [drains_port_same]; rfl) (by rw [drains_port_same]; exact path))
    exact congrArg Host.Outcome.next (finish_of_settle (run.settle (by omega)))
  · have expired := gateExpired_due feeding gate timer due
    obtain ⟨t, run, left, port, causes⟩ := drains_leaves (expired ▸ gateExpired_kept s p) idle path leaves nobody
    exact ⟨t, congrArg Host.Outcome.next (finish_of_settle (by rw [expired]; exact run)), left, port, causes⟩

end Sys2Proof.Machine
end

section
/-! Feeding sheets (chapter 6): spoiling, the rewind rule and the band grace (R112, R114, R116, R117, R121, R130). -/

namespace Sys2Proof.Machine

variable {s t : State} {p : PortNo} {j : Slot} {y : Job} {q : Port} {r : Nat} {tag : Byte} {c : SpoilCause} {x : Sheet}
  {path diverted superseded : List Sheet} {l : List (Sheet × Outcome1)}

/-! ## Marks (R116, R130) -/

theorem supersede_eq (path : List Sheet) (r : Nat) : supersede path r =
    path.map (fun z => if z.mark = .unmarked ∧ r < z.ordinal then { z with mark := .superseded } else z) := by
  simp [supersede, Sheet.isUnmarked]

/-- The unmarked sheets of a path above an ordinal: those that a rewind to it supersedes (R116, R130). -/
def sheetsAbove (path : List Sheet) (r : Nat) : List Sheet := path.filter (fun z => z.mark = .unmarked ∧ r < z.ordinal)

theorem supersededTags_eq (path : List Sheet) (r : Nat) : supersededTags path r = (sheetsAbove path r).map (·.tag) := by
  simp [supersededTags, sheetsAbove, Sheet.isUnmarked]

/-- The sheets of a path that a spoil marks: the one named and those above it (R116). -/
def sheetsSpoiled (path : List Sheet) (tag : Byte) (r : Nat) : List Sheet :=
  path.filter (fun z => z.tag = tag ∨ (z.mark = .unmarked ∧ r < z.ordinal))

/-- A sheet's record once the sheet of a tag is spoiled at the ordinal `r`, superseded or not by the same event (R116). -/
def Sheet.spoiled (z : Sheet) (r : Nat) (tag : Byte) (c : SpoilCause) : Sheet :=
  if z.tag = tag then { z with mark := .spoiled c }
  else if z.mark = .unmarked ∧ r < z.ordinal then { z with mark := .superseded } else z

theorem spoilMark_supersede (path : List Sheet) (r : Nat) (tag : Byte) (c : SpoilCause) :
    spoilMark (supersede path r) tag c = path.map (·.spoiled r tag c) := by
  rw [supersede_eq]
  unfold spoilMark
  rw [List.map_map]
  refine List.map_congr_left fun z _ => ?_
  unfold Sheet.spoiled
  dsimp only [Function.comp_apply]
  split_ifs <;> rfl

theorem spoiled_ordinal (z : Sheet) (r : Nat) (tag : Byte) (c : SpoilCause) : (z.spoiled r tag c).ordinal = z.ordinal := by
  unfold Sheet.spoiled
  split_ifs <;> rfl

theorem spoiled_unmarked_iff (z : Sheet) (r : Nat) (tag : Byte) (c : SpoilCause) :
    (z.spoiled r tag c).mark = .unmarked ↔ z.mark = .unmarked ∧ z.tag ≠ tag ∧ z.ordinal ≤ r := by
  unfold Sheet.spoiled
  split_ifs with named above
  · simp [named]
  · simp [above.2]
  · exact ⟨fun fresh => ⟨fresh, named, Nat.le_of_not_lt fun high => above ⟨fresh, high⟩⟩, fun left => left.1⟩

/-! ## Messages of one event (R193) -/

/-- What no message of an outbound side changes, several leave as it was. -/
theorem foldl_queueOut_keeps {α : Type} {f : Port → α} (keeps : ∀ q m, f (q.queueOut m) = f q) (ms : List PressOut) :
    ∀ q : Port, f (ms.foldl Port.queueOut q) = f q := by
  induction ms with
  | nil => exact fun _ => rfl
  | cons m ms ih => exact fun q => (ih _).trans (keeps q m)

/-! ## The record of the port -/

/-- The messages that divert sheets, at an engine with a reject tray (R117). -/
def Port.diverts (q : Port) (tags : List Byte) : List PressOut := if q.caps.any (·.reject) then tags.map .divert else []

theorem queueOut_diverts (q : Port) (m : PressOut) (tags : List Byte) : (q.queueOut m).diverts tags = q.diverts tags := by
  unfold Port.queueOut Port.diverts
  split <;> rfl

theorem diverts_cons (tag : Byte) (tags : List Byte) : q.diverts (tag :: tags) = q.diverts [tag] ++ q.diverts tags := by
  unfold Port.diverts
  split <;> rfl

/-- A port's record once sheets have been diverted (R117). -/
def Port.diverting (q : Port) (tags : List Byte) : Port := (q.diverts tags).foldl Port.queueOut q

theorem diverting_cons (tag : Byte) (tags : List Byte) : q.diverting (tag :: tags) = (q.diverting [tag]).diverting tags := by
  have reject : (q.diverting [tag]).diverts tags = q.diverts tags :=
    foldl_queueOut_keeps (f := fun q => q.diverts tags) (fun q m => queueOut_diverts q m tags) _ q
  unfold Port.diverting at reject ⊢
  rw [reject, diverts_cons, List.foldl_append]

theorem setPort_of_eq (h : s.port p = q) : s.setPort p q = s := h ▸ setPort_self s p

theorem divert_eq (tag : Byte) : s.divert p tag = s.modPort p (fun q => q.diverting [tag]) := by
  unfold State.divert
  cases e : (s.port p).caps with
  | none => exact (setPort_of_eq (by simp [Port.diverting, Port.diverts, e])).symm
  | some c =>
    dsimp only
    split
    · rename_i reject
      refine congrArg (s.setPort p) ?_
      simp [Port.diverting, Port.diverts, e, reject]
    · rename_i keeps
      exact (setPort_of_eq (by simp [Port.diverting, Port.diverts, e, keeps])).symm

theorem divertAll_eq (tags : List Byte) : s.divertAll p tags = s.modPort p (fun q => q.diverting tags) := by
  induction tags generalizing s with
  | nil => exact (setPort_of_eq (s := s) (by simp [Port.diverting, Port.diverts])).symm
  | cons tag tags ih =>
    refine (ih : (s.divert p tag).divertAll p tags = _).trans ?_
    rw [divert_eq, State.modPort_modPort]
    exact congrArg (s.setPort p) (diverting_cons tag tags).symm

/-- A port's record once the request of one of these sheets has been filled (R114). -/
def Port.endRequest (q : Port) (tags : List Byte) : Port :=
  match q.request with
  | some k => if tags.contains k.tag then Port.filled { q with request := none } k.tag k.back k.band else q
  | none => q

section
variable {tags : List Byte} {k : BandRequest}

theorem endRequest_none (h : q.request = none) : q.endRequest tags = q := by
  unfold Port.endRequest
  rw [h]

theorem endRequest_other (h : q.request = some k) (other : tags.contains k.tag = false) : q.endRequest tags = q := by
  unfold Port.endRequest
  rw [h]
  exact if_neg (by rw [other]; exact Bool.false_ne_true)

theorem endRequest_named (h : q.request = some k) (named : tags.contains k.tag = true) :
    q.endRequest tags = Port.filled { q with request := none } k.tag k.back k.band := by
  unfold Port.endRequest
  rw [h]
  exact if_pos named

end

theorem endRequestOf_eq (tags : List Byte) : s.endRequestOf p tags = s.modPort p (fun q => q.endRequest tags) := by
  unfold State.endRequestOf
  split
  · rename_i k waits
    split
    · rename_i named
      rw [sendFill_eq, State.modPort_port, if_pos rfl]
      refine (State.setPort_setPort ..).trans ?_
      exact congrArg (s.setPort p) (endRequest_named waits named).symm
    · rename_i other
      exact (setPort_of_eq (endRequest_other waits (Bool.not_eq_true _ ▸ other)).symm).symm
  · rename_i none
    exact (setPort_of_eq (endRequest_none none).symm).symm

/-- A port's record once its path is marked and its job `y` rewound to `r`: it feeds again if it drained for END alone (R112). -/
def Port.resumed (q : Port) (now : Word32) (y : Job) (r : Nat) (path : List Sheet) : Port :=
  { q with
    path := path
    state := if q.resumes y r then .feeding else q.state
    stateTime := if q.resumes y r then now else q.stateTime
    drain := if q.resumes y r then none else q.drain
    destination := if q.resumes y r then none else q.destination }

section
variable {now : Word32} {k : BandRequest}

theorem rewound_path : (q.rewound now y r path diverted superseded).path = path := foldl_queueOut_keeps queueOut_path _ _

theorem rewound_nextTag : (q.rewound now y r path diverted superseded).nextTag = q.nextTag :=
  foldl_queueOut_keeps queueOut_nextTag _ _

theorem rewound_unfilled (h : q.request.filter (fun k => superseded.any (fun z => z.tag = k.tag)) = none) :
    q.rewound now y r path diverted superseded = (q.resumed now y r path).diverting (diverted.map (·.tag)) := by
  unfold Port.rewound Port.diverting Port.diverts
  rw [h, List.map_map]
  exact congrArg (List.foldl Port.queueOut _) (List.append_nil _)

/-- A record without its request and with one FILL more counted (R98, R114). -/
def Port.unasked (q : Port) : Port :=
  { q with request := none, counters := { q.counters with fills := min (q.counters.fills + 1) 4294967295 } }

theorem rewound_filled (h : q.request.filter (fun k => superseded.any (fun z => z.tag = k.tag)) = some k) :
    q.rewound now y r path diverted superseded =
      Port.filled { (q.resumed now y r path).diverting (diverted.map (·.tag)) with request := none } k.tag k.back k.band := by
  have apart := List.foldl_hom (l := q.diverts (diverted.map (·.tag))) (init := q.resumed now y r path) Port.unasked
    (g₁ := Port.queueOut) (g₂ := Port.queueOut) (fun q m => by unfold Port.queueOut Port.unasked; cases q.sending <;> rfl)
  have sent : q.rewound now y r path diverted superseded =
      ((q.diverts (diverted.map (·.tag))).foldl Port.queueOut (q.resumed now y r path).unasked).queueOut
        (.fill k.tag k.back k.band) := by
    unfold Port.rewound Port.diverts
    rw [h, List.map_map]
    exact List.foldl_append
  exact sent.trans (congrArg (Port.queueOut · _) apart)

/-- The record after a rewind, step by step: the port feeds again, the path is marked, sheets are diverted, a request ends. -/
theorem rewound_eq : q.rewound now y r path diverted superseded =
    ((q.resumed now y r path).diverting (diverted.map (·.tag))).endRequest (superseded.map (·.tag)) := by
  have request : ((q.resumed now y r path).diverting (diverted.map (·.tag))).request = q.request :=
    foldl_queueOut_keeps (f := Port.request) (fun q m => by unfold Port.queueOut; split <;> rfl) _ _
  have named (k : BandRequest) : superseded.any (fun z => z.tag = k.tag) = (superseded.map (·.tag)).contains k.tag := by
    rw [Bool.eq_iff_iff]
    simp only [List.any_eq_true, decide_eq_true_eq, List.contains_iff_mem, List.mem_map]
  cases e : q.request with
  | none => rw [endRequest_none (request.trans e), rewound_unfilled (by rw [e]; rfl)]
  | some k =>
    cases n : (superseded.map (·.tag)).contains k.tag
    · rw [endRequest_other (request.trans e) n, rewound_unfilled (by rw [e, Option.filter_some, named, n]; rfl)]
    · rw [endRequest_named (request.trans e) n, rewound_filled (k := k) (by rw [e, Option.filter_some, named, n]; rfl)]

end

/-! ## A rewind of the port's job (R22, R112) -/

/-- The link interface after a rewind: a port that feeds again has a notice of it (R87, R112). -/
def State.rewoundLink (s : State) (p : PortNo) (j : Slot) (y : Job) (r : Nat) : Link :=
  (if (s.port p).resumes y r then
    (s.setPort p { s.port p with state := .feeding }).notifyPort p .draining (.state (some j)) else s).link

/-- The state in which the job `y` of a port has been rewound to `r`, the port's record being `q`. -/
def State.rewoundTo (s : State) (p : PortNo) (j : Slot) (y : Job) (r : Nat) (q : Port) : State :=
  { (s.setPort p q).setJob j (some { y with next := min y.next r }) with link := s.rewoundLink p j y r }

theorem rewoundTo_port : (s.rewoundTo p j y r q).port p = q := (State.setPort_port s p q p).trans (if_pos rfl)

theorem rewoundTo_rewound :
    s.Rewound (s.rewoundTo p j y r ((s.port p).rewound s.partTime y r path diverted superseded)) p j y r path diverted
      superseded where
  port := rewoundTo_port
  job := (State.setJob_job (s.setPort p _) j _ j).trans (if_pos rfl)
  jobs i ne := (State.setJob_job (s.setPort p _) j _ i).trans (if_neg ne.symm)
  ports q ne := (State.setPort_port s p _ q).trans (if_neg ne.symm)
  link := rfl
  spool := rfl
  meter := rfl
  alerts := rfl
  dispatch := rfl
  time := rfl
  panel := rfl
  choices := rfl
  pending := rfl

/-- A task posted is no part of what a rewind changes. -/
theorem State.Rewound.post (h : s.Rewound t p j y r path diverted superseded) (k : Task) :
    s.Rewound (t.post k) p j y r path diverted superseded :=
  ⟨h.port, h.job, h.jobs, h.ports, h.link, h.spool, h.meter, h.alerts, h.dispatch, h.time, h.panel, h.choices, h.pending⟩

theorem rewoundTo_modPort (f : Port → Port) :
    (s.rewoundTo p j y r q).modPort p f = s.rewoundTo p j y r (f q) := by
  unfold State.modPort
  rw [rewoundTo_port]
  unfold State.rewoundTo State.setPort
  dsimp only [State.setJob]
  rw [Vector.set_set]

/-- A PORT notice tells the state, the held flag and the class of its port alone (R87). -/
theorem notifyPort_link_of_same {x z : Port} (state : x.state = z.state) (held : x.held = z.held) (cls : x.cls = z.cls)
    (before : PortState) (reason : PortReason) :
    ((s.setPort p x).notifyPort p before reason).link = ((s.setPort p z).notifyPort p before reason).link := by
  rw [← notifyPort_setPort s p x z before reason state held cls, State.setPort_link]

theorem notifyPort_link_setJob (o : Option Job) (before : PortState) (reason : PortReason) :
    ((s.setJob j o).notifyPort p before reason).link = (s.notifyPort p before reason).link :=
  notify_link_congr _ _ rfl rfl

theorem rewoundLink_resumes (h : (s.port p).resumes y r = true) : s.rewoundLink p j y r =
    ((s.setPort p { s.port p with state := .feeding }).notifyPort p .draining (.state (some j))).link := by
  unfold State.rewoundLink
  rw [if_pos h]

theorem rewoundLink_stays (h : (s.port p).resumes y r = false) : s.rewoundLink p j y r = s.link := by
  unfold State.rewoundLink
  rw [h]
  rfl

/-- A rewind does not depend on the marks of the path. -/
theorem rewoundTo_marked : (s.setPort p { s.port p with path := path }).rewoundTo p j y r q = s.rewoundTo p j y r q := by
  have port : (s.setPort p { s.port p with path := path }).port p = { s.port p with path := path } := by
    rw [State.setPort_port, if_pos rfl]
  have link : (s.setPort p { s.port p with path := path }).rewoundLink p j y r = s.rewoundLink p j y r := by
    cases again : (s.port p).resumes y r with
    | false => rw [rewoundLink_stays (by rw [port]; exact again), rewoundLink_stays again]; rfl
    | true =>
      rw [rewoundLink_resumes (by rw [port]; exact again), rewoundLink_resumes again, port, State.setPort_setPort]
      refine notifyPort_link_of_same ?_ ?_ ?_ _ _ <;> rfl
  unfold State.rewoundTo
  rw [link, State.setPort_setPort]

theorem setJob_of_eq {o : Option Job} (h : s.job j = o) : s.setJob j o = s := by
  rw [← h]
  unfold State.setJob State.job
  rw [Fin.getElem_fin, Vector.set_getElem_self]

/-- R112: the port that drained feeds again; it counts stock, as it did, and no stock is judged (R80). -/
theorem feedsAgain_eq (draining : (s.port p).state = .draining) :
    (s.modPort p (fun q => { q with drain := none, destination := none })).portTo p .feeding =
      (s.setPort p { s.port p with drain := none, destination := none, state := .feeding, stateTime := s.partTime }).notifyPort
        p .draining (.state (s.assigned p)) := by
  have port : (s.modPort p (fun q => { q with drain := none, destination := none })).port p =
      { s.port p with drain := none, destination := none } := by rw [State.modPort_port, if_pos rfl]
  rw [portTo_kept_stock _ p .feeding (by rw [port, draining]; decide) (.inr rfl), port, draining]
  exact congrArg (State.notifyPort · p .draining (.state (s.assigned p))) (State.setPort_setPort ..)

theorem rewindTo_notLower (at_p : s.assigned p = some j) (hy : s.job j = some y) (h : ¬ r < y.next) : s.rewindTo p r = s := by
  unfold State.rewindTo
  rw [at_p, (assignedJob_of s p j at_p).trans hy]
  exact if_neg h

section
variable (at_p : s.assigned p = some j) (hy : s.job j = some y)
include at_p hy

/-- R112: the port drained for END alone, and feeds again. -/
theorem rewindTo_again (again : (s.port p).resumes y r = true) :
    s.rewindTo p r = s.rewoundTo p j y r ((s.port p).resumed s.partTime y r (s.port p).path) := by
  obtain ⟨⟨draining, ended⟩, lower⟩ : ((s.port p).state = .draining ∧ (s.port p).drain = some .endOfJob) ∧ r < y.next := by
    simpa [Port.resumes] using again
  have record : (s.port p).resumed s.partTime y r (s.port p).path =
      { s.port p with drain := none, destination := none, state := .feeding, stateTime := s.partTime } := by
    unfold Port.resumed
    rw [again]
    rfl
  have feeds := feedsAgain_eq (s := s.setJob j (some { y with next := r })) (p := p) draining
  rw [show (s.setJob j _).assigned p = some j from at_p] at feeds
  have link : s.rewoundLink p j y r = State.link (State.notifyPort (State.setPort (s.setJob j (some { y with next := r })) p
      { s.port p with drain := none, destination := none, state := .feeding, stateTime := s.partTime })
      p .draining (.state (some j))) := by
    rw [rewoundLink_resumes again]
    refine Eq.trans ?_ (notifyPort_link_setJob (s := s.setPort p _) _ _ _).symm
    refine notifyPort_link_of_same ?_ ?_ ?_ _ _ <;> rfl
  unfold State.rewindTo
  rw [at_p, (assignedJob_of s p j at_p).trans hy]
  dsimp only
  rw [if_pos lower, if_pos (by simp [draining, ended])]
  refine feeds.trans ?_
  unfold State.rewoundTo
  rw [record, link, Nat.min_eq_right lower.le]
  exact notify_eq _ _ _

/-- The next ordinal is lowered, and never raised; a port that does not feed again keeps its record (R22). -/
theorem rewindTo_stays (stays : (s.port p).resumes y r = false) :
    s.rewindTo p r = s.rewoundTo p j y r ((s.port p).resumed s.partTime y r (s.port p).path) := by
  have record : s.port p = (s.port p).resumed s.partTime y r (s.port p).path := by
    unfold Port.resumed
    rw [stays]
    rfl
  have lowered : s.rewindTo p r = s.setJob j (some { y with next := min y.next r }) := by
    by_cases lower : r < y.next
    · have notEnded : ¬ (decide ((s.port p).state = .draining) && decide ((s.port p).drain = some .endOfJob)) = true := by
        rw [Port.resumes, decide_eq_true lower, Bool.and_true] at stays
        rw [stays]
        exact Bool.false_ne_true
      unfold State.rewindTo
      rw [at_p, (assignedJob_of s p j at_p).trans hy, Nat.min_eq_right lower.le]
      exact (if_pos lower).trans (if_neg notEnded)
    · rw [rewindTo_notLower at_p hy lower, Nat.min_eq_left (Nat.le_of_not_lt lower), setJob_of_eq hy]
  unfold State.rewoundTo
  rw [rewoundLink_stays stays, setPort_of_eq record, lowered]
  rfl

theorem rewindTo_eq (r : Nat) :
    s.rewindTo p r = s.rewoundTo p j y r ((s.port p).resumed s.partTime y r (s.port p).path) := by
  cases resumes : (s.port p).resumes y r with
  | true => exact rewindTo_again at_p hy resumes
  | false => exact rewindTo_stays at_p hy resumes

/-- A rewind after the marks of an event are written (R116, R130). -/
theorem rewindTo_marked (r : Nat) (path : List Sheet) : (s.setPort p { s.port p with path := path }).rewindTo p r =
    s.rewoundTo p j y r ((s.port p).resumed s.partTime y r path) := by
  have marked := rewindTo_eq (s := s.setPort p { s.port p with path := path }) at_p hy r
  rw [State.setPort_port, if_pos rfl, rewoundTo_marked] at marked
  exact marked

/-- The marks of a path may be written before the rewind or after it (R112, R130). -/
theorem rewindTo_then_marks (r : Nat) (path : List Sheet) : (s.rewindTo p r).modPort p (fun q => { q with path := path }) =
    (s.setPort p { s.port p with path := path }).rewindTo p r := by
  rw [rewindTo_marked at_p hy, rewindTo_eq at_p hy, rewoundTo_modPort]
  rfl

/-- A path marked before the rewind, sheets diverted and a request ended after it make the record of `Port.rewound`. -/
theorem rewound_steps (r : Nat) (path diverted superseded : List Sheet) :
    (((s.setPort p { s.port p with path := path }).rewindTo p r).divertAll p (diverted.map (·.tag))).endRequestOf p
      (superseded.map (·.tag)) =
    s.rewoundTo p j y r ((s.port p).rewound s.partTime y r path diverted superseded) := by
  rw [endRequestOf_eq, divertAll_eq, rewindTo_marked at_p hy, rewoundTo_modPort, rewoundTo_modPort, rewound_eq]

end

/-! ## Spoiling (R116) -/

/-- R116: the sheet is marked, those above it are superseded, the job is rewound to it, and the port decides again. -/
theorem spoil_unmarked (named : sheetOf (s.port p).path tag = some x) (fresh : x.mark = .unmarked)
    (at_p : s.assigned p = some j) (hy : s.job j = some y) (c : SpoilCause) :
    s.spoil p tag c = (s.rewoundTo p j y x.ordinal ((s.port p).rewound s.partTime y x.ordinal
      (spoilMark (supersede (s.port p).path x.ordinal) tag c)
      (sheetsSpoiled (s.port p).path tag x.ordinal) (sheetsAbove (s.port p).path x.ordinal))).post (.decide p) := by
  have marked : (s.port p).path.filter (fun z => z.tag = tag || (z.isUnmarked && x.ordinal < z.ordinal)) =
      sheetsSpoiled (s.port p).path tag x.ordinal := by simp [sheetsSpoiled, Sheet.isUnmarked]
  have first : x.isUnmarked = true := decide_eq_true fresh
  unfold State.spoil
  rw [named]
  dsimp only
  rw [if_pos first, marked, supersededTags_eq]
  exact congrArg (State.post · _) (rewound_steps at_p hy ..)

/-! ## The rewind rule (R130) -/

/-- The sheets that are lost: unmarked ones that came out other than GOOD (R130). -/
def lostSheets (l : List (Sheet × Outcome1)) : List (Sheet × Outcome1) := l.filter (fun e => e.1.mark = .unmarked ∧ e.2 ≠ .good)

/-- The lower of an ordinal and the one found before it. -/
def lowerOrdinal (best : Option Nat) (e : Sheet × Outcome1) : Option Nat :=
  match best with
  | some b => some (min b e.1.ordinal)
  | none => some e.1.ordinal

theorem rewindOrdinal_eq (l : List (Sheet × Outcome1)) : rewindOrdinal l = (lostSheets l).foldl lowerOrdinal none := by
  have lost : l.filter (fun e => e.1.isUnmarked && e.2 ≠ .good) = lostSheets l := by simp [lostSheets, Sheet.isUnmarked]
  unfold rewindOrdinal
  rw [lost]
  rfl

/-- A walk for the lowest ordinal ends with one that none is below and that stands at the start or in the list. -/
theorem foldl_lowerOrdinal {m : Nat} : ∀ (l : List (Sheet × Outcome1)) (b : Nat), m ≤ b → (∀ e ∈ l, m ≤ e.1.ordinal) →
    (b = m ∨ ∃ e ∈ l, e.1.ordinal = m) → l.foldl lowerOrdinal (some b) = some m := by
  intro l
  induction l with
  | nil =>
    intro b _ _ found
    rcases found with rfl | ⟨e, mem, _⟩
    · rfl
    · cases mem
  | cons f l ih =>
    intro b low least found
    have first := least f List.mem_cons_self
    refine ih (min b f.1.ordinal) (by omega) (fun e mem => least e (List.mem_cons_of_mem f mem)) ?_
    rcases found with rfl | ⟨e, mem, rfl⟩
    · exact .inl (Nat.min_eq_left first)
    · rcases List.mem_cons.mp mem with rfl | mem
      · exact .inl (Nat.min_eq_right low)
      · exact .inr ⟨e, mem, rfl⟩

/-- R130: the rewind goes to the lowest ordinal lost. -/
theorem rewindOrdinal_least {e : Sheet × Outcome1} (mem : e ∈ lostSheets l)
    (least : ∀ f ∈ lostSheets l, e.1.ordinal ≤ f.1.ordinal) : rewindOrdinal l = some e.1.ordinal := by
  rw [rewindOrdinal_eq]
  cases lost : lostSheets l with
  | nil => rw [lost] at mem; cases mem
  | cons f rest =>
    rw [lost] at mem least
    refine foldl_lowerOrdinal rest f.1.ordinal (least f List.mem_cons_self)
      (fun g later => least g (List.mem_cons_of_mem f later)) ?_
    rcases List.mem_cons.mp mem with rfl | later
    · exact .inl rfl
    · exact .inr ⟨e, later, rfl⟩

theorem rewindRule_none (h : lostSheets l = []) : s.rewindRule p l = s := by
  unfold State.rewindRule
  rw [rewindOrdinal_eq, h]
  rfl

/-- R130: the job is rewound to the lowest ordinal lost, and the sheets above it are superseded. -/
theorem rewindRule_some (lowest : rewindOrdinal l = some r) (at_p : s.assigned p = some j) (hy : s.job j = some y) :
    s.rewindRule p l = s.rewoundTo p j y r ((s.port p).rewound s.partTime y r (supersede (s.port p).path r)
      (sheetsAbove (s.port p).path r) (sheetsAbove (s.port p).path r)) := by
  have path : ((s.rewindTo p r).port p).path = (s.port p).path := by
    rw [rewindTo_eq at_p hy, rewoundTo_port]
    rfl
  have marks : (s.rewindTo p r).modPort p (fun q => { q with path := supersede q.path r }) =
      (s.setPort p { s.port p with path := supersede (s.port p).path r }).rewindTo p r := by
    rw [← rewindTo_then_marks at_p hy]
    unfold State.modPort
    dsimp only
    rw [path]
  unfold State.rewindRule
  rw [lowest]
  dsimp only
  rw [path, marks, supersededTags_eq]
  exact rewound_steps at_p hy ..

/-! ## The order of the path (R121) -/

/-- The ordinals of a range that lie below one of it. -/
theorem filter_lt_range' {a o n : Nat} (low : a ≤ o) (high : o ≤ a + n) :
    (List.range' a n).filter (fun i => i < o) = List.range' a (o - a) := by
  have split : List.range' a n = List.range' a (o - a) ++ List.range' o (n - (o - a)) := by
    have parts := List.range'_append_1 (s := a) (m := o - a) (n := n - (o - a))
    rw [show a + (o - a) = o by omega, show (o - a) + (n - (o - a)) = n by omega] at parts
    exact parts.symm
  rw [split, List.filter_append, List.filter_eq_self.mpr fun i mem => ?_, List.filter_eq_nil_iff.mpr fun i mem => ?_,
    List.append_nil]
  · have := List.mem_range'_1.mp mem
    simp only [decide_eq_true_eq]
    omega
  · have := List.mem_range'_1.mp mem
    simp only [decide_eq_true_eq]
    omega

/-- The marks that a spoil writes leave the ordinals of the path (R116). -/
theorem spoilMark_ordinals (path : List Sheet) (o : Nat) (tag : Byte) (c : SpoilCause) :
    (spoilMark (supersede path o) tag c).map (·.ordinal) = path.map (·.ordinal) := by
  rw [spoilMark_supersede, List.map_map]
  exact List.map_congr_left fun z _ => spoiled_ordinal z o tag c

section
variable (order : q.InOrder y) (short : q.path.length ≤ 4)

include order short in
theorem inOrder_tags_nodup : (q.path.map (·.tag)).Nodup := by
  rw [order.tags]
  refine List.Nodup.map_on (fun i hi k hk e => ?_) (List.nodup_range ..)
  have hi := List.mem_range.mp hi
  have hk := List.mem_range.mp hk
  have same : BitVec.ofNat 8 (q.path.length - i) = BitVec.ofNat 8 (q.path.length - k) := by bv_omega
  have counts := congrArg BitVec.toNat same
  rw [BitVec.toNat_ofNat, BitVec.toNat_ofNat] at counts
  omega

variable (named : sheetOf q.path tag = some x) (fresh : x.mark = .unmarked)
include order named fresh

/-- Among the unmarked sheets of a path in order, a tag and an ordinal name the same sheet. -/
theorem inOrder_tag_iff (short : q.path.length ≤ 4) {z : Sheet} (mem : z ∈ q.path) (unmarked : z.mark = .unmarked) :
    z.tag = tag ↔ z.ordinal = x.ordinal := by
  have here : x ∈ q.path := List.mem_of_find?_eq_some named
  have tagged : x.tag = tag := sheetOf_tag named
  have ordinals : ((q.path.filter (fun z => z.mark = .unmarked)).map (·.ordinal)).Nodup :=
    order.unmarked ▸ List.nodup_range'
  constructor
  · intro same
    rw [List.inj_on_of_nodup_map (inOrder_tags_nodup order short) mem here (same.trans tagged.symm)]
  · intro same
    rw [List.inj_on_of_nodup_map ordinals (List.mem_filter.mpr ⟨mem, decide_eq_true unmarked⟩)
      (List.mem_filter.mpr ⟨here, decide_eq_true fresh⟩) same, tagged]

theorem inOrder_below : y.good ≤ x.ordinal ∧ x.ordinal < y.next := by
  have mem : x.ordinal ∈ (q.path.filter (fun z => z.mark = .unmarked)).map (·.ordinal) :=
    List.mem_map_of_mem (List.mem_filter.mpr ⟨List.mem_of_find?_eq_some named, decide_eq_true fresh⟩)
  rw [order.unmarked] at mem
  have := List.mem_range'_1.mp mem
  have := order.counts
  omega

include short in
/-- R121: what a spoil leaves unmarked are the sheets below it. -/
theorem spoil_unmarked_ordinals (c : SpoilCause) :
    ((spoilMark (supersede q.path x.ordinal) tag c).filter (fun z => z.mark = .unmarked)).map (·.ordinal) =
      List.range' y.good (x.ordinal - y.good) := by
  obtain ⟨low, high⟩ := inOrder_below order named fresh
  have left (z : Sheet) (mem : z ∈ q.path) : (z.spoiled x.ordinal tag c).mark = .unmarked ↔
      z.ordinal < x.ordinal ∧ z.mark = .unmarked := by
    rw [spoiled_unmarked_iff]
    constructor
    · rintro ⟨unmarked, other, le⟩
      exact ⟨lt_of_le_of_ne le fun same => other ((inOrder_tag_iff order named fresh short mem unmarked).mpr same), unmarked⟩
    · rintro ⟨lt, unmarked⟩
      exact ⟨unmarked, fun same => lt.ne ((inOrder_tag_iff order named fresh short mem unmarked).mp same), lt.le⟩
  calc ((spoilMark (supersede q.path x.ordinal) tag c).filter (fun z => z.mark = .unmarked)).map (·.ordinal)
      = (q.path.filter (fun z => (z.spoiled x.ordinal tag c).mark = .unmarked)).map (·.ordinal) := by
        rw [spoilMark_supersede, List.filter_map, List.map_map]
        exact List.map_congr_left fun z _ => spoiled_ordinal z x.ordinal tag c
    _ = (q.path.filter (fun z => z.ordinal < x.ordinal && z.mark = .unmarked)).map (·.ordinal) := by
        congr 1
        exact List.filter_congr fun z mem => by simp only [left z mem, Bool.decide_and]
    _ = ((q.path.filter (fun z => z.mark = .unmarked)).map (·.ordinal)).filter (fun i => i < x.ordinal) := by
        rw [List.filter_map, List.filter_filter]
        rfl
    _ = List.range' y.good (x.ordinal - y.good) := by
        rw [order.unmarked]
        exact filter_lt_range' low (by omega)

include short in
/-- R121: the order of a path reads the path and the next tag; a spoil that leaves the one marked and the other as it was keeps
it. -/
theorem inOrder_spoiled {w : Port} (c : SpoilCause) (marked : w.path = spoilMark (supersede q.path x.ordinal) tag c)
    (nextTag : w.nextTag = q.nextTag) : w.InOrder { y with next := x.ordinal } where
  tags := by
    have length : w.path.length = q.path.length := by rw [marked]; simp [spoilMark, supersede]
    rw [length, nextTag, marked, spoilMark_tags, order.tags]
  unmarked := by
    rw [marked]
    exact spoil_unmarked_ordinals order short named fresh c
  ordinals z mem := by
    have ordinal : z.ordinal ∈ q.path.map (·.ordinal) := by
      rw [← spoilMark_ordinals q.path x.ordinal tag c, ← marked]
      exact List.mem_map_of_mem mem
    obtain ⟨w, hw, same⟩ := List.mem_map.mp ordinal
    rw [← same]
    exact order.ordinals w hw
  counts := by
    obtain ⟨low, high⟩ := inOrder_below order named fresh
    exact ⟨low, high.le.trans order.counts.2⟩

end

/-! ## The band grace (R114) -/

theorem graceExpired_none (h : (s.port p).request = none) : s.graceExpired p = s := by
  unfold State.graceExpired
  rw [h]

section
variable {k : BandRequest} (waits : (s.port p).request = some k)
include waits

theorem graceExpired_early (early : elapsed s.partTime k.timer.start < k.timer.length) : s.graceExpired p = s := by
  have counts : k.timer.due s.partTime = false := decide_eq_false (Nat.not_le.mpr early)
  unfold State.graceExpired
  rw [waits]
  exact if_neg (by rw [counts]; exact Bool.false_ne_true)

/-- R114: the request that has waited its grace is filled, and its sheet is spoiled. -/
theorem graceExpired_due (due : k.timer.length ≤ elapsed s.partTime k.timer.start) : s.graceExpired p =
    (s.setPort p (Port.filled { s.port p with request := none } k.tag k.back k.band)).spoil p k.tag .underrun := by
  have expired : k.timer.due s.partTime = true := decide_eq_true due
  unfold State.graceExpired
  rw [waits]
  exact (if_pos expired).trans (failRequest_eq waits)

end

/-- Settles O50: a spoil by the mark of its sheet, a settling by the sheets lost, the expiry by the request and its grace. -/
theorem spoilMarksAndRewinds : Obligations.SpoilMarksAndRewinds := by
  intro s p q
  refine ⟨fun tag c x named => ⟨spoil_marked named, fun j y fresh at_p hy => ?_⟩, fun l => ⟨fun none => ?_,
    fun e mem least j y at_p hy => ?_⟩, fun idle => ⟨fun none => ?_, fun k waits => ⟨fun early => ?_, fun due => ?_⟩⟩⟩
  · have spoils := spoil_unmarked named fresh at_p hy c
    refine ⟨?_, fun order short => ?_, ?_⟩
    · rw [spoils, spoilMark_supersede]
      exact rewoundTo_rewound.post _
    · rw [spoils, State.post_port, rewoundTo_port]
      exact inOrder_spoiled order short named fresh c rewound_path rewound_nextTag
    · rw [spoils]
      rfl
  · exact rewindRule_none none
  · have settles := rewindRule_some (rewindOrdinal_least mem least) at_p hy
    refine ⟨?_, ?_⟩
    · unfold State.settleSheets
      rw [settles, supersede_eq]
      exact rewoundTo_rewound
    · unfold State.settleSheets
      rw [settles]
      rfl
  · exact exec_pumps rfl (graceExpired_none none) idle
  · exact exec_pumps rfl (graceExpired_early waits early) idle
  · exact congrArg Host.Outcome.next (congrArg State.finish (graceExpired_due waits due))

end Sys2Proof.Machine
end

section
/-! The paper path (chapter 7): PICKED, and the outcomes of sheets (R122 to R125, R132, R136, R138). -/

namespace Sys2Proof.Machine

variable {s : State} {p : PortNo} {tag : Byte} {items : List StopItem} {z : Sheet}

/-! ## A STOP's list (R132) -/

theorem mem_named_iff (tag : Byte) (i : StopItem) : i ∈ items.filter (fun i => i.tag = tag) ↔ i ∈ items ∧ i.tag = tag := by
  rw [List.mem_filter, decide_eq_true_iff]

theorem any_stranded_iff (items : List StopItem) (tag : Byte) :
    (items.filter (fun i => i.tag = tag)).any (fun i => i.disposition = .stranded) = true
      ↔ ({ tag := tag, disposition := .stranded } : StopItem) ∈ items := by
  rw [List.any_eq_true]
  constructor
  · rintro ⟨⟨_, d⟩, mem, stranded⟩
    obtain ⟨listed, rfl⟩ := (mem_named_iff tag _).mp mem
    obtain rfl : d = .stranded := of_decide_eq_true stranded
    exact listed
  · exact fun listed => ⟨_, (mem_named_iff tag _).mpr ⟨listed, rfl⟩, decide_eq_true rfl⟩

/-- A list that does not name a tag STRANDED names it, if at all, FINISH. -/
theorem named_isEmpty_iff (free : ({ tag := tag, disposition := .stranded } : StopItem) ∉ items) :
    (items.filter (fun i => i.tag = tag)).isEmpty = true ↔ ({ tag := tag, disposition := .finish } : StopItem) ∉ items := by
  rw [List.isEmpty_iff, List.eq_nil_iff_forall_not_mem]
  constructor
  · exact fun none listed => none _ ((mem_named_iff tag _).mpr ⟨listed, rfl⟩)
  · rintro unlisted ⟨_, d⟩ mem
    obtain ⟨listed, rfl⟩ := (mem_named_iff tag _).mp mem
    cases d with
    | finish => exact unlisted listed
    | stranded => exact free listed

theorem namedBy_eq (items : List StopItem) (tag : Byte) : namedBy items tag =
    if ({ tag := tag, disposition := .stranded } : StopItem) ∈ items then some .stranded
    else if ({ tag := tag, disposition := .finish } : StopItem) ∈ items then some .finish else none := by
  unfold namedBy
  dsimp only
  by_cases stranded : ({ tag := tag, disposition := .stranded } : StopItem) ∈ items
  · rw [if_pos stranded, if_pos ((any_stranded_iff items tag).mpr stranded)]
  · rw [if_neg stranded, if_neg (mt (any_stranded_iff items tag).mp stranded)]
    by_cases finish : ({ tag := tag, disposition := .finish } : StopItem) ∈ items
    · rw [if_pos finish, if_neg fun empty => (named_isEmpty_iff stranded).mp empty finish]
    · rw [if_neg finish, if_pos ((named_isEmpty_iff stranded).mpr finish)]

/-! ## The outcomes of a sheet (R125) -/

theorem deliveredOutcome_eq (z : Sheet) :
    deliveredOutcome z = if z.mark = .unmarked then .good else .waste (wasteCauseOf z.mark .unknown) := by
  unfold deliveredOutcome
  cases z.mark <;> rfl

theorem abandonedOutcome_eq (z : Sheet) :
    abandonedOutcome z = if z.state = .started then .withdrawn else .waste (wasteCauseOf z.mark .unknown) := by
  unfold abandonedOutcome
  cases z.state <;> rfl

/-- R132: what the list says of a sheet goes before its state. -/
theorem stopOutcome_eq (items : List StopItem) (z : Sheet) : stopOutcome items z =
    if ({ tag := z.tag, disposition := .stranded } : StopItem) ∈ items then some (.waste (wasteCauseOf z.mark .stranded))
    else if ({ tag := z.tag, disposition := .finish } : StopItem) ∈ items then none
    else if z.state = .started then some .withdrawn
    else if z.state = .picked then some (.waste (wasteCauseOf z.mark .unknown)) else none := by
  unfold stopOutcome
  rw [namedBy_eq]
  split_ifs with stranded finish started picked
  · rfl
  · rfl
  · rw [started]
  · rw [picked]
  · cases state : z.state with
    | started => exact absurd state started
    | picked => exact absurd state picked
    | finish => rfl

/-- R132: a sheet that the list does not name takes the outcome of its state. -/
theorem stopOutcome_unnamed (unnamed : ∀ i ∈ items, i.tag ≠ z.tag) : stopOutcome items z =
    if z.state = .started then some .withdrawn
    else if z.state = .picked then some (.waste (wasteCauseOf z.mark .unknown)) else none := by
  rw [stopOutcome_eq, if_neg (fun listed => unnamed _ listed rfl), if_neg (fun listed => unnamed _ listed rfl)]

/-! ## PICKED (R122) -/

theorem follows_iff (x : PortState) : x.follows = true ↔ x = .feeding ∨ x = .draining ∨ x = .stopped := by
  cases x <;> decide

theorem pickSheet_eq (path : List Sheet) (tag : Byte) : pickSheet path tag =
    path.map (fun z => if z.tag = tag ∧ z.state = .started then { z with state := .picked } else z) := by
  simp only [pickSheet, Bool.and_eq_true, decide_eq_true_iff]

theorem pickSheet_noSheet {path : List Sheet} (none : sheetOf path tag = none) : pickSheet path tag = path := by
  have other (z : Sheet) (mem : z ∈ path) : ¬ z.tag = tag :=
    fun named => List.find?_eq_none.mp none z mem (decide_eq_true named)
  rw [pickSheet_eq, List.map_congr_left fun z mem => if_neg fun both => other z mem both.1, List.map_id']

theorem takePicked_follows (follows : (s.port p).state.follows = true) :
    s.takePicked p tag = s.setPort p { s.port p with path := pickSheet (s.port p).path tag } := if_pos follows

theorem takePicked_ignored (other : (s.port p).state.follows ≠ true) : s.takePicked p tag = s := if_neg other

/-- A PICKED that is heard, once its effect on the port's record is known: it leaves nothing to bring about. -/
theorem exec_picked (h : s.Hears p) {x : Port} (taken : (s.hearing p).takePicked p tag = s.setPort p x) :
    exec (.picked p tag) s = .next (State.pump (s.setPort p x)) := by
  refine congrArg Host.Outcome.next ?_
  rw [message_heard h (m := .picked tag) rfl]
  exact (congrArg State.finish taken).trans (finish_of_idle h.agenda)

/-- Settles O51: a PICKED by the state of its port, and the outcomes by their equations. -/
theorem pickedMarksSheet : Obligations.PickedMarksSheet := by
  intro s p tag h x
  have same : (s.hearing p).port p = x := hearing_port_same
  have taken (follows : x.state.follows = true) :
      (s.hearing p).takePicked p tag = s.setPort p { x with path := pickSheet x.path tag } := by
    rw [takePicked_follows (by rw [same]; exact follows), same, hearing_setPort]
  refine ⟨fun state => ?_, fun feeding draining stopped => exec_picked h (takePicked_ignored ?_),
    fun z items unnamed => ⟨fun picked => ⟨wasteCauseOf z.mark .unknown, wasteCauseOf z.mark .unknown, ?_, ?_⟩,
      fun started => ⟨?_, ?_⟩⟩,
    fun z items => ⟨deliveredOutcome_eq z, abandonedOutcome_eq z, rfl, stopOutcome_eq items z⟩⟩
  · have marked := taken ((follows_iff x.state).mpr state)
    refine ⟨exec_picked h (by rw [marked, pickSheet_eq]), fun none => exec_picked h ?_⟩
    rw [marked, pickSheet_noSheet none]
  · rw [same, Ne, follows_iff]
    rintro (state | state | state)
    · exact feeding state
    · exact draining state
    · exact stopped state
  · rw [abandonedOutcome_eq, picked]
    rfl
  · rw [stopOutcome_unnamed unnamed, picked]
    rfl
  · rw [abandonedOutcome_eq, if_pos started]
  · rw [stopOutcome_unnamed unnamed, if_pos started]

end Sys2Proof.Machine
end

section
/-! Coverage and charge (chapter 8): the five stages of a side's charge (R146 to R150) and the sheet charge (R151). -/

namespace Sys2Proof.Machine

variable {c : SizeClass} {t : Tier}

/-! ## Stage 1: coverage (R146) -/

theorem coverage_le (c : SizeClass) (sum : Nat) : coverage c sum ≤ 1024 := Nat.min_le_right ..

/-- Rounding half up, stated with both sides doubled so that the half is a whole number. -/
theorem roundHalfUp_eq_iff {half whole : Nat} (pos : 0 < whole) (twice : 2 * half = whole) (n k : Nat) :
    (n + half) / whole = k ↔ 2 * k * whole ≤ 2 * n + whole ∧ 2 * n + whole < 2 * (k + 1) * whole := by
  have lower : 2 * k * whole = 2 * (k * whole) := Nat.mul_assoc ..
  have upper : 2 * (k + 1) * whole = 2 * (k * whole) + 2 * whole := by ring
  rw [Nat.div_eq_iff pos, lower, upper]
  omega

/-- R146: below the clamp the coverage is the value rounded half up. -/
theorem coverage_eq_iff (sound : c.Sound) {sum k : Nat} (below : k < 1024) :
    coverage c sum = k ↔ 2 * k * 2 ^ c.shift ≤ 2 * sum * c.factor + 2 ^ c.shift
      ∧ 2 * sum * c.factor + 2 ^ c.shift < 2 * (k + 1) * 2 ^ c.shift := by
  have twice : 2 * 2 ^ (c.shift - 1) = 2 ^ c.shift := mul_pow_sub_one (by have := sound.shift; omega) 2
  have unclamped : coverage c sum = k ↔ (sum * c.factor + 2 ^ (c.shift - 1)) / 2 ^ c.shift = k := by
    unfold coverage
    omega
  rw [unclamped, roundHalfUp_eq_iff (Nat.two_pow_pos _) twice, Nat.mul_assoc 2 sum]

theorem coverage_zero (sound : c.Sound) : coverage c 0 = 0 :=
  (coverage_eq_iff sound (by decide)).mpr (by have := Nat.two_pow_pos c.shift; omega)

/-! ## Stage 2: billable coverage (R147) -/

theorem billable_eq (t : Tier) (cov : Nat) : billable t cov = if cov < t.allowance then 0 else cov - t.allowance := by
  unfold billable
  split
  case isTrue below => exact Nat.sub_eq_zero_of_le below.le
  case isFalse => rfl

theorem billable_le (t : Tier) (cov : Nat) : billable t cov ≤ cov := Nat.sub_le ..

theorem billable_of_le {cov : Nat} (allowed : cov ≤ t.allowance) : billable t cov = 0 := Nat.sub_eq_zero_of_le allowed

theorem billable_of_no_allowance (free : t.allowance = 0) (cov : Nat) : billable t cov = cov := by
  rw [billable, free, Nat.sub_zero]

/-! ## Stage 3: the plane charge (R148) -/

/-- R148: a fully billable plane is charged exactly its rate. -/
theorem planeCharge_full (rate : Nat) : planeCharge 1024 rate = rate := by unfold planeCharge; omega

theorem planeCharge_mono {bill bill' : Nat} (h : bill ≤ bill') (rate : Nat) : planeCharge bill rate ≤ planeCharge bill' rate :=
  Nat.div_le_div_right (Nat.add_le_add_right (Nat.mul_le_mul_right rate h) 512)

theorem planeCharge_le_rate {bill : Nat} (h : bill ≤ 1024) (rate : Nat) : planeCharge bill rate ≤ rate :=
  (planeCharge_mono h rate).trans_eq (planeCharge_full rate)

theorem planeCharge_unbilled (rate : Nat) : planeCharge 0 rate = 0 := by simp [planeCharge]

theorem planeCharge_unpriced (bill : Nat) : planeCharge bill 0 = 0 := by simp [planeCharge]

/-! ## Stage 5: the area weight (R150) -/

theorem scaleCharge_unit (unit : c.weight = 16) (raw : Nat) : scaleCharge c raw = raw := by
  unfold scaleCharge
  rw [unit]
  omega

theorem scaleCharge_le (sound : c.Sound) {raw : Nat} (h : raw ≤ 327675) : scaleCharge c raw ≤ 5222320 := by
  have weighed : raw * c.weight ≤ 327675 * 255 := Nat.mul_le_mul h sound.weight.2
  unfold scaleCharge
  omega

/-! ## Stages 1 to 3 of one plane, and stage 4: the raw side charge (R149) -/

/-- What a plane of plane sum `n` costs at a rate: stages 1 to 3. -/
def planePrice (c : SizeClass) (t : Tier) (n rate : Nat) : Nat := planeCharge (billable t (coverage c n)) rate

theorem planePrice_le_rate (c : SizeClass) (t : Tier) (n rate : Nat) : planePrice c t n rate ≤ rate :=
  planeCharge_le_rate ((billable_le t _).trans (coverage_le c n)) rate

theorem planePrice_of_allowed {n : Nat} (allowed : coverage c n ≤ t.allowance) (rate : Nat) : planePrice c t n rate = 0 := by
  rw [planePrice, billable_of_le allowed, planeCharge_unbilled]

/-- What stage 4 comes to for the plane sums of a side. -/
def rawSide (c : SizeClass) (t : Tier) (sums : Planes) : Nat :=
  t.base + planePrice c t sums.p0 t.rates.p0 + planePrice c t sums.p1 t.rates.p1 + planePrice c t sums.p2 t.rates.p2
    + planePrice c t sums.p3 t.rates.p3

theorem sideCharge_eq (c : SizeClass) (t : Tier) (sums : Planes) : sideCharge c t sums = scaleCharge c (rawSide c t sums) := by
  have stage4 : rawCharge t (((sideCoverage c sums).map (billable t)).zipWith planeCharge t.rates) = rawSide c t sums := by
    simp only [rawCharge, Planes.total, Planes.zipWith, Planes.map, sideCoverage, rawSide, planePrice, Nat.add_assoc]
  rw [sideCharge, stage4]

/-- R149: five parts of at most 65,535 each. -/
theorem rawSide_le (sound : t.Sound) (sums : Planes) : rawSide c t sums ≤ 327675 := by
  obtain ⟨r0, r1, r2, r3⟩ := sound.rates
  have base := sound.base
  have p0 := (planePrice_le_rate c t sums.p0 _).trans r0
  have p1 := (planePrice_le_rate c t sums.p1 _).trans r1
  have p2 := (planePrice_le_rate c t sums.p2 _).trans r2
  have p3 := (planePrice_le_rate c t sums.p3 _).trans r3
  unfold rawSide
  omega

/-- A side whose planes all lie within the allowance costs the side base alone. -/
theorem rawSide_of_allowed {sums : Planes} (p0 : coverage c sums.p0 ≤ t.allowance) (p1 : coverage c sums.p1 ≤ t.allowance)
    (p2 : coverage c sums.p2 ≤ t.allowance) (p3 : coverage c sums.p3 ≤ t.allowance) : rawSide c t sums = t.base := by
  simp only [rawSide, planePrice_of_allowed p0, planePrice_of_allowed p1, planePrice_of_allowed p2, planePrice_of_allowed p3,
    Nat.add_zero]

theorem rawSide_of_full_allowance (full : t.allowance = 1024) (sums : Planes) : rawSide c t sums = t.base := by
  have allowed (n : Nat) : coverage c n ≤ t.allowance := full ▸ coverage_le c n
  exact rawSide_of_allowed (allowed _) (allowed _) (allowed _) (allowed _)

theorem rawSide_zero (sound : c.Sound) : rawSide c t Planes.zero = t.base := by
  have allowed : coverage c 0 ≤ t.allowance := (coverage_zero sound).trans_le (Nat.zero_le _)
  exact rawSide_of_allowed allowed allowed allowed allowed

theorem sideCharge_le (soundClass : c.Sound) (soundTier : t.Sound) (sums : Planes) : sideCharge c t sums ≤ 5222320 :=
  sideCharge_eq c t sums ▸ scaleCharge_le soundClass (rawSide_le soundTier sums)

/-! ## The sheet (R151) -/

theorem sheetCharge_simplex (c : SizeClass) (t : Tier) (side : Planes) : sheetCharge c t [side] = sideCharge c t side :=
  List.sum_singleton

theorem sheetCharge_duplex (c : SizeClass) (t : Tier) (front back : Planes) :
    sheetCharge c t [front, back] = sideCharge c t front + sideCharge c t back := by
  simp only [sheetCharge, List.map_cons, List.map_nil, List.sum_cons, List.sum_nil, Nat.add_zero]

theorem sheetCoverage_duplex (c : SizeClass) (front back : Planes) :
    sheetCoverage c [front, back] = (sideCoverage c front).add (sideCoverage c back) := by
  simp only [sheetCoverage, List.map_cons, List.map_nil, List.foldl_cons, List.foldl_nil, Planes.add, Planes.zipWith,
    Planes.zero, Nat.zero_add]

/-- Settles O56: stage by stage, each by its equation and its bound. -/
theorem chargeStages : Obligations.ChargeStages := by
  intro c t soundClass soundTier
  refine ⟨fun sum => ⟨rfl, coverage_le c sum, coverage_zero soundClass, fun k below => coverage_eq_iff soundClass below⟩,
    fun cov inside => ⟨billable_eq t cov, (billable_le t cov).trans inside, billable_of_le,
      fun free => billable_of_no_allowance free cov, fun full => billable_of_le (full ▸ inside)⟩,
    fun bill rate => ⟨rfl, planeCharge_full rate, planeCharge_unpriced bill,
      fun hbill hrate => (planeCharge_le_rate hbill rate).trans hrate⟩,
    fun raw => ⟨rfl, fun unit => scaleCharge_unit unit raw, scaleCharge_le soundClass⟩,
    fun sums => ⟨sideCharge_eq c t sums, rawSide_le soundTier sums, sideCharge_le soundClass soundTier sums,
      fun full => rawSide_of_full_allowance full sums, ?_, sheetCharge_simplex c t sums⟩,
    fun front back => ⟨sheetCharge_duplex c t front back, ?_, ?_, ?_, ?_⟩⟩
  · rw [sideCharge_eq, rawSide_zero soundClass]
  · rw [sheetCharge_duplex]
    exact Nat.add_le_add (sideCharge_le soundClass soundTier front) (sideCharge_le soundClass soundTier back)
  · rw [sheetCoverage_duplex]
    rfl
  · rw [sheetCoverage_duplex]
    rfl
  · rw [sheetCoverage_duplex]
    exact Nat.add_le_add (coverage_le c front.p0) (coverage_le c back.p0)

end Sys2Proof.Machine
end

section
/-! Alerts and the panel (chapter 10), first part: the displayed cause, the characters of a panel line, what an ALERT notice
carries, and the judging of a change of the cause set (R171 to R175, R180 to R183, R191). -/

namespace Sys2Proof.Machine

variable {s : State} {p : PortNo} {a : Alert} {c : CauseSet} {b d e : Cause} {n : Nat}

/-! ## The displayed cause (R172) -/

/-- The causes by their severity ranks, most severe first. -/
def severityOrder : List Cause := [.linkLost, .engineFault, .jam, .underrun, .setupTimeout, .trayEmpty]

theorem severityOrder_rising : severityOrder.Pairwise (fun d e => d.rank < e.rank) := by decide

theorem mem_severityOrder (d : Cause) : d ∈ severityOrder := by cases d <;> decide

/-- `CauseSet.has`, as a test. -/
def CauseSet.shows (c : CauseSet) : Cause → Bool
  | .linkLost => c.linkLost
  | .engineFault => c.fault.isSome
  | .jam => c.jam.isSome
  | .underrun => c.underrun
  | .setupTimeout => c.setupTimeout
  | .trayEmpty => c.trayEmpty

theorem shows_iff : c.shows d = true ↔ c.has d := by
  cases d with
  | engineFault | jam => exact Option.isSome_iff_ne_none
  | linkLost | underrun | setupTimeout | trayEmpty => exact Iff.rfl

/-- The displayed cause is the first of the severity order that the set has. -/
theorem displayed_eq_find (c : CauseSet) : c.displayed = severityOrder.find? c.shows := by
  have test (x : Cause) (l : List Cause) : (x :: l).find? c.shows = if c.shows x then some x else l.find? c.shows := by
    rw [List.find?_cons]
    cases c.shows x <;> rfl
  simp only [severityOrder, test, List.find?_nil, CauseSet.shows, CauseSet.displayed]
  rfl

theorem displayed_has (h : c.displayed = some d) : c.has d :=
  shows_iff.mp (List.find?_some (displayed_eq_find c ▸ h))

/-- Whatever else the set has stands behind the displayed cause in the severity order. -/
theorem displayed_first (h : c.displayed = some d) (has : c.has e) : e = d ∨ d.rank < e.rank := by
  rw [displayed_eq_find, List.find?_eq_some_iff_append] at h
  obtain ⟨-, before, after, order, absent⟩ := h
  have place : e ∈ before ++ d :: after := order ▸ mem_severityOrder e
  have rising := severityOrder_rising
  rw [order, List.pairwise_append, List.pairwise_cons] at rising
  obtain ⟨-, ⟨behind, -⟩, -⟩ := rising
  rw [List.mem_append, List.mem_cons] at place
  rcases place with earlier | same | later
  · exact absurd (shows_iff.mpr has) (by simpa using absent e earlier)
  · exact .inl same
  · exact .inr (behind e later)

theorem displayed_eq_none_iff : c.displayed = none ↔ ∀ e, ¬ c.has e := by
  rw [displayed_eq_find, List.find?_eq_none]
  exact ⟨fun h e has => h e (mem_severityOrder e) (shows_iff.mpr has), fun h e _ shown => h e (shows_iff.mp shown)⟩

theorem displayed_eq_some_iff : c.displayed = some d ↔ c.has d ∧ ∀ e, c.has e → d.rank ≤ e.rank := by
  constructor
  · refine fun h => ⟨displayed_has h, fun e has => ?_⟩
    rcases displayed_first h has with same | later
    · rw [same]
    · exact later.le
  · rintro ⟨has, least⟩
    cases shown : c.displayed with
    | none => exact absurd has (displayed_eq_none_iff.mp shown d)
    | some x =>
      rcases displayed_first shown has with same | later
      · rw [same]
      · exact absurd (least x (displayed_has shown)) (by omega)

/-! ## The characters of a panel line (R181) -/

theorem digitChar_mod (n : Nat) : Nat.digitChar (n % 10) = digit n := by
  have below : ∀ k < 10, Nat.digitChar k = Char.ofNat (48 + k) := by decide
  exact below _ (Nat.mod_lt n (by decide))

theorem toDigits_one (h : n < 10) : Nat.toDigits 10 n = [digit n] := by
  rw [Nat.toDigits_of_lt_base h, ← digitChar_mod, Nat.mod_eq_of_lt h]

theorem toDigits_more (h : 10 ≤ n) : Nat.toDigits 10 n = Nat.toDigits 10 (n / 10) ++ [digit n] := by
  rw [Nat.toDigits_of_base_le (by decide) h, digitChar_mod]

theorem toString_decimal (h : n < 1000) : (toString n).toList = decimal n := by
  rw [Nat.toString_eq_repr, Nat.toList_repr]
  unfold decimal
  split_ifs with one two
  · exact toDigits_one one
  · rw [toDigits_more (by omega), toDigits_one (by omega)]
    rfl
  · rw [toDigits_more (by omega), toDigits_more (by omega), toDigits_one (by omega), Nat.div_div_eq_div_mul]
    rfl

/-- A port number stands in two digits. -/
theorem portName_toList (p : PortNo) :
    ((if p.val < 10 then "P0" else "P") ++ toString p.val).toList = ['P', digit (p.val / 10), digit p.val] := by
  rw [String.toList_append, toString_decimal (by omega)]
  unfold decimal
  split_ifs with one two
  · rw [Nat.div_eq_of_lt one]
    rfl
  · rfl
  · exact absurd p.isLt (by omega)

theorem panelWord_toList (d : Cause) : (panelWord d).toList = d.word := by cases d <;> rfl

/-- The panel line of a record, character by character, where its level is one that R171 gives. -/
theorem panelLine_toList (p : PortNo) (level : ∀ n, a.level = some n → n ≤ 3) : (panelLine p a).toList = panelText p a := by
  have name := portName_toList p
  have inside (x : Option Byte) : (toString (x.getD 0).toNat).toList = decimal (x.getD 0).toNat :=
    toString_decimal (by omega)
  have mark : (if a.acknowledged then " ACK" else "").toList = if a.acknowledged then [' ', 'A', 'C', 'K'] else [] :=
    apply_ite String.toList ..
  unfold panelLine panelText
  dsimp only
  generalize (if p.val < 10 then "P0" else "P") ++ toString p.val = port at name ⊢
  cases a.causes.displayed with
  | none => rw [String.toList_append, name]; rfl
  | some d =>
    cases shown : a.level with
    | none => rw [String.toList_append, name]; rfl
    | some n =>
      have told : (toString n).toList = decimal n := toString_decimal (by have := level n shown; omega)
      simp only [String.toList_append, name, panelWord_toList, told, mark]
      cases d with
      | jam => rw [if_pos rfl, String.toList_append, inside]; rfl
      | engineFault => rw [if_neg (by decide), if_pos rfl, String.toList_append, inside]; rfl
      | linkLost | underrun | setupTimeout | trayEmpty => rfl

/-! ## An alert told: its notice and its panel line (R180, R182, R183, R191) -/

theorem alertNoticeBody_spelled (p : PortNo) (reason : AlertReason) (before : Option Cause) (a : Alert) :
    alertNoticeBody p reason before a = spelled (alertNoticeNumbers p reason before a) := by
  have carried (x : Option Byte) : byte ((x.map BitVec.toNat).getD 0) = x.getD 0 := by
    cases x with
    | none => rfl
    | some v => exact byte_toNat v
  have raised : word32 (a.raised.getD 0) = num 4 ((a.raised.map BitVec.toNat).getD 0) := by cases a.raised <;> rfl
  simp only [alertNoticeBody, alertNoticeNumbers, spelled_cons, spelled_nil, num_one, byte_toNat, byte_bits, byte_one, carried,
    shownRank_eq, raised, CauseSet.flags, List.cons_append, List.nil_append, List.append_nil]

theorem putLine_eq (queue : List (PortNo × List Char)) (text : List Char) : putLine queue p text =
    if (∃ e ∈ queue, e.1 = p) then queue.map (fun e => if e.1 = p then (p, text) else e) else queue ++ [(p, text)] := by
  simp only [putLine, List.any_eq_true, decide_eq_true_eq]

theorem queueLine_withLine (s : State) (p : PortNo) :
    s.queueLine p = { s with panel := s.panel.withLine p (panelText p (s.alert p)) } := by
  unfold State.queueLine State.pumpPanel Panel.withLine
  rw [putLine_eq]
  dsimp only
  generalize (if ∃ e ∈ s.panel.queue, e.1 = p then _ else _) = queue
  cases s.panel.sending with
  | some line => rfl
  | none => cases queue <;> rfl

theorem notifyAlert_setAlert (s : State) (p : PortNo) (a : Alert) (reason : AlertReason) (before : Option Cause) :
    (s.setAlert p a).notifyAlert p reason before =
      (s.setAlert p a).notify .alert (spelled (alertNoticeNumbers p reason before a)) := by
  rw [State.notifyAlert, setAlert_same, alertNoticeBody_spelled]

/-- A record told is the record written, its notice raised and its line queued, where its level is one that R171 gives. -/
theorem told_alertTold (reason : AlertReason) (level : ∀ n, a.level = some n → n ≤ 3) :
    ((s.setAlert p a).notifyAlert p reason (s.alert p).causes.displayed).queueLine p = s.alertTold p a reason := by
  rw [queueLine_withLine, notifyAlert_alert, setAlert_same, notifyAlert_setAlert, notify_panel, ← panelLine_toList p level]
  rfl

/-! ## A change of the cause set judged (R173 to R175) -/

section
variable {change : CauseSet → CauseSet}

theorem openAlert_alertTold (reason : AlertReason) : s.openAlert p c reason = s.alertTold p (s.alarm p c) reason :=
  told_alertTold (a := s.alarm p c) reason (by rintro n ⟨⟩; decide)

theorem changeCauses_same (same : change (s.alert p).causes = (s.alert p).causes) : s.changeCauses p change = s := if_pos same

theorem changeCauses_opened (after : (change (s.alert p).causes).displayed = some d)
    (before : (s.alert p).causes.displayed = none) :
    s.changeCauses p change = s.alertTold p (s.alarm p (change (s.alert p).causes)) .opened := by
  have differ : change (s.alert p).causes ≠ (s.alert p).causes := fun same => by simp [same, before] at after
  rw [← openAlert_alertTold]
  unfold State.changeCauses
  simp only [if_neg differ, before, after]

theorem changeCauses_closed (after : (change (s.alert p).causes).displayed = none)
    (before : (s.alert p).causes.displayed ≠ none) : s.changeCauses p change = s.alertTold p .closed .closed := by
  have differ : change (s.alert p).causes ≠ (s.alert p).causes := fun same => before (same ▸ after)
  rw [← told_alertTold .closed (by rintro n ⟨⟩)]
  unfold State.changeCauses
  simp only [if_neg differ, after]

section
variable (differ : change (s.alert p).causes ≠ (s.alert p).causes)
  (after : (change (s.alert p).causes).displayed = some d) (before : (s.alert p).causes.displayed = some b)
include differ after before

/-- A change between two displayed causes goes by their ranks. -/
theorem changeCauses_ranked : s.changeCauses p change =
    if d.rank < b.rank then s.openAlert p (change (s.alert p).causes) .raised
    else
      let told := (s.setAlert p { s.alert p with causes := change (s.alert p).causes }).notifyAlert p
      if b.rank < d.rank then (told .lowered (s.alert p).causes.displayed).queueLine p else told .cause (some b) := by
  unfold State.changeCauses
  simp only [if_neg differ, before, after]

theorem changeCauses_raised (severer : d.rank < b.rank) :
    s.changeCauses p change = s.alertTold p (s.alarm p (change (s.alert p).causes)) .raised := by
  rw [changeCauses_ranked differ after before, if_pos severer, openAlert_alertTold]

theorem changeCauses_lowered (milder : b.rank < d.rank) (level : ∀ n, (s.alert p).level = some n → n ≤ 3) :
    s.changeCauses p change =
      s.alertTold p { s.alert p with causes := change (s.alert p).causes } .lowered := by
  rw [changeCauses_ranked differ after before, if_neg (by omega)]
  exact (if_pos milder).trans (told_alertTold .lowered level)

theorem changeCauses_beneath (same : b = d) :
    s.changeCauses p change =
      (s.setAlert p { s.alert p with causes := change (s.alert p).causes }).notify .alert
        (spelled (alertNoticeNumbers p .cause (some b) { s.alert p with causes := change (s.alert p).causes })) := by
  have level : ¬ b.rank < d.rank := same ▸ lt_irrefl _
  rw [changeCauses_ranked differ after before, if_neg (same ▸ lt_irrefl _), ← notifyAlert_setAlert]
  exact if_neg level

end

end

/-- Settles O59: the displayed cause is the first of the severity order, and a change is judged case by case. -/
theorem causeChangesJudged : Obligations.CauseChangesJudged := by
  refine ⟨fun c => ⟨fun d => displayed_eq_some_iff, displayed_eq_none_iff⟩, fun s p change => ?_⟩
  refine ⟨changeCauses_same, fun d => changeCauses_opened, fun d b differ after before =>
    ⟨changeCauses_raised differ after before, changeCauses_lowered differ after before,
      changeCauses_beneath differ after before⟩, fun after before => ?_⟩
  rw [changeCauses_closed after before, displayed_none _ after]
  rfl

end Sys2Proof.Machine
end

section
/-! Alerts and the panel (chapter 10), second part: escalation, ALERT_ACK with its reply, and the panel driver (R171, R176, R178,
R183, R186). -/

namespace Sys2Proof.Machine

variable {s : State} {r : Request} {rest : List Request} {p : PortNo} {a : Alert} {n : Nat} {k : Timer}

/-! ## What an alert told leaves (R174 to R182) -/

@[simp] theorem alertTold_agenda (reason : AlertReason) : (s.alertTold p a reason).agenda = s.agenda := by
  simp [State.alertTold]

@[simp] theorem alertTold_reset (reason : AlertReason) : (s.alertTold p a reason).link.reset = s.link.reset := by
  simp [State.alertTold]

@[simp] theorem alertTold_alert (reason : AlertReason) : (s.alertTold p a reason).alert p = a :=
  (notify_alert ..).trans (setAlert_same ..)

/-! ## Escalation (R176) -/

/-- An unacknowledged alert below level 3 escalates once its timer has expired; a closed one has no level. -/
def Alert.escalates (a : Alert) (now : Word32) : Prop :=
  a.acknowledged = false ∧ timerDue a.timer now = true ∧ ∃ n, a.level = some n ∧ n < 3

theorem escalate_stays (rests : ¬ (s.alert p).escalates s.partTime) : s.escalate p = s := by
  unfold State.escalate
  dsimp only
  split
  · rename_i n level
    refine if_neg fun test => rests ?_
    simp only [Bool.and_eq_true, Bool.not_eq_true', decide_eq_true_eq] at test
    obtain ⟨⟨unacked, below⟩, due⟩ := test
    exact ⟨unacked, due, n, level, below⟩
  · rfl

theorem escalate_rises (level : (s.alert p).level = some n) (below : n = 1 ∨ n = 2)
    (unacked : (s.alert p).acknowledged = false) (due : timerDue (s.alert p).timer s.partTime = true) :
    s.escalate p = s.alertTold p { s.alert p with
      level := some (n + 1)
      timer := if n = 1 then some { start := s.partTime, length := 1000 * (s.port p).interval } else none } .escalated := by
  rw [← told_alertTold .escalated (by rintro m ⟨⟩; omega)]
  have again : n + 1 < 3 ↔ n = 1 := by omega
  have low : n < 3 := by omega
  unfold State.escalate
  simp only [level, unacked, due, low, again, Bool.not_false, decide_true, Bool.and_self, if_true]
  rfl

theorem exec_escalationExpiry (p : PortNo) (idle : (s.escalate p).agenda = []) :
    exec (.escalationExpiry p) s = .next (s.escalate p).pump :=
  congrArg Host.Outcome.next (finish_of_idle idle)

theorem exec_escalationExpiry_stays (idle : s.agenda = []) (rests : ¬ (s.alert p).escalates s.partTime) :
    exec (.escalationExpiry p) s = .next s.pump := by
  rw [exec_escalationExpiry p (by rwa [escalate_stays rests]), escalate_stays rests]

theorem timerDue_some (k : Timer) (now : Word32) : timerDue (some k) now = true ↔ k.length ≤ elapsed now k.start :=
  decide_eq_true_iff

/-! ## ALERT_ACK (R178) -/

theorem expiry_word32 (k : Timer) : word32 k.expiry = num 4 ((k.start.toNat + k.length) % 4294967296) := by
  rw [word32, Timer.expiry, BitVec.toNat_add, BitVec.toNat_ofNat, Nat.add_mod_mod]

/-- ALERT_ACK's reply (R171, R178, R186). -/
theorem alertAckBody_spelled (a : Alert) : alertAckBody a = spelled a.numbers := by
  simp only [alertAckBody, Alert.numbers, spelled_append, spelled_cons, spelled_nil, causeSetWire_spelled, num_one, byte_one,
    spelled_maybe, shownRank_eq, List.append_nil]
  cases a.timer with
  | none => rfl
  | some k => dsimp only; rw [expiry_word32]; rfl

theorem acknowledge_told (unacked : (s.alert p).acknowledged = false) (level : ∀ n, (s.alert p).level = some n → n ≤ 3) :
    s.acknowledge p = s.alertTold p { s.alert p with acknowledged := true, timer := none } .ack :=
  (if_neg (by simp [unacked])).trans (told_alertTold .ack level)

theorem answerAlertAck_badField {b : Byte} (outside : 12 ≤ b.toNat) : answerAlertAck s [b] = .refuse .badField := by
  have nobody : port? (byteAt [b] 0) = none := dif_neg (Nat.not_lt.mpr outside)
  unfold answerAlertAck withPort
  rw [nobody]

theorem answerAlertAck_port (p : PortNo) : answerAlertAck s [byte p.val] =
    if (s.alert p).level.isNone then .refuse .badState
    else .done (s.acknowledge p) (fun t => spelled (t.alert p).numbers) := by
  unfold answerAlertAck withPort
  rw [show byteAt [byte p.val] 0 = byte p.val from rfl, port_byte]
  simp only [alertAckBody_spelled]

section
variable (h : s.Takes 0x60 r rest)
include h

theorem exec_alertAck_badField {b : Byte} (hb : r.body = [b]) (outside : 12 ≤ b.toNat) :
    exec .alertAck s = .next (s.answered r .badField []) :=
  congrArg Host.Outcome.next (h.refused answerAlertAck .badField (hb ▸ answerAlertAck_badField outside))

variable (hb : r.body = [byte p.val])
include hb

theorem exec_alertAck_badState (closed : (s.alert p).level = none) :
    exec .alertAck s = .next (s.answered r .badState []) := by
  refine congrArg Host.Outcome.next (h.refused answerAlertAck .badState ?_)
  rw [hb, answerAlertAck_port, closed]
  rfl

/-- The reply carries the record as it stands after the request. -/
theorem exec_alertAck_open {t : State} (opened : (s.alert p).level ≠ none) (acked : s.acknowledge p = t) (idle : t.agenda = [])
    (reset : t.link.reset = .none) :
    exec .alertAck s = .next (t.answered r .ok (spelled (t.alert p).numbers)) := by
  refine congrArg Host.Outcome.next (h.done answerAlertAck t (fun t => spelled (t.alert p).numbers) ?_ idle reset)
  rw [hb, answerAlertAck_port, if_neg (by simpa using opened), acked]

theorem exec_alertAck_again (opened : (s.alert p).level ≠ none) (acked : (s.alert p).acknowledged = true) :
    exec .alertAck s = .next (s.answered r .ok (spelled (s.alert p).numbers)) :=
  exec_alertAck_open h hb opened (if_pos acked) h.agenda h.reset

theorem exec_alertAck_first (opened : (s.alert p).level ≠ none) (unacked : (s.alert p).acknowledged = false)
    (level : ∀ n, (s.alert p).level = some n → n ≤ 3) :
    let acked : Alert := { s.alert p with acknowledged := true, timer := none }
    exec .alertAck s = .next (State.answered (s.alertTold p acked .ack) r .ok (spelled acked.numbers)) := by
  intro acked
  rw [exec_alertAck_open h hb opened (acknowledge_told unacked level) ((alertTold_agenda _).trans h.agenda)
    ((alertTold_reset _).trans h.reset), alertTold_alert]

end

/-! ## The panel driver (R183) -/

theorem exec_panelLineSent (idle : s.agenda = []) : exec .panelLineSent s = .next s.lineSent.pump := by
  refine congrArg Host.Outcome.next (finish_of_idle ?_)
  rw [State.lineSent, pumpPanel_eq]
  exact idle

theorem lineSent_idle (empty : s.panel.queue = []) :
    s.lineSent = { s with panel := { queue := [], sending := none } } := by
  unfold State.lineSent State.pumpPanel
  simp only [empty]

theorem lineSent_next {line : PortNo × List Char} {more : List (PortNo × List Char)} (waits : s.panel.queue = line :: more) :
    s.lineSent = { s with panel := { queue := more, sending := some line } } := by
  unfold State.lineSent State.pumpPanel
  simp only [waits]

/-- Settles O60: an expiry by whether the alert escalates, an ALERT_ACK by the alert it names, and the driver by its queue. -/
theorem escalationAckAndPanel : Obligations.EscalationAckAndPanel := by
  refine fun s => ⟨fun p idle => ?_, fun r rest b h hb => ⟨exec_alertAck_badField h hb, ?_⟩, fun idle => ?_⟩
  · refine ⟨fun none => exec_escalationExpiry_stays idle ?_, fun k counts early => exec_escalationExpiry_stays idle ?_,
      fun n level top => exec_escalationExpiry_stays idle ?_, fun n k level below unacked counts late => ?_⟩
    · rintro ⟨unacked, due, n, level, -⟩
      rcases none with closed | acked | stopped
      · simp [closed] at level
      · simp [acked] at unacked
      · simp [stopped, timerDue] at due
    · rintro ⟨-, due, -⟩
      rw [counts, timerDue_some] at due
      omega
    · rintro ⟨-, -, m, same, below⟩
      cases level.symm.trans same
      omega
    · have rises := escalate_rises level below unacked (counts ▸ (timerDue_some k _).mpr late)
      rw [exec_escalationExpiry p (by rw [rises, alertTold_agenda, idle]), rises]
  · rintro p rfl
    exact ⟨exec_alertAck_badState h hb, exec_alertAck_again h hb, exec_alertAck_first h hb⟩
  · rw [exec_panelLineSent idle]
    exact ⟨fun empty => by rw [lineSent_idle empty], fun line more waits => by rw [lineSent_next waits]⟩

end Sys2Proof.Machine
end

section
/-! The machine as a whole: which command a step runs, and that every command answers a next state. What a command does leaves
the queue of waiting commands alone, and the end of its step (`State.finish`) leaves nothing to bring about; so it is enough to
say of each command, before that end, what becomes of the queue. -/

namespace Sys2Proof.Machine

variable {s t : State}

/-! ## The end of a step -/

/-- The choice of the next outbound frame touches the link interface alone (R7). -/
theorem pump_eq (s : State) : s.pump = { s with link := s.pump.link } := by
  unfold State.pump
  split
  · rfl
  · rfl
  · split
    · rfl
    · split <;> rfl

theorem pump_agenda (s : State) : s.pump.agenda = s.agenda := by rw [pump_eq]

theorem pump_pending (s : State) : s.pump.pending = s.pending := by rw [pump_eq]

theorem finish_agenda (s : State) : s.finish.agenda = [] := (pump_agenda s.settle).trans (settle_agenda s)

theorem finish_pending (s : State) : s.finish.pending = s.pending := (pump_pending s.settle).trans (settle_kept s).pending

/-- An outcome is a next state with nothing left to bring about and with the waiting commands of `s`. -/
def AnswersNext (s : State) (o : Host.Outcome State Fault Refusal) : Prop :=
  ∃ t : State, o = .next t ∧ t.agenda = [] ∧ t.pending = s.pending

/-- The end of a step brings about what is left, whatever it is (log entry 4). -/
theorem finish_answersNext (h : t.pending = s.pending) : AnswersNext s (.next t.finish) :=
  ⟨t.finish, rfl, finish_agenda t, (finish_pending t).trans h⟩

theorem Kept.answersNext (h : Kept s t) : AnswersNext s (.next t.finish) := finish_answersNext h.pending

/-! ## The service of a request (R4) -/

/-- An owner's answer leaves the waiting commands alone. -/
def Answer.KeepsPending (s : State) : Answer → Prop
  | .refuse _ => True
  | .done t _ => t.pending = s.pending
  | .serving t => t.pending = s.pending

theorem conclude_pending {a : Answer} (h : a.KeepsPending s) (tag : Word16) : (s.conclude tag a).pending = s.pending := by
  cases a with
  | refuse st => rfl
  | done t body => exact (settle_kept t).pending.trans h
  | serving t => exact h

theorem serve_pending (kind : Byte) {owner : State → List Byte → Answer} (h : ∀ body, (owner s body).KeepsPending s) :
    (s.serve kind owner).pending = s.pending := by
  unfold State.serve
  split
  · split
    · unfold State.judgeRequest
      split
      · rfl
      · split
        · rfl
        · exact conclude_pending (h _) _
    · rfl
  · rfl

theorem serve_answersNext (kind : Byte) {owner : State → List Byte → Answer} (h : ∀ body, (owner s body).KeepsPending s) :
    AnswersNext s (.next (s.serve kind owner).finish) := finish_answersNext (serve_pending kind h)

theorem withPort_pending (body : List Byte) {f : PortNo → Answer} (h : ∀ p, (f p).KeepsPending s) :
    (withPort body f).KeepsPending s := by
  unfold withPort
  split
  · exact h _
  · trivial

theorem withAccount_pending (body : List Byte) {f : AccountNo → Answer} (h : ∀ a, (f a).KeepsPending s) :
    (withAccount body f).KeepsPending s := by
  unfold withAccount
  split
  · exact h _
  · trivial

theorem withJob_pending (body : List Byte) {f : Slot → Job → Answer} (h : ∀ j x, (f j x).KeepsPending s) :
    (withJob s body f).KeepsPending s := by
  unfold withJob
  split
  · trivial
  · split
    · exact h _ _
    · trivial

/-! ## Part-wide requests -/

theorem answerReset_pending (body : List Byte) : (answerReset s body).KeepsPending s := by
  unfold answerReset
  split
  · trivial
  · split
    · trivial
    · exact rfl

theorem answerLevelSet_pending (body : List Byte) : (answerLevelSet s body).KeepsPending s := by
  unfold answerLevelSet
  split
  · trivial
  · exact rfl

/-! ## Job requests -/

theorem place_pending (s : State) (j : Slot) (atHead : Bool) : (s.place j atHead).pending = s.pending :=
  (place_near s j atHead).pending

/-- The flags of a running job change, and its port is told (R24). -/
theorem flagged_pending (s : State) (j : Slot) (x : Option Job) : ((s.setJob j x).tellPort j).pending = s.pending :=
  (tellPort_kept (s.setJob j x) j).pending

theorem openJob_pending (s : State) (j : Slot) (x : Job) : (s.openJob j x).pending = s.pending := by
  unfold State.openJob
  dsimp only
  split
  · rfl
  · split
    · exact place_pending _ _ _
    · exact place_pending _ _ _

theorem answerJobOpen_pending (body : List Byte) : (answerJobOpen s body).KeepsPending s := by
  unfold answerJobOpen
  split
  · trivial
  · exact openJob_pending _ _ _

theorem answerJobCancel_pending (body : List Byte) : (answerJobCancel s body).KeepsPending s := by
  refine withJob_pending body fun j x => ?_
  have ends : ((s.unlist j).endJob j .cancelled).pending = s.pending := (endJob_near (s.unlist j) j .cancelled).pending
  split
  case h_5 =>
    split
    · exact rfl
    · exact flagged_pending _ _ _
  case h_6 | h_7 | h_8 => trivial
  all_goals exact ends

theorem answerJobSuspend_pending (body : List Byte) : (answerJobSuspend s body).KeepsPending s := by
  refine withJob_pending body fun j x => ?_
  have aside : ((s.unlist j).jobTo j .paused).pending = s.pending := jobTo_pending (s.unlist j) j .paused
  split
  case h_5 =>
    split
    · exact rfl
    · exact flagged_pending _ _ _
  case h_6 | h_7 | h_8 => trivial
  all_goals exact aside

theorem answerJobResume_pending (body : List Byte) : (answerJobResume s body).KeepsPending s := by
  refine withJob_pending body fun j x => ?_
  split
  · split
    · exact jobTo_pending _ _ _
    · exact place_pending _ _ _
  · split
    · exact flagged_pending _ _ _
    · trivial
  all_goals trivial

theorem relevel_pending (s : State) (j : Slot) (x : Job) (l : Level) : (s.relevel j x l).pending = s.pending := by
  unfold State.relevel
  dsimp only
  split
  · exact place_pending _ _ _
  · rfl
  · rfl

theorem answerJobLevel_pending (body : List Byte) : (answerJobLevel s body).KeepsPending s := by
  refine withJob_pending body fun j x => ?_
  split
  · trivial
  · split
    · trivial
    · exact relevel_pending _ _ _ _

theorem answerJobForget_pending (body : List Byte) : (answerJobForget s body).KeepsPending s := by
  refine withJob_pending body fun j x => ?_
  split
  · exact rfl
  · trivial

/-! ## Bands -/

theorem answerBandPut_pending (body : List Byte) : (answerBandPut s body).KeepsPending s := by
  unfold answerBandPut
  split
  · trivial
  · exact rfl

theorem answerBandSum_pending (body : List Byte) : (answerBandSum s body).KeepsPending s := by
  unfold answerBandSum
  split
  · trivial
  · exact rfl

theorem storeBand_pending (s : State) (w : BandWrite) : (s.storeBand w).pending = s.pending := by
  unfold State.storeBand
  split <;> rfl

theorem finishPut_pending (w : BandWrite) : (finishPut s w).KeepsPending s := by
  unfold finishPut
  split
  · trivial
  · split
    · trivial
    · exact (storeAndTell_kept s w).pending.trans (storeBand_pending s w)

theorem writeEnds_pending (s : State) (w : BandWrite) : (s.writeEnds w).pending = s.pending :=
  conclude_pending (finishPut_pending (s := s.writeBlock w.block w.payload) w) _

theorem concludeSum_pending (s : State) (r : SumRead) (parityError : Bool) :
    (s.concludeSum r parityError).pending = s.pending := by
  have k : Kept s (s.endRead r.slot r.image r.band r.block parityError none).1 := endRead_kept _ _ _ _ _ _ _
  unfold State.concludeSum
  generalize s.endRead r.slot r.image r.band r.block parityError none = e at k ⊢
  obtain ⟨u, result⟩ := e
  cases result with
  | payload bytes => exact (settle_kept u).pending.trans k.pending
  | lost => exact k.pending

/-! ## Port requests -/

theorem answerPortHold_pending (body : List Byte) : (answerPortHold s body).KeepsPending s := by
  refine withPort_pending body fun p => ?_
  split
  · exact rfl
  · exact (setHeld_kept s p true).pending

theorem answerPortRelease_pending (body : List Byte) : (answerPortRelease s body).KeepsPending s := by
  refine withPort_pending body fun p => ?_
  split
  · exact (setHeld_kept s p false).pending
  · exact rfl

theorem answerPortLooptest_pending (body : List Byte) : (answerPortLooptest s body).KeepsPending s := by
  refine withPort_pending body fun p => ?_
  dsimp only
  split
  · trivial
  · split
    · trivial
    · exact rfl

/-! ## The meter unit -/

theorem answerSizeSet_pending (body : List Byte) : (answerSizeSet s body).KeepsPending s := by
  unfold answerSizeSet
  split
  · trivial
  · split
    · trivial
    · split
      · trivial
      · exact rfl

theorem answerTierSet_pending (body : List Byte) : (answerTierSet s body).KeepsPending s := by
  unfold answerTierSet
  split
  · trivial
  · split
    · trivial
    · exact rfl

theorem accountTo_pending (s : State) (a : AccountNo) (x : Account) (c : AccountCause) :
    (s.accountTo a x c).pending = s.pending :=
  ((noticeAccount_kept (s.setAccount a x) _ _ _ _).trans (moveAccountJobs_kept _ _ _ _)).pending

theorem answerAccountSet_pending (body : List Byte) : (answerAccountSet s body).KeepsPending s := by
  refine withAccount_pending body fun a => ?_
  split
  · trivial
  · split
    · trivial
    · split
      · exact accountTo_pending _ _ _ _
      · exact accountTo_pending _ _ _ _
      · trivial

theorem answerAccountLimits_pending (body : List Byte) : (answerAccountLimits s body).KeepsPending s := by
  refine withAccount_pending body fun a => ?_
  split
  · trivial
  · split
    · trivial
    · split
      · trivial
      · exact accountTo_pending _ _ _ _

theorem answerAccountCredit_pending (body : List Byte) : (answerAccountCredit s body).KeepsPending s := by
  refine withAccount_pending body fun a => ?_
  split
  · trivial
  · exact accountTo_pending _ _ _ _

theorem answerAccountClose_pending (body : List Byte) : (answerAccountClose s body).KeepsPending s := by
  refine withAccount_pending body fun a => ?_
  split
  · trivial
  · exact rfl
  · exact accountTo_pending _ _ _ _

theorem answerMeterPolicy_pending (body : List Byte) : (answerMeterPolicy s body).KeepsPending s := by
  unfold answerMeterPolicy
  split
  · trivial
  · dsimp only
    split
    · exact rfl
    · split
      · exact rfl
      · split
        · split
          · exact rfl
          · trivial
        · exact rfl

theorem readLog_pending (s : State) (n : Nat) : (s.readLog n).pending = s.pending := by
  unfold State.readLog
  dsimp only
  split <;> rfl

theorem answerMeterRead_pending (body : List Byte) : (answerMeterRead s body).KeepsPending s := by
  unfold answerMeterRead
  dsimp only
  split
  · trivial
  · exact readLog_pending _ _

/-! ## Alerts -/

theorem answerAlertAck_pending (body : List Byte) : (answerAlertAck s body).KeepsPending s := by
  refine withPort_pending body fun p => ?_
  split
  · trivial
  · exact (acknowledge_kept s p).pending

/-! ## The link's events -/

theorem placeError_pending (s : State) (tag : Word16) (st : Status) : (s.placeError tag st).pending = s.pending := by
  unfold State.placeError
  split <;> rfl

theorem takeFrame_pending (s : State) (r : Request) : (s.takeFrame r).pending = s.pending := by
  unfold State.takeFrame
  split
  · rfl
  · exact placeError_pending _ _ _

theorem controlGap_pending (s : State) : s.controlGap.pending = s.pending := by
  unfold State.controlGap
  split
  · exact placeError_pending _ _ _
  · rfl

theorem controlEvent_pending (s : State) (e : RxEvent) : (s.controlEvent e).pending = s.pending := by
  unfold State.controlEvent
  split
  · exact placeError_pending _ _ _
  · exact placeError_pending _ _ _
  · exact takeFrame_pending _ _
  · rfl

theorem controlByte_pending (s : State) (b : Byte) : (s.controlByte b).pending = s.pending := by
  unfold State.controlByte
  dsimp only
  split
  · exact controlEvent_pending _ _
  · rfl

theorem foldl_controlByte_pending (bytes : List Byte) (s : State) :
    (bytes.foldl State.controlByte s).pending = s.pending := by
  induction bytes generalizing s with
  | nil => rfl
  | cons b bytes ih => exact (ih _).trans (controlByte_pending s b)

theorem controlBytes_pending (s : State) (bytes : List Byte) : (s.controlBytes bytes).pending = s.pending := by
  unfold State.controlBytes
  split
  · rfl
  · exact (foldl_controlByte_pending _ _).trans (controlGap_pending s)

theorem controlFrame_pending (s : State) (r : Request) : (s.controlFrame r).pending = s.pending := by
  unfold State.controlFrame
  split
  · rfl
  · dsimp only
    split
    · exact takeFrame_pending _ _
    · exact placeError_pending _ _ _

theorem serveUnknown_pending (s : State) : s.serveUnknown.pending = s.pending := by
  unfold State.serveUnknown
  split
  · split <;> rfl
  · rfl

theorem endOutbound_pending (s : State) : s.endOutbound.pending = s.pending := by
  unfold State.endOutbound
  split <;> rfl

/-! ## Resets and the self-test: the queue is the outside world's, and no reset empties it (log entry 30) -/

theorem startUp_pending (s : State) (senses : Vector Sense 12) : (s.startUp senses).pending = s.pending :=
  (startUp_kept s senses).pending

theorem takeReset_pending (s : State) (k : ResetKind) (senses : Vector Sense 12) :
    (s.takeReset k senses).pending = s.pending := by
  cases k with
  | full => rfl
  | quick => exact startUp_pending _ _

theorem nextBlock_pending (s : State) (senses : Vector Sense 12) : (s.nextBlock senses).pending = s.pending := by
  unfold State.nextBlock
  split
  · exact startUp_pending _ _
  · rfl

theorem attemptEnd_pending (s : State) (passed : Bool) (senses : Vector Sense 12) :
    (s.attemptEnd passed senses).pending = s.pending := by
  unfold State.attemptEnd
  split
  · rfl
  · dsimp only
    split
    · exact nextBlock_pending _ _
    · split
      · exact nextBlock_pending _ _
      · rfl

/-! ## The obligations -/

/-- Settles O1: the first case of the step's match. -/
theorem stepRunsFrontCommand : Obligations.StepRunsFrontCommand := by
  intro c rest s front
  unfold step
  split
  · rename_i e
    cases front.symm.trans e
    rfl
  · rename_i empty
    cases front.symm.trans empty

/-- Settles O3: command by command, what becomes of the queue before the end of the step, which leaves nothing to bring about. -/
theorem everyCommandAnswersNext : Obligations.EveryCommandAnswersNext := by
  intro i s
  show AnswersNext s (exec i s)
  cases i with
  | receivedFrame kind tag body => exact finish_answersNext (controlFrame_pending s _)
  | frameError bytes => exact finish_answersNext (controlBytes_pending s bytes)
  | frameGapExpiry => exact finish_answersNext (controlGap_pending s)
  | unknownRequest => exact finish_answersNext (serveUnknown_pending s)
  | outboundFrameEnd => exact finish_answersNext (endOutbound_pending s)
  | identify => exact serve_answersNext _ fun _ => rfl
  | status => exact serve_answersNext _ fun _ => rfl
  | reset => exact serve_answersNext _ answerReset_pending
  | resetTakesEffect senses =>
    show AnswersNext s (execResetTakesEffect senses s)
    unfold execResetTakesEffect
    split
    · exact finish_answersNext (takeReset_pending s _ senses)
    · exact finish_answersNext rfl
  | powerOn signals => exact finish_answersNext rfl
  | noticeMask => exact serve_answersNext _ fun _ => rfl
  | levelSet => exact serve_answersNext _ answerLevelSet_pending
  | portSet => exact serve_answersNext _ fun body => withPort_pending body fun _ => rfl
  | selfTestAttemptEnd passed senses => exact finish_answersNext (attemptEnd_pending s passed senses)
  | jobOpen => exact serve_answersNext _ answerJobOpen_pending
  | jobCancel => exact serve_answersNext _ answerJobCancel_pending
  | jobSuspend => exact serve_answersNext _ answerJobSuspend_pending
  | jobResume => exact serve_answersNext _ answerJobResume_pending
  | jobLevel => exact serve_answersNext _ answerJobLevel_pending
  | jobQuery => exact serve_answersNext _ fun body => withJob_pending body fun _ _ => rfl
  | jobForget => exact serve_answersNext _ answerJobForget_pending
  | bandPut => exact serve_answersNext _ answerBandPut_pending
  | bandPutWriteComplete =>
    show AnswersNext s (execBandPutWriteComplete s)
    unfold execBandPutWriteComplete
    split
    · exact finish_answersNext (writeEnds_pending s _)
    · exact finish_answersNext rfl
  | bandSum => exact serve_answersNext _ answerBandSum_pending
  | bandSumReadEnd parityError =>
    show AnswersNext s (execBandSumReadEnd parityError s)
    unfold execBandSumReadEnd
    split
    · exact finish_answersNext (concludeSum_pending s _ parityError)
    · exact finish_answersNext rfl
  | spoolReadEnd p index parityError => exact (portReadEnd_kept s p index parityError).answersNext
  | sliceExpiry p => exact (sliceExpired_kept s p).answersNext
  | sizeSet => exact serve_answersNext _ answerSizeSet_pending
  | tierSet => exact serve_answersNext _ answerTierSet_pending
  | lineSignalReturns p sense => exact (signalReturns_kept s p sense).answersNext
  | lineSignalLost p => exact (signalLost_kept s p).answersNext
  | probeEcho p sequence pattern => exact (message_kept s p _).answersNext
  | probeTimeout p => exact (probeExpired_kept s p).answersNext
  | portLooptest => exact serve_answersNext _ answerPortLooptest_pending
  | loopFrameExpiry p => exact (loopExpired_kept s p).answersNext
  | identity p contents => exact (message_kept s p _).answersNext
  | setupDone p => exact (message_kept s p _).answersNext
  | setupRefused p code => exact (message_kept s p _).answersNext
  | setupTimerExpiry p => exact (setupExpired_kept s p).answersNext
  | tray p item => exact (message_kept s p _).answersNext
  | portHold => exact serve_answersNext _ answerPortHold_pending
  | portRelease => exact serve_answersNext _ answerPortRelease_pending
  | portReset sense =>
    exact serve_answersNext _ fun body => withPort_pending body fun p => (resetPort_kept s p sense).pending
  | portQuery => exact serve_answersNext _ fun body => withPort_pending body fun _ => rfl
  | pressFrameCheckFail p bytes => exact (pressBytes_kept s p bytes).answersNext
  | pressFrameGapExpiry p =>
    show AnswersNext s (execPressFrameGapExpiry p s)
    unfold execPressFrameGapExpiry
    split
    · exact (pressGap_kept s p).answersNext
    · exact finish_answersNext rfl
  | pressMessageIgnored p bytes => exact (pressBytes_kept s p bytes).answersNext
  | gateWaitExpiry p => exact (gateExpired_kept s p).answersNext
  | want p tag back band => exact (message_kept s p _).answersNext
  | bandGraceExpiry p => exact (graceExpired_kept s p).answersNext
  | picked p tag => exact (message_kept s p _).answersNext
  | delivered p tag => exact (message_kept s p _).answersNext
  | stop p reason items => exact (message_kept s p _).answersNext
  | cleared p => exact (message_kept s p _).answersNext
  | accountSet => exact serve_answersNext _ answerAccountSet_pending
  | accountLimits => exact serve_answersNext _ answerAccountLimits_pending
  | accountCredit => exact serve_answersNext _ answerAccountCredit_pending
  | accountClose => exact serve_answersNext _ answerAccountClose_pending
  | accountQuery => exact serve_answersNext _ fun body => withAccount_pending body fun _ => rfl
  | meterPolicy => exact serve_answersNext _ answerMeterPolicy_pending
  | meterRead => exact serve_answersNext _ answerMeterRead_pending
  | escalationExpiry p => exact (escalate_kept s p).answersNext
  | alertAck => exact serve_answersNext _ answerAlertAck_pending
  | alertQuery => exact serve_answersNext _ fun _ => rfl
  | panelLineSent => exact (lineSent_kept s).answersNext
  | markerPairSeen bytes => exact finish_answersNext (controlBytes_pending s bytes)
  | pressMarkerSeen p bytes => exact (pressBytes_kept s p bytes).answersNext
  | pressFrameSent p => exact (frameSent_kept s p).answersNext

end Sys2Proof.Machine
end
